-- ==== Sys2Proof/Word.lean ====
section
/-! DEFINITION. The word types of the W7 and the sparse table that State is made of. -/

namespace Sys2Proof

/-- A 32-bit register word (R116). -/
abbrev W32 := BitVec 32
/-- A 64-bit pair, a logical thread identifier or a page-table entry. -/
abbrev W64 := BitVec 64
/-- An 80-bit virtual address or address base (R10, R33). -/
abbrev Va := BitVec 80
/-- A mask over the 32 lane slots of a group. -/
abbrev LaneMask := BitVec 32
/-- One byte. -/
abbrev Byte := BitVec 8

/-- A sparse table keyed by number: the newest entry of a key stands first. -/
abbrev Tbl (α : Type) := List (Nat × α)

/-- The entry of key `k`, if one is listed. -/
def Tbl.find {α : Type} : Tbl α → Nat → Option α
  | [], _ => none
  | (i, a) :: t, k => if i = k then some a else Tbl.find t k

/-- The table with the entries of key `k` removed. -/
def Tbl.drop {α : Type} : Tbl α → Nat → Tbl α
  | [], _ => []
  | (i, a) :: t, k => if i = k then Tbl.drop t k else (i, a) :: Tbl.drop t k

/-- The table in which key `k` holds `a`, in its old place where it is listed, last otherwise. -/
def Tbl.put {α : Type} : Tbl α → Nat → α → Tbl α
  | [], k, a => [(k, a)]
  | (i, b) :: t, k, a => if i = k then (i, a) :: t else (i, b) :: Tbl.put t k a

end Sys2Proof
end

