-- ==== Sys2Proof/Config.lean ====
section
/-! DEFINITION. What the manual leaves open (R4): values that no proof can see. Each is applied to plain
numbers, among them the counter of State that every use advances, so that two uses are unrelated. -/

namespace Sys2Proof.Config

/-- An undefined 32-bit value (R4): use `n`, position `pos`, lane `lane`. -/
opaque freeWord (n pos lane : Nat) : W32

/-- The undefined shape tag of an undefined vector register (R45, R47). -/
opaque freeTag (n pos : Nat) : BitVec 2

/-- An undefined byte of memory (R178, R179). -/
opaque freeByte (n pos : Nat) : Byte

/-- The value a register has at group creation where the manual gives none (R106, R107, R116): group,
register, lane. -/
opaque creationWord (gid reg lane : Nat) : W32

/-- Whether a translation uses an entry that the device cached before it was changed (R174). -/
opaque cachedEntry (n pos : Nat) : Bool

/-- An undefined 80-bit base (R70, R106). -/
opaque creationBase (gid n : Nat) : Va

/-- A rounded value of FEXP2, FLOG2, FSIN or FCOS that no precision of the evaluation decides: there is none
(R139): operation, format, rounding mode and argument. -/
opaque freeTrans (op fmt rm : Nat) (x : BitVec 64) : BitVec 64

/-- The generator that draws the distance to the next tagged instruction (R387): scheduler, draw. -/
opaque tagDraw (core sched n : Nat) : Nat

/-- The measured firmware digest of a measurement block (R380), the certificate and the signatures. -/
opaque tollhouseBytes (kind arg : Nat) : List Byte

/-- A fresh key that the Tollhouse generates (R381). -/
opaque freshKey (n : Nat) : BitVec 512

/-- Whether a byte of a row was written before its store stopped (R243). -/
opaque partWrite (n pos : Nat) : Bool

/-- The native image that a translator makes of a Vypen member (R83): one image for each translator, named by its measurement,
and member. -/
opaque translate (translator member : List Byte) : List Byte

/-- Whether a Vypen member carries a signature that is valid under the keys held for a virtual device (R83): the container is the
Vypen document's. -/
opaque vypenSigned (keys : List (Nat × List Byte)) (member : List Byte) : Bool

/-- A number that the manual leaves to the device. -/
opaque freeNat (n pos : Nat) : Nat

/-- Whether a route to a package is left over the links that are up, given as a mask (R329): the wiring of the packages is not in
the manual. -/
opaque routeExists (links pkg : Nat) : Bool

/-- Whether an ML-DSA-44 signature over a message verifies under a public key (R75). -/
opaque mldsaVerify (key msg sig : List Byte) : Bool

end Sys2Proof.Config
end

