-- ==== Sys2Proof/Syntax.lean ====
section
/-! DEFINITION. The instructions and the events of the W7: one constructor of `Instr` for each row of
the opcode table. A row that is an instruction carries its decoded fields (R32); a row that is an event
carries what the environment chooses about it (which object, which response). -/

namespace Sys2Proof

/-- The name and shape specials of operand class 01, indices 80 to 99 (R22). -/
inductive Special where
  | slane | llane | tidx | gnum | sser | blkid | launch | nlev
  | lcrd3 | lcrd4 | lcrd5 | lcrd6 | lcrd7
  | lext1 | lext2 | lext3 | lext4 | lext5 | lext6 | lext7
  deriving DecidableEq, Repr

/-- The constants of operand class 01, indices 100 to 109 (R34). -/
inductive Konst where
  | zero | one | ones | width | fone | fmone | fhalf | ftwo | finf | fmax
  deriving DecidableEq, Repr

/-- An operand of R33. -/
inductive Opnd where
  | v (n : BitVec 8)
  | s (n : BitVec 6)
  | base (n : BitVec 4)
  | spec (n : Special)
  | konst (n : Konst)
  | p (n : BitVec 4)
  | tile (n : BitVec 4)
  | j (n : BitVec 3)
  | ctr (n : BitVec 4)
  | tx (n : BitVec 6)
  | imm (n : BitVec 8)
  deriving DecidableEq, Repr

/-- The guard and the timing fields that every instruction word carries (R32, R40, R43 to R48).
`set` = 15 names no flag. -/
structure Hints where
  neg  : Bool
  gp   : BitVec 4
  dist : BitVec 4
  wait : BitVec 12
  set  : BitVec 4
  yld  : Bool
  deriving DecidableEq, Repr

/-- The integer types of class 1 (R130). -/
inductive IntTy where
  | n32 | s32 | n64 | s64
  deriving DecidableEq, Repr

/-- The floating-point types of class 2 (R39). -/
inductive FTy where
  | f32 | f64 | f16 | bf16
  deriving DecidableEq, Repr

/-- The two 16-bit types of the packed forms (R140). -/
inductive HTy where
  | f16 | bf16
  deriving DecidableEq, Repr

/-- Rounding modes (R39). -/
inductive Rm where
  | rne | rtz | rdn | rup | rna
  deriving DecidableEq, Repr

/-- Integer comparisons (R130). -/
inductive ICc where
  | eq | ne | lt | le | gt | ge
  deriving DecidableEq, Repr

/-- Floating-point comparisons (R136). -/
inductive FCc where
  | eq | ne | lt | le | gt | ge | uo | or
  deriving DecidableEq, Repr

/-- Storage formats (R151). -/
inductive Fmt where
  | fp32 | fp64 | fp16 | bf16 | e4m3 | e5m2 | int8 | uint8 | int32 | int64 | cb4
  deriving DecidableEq, Repr

/-- The ten formats that CVT accepts (R143). -/
inductive CvtFmt where
  | f32 | f64 | f16 | bf16 | e4m3 | e5m2 | s8 | n8 | s32 | s64
  deriving DecidableEq, Repr

/-- Modes of SHFL (R145). -/
inductive ShflMode where
  | idx | up | down | xor
  deriving DecidableEq, Repr

/-- Modes of VOTE that write a predicate; ballot is the fourth (R146). -/
inductive VoteMode where
  | all | any | uni | ballot
  deriving DecidableEq, Repr

/-- Operations of REDUX (R146). -/
inductive ReduxOp where
  | add | umin | umax | smin | smax | and | or | xor
  deriving DecidableEq, Repr

/-- Operations of PLOP (R149). -/
inductive PlopOp where
  | and | or | andor | orand | xor
  deriving DecidableEq, Repr

/-- Access widths of LD, ST and LDU (R182). -/
inductive Width where
  | b8 | b16 | b32 | b64 | b128 | b80 | s8 | s16
  deriving DecidableEq, Repr

/-- Cache policies (R182): hints only. -/
inductive Pol where
  | dflt | nc | strm
  deriving DecidableEq, Repr

/-- The two widths of LDRES and STCOND (R182). -/
inductive ResW where
  | b32 | b64
  deriving DecidableEq, Repr

/-- Prefetch kinds (R182). -/
inductive PrefKind where
  | l2 | l1 | w
  deriving DecidableEq, Repr

/-- Cache-hint kinds (R182). -/
inductive CctlKind where
  | evict | clean | keep
  deriving DecidableEq, Repr

/-- ATOM operations (R188). -/
inductive AtomOp where
  | add | min | max | and | or | xor | exch | cas | incw | decw
  deriving DecidableEq, Repr

/-- FATOM operations other than `.ord` (R189). -/
inductive FatomOp where
  | add | min | max
  deriving DecidableEq, Repr

/-- Fence kinds (R194). -/
inductive FenceKind where
  | ar | acq | rel
  deriving DecidableEq, Repr

/-- The special registers of R352 (MSREQ is write-only). -/
inductive SpReg where
  | fcause | finfo | faddr0 | faddr1 | faddr2 | fpc | forig
  | fword0 | fword1 | fword2 | hmask
  | gctx | bctx | msseq | msreq | msmode
  | hscr0 | hscr1 | hscr2 | hscr3
  | cyclo | cychi
  | cnt (k : Fin 9)
  deriving DecidableEq, Repr

/-- The field selector of TSET and TGET (R164). -/
inductive TFld where
  | bits | n0 | n1 | n2 | n3 | st1 | st2 | st3 | tst
  | base | tbase | sbase | cbase
  deriving DecidableEq, Repr

/-- The modifier and x fields of COPY and COPYW (R235). -/
structure CopyMd where
  st : Bool
  acq : Bool
  rel : Bool
  bar : Bool
  ctr : Bool
  z : Bool
  tag : BitVec 6
  ctrIx : BitVec 4
  scope : BitVec 4
  barIx : BitVec 4
  deriving DecidableEq, Repr

/-- The modifier and x fields of MLDT and MSTT (R265). -/
structure XferMd where
  slab : Bool
  acq : Bool
  rel : Bool
  bar : Bool
  ctr : Bool
  z : Bool
  ctrIx : BitVec 4
  scope : BitVec 4
  barIx : BitVec 4
  deriving DecidableEq, Repr

/-- Collective kinds (R334). -/
inductive CollKind where
  | ar | rs | ag | bc | bar
  deriving DecidableEq, Repr

/-- What the memory system answers to one access (R178). -/
inductive MemErr where
  | ok | uncorr | noResp
  deriving DecidableEq, Repr

/-- What the memory system answers to an engine command's accesses: all well, a page request that
failed, an uncorrectable error, or a target that did not respond. -/
inductive EngErr where
  | ok | pageFail | uncorr | noResp
  deriving DecidableEq, Repr

/-- An access of the host or of another package to this package's memory (R358, R331). -/
inductive OuterAcc where
  | read (pa : Nat) (n : Nat)
  | write (pa : Nat) (bytes : List Byte)
  | atomAdd (pa : Nat) (n : Nat) (c : Nat)
  deriving DecidableEq, Repr

/-- Another package's access, under the key slot that its aperture entry names (R331). -/
structure PeerAcc where
  key : Nat
  acc : OuterAcc
  deriving DecidableEq, Repr

/-- The registers that have no row of their own in the opcode table (R2). -/
inductive RegName where
  | qbase (vd q : Nat) (k : Fin 3)
  | tbase (vd : Nat) (k : Fin 3)
  | tcfg (vd : Nat)
  | sbase (vd : Nat) (k : Fin 3)
  | scfg (vd : Nat)
  | dcfg (vd : Nat)
  | dbase (vd : Nat) (k : Fin 3)
  | bpa (vd u : Nat) (k : Fin 3)
  | bpf (vd u : Nat)
  | bpl (vd u : Nat)
  | bpb (vd u : Nat)
  | bpt (vd u : Nat)
  | cmpls (vd : Nat)
  | pcfg (p : Nat)
  | govstat (die : Nat)
  | evselCore (core k : Nat)
  | evselDie (die k : Nat)
  | vdConfig (vd : Nat) (off : Nat)
  | aperture (vd ix : Nat)
  | commSlot (p ix : Nat)
  | readOnly (name : Nat)
  deriving DecidableEq, Repr

/-- What a read may name (R2, R364): a word of a virtual device's function by its offset, a word of a configuration block, a word
of the management window by its offset (R377), the registers and tables of the window that have no offset, the launches that count
in a code range (R86), the lost index ranges of a launch (R375). -/
inductive ReadName where
  | vf (vd off : Nat)
  | vdConfig (vd off : Nat)
  | window (off : Nat)
  | hvcfg (core : Nat)
  | hvstat (core : Nat)
  | govcfg (die : Nat)
  | govstat (die : Nat)
  | evselCore (core k : Nat)
  | evcntCore (core k : Nat)
  | evselDie (die k : Nat)
  | evcntDie (die k : Nat)
  | linkShare (link part : Nat)
  | aperture (vd ix : Nat)
  | commSlot (p ix : Nat)
  | useCount (vd range : Nat)
  | handOut (vd launch : Nat)
  | mailbox
  deriving DecidableEq, Repr

/-- What one RegName write carries: a 32-bit value, or the bytes of a table entry. -/
abbrev RegVal := List Byte

/-- A request to the host loader (R71, R81): the file, the requested base, a free range, the key slot, the numbers of the
physical pages that system software gives to the image and to new tables (16 KiB each, zeroed); the measurement of the translator
that translates a Vypen member (R83). -/
structure LoadReq where
  vd : Nat
  file : List Byte
  reqBase : Option Va
  freeBase : Option Va
  keySlot : Nat
  frames : List Nat
  tables : List Nat
  translator : List Byte
  deriving DecidableEq, Repr

/-- SPDM requests (R380). -/
inductive SpdmReq where
  | getVersion | getCapabilities | negotiateAlgorithms | getDigests | getCertificate
  | challenge | getMeasurements | keyExchange | finish | endSession
  deriving DecidableEq, Repr

/-- What a key installation carries (R381). -/
inductive KeyKind where
  | xts
  | signing (keyid : Nat)
  | translator (measurement : List Byte)
  deriving DecidableEq, Repr

/-- One constructor for each row of the opcode table. -/
inductive Instr where
  -- class 0 (R96, R347, R386, R392)
  | nop (h : Hints) (x : BitVec 20)
  | bra (h : Hints) (disp : BitVec 20)
  | brx (h : Hints) (bN : BitVec 4)
  | brxIx (h : Hints) (off : Opnd) (bN : BitVec 4)
  | call (h : Hints) (bD : BitVec 4) (disp : BitVec 20)
  | callx (h : Hints) (bD bN : BitVec 4)
  | callxIx (h : Hints) (bD : BitVec 4) (off : Opnd) (bN : BitVec 4)
  | ret (h : Hints) (bN : BitVec 4)
  | exit (h : Hints)
  | join (h : Hints) (jk : BitVec 3)
  | waitj (h : Hints) (jk : BitVec 3)
  | reform (h : Hints) (idx : Opnd)
  | binDraw (core : Nat) (bin : Nat)
  | spawn (h : Hints) (d : BitVec 6) (entry count : Opnd) (nargs : BitVec 8)
  | yield (h : Hints) (n : BitVec 20)
  | yieldWake (grp path : Nat)
  | fairnessTimerExpiry (grp : Nat)
  | bar (h : Hints) (n : BitVec 4)
  | bararv (h : Hints) (n : BitVec 4)
  | barinit (h : Hints) (n : BitVec 4) (cnt : BitVec 12)
  | barinitA (h : Hints) (cnt : Opnd) (n : BitVec 4)
  | hvq (h : Hints) (d : BitVec 6) (sel : BitVec 4)
  | trap (h : Hints) (n : BitVec 5)
  | rthSkip (h : Hints)
  | rthRetry (h : Hints)
  | rthTo (h : Hints) (bA : BitVec 4)
  | sys (h : Hints) (d : BitVec 6) (arg : Opnd) (svc : BitVec 12)
  | sysReply (k : Nat) (reply : W32)
  | rdsp (h : Hints) (d : Opnd) (sr : SpReg)
  | wrsp (h : Hints) (a : Opnd) (sr : SpReg)
  | bkpt (h : Hints) (id : BitVec 20)
  | mark (h : Hints) (id : BitVec 20)
  -- class 1 (R130)
  | iadd (h : Hints) (ty : IntTy) (sat : Bool) (d a b : Opnd) (imm : BitVec 12)
  | isub (h : Hints) (ty : IntTy) (sat : Bool) (d a b : Opnd) (imm : BitVec 12)
  | iaddc (h : Hints) (cy : Bool) (d a b x : Opnd)
  | imul (h : Hints) (ty : IntTy) (d a b : Opnd) (imm : BitVec 12)
  | imulhi (h : Hints) (ty : IntTy) (d a b : Opnd) (imm : BitVec 12)
  | imad (h : Hints) (ty : IntTy) (d a b x : Opnd)
  | imadw (h : Hints) (sgn : Bool) (d a b x : Opnd)
  | imin (h : Hints) (ty : IntTy) (d a b : Opnd) (imm : BitVec 12)
  | imax (h : Hints) (ty : IntTy) (d a b : Opnd) (imm : BitVec 12)
  | iabs (h : Hints) (w64 : Bool) (sat : Bool) (d a : Opnd)
  | ineg (h : Hints) (w64 : Bool) (sat : Bool) (d a : Opnd)
  | and (h : Hints) (w64 : Bool) (d a b : Opnd) (imm : BitVec 12)
  | or (h : Hints) (w64 : Bool) (d a b : Opnd) (imm : BitVec 12)
  | xor (h : Hints) (w64 : Bool) (d a b : Opnd) (imm : BitVec 12)
  | andn (h : Hints) (w64 : Bool) (d a b : Opnd) (imm : BitVec 12)
  | not (h : Hints) (w64 : Bool) (d a : Opnd)
  | shl (h : Hints) (w64 : Bool) (d a b : Opnd) (imm : BitVec 12)
  | shr (h : Hints) (w64 : Bool) (d a b : Opnd) (imm : BitVec 12)
  | sar (h : Hints) (w64 : Bool) (d a b : Opnd) (imm : BitVec 12)
  | rot (h : Hints) (w64 : Bool) (d a b : Opnd) (imm : BitVec 12)
  | popc (h : Hints) (w64 : Bool) (d a : Opnd)
  | clz (h : Hints) (w64 : Bool) (d a : Opnd)
  | ctz (h : Hints) (w64 : Bool) (d a : Opnd)
  | brev (h : Hints) (w64 : Bool) (d a : Opnd)
  | bfx (h : Hints) (ty : IntTy) (d a b : Opnd) (imm : BitVec 12)
  | bfi (h : Hints) (w64 : Bool) (d a b x : Opnd)
  | icmp (h : Hints) (ty : IntTy) (cc : ICc) (d : BitVec 4) (a b : Opnd) (imm : BitVec 12)
  | isel (h : Hints) (w64 : Bool) (d a b : Opnd) (p : BitVec 4)
  -- class 2 (R136)
  | fadd (h : Hints) (ty : FTy) (rm : Rm) (d a b : Opnd)
  | fsub (h : Hints) (ty : FTy) (rm : Rm) (d a b : Opnd)
  | fmul (h : Hints) (ty : FTy) (rm : Rm) (d a b : Opnd)
  | ffma (h : Hints) (ty : FTy) (rm : Rm) (d a b x : Opnd)
  | fdiv (h : Hints) (ty : FTy) (rm : Rm) (d a b : Opnd)
  | fmin (h : Hints) (ty : FTy) (d a b : Opnd)
  | fmax (h : Hints) (ty : FTy) (d a b : Opnd)
  | fcmp (h : Hints) (ty : FTy) (cc : FCc) (d : BitVec 4) (a b : Opnd)
  | fsel (h : Hints) (ty : FTy) (d a b : Opnd) (p : BitVec 4)
  | fclass (h : Hints) (ty : FTy) (d a : Opnd)
  | fscale (h : Hints) (ty : FTy) (rm : Rm) (d a b : Opnd)
  | fsqrt (h : Hints) (ty : FTy) (rm : Rm) (d a : Opnd)
  | frcp (h : Hints) (ty : FTy) (rm : Rm) (d a : Opnd)
  | frsq (h : Hints) (ty : FTy) (rm : Rm) (d a : Opnd)
  | fexp2 (h : Hints) (ty : FTy) (rm : Rm) (d a : Opnd)
  | flog2 (h : Hints) (ty : FTy) (rm : Rm) (d a : Opnd)
  | fsin (h : Hints) (ty : FTy) (rm : Rm) (d a : Opnd)
  | fcos (h : Hints) (ty : FTy) (rm : Rm) (d a : Opnd)
  | fdot2 (h : Hints) (ty : HTy) (rm : Rm) (d a b x : Opnd)
  | hfma2 (h : Hints) (ty : HTy) (rm : Rm) (d a b x : Opnd)
  -- class 3 (R141)
  | mov (h : Hints) (w64 : Bool) (d a : Opnd)
  | movi (h : Hints) (d : Opnd) (imm : BitVec 20)
  | movhi (h : Hints) (d : Opnd) (imm : BitVec 20)
  | cvt (h : Hints) (rm : Rm) (sat : Bool) (dst frm : CvtFmt) (d a : Opnd)
  | cbdec (h : Hints) (x2 : Bool) (d a : Opnd) (tx : BitVec 6) (nib : BitVec 3)
  | shfl (h : Hints) (m : ShflMode) (d : BitVec 8) (a b : Opnd) (imm : BitVec 12)
  | vote (h : Hints) (m : VoteMode) (d : Opnd) (a : BitVec 4)
  | redux (h : Hints) (op : ReduxOp) (d : Opnd) (a : BitVec 8)
  | prmt (h : Hints) (nib : Bool) (d a b x : Opnd)
  | shape (h : Hints) (d a : BitVec 8)
  | shapeQ (h : Hints) (d : BitVec 6) (a : BitVec 8)
  | expand (h : Hints) (d a : BitVec 8)
  | smov (h : Hints) (d : BitVec 6) (a : BitVec 8)
  | smovChk (h : Hints) (d : BitVec 6) (a : BitVec 8)
  | smovLane (h : Hints) (d : BitVec 6) (a : BitVec 8) (ln : BitVec 5)
  | pset (h : Hints) (nz : Bool) (d : BitVec 4) (a : Opnd)
  | plop (h : Hints) (op : PlopOp) (na nb nc : Bool) (d a b x : BitVec 4)
  -- class 4 (R182)
  | ld (h : Hints) (w : Width) (o64 : Bool) (pol : Pol) (d : BitVec 8) (a : BitVec 4) (b : Opnd)
      (imm : BitVec 12) (sc : BitVec 4) (acq : Bool)
  | st (h : Hints) (w : Width) (o64 : Bool) (pol : Pol) (d : Opnd) (a : BitVec 4) (b : Opnd)
      (imm : BitVec 12) (sc : BitVec 4) (rel : Bool)
  | ldu (h : Hints) (w : Width) (o64 : Bool) (d : Opnd) (a : BitVec 4) (b : Opnd)
      (imm : BitVec 12) (sc : BitVec 4) (acq : Bool)
  | pref (h : Hints) (k : PrefKind) (o64 : Bool) (a : BitVec 4) (b : Opnd) (imm : BitVec 12)
  | ldres (h : Hints) (w : ResW) (o64 : Bool) (d : BitVec 8) (a : BitVec 4) (b : Opnd)
      (imm : BitVec 12) (sc : BitVec 4) (acq : Bool)
  | stcond (h : Hints) (w : ResW) (rel o64 : Bool) (d : BitVec 8) (a : BitVec 4) (b : Opnd)
      (imm : BitVec 12) (sc : BitVec 4) (st : BitVec 4)
  | atom (h : Hints) (op : AtomOp) (ty : IntTy) (d : BitVec 8) (a : BitVec 4) (b x : Opnd)
  | fatom (h : Hints) (op : FatomOp) (ty : FTy) (d : BitVec 8) (a : BitVec 4) (b x : Opnd)
  | fatomOrd (h : Hints) (d : BitVec 8) (a : BitVec 4) (seq x : Opnd)
  | acell (h : Hints) (a : BitVec 4) (count : Opnd) (imm : BitVec 12) (scope : BitVec 4)
  | acellClose (h : Hints) (a : BitVec 4) (imm : BitVec 12) (scope : BitVec 4)
  | acread (h : Hints) (d : BitVec 6) (a : BitVec 4) (imm : BitVec 12)
  | pst (h : Hints) (d : Opnd) (tx : BitVec 6) (i0 i1 : Opnd)
  | fence (h : Hints) (k : FenceKind) (scope : BitVec 4)
  | bset (h : Hints) (d a : BitVec 4) (u : Opnd) (imm : BitVec 20)
  | bsetAdd64 (h : Hints) (d a : BitVec 4) (p : BitVec 6) (imm : BitVec 20)
  | bsetIns (h : Hints) (d a : BitVec 4) (u : Opnd) (k : BitVec 2)
  | bsetRd (h : Hints) (d : BitVec 6) (a : BitVec 4) (k : BitVec 2)
  | cctl (h : Hints) (k : CctlKind) (a : BitVec 4) (b : Opnd) (imm : BitVec 12)
  | tlbinvPage (h : Hints) (a : BitVec 4) (u : Opnd) (imm : BitVec 12)
  | tlbinvAll (h : Hints)
  | pageResponse (vd page : Nat) (ok : Bool)
  | memoryAccessComplete (k part : Nat) (err : MemErr)
  | invalidationRequest (vd : Nat) (va : Option Va)
  | instructionFetch (grp : Nat)
  | chunkVerify (core vd chunk : Nat)
  -- class 5 (R235)
  | lookup (h : Hints) (d : Opnd) (a : BitVec 4) (b : Opnd) (imm : BitVec 12)
  | tagset (h : Hints) (slot : Opnd) (a : BitVec 4) (u : Opnd) (imm : BitVec 12)
  | tagclr (h : Hints) (slot : Opnd)
  | tagclrLend (h : Hints) (slot : Opnd)
  | tagclrAll (h : Hints)
  | tagrd (h : Hints) (d : BitVec 6) (slot : Opnd)
  | tagrdAddr (h : Hints) (d : BitVec 4) (slot : Opnd)
  | copy (h : Hints) (m : CopyMd) (slot : Opnd) (tx : BitVec 6) (quad : BitVec 6)
  | copyw (h : Hints) (m : CopyMd) (slot : Opnd) (tx : BitVec 6) (quad : BitVec 6)
  | copym (h : Hints) (acq rel z : Bool) (slot : Opnd) (tx : BitVec 6) (quad xquad : BitVec 6)
  | copyExecute (core ix : Nat) (rows : Nat) (err : EngErr)
  | waitany (h : Hints) (lo : Bool) (mask : Opnd)
  | waitall (h : Hints) (lo : Bool) (mask : Opnd)
  | ffready (h : Hints) (lo : Bool) (d : BitVec 6) (mask : Opnd)
  | cwaitlt (h : Hints) (c : BitVec 4) (thr : BitVec 12)
  | ctrrd (h : Hints) (d : BitVec 6) (c : BitVec 4) (sel : BitVec 4)
  -- class 6 (R163, R265, R302, R334)
  | tdef (h : Hints) (tx : BitVec 6) (a : BitVec 4) (b : Opnd) (imm : BitVec 12)
  | tdefInv (h : Hints) (tx : BitVec 6)
  | tset (h : Hints) (tx : BitVec 6) (a : Opnd) (fld : TFld)
  | tget (h : Hints) (d : Opnd) (tx : BitVec 6) (fld : TFld)
  | tloadcb (h : Hints) (tx : BitVec 6) (c : BitVec 4) (scope : BitVec 4) (acq : Bool)
  | tloadcbComplete (core ix : Nat) (err : EngErr)
  | batload (h : Hints) (acq ctr : Bool) (ctrIx : BitVec 4) (slot : Opnd) (a : BitVec 4) (b : Opnd)
      (imm : BitVec 12) (scope : BitVec 4)
  | batloadExecute (core : Nat) (err : EngErr)
  | batstat (h : Hints) (d : BitVec 6) (slot : Opnd) (sel : BitVec 4)
  | mmt (h : Hints) (ck z sa sb : Bool) (c a b : Opnd) (ctl : BitVec 6)
  | mmx (h : Hints) (ck z ta tb : Bool) (c : Opnd) (txA txB : BitVec 6) (quad : BitVec 6)
  | matrixStep (core blk : Nat) (err : EngErr)
  | mresume (h : Hints) (ctr : Bool) (ctrIx : BitVec 4) (a : BitVec 4) (b : Opnd) (imm : BitVec 12)
  | mresumeReg (h : Hints) (ctr : Bool) (ctrIx : BitVec 4)
  | msave (h : Hints) (rel ctr : Bool) (ctrIx : BitVec 4) (a : BitVec 4) (b : Opnd) (imm : BitVec 12)
  | mldt (h : Hints) (m : XferMd) (d : Opnd) (tx : BitVec 6) (quad : BitVec 6)
  | mstt (h : Hints) (m : XferMd) (d : Opnd) (tx : BitVec 6) (quad : BitVec 6)
  | mzero (h : Hints) (ctr : Bool) (ctrIx : BitVec 4) (tile : Bool) (first count : Opnd)
  | mrd (h : Hints) (d : BitVec 8) (slab q : Opnd)
  | mwr (h : Hints) (d slab q : Opnd)
  | mchk (h : Hints) (pos : BitVec 3) (i32 res : Bool) (d : Opnd) (c k x : Opnd)
  | mdrain (h : Hints) (adamw acq rel ctr keep : Bool) (txW txM : BitVec 6) (quad : BitVec 6) (bP : BitVec 4)
  | tbegin (h : Hints)
  | tbeginSeg (h : Hints) (a : BitVec 4) (b : Opnd) (imm : BitVec 12)
  | trec (h : Hints) (a : Opnd)
  | tend (h : Hints)
  | tendDrop (h : Hints)
  | trev (h : Hints)
  | tpop (h : Hints) (d : Opnd)
  | tpopSt (h : Hints) (d : BitVec 6)
  | tbr (h : Hints) (disp : BitVec 20)
  | tmark (h : Hints) (id : BitVec 20)
  | tapeLineWrite (core ix : Nat) (err : EngErr)
  | coll (h : Hints) (k : CollKind) (norm acq rel : Bool) (d a : BitVec 6) (quad : BitVec 6) (bP : BitVec 4)
  | collComplete (die ix : Nat) (others : List (List W32)) (agree : Bool) (done : List Bool)
      (errAt : Nat) (err : EngErr)
  | rankDrop (part comm rank : Nat)
  -- fabric (R329 to R331)
  | peerAccess (k part : Nat) (answered : Bool)
  | flitReceive (link : Nat) (crcOk : Bool)
  | heartbeatTimer (link : Nat)
  | linkLoss (link : Nat)
  | linkShareWrite (link part : Nat) (w : W32)
  -- traps and milestones
  | handlerEntry (grp : Nat)
  | milestone (vd : Nat)
  -- `saved`, `restored`: the memory system answers the accesses that write or read an image (R324, R359, R360)
  | sliceEnd (vd : Nat) (saved : Bool)
  | sliceStart (vd : Nat) (restored : Bool)
  | rollbackRequest (vd : Nat) (saved : Bool)
  | hostAccess (vd : Nat) (a : OuterAcc)
  -- harvest
  | harvestAdmit (vd launch : Nat) (cores : List Nat)
  | revocation (core : Nat) (blk : Nat)
  | contextResume (blk core : Nat) (restored : Bool)
  | contextMoveCore (blk core : Nat)
  | contextMoveMemory (blk : Nat) (saved : Bool)
  | marginReclaim (cluster : Nat) (saved : Bool)
  | hvcfgWrite (core : Nat) (w : W32)
  -- launch queues and virtual devices
  | doorbell (vd q : Nat) (t : W32)
  | launchAccept (vd q : Nat) (readOk preOk : Bool)
  | dependencePoll (vd launch : Nat) (readOk : Bool)
  | evpoke (vd : Nat)
  | blockDispatch (vd launch : Nat) (cores : List Nat)
  | batchRequest (vd launch die n : Nat)
  | dieLoss (die : Nat)
  | launchComplete (vd launch : Nat) (recOk sigOk : Bool)
  | qcfgWrite (vd q : Nat) (w : W32)
  | vdStart (vd : Nat)
  | vdReset (vd : Nat)
  | abort (vd launch : Nat)
  -- partitions
  | lendtoLend (cluster : Nat) (w : W32)
  | lendtoReclaim (cluster : Nat)
  | partitionMaskWrite (p : Nat) (margin : Bool) (w : W32)
  | pshareWrite (p : Nat) (w : W32)
  -- Tollhouse
  | spdmRequest (fn : Nat) (r : SpdmReq)
  | keyInstall (vd : Nat) (k : KeyKind)
  | keyRelease (slot : Nat)
  -- power and reset
  | permitGrant (die : Nat)
  | govcfgWrite (die : Nat) (w : W32)
  | thermalAdjust (die : Nat) (tmp : Nat)
  | thermalTrip (die : Nat)
  | powerLoss
  | bringUp (failAt : Option Nat)
  -- observability
  | stallSample (core sched : Nat)
  | taggedRecord (core sched : Nat) (fet rdy opc exe wbk : Nat) (lvl : Nat) (cut : Bool)
  | ringReadPointerWrite (vd : Nat) (sample : Bool) (w : W32)
  | dctlContinue (vd serial : Nat)
  | dctlStep (vd serial : Nat)
  | dctlStopReq (vd : Nat)
  -- loader
  | loaderLoad (r : LoadReq)
  | loaderUnload (vd obj : Nat)
  | codeSwap (vd old new : Nat)
  | imageRetire (vd obj : Nat)
  -- registers and results
  | registerWrite (r : RegName) (val : RegVal)
  | resultWriteback (k : Nat)
  | incomingPeerAccess (a : PeerAcc)
  deriving DecidableEq, Repr

/-- Whose turn it is: a scheduler of a core issues (R91), an event comes about, a core cycle passes, the host or system software
reads (R2), system software resumes a halted group (R345), a line of memory decays so that its next access meets an uncorrectable
error (R178). -/
inductive Turn where
  | issue (core sched : Nat)
  | event (i : Instr)
  | tick
  | read (r : ReadName)
  | resumeGroup (grp : Nat)
  | decay (line : Nat)
  deriving DecidableEq, Repr

end Sys2Proof
end

