-- ==== Sys2Proof/Machine/Accept.lean ====
section
/-! DEFINITION. Which operand each position of each form accepts (R33, R37, R118, R182, R235, R265): the
classes that decode check 8 of R54 tests. -/

namespace Sys2Proof

/-- The index of a name or shape special within class 01, less 80 (R22). -/
def Special.code : Special → BitVec 8
  | .slane => 80 | .llane => 81 | .tidx => 82 | .gnum => 83 | .sser => 84 | .blkid => 85
  | .launch => 86 | .nlev => 87 | .lcrd3 => 88 | .lcrd4 => 89 | .lcrd5 => 90 | .lcrd6 => 91
  | .lcrd7 => 92 | .lext1 => 93 | .lext2 => 94 | .lext3 => 95 | .lext4 => 96 | .lext5 => 97
  | .lext6 => 98 | .lext7 => 99

/-- The index of a constant within class 01 (R34). -/
def Konst.code : Konst → BitVec 8
  | .zero => 100 | .one => 101 | .ones => 102 | .width => 103 | .fone => 104 | .fmone => 105
  | .fhalf => 106 | .ftwo => 107 | .finf => 108 | .fmax => 109

/-- Specials 85 to 99 are UNIFORM whatever the group (R22, R118). -/
def Special.isUniform (n : Special) : Bool := 85 ≤ n.code.toNat

/-- The register index is a multiple of `k` (R36, R37); operands that are not v or s registers pass. -/
def Opnd.aligned (k : Nat) : Opnd → Bool
  | .v n => n.toNat % k = 0
  | .s n => n.toNat % k = 0
  | _ => true

/-- Alignment of an operand that is a pair when `w64` holds (R36). -/
def Opnd.pairOk (w64 : Bool) (o : Opnd) : Bool := !w64 || o.aligned 2

def Opnd.isV : Opnd → Bool
  | .v _ => true
  | _ => false

def Opnd.isS : Opnd → Bool
  | .s _ => true
  | _ => false

def Opnd.isBase : Opnd → Bool
  | .base _ => true
  | _ => false

def Opnd.isTx : Opnd → Bool
  | .tx _ => true
  | _ => false

def Opnd.isJ : Opnd → Bool
  | .j _ => true
  | _ => false

def Opnd.isCtr : Opnd → Bool
  | .ctr _ => true
  | _ => false

/-- Any predicate p0 to p15, as a source. -/
def Opnd.isP : Opnd → Bool
  | .p _ => true
  | _ => false

/-- p0 to p14, as a destination (R37). -/
def Opnd.isPDst : Opnd → Bool
  | .p n => n.toNat < 15
  | _ => false

/-- A predicate source under a uniform destination must be p15 (R118). -/
def Opnd.isPSrc (u : Bool) : Opnd → Bool
  | .p n => !u || n.toNat = 15
  | _ => false

/-- A source of classes 1 to 3; `u`: the destination is a uniform register; `w64`: a 64-bit operand (R118). -/
def Opnd.isSrc (u w64 : Bool) : Opnd → Bool
  | .v n => !u && (Opnd.v n).pairOk w64
  | .s n => (Opnd.s n).pairOk w64
  | .spec n => !u || n.isUniform
  | .konst _ => true
  | .imm _ => true
  | _ => false

/-- A destination of classes 1 to 3 (R118). -/
def Opnd.isDst (w64 : Bool) : Opnd → Bool
  | .v n => (Opnd.v n).pairOk w64
  | .s n => (Opnd.s n).pairOk w64
  | _ => false

/-- v, s or an inline immediate (R96). -/
def Opnd.isVSImm : Opnd → Bool
  | .v _ => true
  | .s _ => true
  | .imm _ => true
  | _ => false

/-- s or an inline immediate (R96). -/
def Opnd.isSImm : Opnd → Bool
  | .s _ => true
  | .imm _ => true
  | _ => false

/-- A uniform register, a constant or an inline immediate (R163, R347). -/
def Opnd.isSKImm : Opnd → Bool
  | .s _ => true
  | .konst _ => true
  | .imm _ => true
  | _ => false

/-- v, s, a constant or an inline immediate: a slot operand (R235), store data (R182). -/
def Opnd.isVSKImm : Opnd → Bool
  | .v _ => true
  | .s _ => true
  | .konst _ => true
  | .imm _ => true
  | _ => false

/-- Us of R182: s, constant, immediate or a special numbered 85 to 99. -/
def Opnd.isUs : Opnd → Bool
  | .s _ => true
  | .konst _ => true
  | .imm _ => true
  | .spec n => n.isUniform
  | _ => false

/-- Off of R182: v, s, special, constant or immediate. -/
def Opnd.isOff : Opnd → Bool
  | .v _ => true
  | .s _ => true
  | .spec _ => true
  | .konst _ => true
  | .imm _ => true
  | _ => false

/-- A quad: sN with N a multiple of 4 (R37, R235). -/
def Opnd.isQuad : Opnd → Bool
  | .s n => n.toNat % 4 = 0
  | _ => false

/-- A tile name, or a tile number; with `slot` (.sa, .sb) a tile name is refused (R265). -/
def Opnd.isTl (slot : Bool) : Opnd → Bool
  | .tile _ => !slot
  | .s _ => true
  | .konst _ => true
  | .imm _ => true
  | _ => false

/-- Bytes of one access (R182). -/
def Width.bytes : Width → Nat
  | .b8 => 1 | .b16 => 2 | .b32 => 4 | .b64 => 8 | .b128 => 16 | .b80 => 16 | .s8 => 1 | .s16 => 2

/-- How many registers a width takes, which its first register's index must be a multiple of (R37). -/
def Width.regs : Width → Nat
  | .b64 => 2
  | .b128 => 4
  | _ => 1

/-- 64-bit integer types. -/
def IntTy.is64 : IntTy → Bool
  | .n64 => true
  | .s64 => true
  | _ => false

/-- Signed integer types. -/
def IntTy.isSigned : IntTy → Bool
  | .s32 => true
  | .s64 => true
  | _ => false

def FTy.is64 : FTy → Bool
  | .f64 => true
  | _ => false

def CvtFmt.is64 : CvtFmt → Bool
  | .f64 => true
  | .s64 => true
  | _ => false

/-- MOV to a rejoin mask takes s, constant, immediate or j, to a vector register j or a source of R118, and to a uniform register
the sources that R118 lists for it, of which j is none (R118, R141). -/
def Opnd.isMovSrc (d : Opnd) (w64 : Bool) (o : Opnd) : Bool :=
  if w64 then (if d.isS then o.isS else o.isV || o.isS) && o.aligned 2
  else if d.isJ then o.isSKImm || o.isJ
  else (o.isJ && !d.isS) || o.isSrc d.isS false

/-- Destination of MOV (R141). -/
def Opnd.isMovDst (w64 : Bool) (o : Opnd) : Bool :=
  if w64 then (o.isV || o.isS) && o.aligned 2 else o.isV || o.isS || o.isJ

/-- The class of the destination that R352 gives to a special register. -/
def SpReg.dstOk (r : SpReg) (o : Opnd) : Bool :=
  match r with
  | .fcause | .finfo | .faddr0 | .faddr1 | .faddr2 => o.isV
  | .fpc | .forig => o.isBase
  | .fword0 | .fword1 | .fword2 | .hmask | .gctx | .bctx | .msseq | .msreq | .msmode
  | .hscr0 | .hscr1 | .hscr2 | .hscr3 | .cyclo | .cychi | .cnt _ => o.isS

/-- The registers that WRSP may name (R352). -/
def SpReg.writable : SpReg → Bool
  | .msreq | .hscr0 | .hscr1 | .hscr2 | .hscr3 => true
  | .fcause | .finfo | .faddr0 | .faddr1 | .faddr2 | .fpc | .forig
  | .fword0 | .fword1 | .fword2 | .hmask | .gctx | .bctx | .msseq | .msmode
  | .cyclo | .cychi | .cnt _ => false

/-- The registers that RDSP may name: every one but MSREQ (R347). -/
def SpReg.readable : SpReg → Bool
  | .msreq => false
  | .fcause | .finfo | .faddr0 | .faddr1 | .faddr2 | .fpc | .forig
  | .fword0 | .fword1 | .fword2 | .hmask | .gctx | .bctx | .msseq | .msmode
  | .hscr0 | .hscr1 | .hscr2 | .hscr3 | .cyclo | .cychi | .cnt _ => true

/-- Fields 9 to 12 of R164 are addresses and go through a base. -/
def TFld.isAddr : TFld → Bool
  | .base | .tbase | .sbase | .cbase => true
  | .bits | .n0 | .n1 | .n2 | .n3 | .st1 | .st2 | .st3 | .tst => false

/-- Source of ATOM's fourth operand (R182): v, s or imm; a pair or quad for `.cas` and 64-bit types. -/
def AtomOp.xOk (op : AtomOp) (w64 : Bool) (o : Opnd) : Bool :=
  match op with
  | .cas => (o.isV || o.isS) && o.aligned (if w64 then 4 else 2)
  | .add | .min | .max | .and | .or | .xor | .exch | .incw | .decw => o.isVSImm && o.pairOk w64

end Sys2Proof
end

