-- ==== Sys2Proof/WellFormed.lean ====
section
/-! DEFINITION. Which instructions a word can stand for: the checks of R54 that the fields of an instruction
can still fail once its operands are decoded. Events are well formed: their objects are looked up in the
state, where an unlisted object is one the event has nothing to do with. -/

namespace Sys2Proof

/-- The `set` field of a well-formed word: a flag, or 15 where the category allows it (R44, check 4 of R54). -/
def Hints.ok (h : Hints) (v : Bool) : Bool :=
  decide (h.set.toNat ≤ 11) || (decide (h.set.toNat = 15) && !v)

/-- A scope field: 0 to 10, and 0 where the order bit is 0 (R182). -/
def scopeOk (on : Bool) (sc : BitVec 4) : Bool := if on then decide (sc.toNat ≤ 10) else decide (sc = 0)

/-- A field that must be zero unless it is enabled (R235, R265). -/
def enabledOk {w : Nat} (on : Bool) (f : BitVec w) : Bool := on || decide (f = 0)

/-- The fields of COPY and COPYW (R235). -/
def CopyMd.ok (m : CopyMd) : Bool :=
  scopeOk (m.acq || m.rel) m.scope && enabledOk m.ctr m.ctrIx && enabledOk m.bar m.barIx

/-- The fields of MLDT and MSTT (R265). -/
def XferMd.ok (m : XferMd) : Bool :=
  scopeOk (m.acq || m.rel) m.scope && enabledOk m.ctr m.ctrIx && enabledOk m.bar m.barIx

/-- Two-source forms of class 1. -/
def wf2 (h : Hints) (w bw : Bool) (d a b : Opnd) : Bool :=
  h.ok false && d.isDst w && a.isSrc d.isS w && b.isSrc d.isS bw

/-- Three-source forms. -/
def wf3 (h : Hints) (w bw : Bool) (d a b x : Opnd) : Bool := wf2 h w bw d a b && x.isSrc d.isS w

/-- One-source forms. -/
def wf1 (h : Hints) (dw w : Bool) (d a : Opnd) : Bool := h.ok false && d.isDst dw && a.isSrc d.isS w

/-- A v register that is the first of `k`. -/
def vAligned (k : Nat) (d : BitVec 8) : Bool := decide (d.toNat % k = 0)

/-- The quad operand of an engine command. -/
def quadOk (q : BitVec 6) : Bool := decide (q.toNat % 4 = 0)

/-- The mask operand of WAITANY, WAITALL and FFREADY (R235). -/
def maskOk (lo : Bool) (m : Opnd) : Bool := if lo then m.isSKImm else m.isS && m.aligned 2

/-- The instruction can be encoded and its word passes every check of R54. -/
def wellFormed : Instr → Bool
  | .nop h _ | .bra h _ | .brx h _ | .call h _ _ | .callx h _ _ | .ret h _ | .exit h | .join h _ | .waitj h _
  | .yield h _ | .bar h _ | .bararv h _ | .trap h _ | .rthSkip h | .rthRetry h | .rthTo h _
  | .bkpt h _ | .mark h _ => h.ok false
  | .brxIx h o _ | .callxIx h _ o _ => h.ok false && o.isVSImm
  | .reform h i => h.ok false && i.isVSImm
  | .spawn h _ e c n => h.ok true && e.isSImm && c.isSImm && decide (n.toNat ≤ 16)
  | .barinit h _ c => h.ok false && decide (c ≠ 0)
  | .barinitA h c _ => h.ok false && c.isSImm
  | .hvq h _ k => h.ok true && decide (k.toNat ≤ 2)
  | .sys h _ a _ => h.ok true && a.isSKImm
  | .rdsp h d sr => h.ok true && sr.readable && sr.dstOk d
  | .wrsp h a sr => h.ok false && a.isSKImm && sr.writable
  | .iadd h ty _ d a b _ | .isub h ty _ d a b _ => wf2 h ty.is64 ty.is64 d a b
  | .iaddc h _ d a b x => wf3 h false false d a b x
  | .imul h ty d a b _ | .imulhi h ty d a b _ | .imin h ty d a b _ | .imax h ty d a b _ =>
    wf2 h ty.is64 ty.is64 d a b
  | .imad h ty d a b x => wf3 h ty.is64 ty.is64 d a b x
  | .imadw h _ d a b x =>
    h.ok false && d.isDst true && a.isSrc d.isS false && b.isSrc d.isS false && x.isSrc d.isS true
  | .iabs h w _ d a | .ineg h w _ d a => wf1 h w w d a
  | .and h w d a b _ | .or h w d a b _ | .xor h w d a b _ | .andn h w d a b _ => wf2 h w w d a b
  | .not h w d a | .brev h w d a => wf1 h w w d a
  | .shl h w d a b _ | .shr h w d a b _ | .sar h w d a b _ | .rot h w d a b _ => wf2 h w false d a b
  | .popc h w d a | .clz h w d a | .ctz h w d a => wf1 h false w d a
  | .bfx h ty d a b _ => wf2 h ty.is64 false d a b
  | .bfi h w d a b x => wf3 h w false d a b x
  | .icmp h ty _ d a b _ =>
    h.ok false && decide (d.toNat < 15) && a.isSrc false ty.is64 && b.isSrc false ty.is64
  | .isel h w d a b p => wf2 h w w d a b && (Opnd.p p).isPSrc d.isS
  | .fadd h ty _ d a b | .fsub h ty _ d a b | .fmul h ty _ d a b | .fdiv h ty _ d a b
  | .fmin h ty d a b | .fmax h ty d a b => wf2 h ty.is64 ty.is64 d a b
  | .ffma h ty _ d a b x => wf3 h ty.is64 ty.is64 d a b x
  | .fcmp h ty _ d a b =>
    h.ok false && decide (d.toNat < 15) && a.isSrc false ty.is64 && b.isSrc false ty.is64
  | .fsel h ty d a b p => wf2 h ty.is64 ty.is64 d a b && (Opnd.p p).isPSrc d.isS
  | .fclass h ty d a => wf1 h false ty.is64 d a
  | .fscale h ty _ d a b => wf2 h ty.is64 false d a b
  | .fsqrt h ty _ d a | .frcp h ty _ d a => wf1 h ty.is64 ty.is64 d a
  | .frsq h ty _ d a | .fexp2 h ty _ d a | .flog2 h ty _ d a | .fsin h ty _ d a | .fcos h ty _ d a =>
    wf1 h false false d a && !ty.is64
  | .fdot2 h _ _ d a b x | .hfma2 h _ _ d a b x => wf3 h false false d a b x
  | .mov h w d a => h.ok false && d.isMovDst w && Opnd.isMovSrc d w a
  | .movi h d _ | .movhi h d _ => h.ok false && d.isDst false
  | .cvt h _ _ t f d a => wf1 h t.is64 f.is64 d a
  | .cbdec h x2 d a _ n => wf1 h false false d a && (!x2 || decide (n.toNat ≤ 3))
  | .shfl h _ _ a b _ => h.ok false && a.isSrc false false && b.isSrc false false
  | .vote h m d _ =>
    h.ok false && (match m with
      | .ballot => d.isDst false
      | .all | .any | .uni => d.isPDst)
  | .redux h _ d _ => h.ok false && d.isDst false
  | .prmt h _ d a b x => wf3 h false false d a b x
  | .shape h _ _ | .shapeQ h _ _ | .expand h _ _ | .smov h _ _ | .smovChk h _ _ | .smovLane h _ _ _ => h.ok false
  | .pset h nz d a =>
    h.ok false && decide (d.toNat < 15) && (if nz then a.isSrc false false else a.isSKImm)
  | .plop h _ _ _ _ d _ _ _ => h.ok false && decide (d.toNat < 15)
  | .ld h w o _ d _ b _ sc q =>
    h.ok true && decide (w ≠ .b80) && vAligned w.regs d && b.isOff && b.pairOk o && scopeOk q sc
  | .st h w o _ d _ b _ sc q =>
    h.ok false && decide (w ≠ .b80) && decide (w ≠ .s8) && decide (w ≠ .s16) && d.isVSKImm && d.aligned w.regs &&
      b.isOff && b.pairOk o && scopeOk q sc
  | .ldu h w o d _ b _ sc q =>
    h.ok true && decide (w ≠ .b128) && (if w = .b80 then d.isBase else d.isS && d.aligned w.regs) &&
      b.isUs && b.pairOk o && scopeOk q sc
  | .pref h _ o _ b _ => h.ok false && b.isOff && b.pairOk o
  | .ldres h w o d _ b _ sc q =>
    h.ok true && vAligned (if w = .b64 then 2 else 1) d && b.isOff && b.pairOk o && scopeOk q sc
  | .stcond h w rel o d _ b _ sc p =>
    h.ok true && vAligned (if w = .b64 then 2 else 1) d && b.isOff && b.pairOk o && scopeOk rel sc &&
      decide (p.toNat < 15)
  | .atom h op ty d _ b x =>
    h.ok true && vAligned (if ty.is64 then 2 else 1) d && b.isOff && op.xOk ty.is64 x
  | .fatom h _ ty d _ b x =>
    h.ok true && vAligned (if ty.is64 then 2 else 1) d && b.isOff && (x.isV || x.isS) && x.pairOk ty.is64
  | .fatomOrd h _ _ q x => h.ok true && q.isOff && (x.isV || x.isS)
  | .acell h _ c _ sc => h.ok false && c.isUs && decide (sc.toNat ≤ 10)
  | .acellClose h _ _ sc => h.ok false && decide (sc.toNat ≤ 10)
  | .acread h _ _ _ => h.ok true
  | .pst h d _ i0 i1 => h.ok false && d.isVSImm && i0.isVSImm && i1.isVSImm
  | .fence h _ sc => h.ok false && decide (sc.toNat ≤ 10)
  | .bset h _ _ u _ => h.ok false && u.isUs
  | .bsetAdd64 h _ _ p _ => h.ok false && decide (p.toNat % 2 = 0)
  | .bsetIns h _ _ u k => h.ok false && u.isUs && decide (k.toNat ≤ 2)
  | .bsetRd h _ _ k => h.ok false && decide (k.toNat ≤ 2)
  | .cctl h _ _ b _ => h.ok false && b.isOff
  | .tlbinvPage h _ u _ => h.ok false && u.isUs
  | .tlbinvAll h => h.ok false
  | .lookup h d _ b _ => h.ok false && b.isOff && (d.isV || (d.isS && b.isUs))
  | .tagset h s _ u _ => h.ok false && s.isVSKImm && u.isUs
  | .tagclr h s | .tagclrLend h s => h.ok false && s.isVSKImm
  | .tagclrAll h => h.ok false
  | .tagrd h _ s => h.ok false && s.isVSKImm
  | .tagrdAddr h _ s => h.ok false && s.isVSKImm
  | .copy h m s _ q => h.ok false && m.ok && s.isVSKImm && quadOk q
  | .copyw h m s _ q => h.ok false && m.ok && !m.st && !m.z && s.isVSKImm && quadOk q
  | .copym h _ _ _ s _ q xq => h.ok false && s.isVSKImm && quadOk q && quadOk xq
  | .waitany h lo m | .waitall h lo m | .ffready h lo _ m => h.ok false && maskOk lo m
  | .cwaitlt h _ t => h.ok false && decide (1 ≤ t.toNat) && decide (t.toNat ≤ 256)
  | .ctrrd h _ c k => h.ok false && decide (k.toNat ≤ 4) && (decide (k = 0) || decide (c = 0))
  | .tdef h _ _ b _ => h.ok false && b.isSKImm
  | .tdefInv h _ => h.ok false
  | .tset h _ a f => h.ok false && (if f.isAddr then a.isBase else a.isSKImm)
  | .tget h d _ f => h.ok true && (if f.isAddr then d.isBase else d.isS)
  | .tloadcb h _ _ sc _ => h.ok false && decide (sc.toNat ≤ 10)
  | .batload h q c ci s _ b _ sc => h.ok false && enabledOk c ci && s.isSImm && b.isUs && scopeOk q sc
  | .batstat h _ s k => h.ok true && s.isSImm && decide (k.toNat ≤ 6)
  | .mmt h _ _ sa sb c a b _ => h.ok false && c.isSKImm && a.isTl sa && b.isTl sb
  | .mmx h _ _ _ _ c _ _ q => h.ok false && c.isSKImm && quadOk q
  | .mresume h c ci _ b _ => h.ok false && enabledOk c ci && b.isUs
  | .mresumeReg h c ci => h.ok false && enabledOk c ci
  | .msave h _ c ci _ b _ => h.ok false && enabledOk c ci && b.isUs
  | .mldt h m d _ q | .mstt h m d _ q =>
    h.ok false && m.ok && (if m.slab then d.isSKImm else d.isTl false) && quadOk q
  | .mzero h c ci t f n => h.ok false && enabledOk c ci && f.isTl (!t) && n.isSImm
  | .mrd h _ s q => h.ok true && s.isSKImm && q.isSImm
  | .mwr h d s q => h.ok false && d.isVSKImm && s.isSKImm && q.isSImm
  | .mchk h _ _ res d c k x =>
    h.ok true && (if res then d.isV else d.isS && d.aligned 2) && c.isSKImm && k.isSKImm && x.isSKImm
  | .mdrain h _ _ _ _ _ _ _ q _ => h.ok false && quadOk q
  | .tbegin h | .tend h | .tendDrop h | .trev h | .tbr h _ | .tmark h _ => h.ok false
  | .tbeginSeg h _ b _ => h.ok false && b.isUs
  | .trec h a => h.ok false && (a.isV || a.isS)
  | .tpop h d => h.ok true && (d.isV || d.isS)
  | .tpopSt h _ => h.ok true
  | .coll h k _ _ _ d a q _ =>
    h.ok false && quadOk q && (match k with
      | .bar => decide (d = 0) && decide (a = 0)
      | .ar | .rs | .ag | .bc => true)
  | _ => true

end Sys2Proof
end

