-- ==== Sys2Proof/Decode.lean ====
section
/-! DEFINITION. The 96-bit instruction word (R32), the decode checks of R54 in their order, the decoder and
the encoder. Written from the encoding tables of R33, R53, R96, R130, R136, R141, R163, R182, R235, R265,
R302, R334, R347, R386 and R392. -/

namespace Sys2Proof

/-- The fields of an instruction word (R32). -/
structure Raw where
  op : BitVec 10
  md : BitVec 6
  g : BitVec 5
  d : BitVec 10
  a : BitVec 10
  b : BitVec 10
  x : BitVec 20
  dist : BitVec 4
  wait : BitVec 12
  set : BitVec 4
  yld : BitVec 1
  rsv : BitVec 4
  deriving DecidableEq, Repr

/-- The fields of the word `w` (R32). -/
def Raw.ofWord (w : BitVec 96) : Raw where
  op := w.extractLsb' 86 10
  md := w.extractLsb' 80 6
  g := w.extractLsb' 75 5
  d := w.extractLsb' 65 10
  a := w.extractLsb' 55 10
  b := w.extractLsb' 45 10
  x := w.extractLsb' 25 20
  dist := w.extractLsb' 21 4
  wait := w.extractLsb' 9 12
  set := w.extractLsb' 5 4
  yld := w.extractLsb' 4 1
  rsv := w.extractLsb' 0 4

/-- The word with the fields `r` (R32), the highest field first. -/
def Raw.toWord (r : Raw) : BitVec 96 :=
  r.op ++ r.md ++ r.g ++ r.d ++ r.a ++ r.b ++ r.x ++ r.dist ++ r.wait ++ r.set ++ r.yld ++ r.rsv

/-- The 12 bytes of a word, lowest address first (R32). -/
def wordBytes (w : BitVec 96) : List Byte :=
  (List.range 12).map fun i => w.extractLsb' (8 * i) 8

/-- The word that little-endian bytes hold (R32). -/
def wordOfBytes (bs : List Byte) : BitVec 96 :=
  bs.foldr (fun b acc => (acc <<< 8) ||| b.setWidth 96) 0

/-- A failed decode check: the cause code (R54) and the failing position, 1 to 4 for d, a, b, x (R352 `pos`). -/
structure DecErr where
  code : BitVec 9
  pos : BitVec 3
  deriving DecidableEq, Repr

def IntTy.code : IntTy → BitVec 2
  | .n32 => 0
  | .s32 => 1
  | .n64 => 2
  | .s64 => 3

def IntTy.ofCode (c : BitVec 2) : Option IntTy :=
  match c.toNat with
  | 0 => some .n32
  | 1 => some .s32
  | 2 => some .n64
  | 3 => some .s64
  | _ => none

def FTy.code : FTy → BitVec 3
  | .f32 => 0
  | .f64 => 1
  | .f16 => 2
  | .bf16 => 3

def FTy.ofCode (c : BitVec 3) : Option FTy :=
  match c.toNat with
  | 0 => some .f32
  | 1 => some .f64
  | 2 => some .f16
  | 3 => some .bf16
  | _ => none

def Rm.code : Rm → BitVec 3
  | .rne => 0
  | .rtz => 1
  | .rdn => 2
  | .rup => 3
  | .rna => 4

def Rm.ofCode (c : BitVec 3) : Option Rm :=
  match c.toNat with
  | 0 => some .rne
  | 1 => some .rtz
  | 2 => some .rdn
  | 3 => some .rup
  | 4 => some .rna
  | _ => none

def ICc.code : ICc → BitVec 3
  | .eq => 0
  | .ne => 1
  | .lt => 2
  | .le => 3
  | .gt => 4
  | .ge => 5

def ICc.ofCode (c : BitVec 3) : Option ICc :=
  match c.toNat with
  | 0 => some .eq
  | 1 => some .ne
  | 2 => some .lt
  | 3 => some .le
  | 4 => some .gt
  | 5 => some .ge
  | _ => none

def FCc.code : FCc → BitVec 3
  | .eq => 0
  | .ne => 1
  | .lt => 2
  | .le => 3
  | .gt => 4
  | .ge => 5
  | .uo => 6
  | .or => 7

def FCc.ofCode (c : BitVec 3) : Option FCc :=
  match c.toNat with
  | 0 => some .eq
  | 1 => some .ne
  | 2 => some .lt
  | 3 => some .le
  | 4 => some .gt
  | 5 => some .ge
  | 6 => some .uo
  | 7 => some .or
  | _ => none

def CvtFmt.code : CvtFmt → BitVec 4
  | .f32 => 0
  | .f64 => 1
  | .f16 => 2
  | .bf16 => 3
  | .e4m3 => 4
  | .e5m2 => 5
  | .s8 => 6
  | .n8 => 7
  | .s32 => 8
  | .s64 => 9

def CvtFmt.ofCode (c : BitVec 4) : Option CvtFmt :=
  match c.toNat with
  | 0 => some .f32
  | 1 => some .f64
  | 2 => some .f16
  | 3 => some .bf16
  | 4 => some .e4m3
  | 5 => some .e5m2
  | 6 => some .s8
  | 7 => some .n8
  | 8 => some .s32
  | 9 => some .s64
  | _ => none

def ShflMode.code : ShflMode → BitVec 2
  | .idx => 0
  | .up => 1
  | .down => 2
  | .xor => 3

def ShflMode.ofCode (c : BitVec 2) : Option ShflMode :=
  match c.toNat with
  | 0 => some .idx
  | 1 => some .up
  | 2 => some .down
  | 3 => some .xor
  | _ => none

def VoteMode.code : VoteMode → BitVec 2
  | .all => 0
  | .any => 1
  | .uni => 2
  | .ballot => 3

def VoteMode.ofCode (c : BitVec 2) : Option VoteMode :=
  match c.toNat with
  | 0 => some .all
  | 1 => some .any
  | 2 => some .uni
  | 3 => some .ballot
  | _ => none

def ReduxOp.code : ReduxOp → BitVec 3
  | .add => 0
  | .umin => 1
  | .umax => 2
  | .smin => 3
  | .smax => 4
  | .and => 5
  | .or => 6
  | .xor => 7

def ReduxOp.ofCode (c : BitVec 3) : Option ReduxOp :=
  match c.toNat with
  | 0 => some .add
  | 1 => some .umin
  | 2 => some .umax
  | 3 => some .smin
  | 4 => some .smax
  | 5 => some .and
  | 6 => some .or
  | 7 => some .xor
  | _ => none

def PlopOp.code : PlopOp → BitVec 3
  | .and => 0
  | .or => 1
  | .andor => 2
  | .orand => 3
  | .xor => 4

def PlopOp.ofCode (c : BitVec 3) : Option PlopOp :=
  match c.toNat with
  | 0 => some .and
  | 1 => some .or
  | 2 => some .andor
  | 3 => some .orand
  | 4 => some .xor
  | _ => none

def Width.code : Width → BitVec 3
  | .b8 => 0
  | .b16 => 1
  | .b32 => 2
  | .b64 => 3
  | .b128 => 4
  | .b80 => 5
  | .s8 => 6
  | .s16 => 7

def Width.ofCode (c : BitVec 3) : Option Width :=
  match c.toNat with
  | 0 => some .b8
  | 1 => some .b16
  | 2 => some .b32
  | 3 => some .b64
  | 4 => some .b128
  | 5 => some .b80
  | 6 => some .s8
  | 7 => some .s16
  | _ => none

def Pol.code : Pol → BitVec 2
  | .dflt => 0
  | .nc => 1
  | .strm => 2

def Pol.ofCode (c : BitVec 2) : Option Pol :=
  match c.toNat with
  | 0 => some .dflt
  | 1 => some .nc
  | 2 => some .strm
  | _ => none

def PrefKind.code : PrefKind → BitVec 2
  | .l2 => 0
  | .l1 => 1
  | .w => 2

def PrefKind.ofCode (c : BitVec 2) : Option PrefKind :=
  match c.toNat with
  | 0 => some .l2
  | 1 => some .l1
  | 2 => some .w
  | _ => none

def CctlKind.code : CctlKind → BitVec 2
  | .evict => 0
  | .clean => 1
  | .keep => 2

def CctlKind.ofCode (c : BitVec 2) : Option CctlKind :=
  match c.toNat with
  | 0 => some .evict
  | 1 => some .clean
  | 2 => some .keep
  | _ => none

def AtomOp.code : AtomOp → BitVec 4
  | .add => 0
  | .min => 1
  | .max => 2
  | .and => 3
  | .or => 4
  | .xor => 5
  | .exch => 6
  | .cas => 7
  | .incw => 8
  | .decw => 9

def AtomOp.ofCode (c : BitVec 4) : Option AtomOp :=
  match c.toNat with
  | 0 => some .add
  | 1 => some .min
  | 2 => some .max
  | 3 => some .and
  | 4 => some .or
  | 5 => some .xor
  | 6 => some .exch
  | 7 => some .cas
  | 8 => some .incw
  | 9 => some .decw
  | _ => none

def FatomOp.code : FatomOp → BitVec 3
  | .add => 0
  | .min => 1
  | .max => 2

def FatomOp.ofCode (c : BitVec 3) : Option FatomOp :=
  match c.toNat with
  | 0 => some .add
  | 1 => some .min
  | 2 => some .max
  | _ => none

def FenceKind.code : FenceKind → BitVec 2
  | .ar => 0
  | .acq => 1
  | .rel => 2

def FenceKind.ofCode (c : BitVec 2) : Option FenceKind :=
  match c.toNat with
  | 0 => some .ar
  | 1 => some .acq
  | 2 => some .rel
  | _ => none

def CollKind.code : CollKind → BitVec 3
  | .ar => 0
  | .rs => 1
  | .ag => 2
  | .bc => 3
  | .bar => 4

def CollKind.ofCode (c : BitVec 3) : Option CollKind :=
  match c.toNat with
  | 0 => some .ar
  | 1 => some .rs
  | 2 => some .ag
  | 3 => some .bc
  | 4 => some .bar
  | _ => none

def TFld.code : TFld → BitVec 4
  | .bits => 0
  | .n0 => 1
  | .n1 => 2
  | .n2 => 3
  | .n3 => 4
  | .st1 => 5
  | .st2 => 6
  | .st3 => 7
  | .tst => 8
  | .base => 9
  | .tbase => 10
  | .sbase => 11
  | .cbase => 12

def TFld.ofCode (c : BitVec 4) : Option TFld :=
  match c.toNat with
  | 0 => some .bits
  | 1 => some .n0
  | 2 => some .n1
  | 3 => some .n2
  | 4 => some .n3
  | 5 => some .st1
  | 6 => some .st2
  | 7 => some .st3
  | 8 => some .tst
  | 9 => some .base
  | 10 => some .tbase
  | 11 => some .sbase
  | 12 => some .cbase
  | _ => none

/-- The special register numbers of R352. -/
def SpReg.code : SpReg → BitVec 12
  | .fcause => 0x000 | .finfo => 0x001 | .faddr0 => 0x002 | .faddr1 => 0x003 | .faddr2 => 0x004
  | .fpc => 0x005 | .forig => 0x006 | .fword0 => 0x007 | .fword1 => 0x008 | .fword2 => 0x009
  | .hmask => 0x00A | .gctx => 0x010 | .bctx => 0x011 | .msseq => 0x020 | .msreq => 0x021
  | .msmode => 0x022 | .hscr0 => 0x030 | .hscr1 => 0x031 | .hscr2 => 0x032 | .hscr3 => 0x033
  | .cyclo => 0x040 | .cychi => 0x041
  | .cnt k => 0x080 + BitVec.ofNat 12 k.val

/-- The special register that a number names (R352); none where R352 lists none. -/
def SpReg.ofCode (c : BitVec 12) : Option SpReg :=
  match c.toNat with
  | 0x000 => some .fcause | 0x001 => some .finfo | 0x002 => some .faddr0 | 0x003 => some .faddr1
  | 0x004 => some .faddr2 | 0x005 => some .fpc | 0x006 => some .forig | 0x007 => some .fword0
  | 0x008 => some .fword1 | 0x009 => some .fword2 | 0x00A => some .hmask | 0x010 => some .gctx
  | 0x011 => some .bctx | 0x020 => some .msseq | 0x021 => some .msreq | 0x022 => some .msmode
  | 0x030 => some .hscr0 | 0x031 => some .hscr1 | 0x032 => some .hscr2 | 0x033 => some .hscr3
  | 0x040 => some .cyclo | 0x041 => some .cychi
  | 0x080 => some (.cnt 0) | 0x081 => some (.cnt 1) | 0x082 => some (.cnt 2) | 0x083 => some (.cnt 3)
  | 0x084 => some (.cnt 4) | 0x085 => some (.cnt 5) | 0x086 => some (.cnt 6) | 0x087 => some (.cnt 7)
  | 0x088 => some (.cnt 8)
  | _ => none

/-- The special with class-01 index `c` (R22). -/
def Special.ofCode (c : BitVec 8) : Option Special :=
  match c.toNat with
  | 80 => some .slane | 81 => some .llane | 82 => some .tidx | 83 => some .gnum | 84 => some .sser
  | 85 => some .blkid | 86 => some .launch | 87 => some .nlev | 88 => some .lcrd3 | 89 => some .lcrd4
  | 90 => some .lcrd5 | 91 => some .lcrd6 | 92 => some .lcrd7 | 93 => some .lext1 | 94 => some .lext2
  | 95 => some .lext3 | 96 => some .lext4 | 97 => some .lext5 | 98 => some .lext6 | 99 => some .lext7
  | _ => none

/-- The constant with class-01 index `c` (R34). -/
def Konst.ofCode (c : BitVec 8) : Option Konst :=
  match c.toNat with
  | 100 => some .zero | 101 => some .one | 102 => some .ones | 103 => some .width | 104 => some .fone
  | 105 => some .fmone | 106 => some .fhalf | 107 => some .ftwo | 108 => some .finf | 109 => some .fmax
  | _ => none

/-- Class and index of an operand (R33). -/
def Opnd.bits : Opnd → BitVec 10
  | .v n => (0b00 : BitVec 2) ++ n
  | .s n => (0b0100 : BitVec 4) ++ n
  | .base n => (0b010100 : BitVec 6) ++ n
  | .spec n => (0b01 : BitVec 2) ++ n.code
  | .konst n => (0b01 : BitVec 2) ++ n.code
  | .p n => (0b100000 : BitVec 6) ++ n
  | .tile n => (0b100001 : BitVec 6) ++ n
  | .j n => (0b1000100 : BitVec 7) ++ n
  | .ctr n => (0b100011 : BitVec 6) ++ n
  | .tx n => (0b1001 : BitVec 4) ++ n
  | .imm n => (0b11 : BitVec 2) ++ n

/-- The operand that a class and an index name (R33); none for a reserved index. -/
def Opnd.ofBits (b : BitVec 10) : Option Opnd :=
  let i : BitVec 8 := b.extractLsb' 0 8
  match (b.extractLsb' 8 2).toNat with
  | 0 => some (.v i)
  | 1 =>
    if i.toNat < 64 then some (.s (i.extractLsb' 0 6))
    else if i.toNat < 80 then some (.base (i.extractLsb' 0 4))
    else if i.toNat < 100 then (Special.ofCode i).map .spec
    else (Konst.ofCode i).map .konst
  | 2 =>
    if i.toNat < 16 then some (.p (i.extractLsb' 0 4))
    else if i.toNat < 32 then some (.tile (i.extractLsb' 0 4))
    else if i.toNat < 40 then some (.j (i.extractLsb' 0 3))
    else if i.toNat < 48 then none
    else if i.toNat < 64 then some (.ctr (i.extractLsb' 0 4))
    else if i.toNat < 128 then some (.tx (i.extractLsb' 0 6))
    else none
  | _ => some (.imm i)

/-- What a form does with `x` (R38): the bits it uses as immediate and small fields, with whether their
values are ones the form does not reserve; or a fourth operand. -/
inductive XForm where
  | imm (used : BitVec 20) (ok : Bool)
  | reg (acc : Opnd → Bool)

/-- A form: which positions it uses and what each accepts, what it does with `x`, and whether the
modifier fields that must be zero under this modifier are zero. -/
structure Form where
  d : Option (Opnd → Bool)
  a : Option (Opnd → Bool)
  b : Option (Opnd → Bool)
  x : XForm
  zeroOk : Bool := true

/-- `x` unused. -/
def xNone : XForm := .imm 0 true
/-- `x` is a 20-bit immediate (XI20). -/
def xI20 : XForm := .imm 0xFFFFF true
/-- `x`[19:8] is an immediate and the small fields are unused (XI12). -/
def xI12 : XForm := .imm 0xFFF00 true

/-- The scope field `x`[7:4] and the order bit `x`[3] of LD, ST, LDU and LDRES (R182). -/
def xOrd (x : BitVec 20) : XForm :=
  if x.getLsbD 3 then .imm 0xFFFF8 (decide ((x.extractLsb' 4 4).toNat ≤ 10)) else .imm 0xFFF08 true

/-- The position fields of COPY, COPYW, MLDT and MSTT (R235, R265). -/
def xCopy (tag acqRel ctr bar : Bool) (x : BitVec 20) : XForm :=
  .imm ((if tag then 0xFC000 else 0) ||| (if ctr then 0x03C00 else 0) ||| (if acqRel then 0x000F0 else 0)
      ||| (if bar then 0x0000F else 0))
    (!acqRel || decide ((x.extractLsb' 4 4).toNat ≤ 10))

/-- The form of a class-0 word, or none where `md` is not defined for `op` (R96, R347, R386, R392). -/
def formOf0 (r : Raw) : Option Form :=
  let md := r.md.toNat
  let x := r.x
  match r.op.toNat with
  | 0x001 => if md = 0 then some ⟨none, none, none, xI20, true⟩ else none
  | 0x002 => if md = 0 then some ⟨none, none, none, xI20, true⟩ else none
  | 0x003 =>
    if md = 0 then some ⟨none, none, none, .reg Opnd.isBase, true⟩
    else if md = 1 then some ⟨none, none, some Opnd.isVSImm, .reg Opnd.isBase, true⟩ else none
  | 0x004 => if md = 0 then some ⟨some Opnd.isBase, none, none, xI20, true⟩ else none
  | 0x005 =>
    if md = 0 then some ⟨some Opnd.isBase, none, none, .reg Opnd.isBase, true⟩
    else if md = 1 then some ⟨some Opnd.isBase, none, some Opnd.isVSImm, .reg Opnd.isBase, true⟩ else none
  | 0x006 => if md = 0 then some ⟨none, none, none, .reg Opnd.isBase, true⟩ else none
  | 0x007 => if md = 0 then some ⟨none, none, none, xNone, true⟩ else none
  | 0x008 => if md = 0 then some ⟨some Opnd.isJ, none, none, xNone, true⟩ else none
  | 0x009 => if md = 0 then some ⟨none, some Opnd.isJ, none, xNone, true⟩ else none
  | 0x00A => if md = 0 then some ⟨none, some Opnd.isVSImm, none, xNone, true⟩ else none
  | 0x00B =>
    if md = 0 then some ⟨some Opnd.isS, some Opnd.isSImm, some Opnd.isSImm,
      .imm 0x000FF (decide ((x.extractLsb' 0 8).toNat ≤ 16)), true⟩ else none
  | 0x00C => if md = 0 then some ⟨none, none, none, xI20, true⟩ else none
  | 0x00D => if md = 0 then some ⟨none, none, none, .imm 0x0000F true, true⟩ else none
  | 0x00E => if md = 0 then some ⟨none, none, none, .imm 0x0000F true, true⟩ else none
  | 0x00F =>
    if md = 0 then some ⟨none, none, none, .imm 0xFFF0F (decide ((x.extractLsb' 8 12).toNat ≠ 0)), true⟩
    else if md = 1 then some ⟨none, some Opnd.isSImm, none, .imm 0x0000F true, true⟩ else none
  | 0x010 => if md = 0 then some ⟨none, none, none, .imm 0x0001F true, true⟩ else none
  | 0x011 =>
    if md ≤ 1 then some ⟨none, none, none, xNone, true⟩
    else if md = 2 then some ⟨none, some Opnd.isBase, none, xNone, true⟩ else none
  | 0x012 => if md = 0 then some ⟨some Opnd.isS, some Opnd.isSKImm, none, xI12, true⟩ else none
  | 0x013 => if md = 0 then some ⟨none, none, none, xI20, true⟩ else none
  | 0x014 => if md = 0 then some ⟨none, none, none, xI20, true⟩ else none
  | 0x015 =>
    if md = 0 then
      match SpReg.ofCode (x.extractLsb' 8 12) with
      | some sr => some ⟨some sr.dstOk, none, none, .imm 0xFFF00 sr.readable, true⟩
      | none => some ⟨some (fun _ => true), none, none, .imm 0xFFF00 false, true⟩
    else none
  | 0x016 =>
    if md = 0 then
      match SpReg.ofCode (x.extractLsb' 8 12) with
      | some sr => some ⟨none, some Opnd.isSKImm, none, .imm 0xFFF00 sr.writable, true⟩
      | none => some ⟨none, some Opnd.isSKImm, none, .imm 0xFFF00 false, true⟩
    else none
  | 0x017 =>
    if md = 0 then some ⟨some Opnd.isS, none, none, .imm 0x0000F (decide ((x.extractLsb' 0 4).toNat ≤ 2)), true⟩
    else none
  | _ => none

/-- The d operand of a word, where it names one. -/
def Raw.dOpnd (r : Raw) : Opnd := (Opnd.ofBits r.d).getD (.imm 0)
def Raw.aOpnd (r : Raw) : Opnd := (Opnd.ofBits r.a).getD (.imm 0)
def Raw.bOpnd (r : Raw) : Opnd := (Opnd.ofBits r.b).getD (.imm 0)
def Raw.xOpnd (r : Raw) : Opnd := (Opnd.ofBits (r.x.extractLsb' 10 10)).getD (.imm 0)

/-- The form of a class-1 word (R130). -/
def formOf1 (r : Raw) : Option Form :=
  let ty := r.md.extractLsb' 0 2
  let w := ty.getLsbD 1
  let sat := r.md.getLsbD 2
  let var := (r.md.extractLsb' 3 3).toNat
  let sgn := ty.getLsbD 0
  let u := r.dOpnd.isS
  let dst := some (Opnd.isDst w)
  let dst32 := some (Opnd.isDst false)
  let src := Opnd.isSrc u w
  let s32 := Opnd.isSrc u false
  let bin : Form := ⟨dst, some src, some src, xI12, true⟩
  let shf : Form := ⟨dst, some src, some s32, xI12, true⟩
  match r.op.toNat with
  | 0x081 | 0x082 => if var = 0 then some bin else none
  | 0x083 => if !w && !sgn && !sat && decide (var ≤ 1) then some ⟨dst, some src, some src, .reg src, true⟩ else none
  | 0x084 | 0x085 | 0x088 | 0x089 => if !sat && decide (var = 0) then some bin else none
  | 0x086 => if !sat && decide (var = 0) then some ⟨dst, some src, some src, .reg src, true⟩ else none
  | 0x087 =>
    if !w && !sat && decide (var = 0) then
      some ⟨some (Opnd.isDst true), some s32, some s32, .reg (Opnd.isSrc u true), true⟩ else none
  | 0x08A | 0x08B => if sgn && decide (var = 0) then some ⟨dst, some src, none, xNone, true⟩ else none
  | 0x08C | 0x08D | 0x08E | 0x08F => if !sgn && !sat && decide (var = 0) then some bin else none
  | 0x090 | 0x098 => if !sgn && !sat && decide (var = 0) then some ⟨dst, some src, none, xNone, true⟩ else none
  | 0x091 | 0x092 | 0x093 | 0x094 => if !sgn && !sat && decide (var = 0) then some shf else none
  | 0x095 | 0x096 | 0x097 =>
    if !sgn && !sat && decide (var = 0) then some ⟨dst32, some src, none, xNone, true⟩ else none
  | 0x099 => if !sat && decide (var = 0) then some shf else none
  | 0x09A =>
    if !sgn && !sat && decide (var = 0) then some ⟨dst, some src, some s32, .reg src, true⟩ else none
  | 0x09B =>
    if !sat && decide (var ≤ 5) then
      some ⟨some Opnd.isPDst, some (Opnd.isSrc false w), some (Opnd.isSrc false w), xI12, true⟩ else none
  | 0x09C =>
    if !sgn && !sat && decide (var = 0) then some ⟨dst, some src, some src, .reg (Opnd.isPSrc u), true⟩ else none
  | _ => none

/-- The form of a class-2 word (R136). -/
def formOf2 (r : Raw) : Option Form :=
  let ty := (r.md.extractLsb' 0 3).toNat
  let sub := (r.md.extractLsb' 3 3).toNat
  let w := decide (ty = 1)
  let tyOk := decide (ty ≤ 3)
  let rmOk := decide (sub ≤ 4)
  let u := r.dOpnd.isS
  let dst := some (Opnd.isDst w)
  let src := Opnd.isSrc u w
  let s32 := Opnd.isSrc u false
  let d32 := some (Opnd.isDst false)
  match r.op.toNat with
  | 0x101 | 0x102 | 0x103 | 0x10C => if tyOk && rmOk then some ⟨dst, some src, some src, xNone, true⟩ else none
  | 0x104 => if tyOk && rmOk then some ⟨dst, some src, some src, .reg src, true⟩ else none
  | 0x105 | 0x106 => if tyOk && decide (sub = 0) then some ⟨dst, some src, some src, xNone, true⟩ else none
  | 0x107 =>
    if tyOk then some ⟨some Opnd.isPDst, some (Opnd.isSrc false w), some (Opnd.isSrc false w), xNone, true⟩ else none
  | 0x108 =>
    if tyOk && decide (sub = 0) then some ⟨dst, some src, some src, .reg (Opnd.isPSrc u), true⟩ else none
  | 0x109 | 0x10B => if tyOk && rmOk then some ⟨dst, some src, none, xNone, true⟩ else none
  | 0x10A | 0x10D | 0x10E | 0x10F | 0x110 =>
    if tyOk && !w && rmOk then some ⟨dst, some src, none, xNone, true⟩ else none
  | 0x111 => if tyOk && rmOk then some ⟨dst, some src, some s32, xNone, true⟩ else none
  | 0x112 => if tyOk && decide (sub = 0) then some ⟨d32, some src, none, xNone, true⟩ else none
  | 0x113 | 0x114 =>
    if decide (2 ≤ ty) && tyOk && rmOk then some ⟨d32, some s32, some s32, .reg s32, true⟩ else none
  | _ => none

/-- The form of a class-3 word (R141, R143). -/
def formOf3 (r : Raw) : Option Form :=
  let md := r.md.toNat
  let x := r.x
  let u := r.dOpnd.isS
  let d32 := some (Opnd.isDst false)
  let s32 := Opnd.isSrc u false
  match r.op.toNat with
  | 0x181 =>
    if md ≤ 1 then
      let w := decide (md = 1)
      some ⟨some (Opnd.isMovDst w), some (Opnd.isMovSrc r.dOpnd w), none, xNone, true⟩ else none
  | 0x182 | 0x183 => if md = 0 then some ⟨d32, none, none, xI20, true⟩ else none
  | 0x184 =>
    if decide ((r.md.extractLsb' 3 3).toNat ≤ 4) && decide ((r.md.extractLsb' 0 2).toNat = 0) then
      match CvtFmt.ofCode (x.extractLsb' 4 4), CvtFmt.ofCode (x.extractLsb' 0 4) with
      | some t, some f =>
        some ⟨some (Opnd.isDst t.is64), some (Opnd.isSrc u f.is64), none, .imm 0x000FF true, true⟩
      | _, _ => some ⟨d32, some s32, none, .imm 0x000FF false, true⟩
    else none
  | 0x185 =>
    if md ≤ 1 then
      some ⟨d32, some s32, some Opnd.isTx, .imm 0x00007 (decide (md = 0) || !x.getLsbD 2), true⟩ else none
  | 0x186 =>
    if md ≤ 3 then some ⟨some Opnd.isV, some (Opnd.isSrc false false), some (Opnd.isSrc false false), xI12, true⟩
    else none
  | 0x187 =>
    if md ≤ 2 then some ⟨some Opnd.isPDst, some Opnd.isP, none, xNone, true⟩
    else if md = 3 then some ⟨d32, some Opnd.isP, none, xNone, true⟩ else none
  | 0x188 => if r.md.extractLsb' 0 3 = 0 then some ⟨d32, some Opnd.isV, none, xNone, true⟩ else none
  | 0x189 => if md ≤ 1 then some ⟨d32, some s32, some s32, .reg s32, true⟩ else none
  | 0x18A =>
    if md = 0 then some ⟨some Opnd.isV, some Opnd.isV, none, xNone, true⟩
    else if md = 1 then some ⟨some Opnd.isS, some Opnd.isV, none, xNone, true⟩ else none
  | 0x18B => if md = 0 then some ⟨some Opnd.isV, some Opnd.isV, none, xNone, true⟩ else none
  | 0x18C =>
    if md ≤ 1 then some ⟨some Opnd.isS, some Opnd.isV, none, xNone, true⟩
    else if md = 2 then some ⟨some Opnd.isS, some Opnd.isV, none, .imm 0x0001F true, true⟩ else none
  | 0x18D =>
    if md = 0 then some ⟨some Opnd.isPDst, some Opnd.isSKImm, none, xNone, true⟩
    else if md = 1 then some ⟨some Opnd.isPDst, some (Opnd.isSrc false false), none, xNone, true⟩ else none
  | 0x18E =>
    if (r.md.extractLsb' 0 3).toNat ≤ 4 then
      some ⟨some Opnd.isPDst, some Opnd.isP, some Opnd.isP, .reg Opnd.isP, true⟩ else none
  | _ => none

/-- Offsets of class 4: a pair with `.o64` (R169, R182). -/
def offOk (o64 : Bool) (o : Opnd) : Bool := o.isOff && o.pairOk o64

/-- The form of a class-4 word (R182). -/
def formOf4 (r : Raw) : Option Form :=
  let md := r.md.toNat
  let x := r.x
  let wc := (r.md.extractLsb' 0 3)
  let o := r.md.getLsbD 3
  let polOk := decide ((r.md.extractLsb' 4 2).toNat ≤ 2)
  let base := some Opnd.isBase
  let vAl (k : Nat) : Opnd → Bool := fun y => y.isV && y.aligned k
  match r.op.toNat with
  | 0x201 =>
    match Width.ofCode wc with
    | some .b80 => none
    | some w => if polOk then some ⟨some (vAl w.regs), base, some (offOk o), xOrd x, true⟩ else none
    | none => none
  | 0x202 =>
    match Width.ofCode wc with
    | some .b80 => none
    | some .s8 => none
    | some .s16 => none
    | some w =>
      if polOk then some ⟨some (fun y => y.isVSKImm && y.aligned w.regs), base, some (offOk o), xOrd x, true⟩
      else none
    | none => none
  | 0x203 =>
    match Width.ofCode wc with
    | some .b128 => none
    | some .b80 =>
      if (r.md.extractLsb' 4 2).toNat = 0 then
        some ⟨some Opnd.isBase, base, some (fun y => y.isUs && y.pairOk o), xOrd x, true⟩ else none
    | some w =>
      if (r.md.extractLsb' 4 2).toNat = 0 then
        some ⟨some (fun y => y.isS && y.aligned w.regs), base, some (fun y => y.isUs && y.pairOk o), xOrd x, true⟩
      else none
    | none => none
  | 0x204 =>
    if decide ((r.md.extractLsb' 0 2).toNat ≤ 2) && !r.md.getLsbD 2 && decide ((r.md.extractLsb' 4 2).toNat = 0)
    then some ⟨none, base, some (offOk o), xI12, true⟩ else none
  | 0x205 =>
    if (decide (wc.toNat = 2) || decide (wc.toNat = 3)) && decide ((r.md.extractLsb' 4 2).toNat = 0) then
      some ⟨some (vAl (if wc.toNat = 3 then 2 else 1)), base, some (offOk o), xOrd x, true⟩ else none
  | 0x206 =>
    if (decide (wc.toNat = 2) || decide (wc.toNat = 3)) && !r.md.getLsbD 5 then
      some ⟨some (vAl (if wc.toNat = 3 then 2 else 1)), base, some (offOk (r.md.getLsbD 4)),
        .imm (if o then 0xFFFFF else 0xFFF0F)
          (decide ((x.extractLsb' 0 4).toNat < 15) && (!o || decide ((x.extractLsb' 4 4).toNat ≤ 10))), true⟩
    else none
  | 0x207 =>
    match AtomOp.ofCode (r.md.extractLsb' 0 4), IntTy.ofCode (r.md.extractLsb' 4 2) with
    | some op, some ty =>
      some ⟨some (vAl (if ty.is64 then 2 else 1)), base, some Opnd.isOff, .reg (op.xOk ty.is64), true⟩
    | _, _ => none
  | 0x208 =>
    match FTy.ofCode (r.md.extractLsb' 0 3) with
    | none => none
    | some ty =>
      let op := (r.md.extractLsb' 3 3).toNat
      if op ≤ 2 then
        some ⟨some (vAl (if ty.is64 then 2 else 1)), base, some Opnd.isOff,
          .reg (fun y => (y.isV || y.isS) && y.pairOk ty.is64), true⟩
      else if decide (op = 3) && decide (ty = .f32) then
        some ⟨some Opnd.isV, base, some Opnd.isOff, .reg (fun y => y.isV || y.isS), true⟩
      else none
  | 0x209 =>
    if md = 0 then some ⟨none, base, some Opnd.isUs, .imm 0xFFFF0 (decide ((x.extractLsb' 4 4).toNat ≤ 10)), true⟩
    else if md = 1 then some ⟨none, base, none, .imm 0xFFFF0 (decide ((x.extractLsb' 4 4).toNat ≤ 10)), true⟩
    else none
  | 0x20A => if md = 0 then some ⟨some Opnd.isS, base, none, xI12, true⟩ else none
  | 0x20B =>
    if md = 0 then some ⟨some Opnd.isVSImm, some Opnd.isTx, some Opnd.isVSImm, .reg Opnd.isVSImm, true⟩ else none
  | 0x20C =>
    if md ≤ 2 then some ⟨none, none, none, .imm 0x000F0 (decide ((x.extractLsb' 4 4).toNat ≤ 10)), true⟩ else none
  | 0x20D =>
    if md = 0 then some ⟨base, base, some Opnd.isUs, xI20, true⟩
    else if md = 1 then some ⟨base, base, some (fun y => y.isS && y.aligned 2), xI20, true⟩
    else if md = 2 then some ⟨base, base, some Opnd.isUs, .imm 0x00003 (decide ((x.extractLsb' 0 2).toNat ≤ 2)), true⟩
    else if md = 3 then
      some ⟨some Opnd.isS, base, none, .imm 0x00003 (decide ((x.extractLsb' 0 2).toNat ≤ 2)), true⟩
    else none
  | 0x20E => if md ≤ 2 then some ⟨none, base, some Opnd.isOff, xI12, true⟩ else none
  | 0x20F =>
    if md = 0 then some ⟨none, base, some Opnd.isUs, xI12, true⟩
    else if md = 1 then some ⟨none, none, none, xNone, true⟩ else none
  | _ => none

/-- The form of a class-5 word (R235). -/
def formOf5 (r : Raw) : Option Form :=
  let md := r.md.toNat
  let x := r.x
  let m := r.md
  let base := some Opnd.isBase
  let slot := some Opnd.isVSKImm
  let mask (lo : Bool) : Opnd → Bool := fun y => if lo then y.isSKImm else y.isS && y.aligned 2
  match r.op.toNat with
  | 0x281 =>
    if md = 0 then some ⟨some (fun y => y.isV || (y.isS && r.bOpnd.isUs)), base, some Opnd.isOff, xI12, true⟩ else none
  | 0x282 => if md = 0 then some ⟨slot, base, some Opnd.isUs, xI12, true⟩ else none
  | 0x283 =>
    if md ≤ 1 then some ⟨slot, none, none, xNone, true⟩
    else if md = 2 then some ⟨none, none, none, xNone, true⟩ else none
  | 0x284 =>
    if md = 0 then some ⟨some Opnd.isS, slot, none, xNone, true⟩
    else if md = 1 then some ⟨base, slot, none, xNone, true⟩ else none
  | 0x285 =>
    some ⟨slot, some Opnd.isTx, some Opnd.isQuad,
      xCopy true (m.getLsbD 1 || m.getLsbD 2) (m.getLsbD 4) (m.getLsbD 3) x, true⟩
  | 0x286 =>
    if !m.getLsbD 0 && !m.getLsbD 5 then
      some ⟨slot, some Opnd.isTx, some Opnd.isQuad,
        xCopy true (m.getLsbD 1 || m.getLsbD 2) (m.getLsbD 4) (m.getLsbD 3) x, true⟩
    else none
  | 0x287 =>
    if !m.getLsbD 0 && !m.getLsbD 3 && !m.getLsbD 4 then
      some ⟨slot, some Opnd.isTx, some Opnd.isQuad, .reg Opnd.isQuad, true⟩ else none
  | 0x288 | 0x289 => if md ≤ 1 then some ⟨none, some (mask (decide (md = 1))), none, xNone, true⟩ else none
  | 0x28A => if md ≤ 1 then some ⟨some Opnd.isS, some (mask (decide (md = 1))), none, xNone, true⟩ else none
  | 0x28B =>
    if md = 0 then
      some ⟨none, some Opnd.isCtr, none,
        .imm 0xFFF00 (decide (1 ≤ (x.extractLsb' 8 12).toNat) && decide ((x.extractLsb' 8 12).toNat ≤ 256)), true⟩
    else none
  | 0x28C =>
    if md = 0 then
      some ⟨some Opnd.isS, if x.extractLsb' 0 4 = 0 then some Opnd.isCtr else none, none,
        .imm 0x0000F (decide ((x.extractLsb' 0 4).toNat ≤ 4)), true⟩
    else none
  | _ => none

/-- The form of a class-6 word (R163, R265, R302, R334). -/
def formOf6 (r : Raw) : Option Form :=
  let md := r.md.toNat
  let x := r.x
  let m := r.md
  let base := some Opnd.isBase
  let tx := some Opnd.isTx
  let sl := some Opnd.isSKImm
  let us := some Opnd.isUs
  let quad := some Opnd.isQuad
  let sImm := some Opnd.isSImm
  let ctrZero (en : Bool) (c : BitVec 4) : Bool := en || decide (c = 0)
  match r.op.toNat with
  | 0x301 =>
    if md = 0 then some ⟨tx, base, sl, xI12, true⟩
    else if md = 1 then some ⟨tx, none, none, xNone, true⟩ else none
  | 0x302 =>
    if md = 0 then
      match TFld.ofCode (x.extractLsb' 0 4) with
      | some f => some ⟨tx, if f.isAddr then base else sl, none, .imm 0x0000F true, true⟩
      | none => some ⟨tx, some (fun _ => true), none, .imm 0x0000F false, true⟩
    else none
  | 0x303 =>
    if md = 0 then
      match TFld.ofCode (x.extractLsb' 0 4) with
      | some f => some ⟨if f.isAddr then base else some Opnd.isS, tx, none, .imm 0x0000F true, true⟩
      | none => some ⟨some (fun _ => true), tx, none, .imm 0x0000F false, true⟩
    else none
  | 0x304 =>
    if md = 0 then
      some ⟨tx, some Opnd.isCtr, none, .imm 0x000F1 (decide ((x.extractLsb' 4 4).toNat ≤ 10)), true⟩ else none
  | 0x305 =>
    some ⟨sImm, base, us,
      .imm (if m.getLsbD 0 then 0xFFFF0 else 0xFFF00) (!m.getLsbD 0 || decide ((x.extractLsb' 4 4).toNat ≤ 10)),
      ctrZero (m.getLsbD 1) (m.extractLsb' 2 4)⟩
  | 0x306 =>
    if md = 0 then some ⟨some Opnd.isS, sImm, none, .imm 0x0000F (decide ((x.extractLsb' 0 4).toNat ≤ 6)), true⟩
    else none
  | 0x307 =>
    if (m.extractLsb' 4 2) = 0 then
      some ⟨sl, some (Opnd.isTl (m.getLsbD 2)), some (Opnd.isTl (m.getLsbD 3)), .reg Opnd.isS, true⟩ else none
  | 0x308 => if (m.extractLsb' 4 2) = 0 then some ⟨sl, tx, tx, .reg Opnd.isQuad, true⟩ else none
  | 0x309 =>
    if m.getLsbD 0 then some ⟨none, none, none, xNone, ctrZero (m.getLsbD 1) (m.extractLsb' 2 4)⟩
    else some ⟨none, base, us, xI12, ctrZero (m.getLsbD 1) (m.extractLsb' 2 4)⟩
  | 0x30A => some ⟨none, base, us, xI12, ctrZero (m.getLsbD 1) (m.extractLsb' 2 4)⟩
  | 0x30B | 0x30C =>
    some ⟨if m.getLsbD 0 then sl else some (Opnd.isTl false), tx, quad,
      xCopy false (m.getLsbD 1 || m.getLsbD 2) (m.getLsbD 4) (m.getLsbD 3) x, true⟩
  | 0x30D =>
    some ⟨some (Opnd.isTl (!m.getLsbD 5)), sImm, none, xNone, ctrZero (m.getLsbD 0) (m.extractLsb' 1 4)⟩
  | 0x30E => if md = 0 then some ⟨some Opnd.isV, sl, sImm, xNone, true⟩ else none
  | 0x30F => if md = 0 then some ⟨some Opnd.isVSKImm, sl, sImm, xNone, true⟩ else none
  | 0x310 =>
    if !m.getLsbD 5 then
      some ⟨some (fun y => if m.getLsbD 4 then y.isV else y.isS && y.aligned 2), sl, sl, .reg Opnd.isSKImm, true⟩
    else none
  | 0x311 => if (m.extractLsb' 0 2).toNat ≤ 1 then some ⟨tx, tx, quad, .reg Opnd.isBase, true⟩ else none
  | 0x312 =>
    if md = 0 then some ⟨none, none, none, xNone, true⟩
    else if md = 1 then some ⟨none, base, us, xI12, true⟩ else none
  | 0x313 => if md = 0 then some ⟨none, some (fun y => y.isV || y.isS), none, xNone, true⟩ else none
  | 0x314 => if md ≤ 1 then some ⟨none, none, none, xNone, true⟩ else none
  | 0x315 => if md = 0 then some ⟨none, none, none, xNone, true⟩ else none
  | 0x316 =>
    if md = 0 then some ⟨some (fun y => y.isV || y.isS), none, none, xNone, true⟩
    else if md = 1 then some ⟨some Opnd.isS, none, none, xNone, true⟩ else none
  | 0x317 | 0x318 => if md = 0 then some ⟨none, none, none, xI20, true⟩ else none
  | 0x319 =>
    match CollKind.ofCode (m.extractLsb' 0 3) with
    | some .bar => some ⟨none, none, quad, .reg Opnd.isBase, true⟩
    | some _ => some ⟨tx, tx, quad, .reg Opnd.isBase, true⟩
    | none => none
  | _ => none

/-- The opcodes of the opcode map (R53). -/
def opDefined (op : Nat) : Bool :=
  (0x001 ≤ op && op ≤ 0x017) || (0x081 ≤ op && op ≤ 0x09C) || (0x101 ≤ op && op ≤ 0x114) ||
  (0x181 ≤ op && op ≤ 0x18E) || (0x201 ≤ op && op ≤ 0x20F) || (0x281 ≤ op && op ≤ 0x28C) ||
  (0x301 ≤ op && op ≤ 0x319)

/-- The opcodes of latency category V (R53), which must name a flag (R44). -/
def isCatV (op : Nat) : Bool :=
  op ∈ [0x00B, 0x012, 0x015, 0x017, 0x201, 0x203, 0x205, 0x206, 0x207, 0x208, 0x20A,
        0x303, 0x306, 0x30E, 0x310, 0x316]

/-- The form of a word by its class (R53). -/
def formOf (r : Raw) : Option Form :=
  match (r.op.extractLsb' 7 3).toNat with
  | 0 => formOf0 r
  | 1 => formOf1 r
  | 2 => formOf2 r
  | 3 => formOf3 r
  | 4 => formOf4 r
  | 5 => formOf5 r
  | 6 => formOf6 r
  | _ => none

/-- The position passes check 5 of R54: its index is not reserved, where the form uses it. -/
def posIndexOk (acc : Option (Opnd → Bool)) (b : BitVec 10) : Bool :=
  match acc with
  | none => true
  | some _ => (Opnd.ofBits b).isSome

/-- The position passes check 6: it is zero, where the form does not use it. -/
def posZeroOk (acc : Option (Opnd → Bool)) (b : BitVec 10) : Bool :=
  match acc with
  | none => decide (b = 0)
  | some _ => true

/-- The position passes check 8: its class and index are ones the form accepts. -/
def posClassOk (acc : Option (Opnd → Bool)) (b : BitVec 10) : Bool :=
  match acc with
  | none => true
  | some f => f ((Opnd.ofBits b).getD (.imm 0))

/-- The fourth operand as a position. -/
def XForm.acc : XForm → Option (Opnd → Bool)
  | .imm _ _ => none
  | .reg f => some f

/-- `x` passes check 6. -/
def XForm.zeroOk (f : XForm) (x : BitVec 20) : Bool :=
  match f with
  | .imm used _ => decide (x &&& ~~~used = 0)
  | .reg _ => decide (x.extractLsb' 0 10 = 0)

/-- `x` passes check 7. -/
def XForm.subOk : XForm → Bool
  | .imm _ ok => ok
  | .reg _ => true

/-- The first of the positions d, a, b, x that fails, numbered 1 to 4; 0 where none fails. -/
def firstPos (d a b x : Bool) : BitVec 3 :=
  if !d then 1 else if !a then 2 else if !b then 3 else if !x then 4 else 0

/-- Decode checks 1 to 8 of R54, in order: the first that fails gives the trap. -/
def check (r : Raw) : Option DecErr :=
  if !opDefined r.op.toNat then some ⟨0x000, 0⟩
  else
    match formOf r with
    | none => some ⟨0x001, 0⟩
    | some f =>
      let xb : BitVec 10 := r.x.extractLsb' 10 10
      let p5 := firstPos (posIndexOk f.d r.d) (posIndexOk f.a r.a) (posIndexOk f.b r.b) (posIndexOk f.x.acc xb)
      let p6 := firstPos (posZeroOk f.d r.d) (posZeroOk f.a r.a) (posZeroOk f.b r.b) (f.x.zeroOk r.x)
      let p8 := firstPos (posClassOk f.d r.d) (posClassOk f.a r.a) (posClassOk f.b r.b) (posClassOk f.x.acc xb)
      if r.rsv ≠ 0 then some ⟨0x002, 0⟩
      else if (12 ≤ r.set.toNat && decide (r.set.toNat ≤ 14)) || (decide (r.set.toNat = 15) && isCatV r.op.toNat) then
        some ⟨0x003, 0⟩
      else if p5 ≠ 0 then some ⟨0x004, p5⟩
      else if p6 ≠ 0 then some ⟨0x005, p6⟩
      else if !f.zeroOk then some ⟨0x005, 0⟩
      else if !f.x.subOk then some ⟨0x006, 0⟩
      else if p8 ≠ 0 then some ⟨0x020 + (p8.setWidth 9 - 1), p8⟩
      else none

/-- The guard and timing fields of a word. -/
def Raw.hints (r : Raw) : Hints where
  neg := r.g.getLsbD 4
  gp := r.g.extractLsb' 0 4
  dist := r.dist
  wait := r.wait
  set := r.set
  yld := decide (r.yld = 1)

/-- The instruction that a checked class-0 word stands for. -/
def build0 (r : Raw) : Option Instr :=
  let h := r.hints
  let ix (b : BitVec 10) : BitVec 4 := b.extractLsb' 0 4
  let xb : BitVec 10 := r.x.extractLsb' 10 10
  let md := r.md.toNat
  match r.op.toNat with
  | 0x001 => some (.nop h r.x)
  | 0x002 => some (.bra h r.x)
  | 0x003 => if md = 0 then some (.brx h (ix xb)) else some (.brxIx h r.bOpnd (ix xb))
  | 0x004 => some (.call h (ix r.d) r.x)
  | 0x005 => if md = 0 then some (.callx h (ix r.d) (ix xb)) else some (.callxIx h (ix r.d) r.bOpnd (ix xb))
  | 0x006 => some (.ret h (ix xb))
  | 0x007 => some (.exit h)
  | 0x008 => some (.join h (r.d.extractLsb' 0 3))
  | 0x009 => some (.waitj h (r.a.extractLsb' 0 3))
  | 0x00A => some (.reform h r.aOpnd)
  | 0x00B => some (.spawn h (r.d.extractLsb' 0 6) r.aOpnd r.bOpnd (r.x.extractLsb' 0 8))
  | 0x00C => some (.yield h r.x)
  | 0x00D => some (.bar h (r.x.extractLsb' 0 4))
  | 0x00E => some (.bararv h (r.x.extractLsb' 0 4))
  | 0x00F =>
    if md = 0 then some (.barinit h (r.x.extractLsb' 0 4) (r.x.extractLsb' 8 12))
    else some (.barinitA h r.aOpnd (r.x.extractLsb' 0 4))
  | 0x010 => some (.trap h (r.x.extractLsb' 0 5))
  | 0x011 =>
    if md = 0 then some (.rthSkip h) else if md = 1 then some (.rthRetry h) else some (.rthTo h (ix r.a))
  | 0x012 => some (.sys h (r.d.extractLsb' 0 6) r.aOpnd (r.x.extractLsb' 8 12))
  | 0x013 => some (.bkpt h r.x)
  | 0x014 => some (.mark h r.x)
  | 0x015 => (SpReg.ofCode (r.x.extractLsb' 8 12)).map fun sr => .rdsp h r.dOpnd sr
  | 0x016 => (SpReg.ofCode (r.x.extractLsb' 8 12)).map fun sr => .wrsp h r.aOpnd sr
  | 0x017 => some (.hvq h (r.d.extractLsb' 0 6) (r.x.extractLsb' 0 4))
  | _ => none

/-- The instruction that a checked class-1 word stands for. -/
def build1 (r : Raw) : Option Instr :=
  let h := r.hints
  let d := r.dOpnd
  let a := r.aOpnd
  let b := r.bOpnd
  let x := r.xOpnd
  let imm : BitVec 12 := r.x.extractLsb' 8 12
  let sat := r.md.getLsbD 2
  let w := r.md.getLsbD 1
  let pd : BitVec 4 := r.d.extractLsb' 0 4
  let px : BitVec 4 := r.x.extractLsb' 10 4
  (IntTy.ofCode (r.md.extractLsb' 0 2)).bind fun ty =>
  match r.op.toNat with
  | 0x081 => some (.iadd h ty sat d a b imm)
  | 0x082 => some (.isub h ty sat d a b imm)
  | 0x083 => some (.iaddc h (r.md.getLsbD 3) d a b x)
  | 0x084 => some (.imul h ty d a b imm)
  | 0x085 => some (.imulhi h ty d a b imm)
  | 0x086 => some (.imad h ty d a b x)
  | 0x087 => some (.imadw h (r.md.getLsbD 0) d a b x)
  | 0x088 => some (.imin h ty d a b imm)
  | 0x089 => some (.imax h ty d a b imm)
  | 0x08A => some (.iabs h w sat d a)
  | 0x08B => some (.ineg h w sat d a)
  | 0x08C => some (.and h w d a b imm)
  | 0x08D => some (.or h w d a b imm)
  | 0x08E => some (.xor h w d a b imm)
  | 0x08F => some (.andn h w d a b imm)
  | 0x090 => some (.not h w d a)
  | 0x091 => some (.shl h w d a b imm)
  | 0x092 => some (.shr h w d a b imm)
  | 0x093 => some (.sar h w d a b imm)
  | 0x094 => some (.rot h w d a b imm)
  | 0x095 => some (.popc h w d a)
  | 0x096 => some (.clz h w d a)
  | 0x097 => some (.ctz h w d a)
  | 0x098 => some (.brev h w d a)
  | 0x099 => some (.bfx h ty d a b imm)
  | 0x09A => some (.bfi h w d a b x)
  | 0x09B => (ICc.ofCode (r.md.extractLsb' 3 3)).map fun cc => .icmp h ty cc pd a b imm
  | 0x09C => some (.isel h w d a b px)
  | _ => none

/-- The instruction that a checked class-2 word stands for. -/
def build2 (r : Raw) : Option Instr :=
  let h := r.hints
  let d := r.dOpnd
  let a := r.aOpnd
  let b := r.bOpnd
  let x := r.xOpnd
  let px : BitVec 4 := r.x.extractLsb' 10 4
  let hty : HTy := if r.md.getLsbD 0 then .bf16 else .f16
  let rm := (Rm.ofCode (r.md.extractLsb' 3 3)).getD .rne
  (FTy.ofCode (r.md.extractLsb' 0 3)).bind fun ty =>
  match r.op.toNat with
  | 0x101 => some (.fadd h ty rm d a b)
  | 0x102 => some (.fsub h ty rm d a b)
  | 0x103 => some (.fmul h ty rm d a b)
  | 0x104 => some (.ffma h ty rm d a b x)
  | 0x105 => some (.fmin h ty d a b)
  | 0x106 => some (.fmax h ty d a b)
  | 0x107 => (FCc.ofCode (r.md.extractLsb' 3 3)).map fun cc => .fcmp h ty cc (r.d.extractLsb' 0 4) a b
  | 0x108 => some (.fsel h ty d a b px)
  | 0x109 => some (.frcp h ty rm d a)
  | 0x10A => some (.frsq h ty rm d a)
  | 0x10B => some (.fsqrt h ty rm d a)
  | 0x10C => some (.fdiv h ty rm d a b)
  | 0x10D => some (.fexp2 h ty rm d a)
  | 0x10E => some (.flog2 h ty rm d a)
  | 0x10F => some (.fsin h ty rm d a)
  | 0x110 => some (.fcos h ty rm d a)
  | 0x111 => some (.fscale h ty rm d a b)
  | 0x112 => some (.fclass h ty d a)
  | 0x113 => some (.fdot2 h hty rm d a b x)
  | 0x114 => some (.hfma2 h hty rm d a b x)
  | _ => none

/-- The instruction that a checked class-3 word stands for. -/
def build3 (r : Raw) : Option Instr :=
  let h := r.hints
  let d := r.dOpnd
  let a := r.aOpnd
  let b := r.bOpnd
  let vd : BitVec 8 := r.d.extractLsb' 0 8
  let va : BitVec 8 := r.a.extractLsb' 0 8
  let sd : BitVec 6 := r.d.extractLsb' 0 6
  let pd : BitVec 4 := r.d.extractLsb' 0 4
  let md := r.md.toNat
  match r.op.toNat with
  | 0x181 => some (.mov h (decide (md = 1)) d a)
  | 0x182 => some (.movi h d r.x)
  | 0x183 => some (.movhi h d r.x)
  | 0x184 =>
    (Rm.ofCode (r.md.extractLsb' 3 3)).bind fun rm =>
    (CvtFmt.ofCode (r.x.extractLsb' 4 4)).bind fun t =>
    (CvtFmt.ofCode (r.x.extractLsb' 0 4)).map fun f => .cvt h rm (r.md.getLsbD 2) t f d a
  | 0x185 => some (.cbdec h (decide (md = 1)) d a (r.b.extractLsb' 0 6) (r.x.extractLsb' 0 3))
  | 0x186 => (ShflMode.ofCode (r.md.extractLsb' 0 2)).map fun m => .shfl h m vd a b (r.x.extractLsb' 8 12)
  | 0x187 => (VoteMode.ofCode (r.md.extractLsb' 0 2)).map fun m => .vote h m d (r.a.extractLsb' 0 4)
  | 0x188 => (ReduxOp.ofCode (r.md.extractLsb' 3 3)).map fun op => .redux h op d va
  | 0x189 => some (.prmt h (decide (md = 1)) d a b r.xOpnd)
  | 0x18A => if md = 0 then some (.shape h vd va) else some (.shapeQ h sd va)
  | 0x18B => some (.expand h vd va)
  | 0x18C =>
    if md = 0 then some (.smov h sd va) else if md = 1 then some (.smovChk h sd va)
    else some (.smovLane h sd va (r.x.extractLsb' 0 5))
  | 0x18D => some (.pset h (decide (md = 1)) pd a)
  | 0x18E =>
    (PlopOp.ofCode (r.md.extractLsb' 0 3)).map fun op =>
      .plop h op (r.md.getLsbD 3) (r.md.getLsbD 4) (r.md.getLsbD 5) pd (r.a.extractLsb' 0 4)
        (r.b.extractLsb' 0 4) (r.x.extractLsb' 10 4)
  | _ => none

/-- The instruction that a checked class-4 word stands for. -/
def build4 (r : Raw) : Option Instr :=
  let h := r.hints
  let d := r.dOpnd
  let b := r.bOpnd
  let vd : BitVec 8 := r.d.extractLsb' 0 8
  let sd : BitVec 6 := r.d.extractLsb' 0 6
  let bd : BitVec 4 := r.d.extractLsb' 0 4
  let ba : BitVec 4 := r.a.extractLsb' 0 4
  let imm : BitVec 12 := r.x.extractLsb' 8 12
  let sc : BitVec 4 := r.x.extractLsb' 4 4
  let o := r.md.getLsbD 3
  let ob := r.x.getLsbD 3
  let md := r.md.toNat
  let rw : ResW := if r.md.getLsbD 0 then .b64 else .b32
  match r.op.toNat with
  | 0x201 =>
    (Width.ofCode (r.md.extractLsb' 0 3)).bind fun w =>
    (Pol.ofCode (r.md.extractLsb' 4 2)).map fun pol => .ld h w o pol vd ba b imm sc ob
  | 0x202 =>
    (Width.ofCode (r.md.extractLsb' 0 3)).bind fun w =>
    (Pol.ofCode (r.md.extractLsb' 4 2)).map fun pol => .st h w o pol d ba b imm sc ob
  | 0x203 => (Width.ofCode (r.md.extractLsb' 0 3)).map fun w => .ldu h w o d ba b imm sc ob
  | 0x204 => (PrefKind.ofCode (r.md.extractLsb' 0 2)).map fun k => .pref h k o ba b imm
  | 0x205 => some (.ldres h rw o vd ba b imm sc ob)
  | 0x206 => some (.stcond h rw o (r.md.getLsbD 4) vd ba b imm sc (r.x.extractLsb' 0 4))
  | 0x207 =>
    (AtomOp.ofCode (r.md.extractLsb' 0 4)).bind fun op =>
    (IntTy.ofCode (r.md.extractLsb' 4 2)).map fun ty => .atom h op ty vd ba b r.xOpnd
  | 0x208 =>
    (FTy.ofCode (r.md.extractLsb' 0 3)).bind fun ty =>
    match FatomOp.ofCode (r.md.extractLsb' 3 3) with
    | some op => some (.fatom h op ty vd ba b r.xOpnd)
    | none => some (.fatomOrd h vd ba b r.xOpnd)
  | 0x209 => if md = 0 then some (.acell h ba b imm sc) else some (.acellClose h ba imm sc)
  | 0x20A => some (.acread h sd ba imm)
  | 0x20B => some (.pst h d (r.a.extractLsb' 0 6) b r.xOpnd)
  | 0x20C => (FenceKind.ofCode (r.md.extractLsb' 0 2)).map fun k => .fence h k sc
  | 0x20D =>
    if md = 0 then some (.bset h bd ba b r.x)
    else if md = 1 then some (.bsetAdd64 h bd ba (r.b.extractLsb' 0 6) r.x)
    else if md = 2 then some (.bsetIns h bd ba b (r.x.extractLsb' 0 2))
    else some (.bsetRd h sd ba (r.x.extractLsb' 0 2))
  | 0x20E => (CctlKind.ofCode (r.md.extractLsb' 0 2)).map fun k => .cctl h k ba b imm
  | 0x20F => if md = 0 then some (.tlbinvPage h ba b imm) else some (.tlbinvAll h)
  | _ => none

/-- The COPY and COPYW fields of a word (R235). -/
def Raw.copyMd (r : Raw) : CopyMd where
  st := r.md.getLsbD 0
  acq := r.md.getLsbD 1
  rel := r.md.getLsbD 2
  bar := r.md.getLsbD 3
  ctr := r.md.getLsbD 4
  z := r.md.getLsbD 5
  tag := r.x.extractLsb' 14 6
  ctrIx := r.x.extractLsb' 10 4
  scope := r.x.extractLsb' 4 4
  barIx := r.x.extractLsb' 0 4

/-- The MLDT and MSTT fields of a word (R265). -/
def Raw.xferMd (r : Raw) : XferMd where
  slab := r.md.getLsbD 0
  acq := r.md.getLsbD 1
  rel := r.md.getLsbD 2
  bar := r.md.getLsbD 3
  ctr := r.md.getLsbD 4
  z := r.md.getLsbD 5
  ctrIx := r.x.extractLsb' 10 4
  scope := r.x.extractLsb' 4 4
  barIx := r.x.extractLsb' 0 4

/-- The instruction that a checked class-5 word stands for. -/
def build5 (r : Raw) : Option Instr :=
  let h := r.hints
  let d := r.dOpnd
  let ba : BitVec 4 := r.a.extractLsb' 0 4
  let sd : BitVec 6 := r.d.extractLsb' 0 6
  let imm : BitVec 12 := r.x.extractLsb' 8 12
  let tx : BitVec 6 := r.a.extractLsb' 0 6
  let q : BitVec 6 := r.b.extractLsb' 0 6
  let md := r.md.toNat
  match r.op.toNat with
  | 0x281 => some (.lookup h d ba r.bOpnd imm)
  | 0x282 => some (.tagset h d ba r.bOpnd imm)
  | 0x283 => if md = 0 then some (.tagclr h d) else if md = 1 then some (.tagclrLend h d) else some (.tagclrAll h)
  | 0x284 => if md = 0 then some (.tagrd h sd r.aOpnd) else some (.tagrdAddr h (r.d.extractLsb' 0 4) r.aOpnd)
  | 0x285 => some (.copy h r.copyMd d tx q)
  | 0x286 => some (.copyw h r.copyMd d tx q)
  | 0x287 =>
    some (.copym h (r.md.getLsbD 1) (r.md.getLsbD 2) (r.md.getLsbD 5) d tx q (r.x.extractLsb' 10 6))
  | 0x288 => some (.waitany h (decide (md = 1)) r.aOpnd)
  | 0x289 => some (.waitall h (decide (md = 1)) r.aOpnd)
  | 0x28A => some (.ffready h (decide (md = 1)) sd r.aOpnd)
  | 0x28B => some (.cwaitlt h ba imm)
  | 0x28C => some (.ctrrd h sd ba (r.x.extractLsb' 0 4))
  | _ => none

/-- The instruction that a checked class-6 word stands for. -/
def build6 (r : Raw) : Option Instr :=
  let h := r.hints
  let d := r.dOpnd
  let a := r.aOpnd
  let b := r.bOpnd
  let ba : BitVec 4 := r.a.extractLsb' 0 4
  let sd : BitVec 6 := r.d.extractLsb' 0 6
  let dtx : BitVec 6 := r.d.extractLsb' 0 6
  let atx : BitVec 6 := r.a.extractLsb' 0 6
  let q : BitVec 6 := r.b.extractLsb' 0 6
  let xs : BitVec 6 := r.x.extractLsb' 10 6
  let xbase : BitVec 4 := r.x.extractLsb' 10 4
  let imm : BitVec 12 := r.x.extractLsb' 8 12
  let sc : BitVec 4 := r.x.extractLsb' 4 4
  let m (i : Nat) : Bool := r.md.getLsbD i
  let md := r.md.toNat
  match r.op.toNat with
  | 0x301 => if md = 0 then some (.tdef h dtx ba b imm) else some (.tdefInv h dtx)
  | 0x302 => (TFld.ofCode (r.x.extractLsb' 0 4)).map fun f => .tset h dtx a f
  | 0x303 => (TFld.ofCode (r.x.extractLsb' 0 4)).map fun f => .tget h d atx f
  | 0x304 => some (.tloadcb h dtx ba sc (r.x.getLsbD 0))
  | 0x305 => some (.batload h (m 0) (m 1) (r.md.extractLsb' 2 4) d ba b imm sc)
  | 0x306 => some (.batstat h sd a (r.x.extractLsb' 0 4))
  | 0x307 => some (.mmt h (m 0) (m 1) (m 2) (m 3) d a b xs)
  | 0x308 => some (.mmx h (m 0) (m 1) (m 2) (m 3) d atx q xs)
  | 0x309 =>
    if m 0 then some (.mresumeReg h (m 1) (r.md.extractLsb' 2 4))
    else some (.mresume h (m 1) (r.md.extractLsb' 2 4) ba b imm)
  | 0x30A => some (.msave h (m 0) (m 1) (r.md.extractLsb' 2 4) ba b imm)
  | 0x30B => some (.mldt h r.xferMd d atx q)
  | 0x30C => some (.mstt h r.xferMd d atx q)
  | 0x30D => some (.mzero h (m 0) (r.md.extractLsb' 1 4) (m 5) d a)
  | 0x30E => some (.mrd h (r.d.extractLsb' 0 8) a b)
  | 0x30F => some (.mwr h d a b)
  | 0x310 => some (.mchk h (r.md.extractLsb' 0 3) (m 3) (m 4) d a b r.xOpnd)
  | 0x311 => some (.mdrain h (m 0) (m 2) (m 3) (m 4) (m 5) dtx atx q xbase)
  | 0x312 => if md = 0 then some (.tbegin h) else some (.tbeginSeg h ba b imm)
  | 0x313 => some (.trec h a)
  | 0x314 => if md = 0 then some (.tend h) else some (.tendDrop h)
  | 0x315 => some (.trev h)
  | 0x316 => if md = 0 then some (.tpop h d) else some (.tpopSt h sd)
  | 0x317 => some (.tbr h r.x)
  | 0x318 => some (.tmark h r.x)
  | 0x319 =>
    (CollKind.ofCode (r.md.extractLsb' 0 3)).map fun k => .coll h k (m 3) (m 4) (m 5) dtx atx q xbase
  | _ => none

/-- The instruction that a checked word stands for. -/
def build (r : Raw) : Option Instr :=
  match (r.op.extractLsb' 7 3).toNat with
  | 0 => build0 r
  | 1 => build1 r
  | 2 => build2 r
  | 3 => build3 r
  | 4 => build4 r
  | 5 => build5 r
  | 6 => build6 r
  | _ => none

/-- The decoder: the instruction, or the failed check of R54. -/
def decodeRaw (r : Raw) : Except DecErr Instr :=
  match check r with
  | some e => .error e
  | none =>
    match build r with
    | some i => .ok i
    | none => .error ⟨0x000, 0⟩

/-- The decoder on a 96-bit word. -/
def decode (w : BitVec 96) : Except DecErr Instr := decodeRaw (Raw.ofWord w)

/-- The decoder on the bytes at a slot: fewer than 12 bytes hold no instruction. -/
def decodeBytes (bs : List Byte) : Except DecErr Instr := decode (wordOfBytes (bs.take 12))

/-- The instruction that the decoder reads from a word whose bits are `w`, bit 0 the least significant bit
of the byte at the lowest address; bits from `nbits` up to bit 95 are zero. -/
def decodeTableWord (nbits w : Nat) : Option Instr :=
  match decodeBytes (wordBytes (BitVec.ofNat 96 (w % 2 ^ nbits))) with
  | .ok i => some i
  | .error _ => none

/-! ### The encoder -/

/-- The fields of a word with opcode `op` and modifiers `md`, every operand position zero. -/
def Hints.raw (h : Hints) (op : BitVec 10) (md : BitVec 6) : Raw where
  op := op
  md := md
  g := BitVec.ofBool h.neg ++ h.gp
  d := 0
  a := 0
  b := 0
  x := 0
  dist := h.dist
  wait := h.wait
  set := h.set
  yld := BitVec.ofBool h.yld
  rsv := 0

/-- `x` of an XR form: the operand in [19:10]. -/
def xrBits (o : Opnd) : BitVec 20 := o.bits ++ (0 : BitVec 10)
/-- `x` of an XI12 form: the immediate in [19:8] and the small fields below. -/
def xiBits (imm : BitVec 12) (small : BitVec 8) : BitVec 20 := imm ++ small
/-- One bit. -/
def bit (b : Bool) : BitVec 1 := BitVec.ofBool b

/-- Modifiers of class 1 (R130). -/
def md1 (ty : IntTy) (sat : Bool) (var : BitVec 3) : BitVec 6 := var ++ bit sat ++ ty.code
/-- Modifiers of class 1 for a `.n` type. -/
def md1n (w64 : Bool) : BitVec 6 := (0 : BitVec 4) ++ bit w64 ++ (0 : BitVec 1)
/-- Modifiers of IABS and INEG: a `.s` type. -/
def md1s (w64 sat : Bool) : BitVec 6 := (0 : BitVec 3) ++ bit sat ++ bit w64 ++ (1 : BitVec 1)
/-- Modifiers of class 2 (R136). -/
def md2 (ty : FTy) (sub : BitVec 3) : BitVec 6 := sub ++ ty.code
/-- Type code of the packed forms (R136). -/
def HTy.code : HTy → BitVec 3
  | .f16 => 2
  | .bf16 => 3
/-- Width code of LDRES and STCOND (R182). -/
def ResW.code : ResW → BitVec 3
  | .b32 => 2
  | .b64 => 3

def CopyMd.md (m : CopyMd) : BitVec 6 := bit m.z ++ bit m.ctr ++ bit m.bar ++ bit m.rel ++ bit m.acq ++ bit m.st
def CopyMd.x (m : CopyMd) : BitVec 20 := m.tag ++ m.ctrIx ++ (0 : BitVec 2) ++ m.scope ++ m.barIx
def XferMd.md (m : XferMd) : BitVec 6 := bit m.z ++ bit m.ctr ++ bit m.bar ++ bit m.rel ++ bit m.acq ++ bit m.slab
def XferMd.x (m : XferMd) : BitVec 20 := (0 : BitVec 6) ++ m.ctrIx ++ (0 : BitVec 2) ++ m.scope ++ m.barIx

/-- The fields of an instruction (R32, R53); none for an event, which has no word. -/
def toRaw : Instr → Option Raw
  | .nop h x => some { h.raw 0x001 0 with x := x }
  | .bra h t => some { h.raw 0x002 0 with x := t }
  | .brx h bN => some { h.raw 0x003 0 with x := xrBits (.base bN) }
  | .brxIx h o bN => some { h.raw 0x003 1 with b := o.bits, x := xrBits (.base bN) }
  | .call h bD t => some { h.raw 0x004 0 with d := (Opnd.base bD).bits, x := t }
  | .callx h bD bN => some { h.raw 0x005 0 with d := (Opnd.base bD).bits, x := xrBits (.base bN) }
  | .callxIx h bD o bN =>
    some { h.raw 0x005 1 with d := (Opnd.base bD).bits, b := o.bits, x := xrBits (.base bN) }
  | .ret h bN => some { h.raw 0x006 0 with x := xrBits (.base bN) }
  | .exit h => some (h.raw 0x007 0)
  | .join h j => some { h.raw 0x008 0 with d := (Opnd.j j).bits }
  | .waitj h j => some { h.raw 0x009 0 with a := (Opnd.j j).bits }
  | .reform h i => some { h.raw 0x00A 0 with a := i.bits }
  | .spawn h d e c n =>
    some { h.raw 0x00B 0 with d := (Opnd.s d).bits, a := e.bits, b := c.bits, x := xiBits 0 n }
  | .yield h n => some { h.raw 0x00C 0 with x := n }
  | .bar h n => some { h.raw 0x00D 0 with x := n.setWidth 20 }
  | .bararv h n => some { h.raw 0x00E 0 with x := n.setWidth 20 }
  | .barinit h n c => some { h.raw 0x00F 0 with x := xiBits c ((0 : BitVec 4) ++ n) }
  | .barinitA h c n => some { h.raw 0x00F 1 with a := c.bits, x := n.setWidth 20 }
  | .trap h n => some { h.raw 0x010 0 with x := n.setWidth 20 }
  | .rthSkip h => some (h.raw 0x011 0)
  | .rthRetry h => some (h.raw 0x011 1)
  | .rthTo h b => some { h.raw 0x011 2 with a := (Opnd.base b).bits }
  | .sys h d a v => some { h.raw 0x012 0 with d := (Opnd.s d).bits, a := a.bits, x := xiBits v 0 }
  | .bkpt h i => some { h.raw 0x013 0 with x := i }
  | .mark h i => some { h.raw 0x014 0 with x := i }
  | .rdsp h d sr => some { h.raw 0x015 0 with d := d.bits, x := xiBits sr.code 0 }
  | .wrsp h a sr => some { h.raw 0x016 0 with a := a.bits, x := xiBits sr.code 0 }
  | .hvq h d k => some { h.raw 0x017 0 with d := (Opnd.s d).bits, x := k.setWidth 20 }
  | .iadd h ty s d a b i => some { h.raw 0x081 (md1 ty s 0) with d := d.bits, a := a.bits, b := b.bits, x := xiBits i 0 }
  | .isub h ty s d a b i => some { h.raw 0x082 (md1 ty s 0) with d := d.bits, a := a.bits, b := b.bits, x := xiBits i 0 }
  | .iaddc h cy d a b x =>
    some { h.raw 0x083 ((0 : BitVec 2) ++ bit cy ++ (0 : BitVec 3)) with d := d.bits, a := a.bits, b := b.bits, x := xrBits x }
  | .imul h ty d a b i => some { h.raw 0x084 (md1 ty false 0) with d := d.bits, a := a.bits, b := b.bits, x := xiBits i 0 }
  | .imulhi h ty d a b i => some { h.raw 0x085 (md1 ty false 0) with d := d.bits, a := a.bits, b := b.bits, x := xiBits i 0 }
  | .imad h ty d a b x => some { h.raw 0x086 (md1 ty false 0) with d := d.bits, a := a.bits, b := b.bits, x := xrBits x }
  | .imadw h s d a b x =>
    some { h.raw 0x087 ((0 : BitVec 5) ++ bit s) with d := d.bits, a := a.bits, b := b.bits, x := xrBits x }
  | .imin h ty d a b i => some { h.raw 0x088 (md1 ty false 0) with d := d.bits, a := a.bits, b := b.bits, x := xiBits i 0 }
  | .imax h ty d a b i => some { h.raw 0x089 (md1 ty false 0) with d := d.bits, a := a.bits, b := b.bits, x := xiBits i 0 }
  | .iabs h w s d a => some { h.raw 0x08A (md1s w s) with d := d.bits, a := a.bits }
  | .ineg h w s d a => some { h.raw 0x08B (md1s w s) with d := d.bits, a := a.bits }
  | .and h w d a b i => some { h.raw 0x08C (md1n w) with d := d.bits, a := a.bits, b := b.bits, x := xiBits i 0 }
  | .or h w d a b i => some { h.raw 0x08D (md1n w) with d := d.bits, a := a.bits, b := b.bits, x := xiBits i 0 }
  | .xor h w d a b i => some { h.raw 0x08E (md1n w) with d := d.bits, a := a.bits, b := b.bits, x := xiBits i 0 }
  | .andn h w d a b i => some { h.raw 0x08F (md1n w) with d := d.bits, a := a.bits, b := b.bits, x := xiBits i 0 }
  | .not h w d a => some { h.raw 0x090 (md1n w) with d := d.bits, a := a.bits }
  | .shl h w d a b i => some { h.raw 0x091 (md1n w) with d := d.bits, a := a.bits, b := b.bits, x := xiBits i 0 }
  | .shr h w d a b i => some { h.raw 0x092 (md1n w) with d := d.bits, a := a.bits, b := b.bits, x := xiBits i 0 }
  | .sar h w d a b i => some { h.raw 0x093 (md1n w) with d := d.bits, a := a.bits, b := b.bits, x := xiBits i 0 }
  | .rot h w d a b i => some { h.raw 0x094 (md1n w) with d := d.bits, a := a.bits, b := b.bits, x := xiBits i 0 }
  | .popc h w d a => some { h.raw 0x095 (md1n w) with d := d.bits, a := a.bits }
  | .clz h w d a => some { h.raw 0x096 (md1n w) with d := d.bits, a := a.bits }
  | .ctz h w d a => some { h.raw 0x097 (md1n w) with d := d.bits, a := a.bits }
  | .brev h w d a => some { h.raw 0x098 (md1n w) with d := d.bits, a := a.bits }
  | .bfx h ty d a b i => some { h.raw 0x099 (md1 ty false 0) with d := d.bits, a := a.bits, b := b.bits, x := xiBits i 0 }
  | .bfi h w d a b x => some { h.raw 0x09A (md1n w) with d := d.bits, a := a.bits, b := b.bits, x := xrBits x }
  | .icmp h ty cc d a b i =>
    some { h.raw 0x09B (md1 ty false cc.code) with d := (Opnd.p d).bits, a := a.bits, b := b.bits, x := xiBits i 0 }
  | .isel h w d a b p => some { h.raw 0x09C (md1n w) with d := d.bits, a := a.bits, b := b.bits, x := xrBits (.p p) }
  | .fadd h ty rm d a b => some { h.raw 0x101 (md2 ty rm.code) with d := d.bits, a := a.bits, b := b.bits }
  | .fsub h ty rm d a b => some { h.raw 0x102 (md2 ty rm.code) with d := d.bits, a := a.bits, b := b.bits }
  | .fmul h ty rm d a b => some { h.raw 0x103 (md2 ty rm.code) with d := d.bits, a := a.bits, b := b.bits }
  | .ffma h ty rm d a b x => some { h.raw 0x104 (md2 ty rm.code) with d := d.bits, a := a.bits, b := b.bits, x := xrBits x }
  | .fmin h ty d a b => some { h.raw 0x105 (md2 ty 0) with d := d.bits, a := a.bits, b := b.bits }
  | .fmax h ty d a b => some { h.raw 0x106 (md2 ty 0) with d := d.bits, a := a.bits, b := b.bits }
  | .fcmp h ty cc d a b => some { h.raw 0x107 (md2 ty cc.code) with d := (Opnd.p d).bits, a := a.bits, b := b.bits }
  | .fsel h ty d a b p => some { h.raw 0x108 (md2 ty 0) with d := d.bits, a := a.bits, b := b.bits, x := xrBits (.p p) }
  | .frcp h ty rm d a => some { h.raw 0x109 (md2 ty rm.code) with d := d.bits, a := a.bits }
  | .frsq h ty rm d a => some { h.raw 0x10A (md2 ty rm.code) with d := d.bits, a := a.bits }
  | .fsqrt h ty rm d a => some { h.raw 0x10B (md2 ty rm.code) with d := d.bits, a := a.bits }
  | .fdiv h ty rm d a b => some { h.raw 0x10C (md2 ty rm.code) with d := d.bits, a := a.bits, b := b.bits }
  | .fexp2 h ty rm d a => some { h.raw 0x10D (md2 ty rm.code) with d := d.bits, a := a.bits }
  | .flog2 h ty rm d a => some { h.raw 0x10E (md2 ty rm.code) with d := d.bits, a := a.bits }
  | .fsin h ty rm d a => some { h.raw 0x10F (md2 ty rm.code) with d := d.bits, a := a.bits }
  | .fcos h ty rm d a => some { h.raw 0x110 (md2 ty rm.code) with d := d.bits, a := a.bits }
  | .fscale h ty rm d a b => some { h.raw 0x111 (md2 ty rm.code) with d := d.bits, a := a.bits, b := b.bits }
  | .fclass h ty d a => some { h.raw 0x112 (md2 ty 0) with d := d.bits, a := a.bits }
  | .fdot2 h ty rm d a b x =>
    some { h.raw 0x113 (rm.code ++ ty.code) with d := d.bits, a := a.bits, b := b.bits, x := xrBits x }
  | .hfma2 h ty rm d a b x =>
    some { h.raw 0x114 (rm.code ++ ty.code) with d := d.bits, a := a.bits, b := b.bits, x := xrBits x }
  | .mov h w d a => some { h.raw 0x181 ((bit w).setWidth 6) with d := d.bits, a := a.bits }
  | .movi h d i => some { h.raw 0x182 0 with d := d.bits, x := i }
  | .movhi h d i => some { h.raw 0x183 0 with d := d.bits, x := i }
  | .cvt h rm s t f d a =>
    some { h.raw 0x184 (rm.code ++ bit s ++ (0 : BitVec 2)) with
      d := d.bits, a := a.bits, x := xiBits 0 (t.code ++ f.code) }
  | .cbdec h x2 d a tx n =>
    some { h.raw 0x185 ((bit x2).setWidth 6) with
      d := d.bits, a := a.bits, b := (Opnd.tx tx).bits, x := n.setWidth 20 }
  | .shfl h m d a b i =>
    some { h.raw 0x186 (m.code.setWidth 6) with d := (Opnd.v d).bits, a := a.bits, b := b.bits, x := xiBits i 0 }
  | .vote h m d a => some { h.raw 0x187 (m.code.setWidth 6) with d := d.bits, a := (Opnd.p a).bits }
  | .redux h op d a => some { h.raw 0x188 (op.code ++ (0 : BitVec 3)) with d := d.bits, a := (Opnd.v a).bits }
  | .prmt h n d a b x =>
    some { h.raw 0x189 ((bit n).setWidth 6) with d := d.bits, a := a.bits, b := b.bits, x := xrBits x }
  | .shape h d a => some { h.raw 0x18A 0 with d := (Opnd.v d).bits, a := (Opnd.v a).bits }
  | .shapeQ h d a => some { h.raw 0x18A 1 with d := (Opnd.s d).bits, a := (Opnd.v a).bits }
  | .expand h d a => some { h.raw 0x18B 0 with d := (Opnd.v d).bits, a := (Opnd.v a).bits }
  | .smov h d a => some { h.raw 0x18C 0 with d := (Opnd.s d).bits, a := (Opnd.v a).bits }
  | .smovChk h d a => some { h.raw 0x18C 1 with d := (Opnd.s d).bits, a := (Opnd.v a).bits }
  | .smovLane h d a n => some { h.raw 0x18C 2 with d := (Opnd.s d).bits, a := (Opnd.v a).bits, x := n.setWidth 20 }
  | .pset h nz d a => some { h.raw 0x18D ((bit nz).setWidth 6) with d := (Opnd.p d).bits, a := a.bits }
  | .plop h op na nb nc d a b x =>
    some { h.raw 0x18E (bit nc ++ bit nb ++ bit na ++ op.code) with
      d := (Opnd.p d).bits, a := (Opnd.p a).bits, b := (Opnd.p b).bits, x := xrBits (.p x) }
  | .ld h w o pol d a b i sc q =>
    some { h.raw 0x201 (pol.code ++ bit o ++ w.code) with
      d := (Opnd.v d).bits, a := (Opnd.base a).bits, b := b.bits, x := xiBits i (sc ++ bit q ++ (0 : BitVec 3)) }
  | .st h w o pol d a b i sc q =>
    some { h.raw 0x202 (pol.code ++ bit o ++ w.code) with
      d := d.bits, a := (Opnd.base a).bits, b := b.bits, x := xiBits i (sc ++ bit q ++ (0 : BitVec 3)) }
  | .ldu h w o d a b i sc q =>
    some { h.raw 0x203 ((0 : BitVec 2) ++ bit o ++ w.code) with
      d := d.bits, a := (Opnd.base a).bits, b := b.bits, x := xiBits i (sc ++ bit q ++ (0 : BitVec 3)) }
  | .pref h k o a b i =>
    some { h.raw 0x204 ((0 : BitVec 2) ++ bit o ++ (0 : BitVec 1) ++ k.code) with
      a := (Opnd.base a).bits, b := b.bits, x := xiBits i 0 }
  | .ldres h w o d a b i sc q =>
    some { h.raw 0x205 ((0 : BitVec 2) ++ bit o ++ w.code) with
      d := (Opnd.v d).bits, a := (Opnd.base a).bits, b := b.bits, x := xiBits i (sc ++ bit q ++ (0 : BitVec 3)) }
  | .stcond h w rel o d a b i sc p =>
    some { h.raw 0x206 ((0 : BitVec 1) ++ bit o ++ bit rel ++ w.code) with
      d := (Opnd.v d).bits, a := (Opnd.base a).bits, b := b.bits, x := xiBits i (sc ++ p) }
  | .atom h op ty d a b x =>
    some { h.raw 0x207 (ty.code ++ op.code) with
      d := (Opnd.v d).bits, a := (Opnd.base a).bits, b := b.bits, x := xrBits x }
  | .fatom h op ty d a b x =>
    some { h.raw 0x208 (op.code ++ ty.code) with
      d := (Opnd.v d).bits, a := (Opnd.base a).bits, b := b.bits, x := xrBits x }
  | .fatomOrd h d a q x =>
    some { h.raw 0x208 0b011000 with
      d := (Opnd.v d).bits, a := (Opnd.base a).bits, b := q.bits, x := xrBits x }
  | .acell h a c i sc =>
    some { h.raw 0x209 0 with a := (Opnd.base a).bits, b := c.bits, x := xiBits i (sc ++ (0 : BitVec 4)) }
  | .acellClose h a i sc =>
    some { h.raw 0x209 1 with a := (Opnd.base a).bits, x := xiBits i (sc ++ (0 : BitVec 4)) }
  | .acread h d a i => some { h.raw 0x20A 0 with d := (Opnd.s d).bits, a := (Opnd.base a).bits, x := xiBits i 0 }
  | .pst h d tx i0 i1 =>
    some { h.raw 0x20B 0 with d := d.bits, a := (Opnd.tx tx).bits, b := i0.bits, x := xrBits i1 }
  | .fence h k sc => some { h.raw 0x20C (k.code.setWidth 6) with x := xiBits 0 (sc ++ (0 : BitVec 4)) }
  | .bset h d a u i =>
    some { h.raw 0x20D 0 with d := (Opnd.base d).bits, a := (Opnd.base a).bits, b := u.bits, x := i }
  | .bsetAdd64 h d a p i =>
    some { h.raw 0x20D 1 with d := (Opnd.base d).bits, a := (Opnd.base a).bits, b := (Opnd.s p).bits, x := i }
  | .bsetIns h d a u k =>
    some { h.raw 0x20D 2 with d := (Opnd.base d).bits, a := (Opnd.base a).bits, b := u.bits, x := k.setWidth 20 }
  | .bsetRd h d a k =>
    some { h.raw 0x20D 3 with d := (Opnd.s d).bits, a := (Opnd.base a).bits, x := k.setWidth 20 }
  | .cctl h k a b i =>
    some { h.raw 0x20E (k.code.setWidth 6) with a := (Opnd.base a).bits, b := b.bits, x := xiBits i 0 }
  | .tlbinvPage h a u i => some { h.raw 0x20F 0 with a := (Opnd.base a).bits, b := u.bits, x := xiBits i 0 }
  | .tlbinvAll h => some (h.raw 0x20F 1)
  | .lookup h d a b i =>
    some { h.raw 0x281 0 with d := d.bits, a := (Opnd.base a).bits, b := b.bits, x := xiBits i 0 }
  | .tagset h s a u i =>
    some { h.raw 0x282 0 with d := s.bits, a := (Opnd.base a).bits, b := u.bits, x := xiBits i 0 }
  | .tagclr h s => some { h.raw 0x283 0 with d := s.bits }
  | .tagclrLend h s => some { h.raw 0x283 1 with d := s.bits }
  | .tagclrAll h => some (h.raw 0x283 2)
  | .tagrd h d s => some { h.raw 0x284 0 with d := (Opnd.s d).bits, a := s.bits }
  | .tagrdAddr h d s => some { h.raw 0x284 1 with d := (Opnd.base d).bits, a := s.bits }
  | .copy h m s tx q =>
    some { h.raw 0x285 m.md with d := s.bits, a := (Opnd.tx tx).bits, b := (Opnd.s q).bits, x := m.x }
  | .copyw h m s tx q =>
    some { h.raw 0x286 m.md with d := s.bits, a := (Opnd.tx tx).bits, b := (Opnd.s q).bits, x := m.x }
  | .copym h q r z s tx qd xq =>
    some { h.raw 0x287 (bit z ++ (0 : BitVec 2) ++ bit r ++ bit q ++ (0 : BitVec 1)) with
      d := s.bits, a := (Opnd.tx tx).bits, b := (Opnd.s qd).bits, x := xrBits (.s xq) }
  | .waitany h lo m => some { h.raw 0x288 ((bit lo).setWidth 6) with a := m.bits }
  | .waitall h lo m => some { h.raw 0x289 ((bit lo).setWidth 6) with a := m.bits }
  | .ffready h lo d m => some { h.raw 0x28A ((bit lo).setWidth 6) with d := (Opnd.s d).bits, a := m.bits }
  | .cwaitlt h c t => some { h.raw 0x28B 0 with a := (Opnd.ctr c).bits, x := xiBits t 0 }
  | .ctrrd h d c k =>
    some { h.raw 0x28C 0 with
      d := (Opnd.s d).bits, a := if k = 0 then (Opnd.ctr c).bits else 0, x := k.setWidth 20 }
  | .tdef h tx a b i =>
    some { h.raw 0x301 0 with d := (Opnd.tx tx).bits, a := (Opnd.base a).bits, b := b.bits, x := xiBits i 0 }
  | .tdefInv h tx => some { h.raw 0x301 1 with d := (Opnd.tx tx).bits }
  | .tset h tx a f => some { h.raw 0x302 0 with d := (Opnd.tx tx).bits, a := a.bits, x := f.code.setWidth 20 }
  | .tget h d tx f => some { h.raw 0x303 0 with d := d.bits, a := (Opnd.tx tx).bits, x := f.code.setWidth 20 }
  | .tloadcb h tx c sc q =>
    some { h.raw 0x304 0 with
      d := (Opnd.tx tx).bits, a := (Opnd.ctr c).bits, x := xiBits 0 (sc ++ (0 : BitVec 3) ++ bit q) }
  | .batload h q c ci s a b i sc =>
    some { h.raw 0x305 (ci ++ bit c ++ bit q) with
      d := s.bits, a := (Opnd.base a).bits, b := b.bits, x := xiBits i (sc ++ (0 : BitVec 4)) }
  | .batstat h d s k => some { h.raw 0x306 0 with d := (Opnd.s d).bits, a := s.bits, x := k.setWidth 20 }
  | .mmt h ck z sa sb c a b ctl =>
    some { h.raw 0x307 ((0 : BitVec 2) ++ bit sb ++ bit sa ++ bit z ++ bit ck) with
      d := c.bits, a := a.bits, b := b.bits, x := xrBits (.s ctl) }
  | .mmx h ck z ta tb c txA txB q =>
    some { h.raw 0x308 ((0 : BitVec 2) ++ bit tb ++ bit ta ++ bit z ++ bit ck) with
      d := c.bits, a := (Opnd.tx txA).bits, b := (Opnd.tx txB).bits, x := xrBits (.s q) }
  | .mresume h c ci a b i =>
    some { h.raw 0x309 (ci ++ bit c ++ (0 : BitVec 1)) with
      a := (Opnd.base a).bits, b := b.bits, x := xiBits i 0 }
  | .mresumeReg h c ci => some (h.raw 0x309 (ci ++ bit c ++ (1 : BitVec 1)))
  | .msave h r c ci a b i =>
    some { h.raw 0x30A (ci ++ bit c ++ bit r) with a := (Opnd.base a).bits, b := b.bits, x := xiBits i 0 }
  | .mldt h m d tx q =>
    some { h.raw 0x30B m.md with d := d.bits, a := (Opnd.tx tx).bits, b := (Opnd.s q).bits, x := m.x }
  | .mstt h m d tx q =>
    some { h.raw 0x30C m.md with d := d.bits, a := (Opnd.tx tx).bits, b := (Opnd.s q).bits, x := m.x }
  | .mzero h c ci t f n => some { h.raw 0x30D (bit t ++ ci ++ bit c) with d := f.bits, a := n.bits }
  | .mrd h d s q => some { h.raw 0x30E 0 with d := (Opnd.v d).bits, a := s.bits, b := q.bits }
  | .mwr h d s q => some { h.raw 0x30F 0 with d := d.bits, a := s.bits, b := q.bits }
  | .mchk h pos i32 res d c k x =>
    some { h.raw 0x310 ((0 : BitVec 1) ++ bit res ++ bit i32 ++ pos) with
      d := d.bits, a := c.bits, b := k.bits, x := xrBits x }
  | .mdrain h w q r c k txW txM qd bP =>
    some { h.raw 0x311 (bit k ++ bit c ++ bit r ++ bit q ++ (0 : BitVec 1) ++ bit w) with
      d := (Opnd.tx txW).bits, a := (Opnd.tx txM).bits, b := (Opnd.s qd).bits, x := xrBits (.base bP) }
  | .tbegin h => some (h.raw 0x312 0)
  | .tbeginSeg h a b i => some { h.raw 0x312 1 with a := (Opnd.base a).bits, b := b.bits, x := xiBits i 0 }
  | .trec h a => some { h.raw 0x313 0 with a := a.bits }
  | .tend h => some (h.raw 0x314 0)
  | .tendDrop h => some (h.raw 0x314 1)
  | .trev h => some (h.raw 0x315 0)
  | .tpop h d => some { h.raw 0x316 0 with d := d.bits }
  | .tpopSt h d => some { h.raw 0x316 1 with d := (Opnd.s d).bits }
  | .tbr h t => some { h.raw 0x317 0 with x := t }
  | .tmark h i => some { h.raw 0x318 0 with x := i }
  | .coll h k n q r d a qd bP =>
    some { h.raw 0x319 (bit r ++ bit q ++ bit n ++ k.code) with
      d := if k = .bar then 0 else (Opnd.tx d).bits, a := if k = .bar then 0 else (Opnd.tx a).bits,
      b := (Opnd.s qd).bits, x := xrBits (.base bP) }
  | _ => none

/-- The word of an instruction; none for an event. -/
def encode (i : Instr) : Option (BitVec 96) := (toRaw i).map Raw.toWord

/-- An instruction row, as against an event row: it has a word. -/
def Instr.isEvent (i : Instr) : Bool := (toRaw i).isNone

end Sys2Proof
end

