-- ==== Sys2Proof/Machine/State.lean ====
section
/-! DEFINITION. The state of a W7 package as plain data: every piece of state the manual names, and the
model's own fields (the agenda, the counter of free values, the issuing path). -/

namespace Sys2Proof.Machine

/-- Why the machine stops. -/
inductive Fault where
  /-- Raised by step when the compute dies have no power (R400, R401) and the agenda holds no bring-up:
  safe, nothing can run. -/
  | noPower
  deriving DecidableEq, Repr

/-- Why an instruction has no meaning in the model. -/
inductive Refusal where
  /-- Raised by exec's arms of the instructions the model does not give a meaning yet: safe. -/
  | notModelled (mnemonic : String)
  deriving DecidableEq, Repr

/-- Bytes at addresses: strictly rising addresses, no byte equal to zero, which an unlisted address reads
as. -/
abbrev Memory := List Host.Cell

/-- One 32-bit value for each lane slot. -/
abbrev Lanes := Vector W32 32

/-- A vector register with its shape tag (R119): UNIFORM, AFFINE or GENERAL. -/
inductive VReg where
  | u (x : W32)
  | a (base stride : W32)
  | g (w : Lanes)
  deriving DecidableEq, Repr

/-- A register of a group, as the timing contract names it (R45, R47); `b14`: the copies of b14 of the paths whose lowest lane
is in the mask (R92). -/
inductive RegId where
  | v (n : Nat)
  | s (n : Nat)
  | p (n : Nat)
  | b (n : Nat)
  | b14 (m : LaneMask)
  | j (n : Nat)
  deriving DecidableEq, Repr

/-- A write of a register. `b`: b14 is written in the paths whose lowest lane is in the mask (R92); `j`: a rejoin mask, as a
handler path or another names it (R142, R344); `expand`: the write of an EXPAND, whose other lanes keep their values and which tags
its register G (R148). -/
inductive RegWrite where
  | v (n : Nat) (mask : LaneMask) (val : VReg) (full : Bool)
  | s (n : Nat) (x : W32)
  | b (n : Nat) (x : Va) (mask : LaneMask)
  | p (n : Nat) (mask bits : LaneMask)
  | j (n : Nat) (m : LaneMask) (handler : Bool)
  | expand (n : Nat) (mask : LaneMask) (val : VReg)
  deriving DecidableEq, Repr

/-- A result of fixed latency on its way to its register (R44): the cycle in which it is written, the lanes of the path that
issued, the number that its free values are drawn with, whether it has reserved the bytes of a GENERAL register (R124). -/
structure Due where
  at' : Nat
  who : LaneMask
  seed : Nat
  grow : Bool
  write : RegWrite
  deriving DecidableEq, Repr

/-- A result of fixed latency that a path may not read yet (R45): its register, the `dist` still to pass, the flag that its
producer has named, whose wait settles it too (R44, R410). -/
structure Hazard where
  reg : RegId
  left : Nat
  flag : Option Nat
  deriving DecidableEq, Repr

/-- What a path is doing (R92); `bins`: it waits until the bins of its core can take threads for these targets (R104); `read`: it
stands at a TDEF whose image has not been read yet (R164). -/
inductive PathSt where
  | ready
  | join (k : Nat)
  | bar (n : Nat)
  | tags (any : Bool) (mask : W64)
  | ctr (c thr : Nat)
  | sleep (till : Nat)
  | fetch
  | bins (targets : List Va)
  | read
  deriving DecidableEq, Repr

/-- A path of a group (R92). `hazards`: results of fixed latency that this path may not read yet (R45). `defer`: instructions for
which a timer switch has been put off (R93).
`stop`: the debug stop that holds the path (R391); `step`: it stops again after one instruction (R396); `past`: the
breakpoint at its PC has been reported (R394). -/
structure Path where
  pc : Va
  mask : LaneMask
  st : PathSt
  b14 : Va
  handler : Bool
  hazards : List Hazard
  defer : Nat
  stop : Option Nat
  step : Bool
  past : Bool
  deriving DecidableEq, Repr

/-- What a record carries besides its words: the leaf that was computed for a chunk (R77), the payload of a truncation (R301,
R308), the identifier that a tape entry holds beside the one that was asked for (R301). -/
inductive Detail where
  | none
  | leaf (bs : List Byte)
  | trunc (lastMark : W32) (dropped : Nat)
  | marks (found asked : Nat)
  deriving DecidableEq, Repr

/-- The fault record of one lane (R342, R352). `lead`: for a fault of an engine command, the LTID of the lowest live lane at its
issue (R243). -/
structure FaultRec where
  code : BitVec 9
  pos : BitVec 3
  det : BitVec 16
  info : W32
  addr : Va
  pc : Va
  orig : Va
  word : BitVec 96
  b14 : Va
  followOn : Bool
  more : Detail
  lead : Option W64
  deriving DecidableEq, Repr

/-- The record of a halt (R341, R345): its code, the nested code, the PC of the handler path, and each parked lane's full name
with what its record held. -/
structure HaltRec where
  vd : Nat
  launch : W32
  code : BitVec 9
  nested : BitVec 9
  pc : Va
  lanes : List (W64 × FaultRec)
  deriving DecidableEq, Repr

/-- The active handler invocation of a group (R343, R344). -/
structure Handler where
  entry : LaneMask
  left : LaneMask
  hj0 : LaneMask
  hj1 : LaneMask
  deriving DecidableEq, Repr

/-- Track states (R293). -/
inductive TapeSt where
  | idle | recording | held | rev
  deriving DecidableEq, Repr

/-- A place in a track: a segment's number on the track and a byte offset in it. -/
structure TapePos where
  seg : Nat
  off : Nat
  deriving DecidableEq, Repr

/-- A region of a track (R293); `first`: where its OPEN begins, `last`: where its newest entry ends. `trunc`,
`dropped`, `lastMark`: the truncation and its payload; `truncSeg`: the segment that holds the TRUNC entry, none
where the track record holds it (R308, R412). -/
structure Region where
  mask : LaneMask
  first : TapePos
  last : TapePos
  trunc : Bool
  truncSeg : Option Nat
  dropped : Nat
  lastMark : W32
  deriving DecidableEq, Repr

/-- A segment of a track: its address, the bytes of entries in it, its sequence number (R296). -/
structure Segment where
  addr : Va
  used : Nat
  seq : Nat
  deriving DecidableEq, Repr

/-- The tape track of a group (R293, R313). Regions stand newest first, segments oldest first, the last one being
the current segment (R412). `pend`: pending decision bits, oldest first; `fill`: the entry bytes in the fill line
(R295); `bruTaken`: bits taken from the BRU at the decision position (R311); `dead`: a memory fault of the tape waits for its
delivery, which ends the track (R312). -/
structure Track where
  st : TapeSt
  regions : List Region
  segs : List Segment
  pend : List Bool
  spare : Option Va
  fill : List Byte
  vpos : TapePos
  dpos : TapePos
  bruTaken : Nat
  dead : Bool
  deriving DecidableEq, Repr

/-- A memory error or an engine fault that waits for its error point (R178, R243, R312). `thr`: the thread, for an
error of a thread's own access; `tape`: a fault of the tape engine. -/
structure LateFault where
  thr : Option W64
  flag : Option Nat
  tape : Bool
  fault : FaultRec
  deriving DecidableEq, Repr

/-- Why an issue attempt of a group failed (R389). `revocation`: what it needs is held by these harvest contexts, the latest
admitted first (R320); `capacity`: its harvest context finds no register bytes (R319); `bins`: the bins cannot take threads for
these targets (R104). -/
inductive Stall where
  | dist | waitFlag (f : Nat) | setBusy (f : Nat) | fetch | translation | memoryQueue | engineQueue
  | page (vd page : Nat)
  | permit (die cost : Nat)
  | revocation (who : List Nat)
  | capacity
  | bins (targets : List Va)
  | tape | barrier | gather | engineWait | sleep | parked | stopped
  deriving DecidableEq, Repr

/-- A group (R87, R92, R116). `drawn`: the lane slots that a fresh group of REFORM has filled, from slot 0 on (R105); `occ`:
lane slots that hold a thread; `alive`: threads that have not exited. `flags`: outstanding operations of each completion flag;
`flagDue`: the cycles at which fixed ones end. `due`: results of fixed latency that are not written yet, in order of their issue
(R44). `vpend`: registers that an outstanding V result will write; `clobber`: those that were written meanwhile (R47); `grow`:
vector registers whose outstanding V results have reserved the bytes of a GENERAL register (R124). `older`: how many of the
entry sets were parked before this cycle (R362). `noted`: the registers that the present turn has written (R356); `held`: the debug
stop that holds the whole group (R391); `why`: what the next instruction of the current path stalls on, as the cycle began or at an
attempt since (R389). -/
structure Group where
  blk : Nat
  core : Nat
  sched : Nat
  slot : Nat
  narrow : Bool
  regrouped : Bool
  ltid : Vector W64 32
  drawn : Nat
  occ : LaneMask
  alive : LaneMask
  v : Tbl VReg
  s : Tbl W32
  p : Tbl LaneMask
  b : Tbl Va
  j : Tbl LaneMask
  flags : Tbl Nat
  flagDue : List (Nat × Nat)
  due : List Due
  vpend : List RegId
  clobber : List RegId
  grow : List Nat
  paths : List Path
  cur : Nat
  since : Nat
  rotate : Bool
  lastIssue : Option Nat
  yielded : Bool
  readySince : Option Nat
  stall : Option Stall
  faults : Tbl FaultRec
  entries : List LaneMask
  older : Nat
  handler : Option Handler
  errs : List LateFault
  halt : Option (BitVec 9)
  hscr : Tbl W32
  resv : Tbl Nat
  track : Track
  engOut : Nat
  noted : List RegId
  held : Option Nat
  why : Option Stall
  deriving DecidableEq, Repr

/-- What the undo log holds one entry for, beside lines of memory (R356): a register and the track record of a group; a tile, a slab, a
tensor entry, a codebook store and a tag-table entry of a block; a table slot of a core; an ordered cell. -/
inductive LogItem where
  | reg (r : RegId)
  | track
  | tile (n : Nat)
  | slab (n : Nat)
  | tx (n : Nat)
  | store (n : Nat)
  | tag (n : Nat)
  | bat (k : Nat)
  | cell
  deriving DecidableEq, Repr

/-- A tag-table entry and its slot's state (R229, R231). `busy`: outstanding commands that write the slot; `lentTo`: the
harvest block and slot that the slot backs. -/
structure TagEnt where
  vld : Bool
  key : BitVec 70
  busy : Nat
  lendable : Bool
  lentTo : Option (Nat × Nat)
  absent : Bool
  age : Nat
  deriving DecidableEq, Repr

/-- A copy tag (R232). -/
inductive TagSt where
  | free
  | busy
  | done (err : Bool)
  deriving DecidableEq, Repr

/-- A hardware barrier (R110); `eng`: engine arrivals outstanding (R245). -/
structure Barrier where
  init : Bool
  count : Nat
  arrived : Nat
  phase : Bool
  eng : Nat
  deriving DecidableEq, Repr

/-- The bound fields of an MMT (R268); `fol`: it is the follow-on of a COPYM, `buf`: it has not left the follow-on buffer
(R242). -/
structure Mmt where
  fol : Bool
  buf : Bool
  ck : Bool
  z : Bool
  sa : Bool
  sb : Bool
  c : Nat
  a : Nat
  b : Nat
  ctl : W32
  cb : Option (List Byte)
  deriving DecidableEq, Repr

/-- The three copies (R239). -/
inductive CopyKind where
  | copy | copyw | copym
  deriving DecidableEq, Repr

/-- The bound state of an engine command (R162, R234, R253). `row`: the next row of a copy or transfer; `follow`: the
follow-on of a COPYM; `tab`: the table image that an MMX has bound (R256); `prm`: MDRAIN's parameter record; `broken`: a
collective that its communicator took when it was broken (R336). -/
inductive EngBody where
  | copy (k : CopyKind) (st z : Bool) (slot txIx : Nat) (ent : BitVec 512) (quad : List W32)
      (tag row : Nat) (follow : Option Mmt)
  | tloadcb (txIx : Nat) (ent : BitVec 512)
  | batload (slot : Nat) (ea : Va)
  | mmt (m : Mmt)
  | mmx (ck z ta tb : Bool) (c : Nat) (entA entB : BitVec 512) (cbA cbB : Option (List Byte))
      (quad : List W32) (ib jb q : Nat) (tab : Option (List Byte))
  | mresume (ea : Va)
  | msave (ea : Va)
  | xfer (store slab z : Bool) (d : Nat) (txIx : Nat) (ent : BitVec 512) (quad : List W32) (row : Nat)
  | mzero (tile : Bool) (first count : Nat)
  | mdrain (adamw keep : Bool) (entW entM entV : BitVec 512) (quad : List W32) (bp : Va)
      (prm : Option (List Byte)) (pos row : Nat)
  | coll (k : CollKind) (norm broken : Bool) (entD entA : BitVec 512) (quad : List W32) (dst : Va)
  deriving DecidableEq, Repr

/-- An engine command from issue to its end (R42, R243). `ctrs`, `bars`: the counters to lower and the barriers to arrive
at when it ends, those that MRESUME took over among them (R273). `after`: accesses of the issuing threads that it
follows (R208). -/
structure EngCmd where
  blk : Nat
  gid : Nat
  pc : Va
  ltid : W64
  md : BitVec 6
  acq : Bool
  rel : Bool
  scope : Nat
  ctrs : List Nat
  bars : List Nat
  after : List Nat
  cost : Nat
  body : EngBody
  deriving DecidableEq, Repr

/-- The progress register's stopped command with its stop (R270, R271). -/
structure Stopped where
  cmd : EngCmd
  code : BitVec 9
  ucode : BitVec 9
  addr : Va
  deriving DecidableEq, Repr

/-- Where a block is: on a core, parked in a core's lay-by, or in its save area (R315, R322); `slice`: descheduled with
its virtual device, coming back to the lay-by or to the slots of a core (R359). -/
inductive BlkLoc where
  | core (n : Nat)
  | layby (n : Nat)
  | memory
  | slice (parked : Bool) (n : Nat)
  deriving DecidableEq, Repr

/-- A filed thread (R104, R106): its own lanes of the registers, and the group-wide state of its former
group. -/
structure Filed where
  ltid : W64
  v : Tbl W32
  p : Tbl Bool
  s : Tbl W32
  b : Tbl Va
  errs : List LateFault
  at' : Nat
  deriving DecidableEq, Repr

/-- A bin of a core (R105). -/
structure Bin where
  blk : Nat
  pc : Va
  threads : List Filed
  harvest : Bool
  deriving DecidableEq, Repr

/-- Bytes of tape on their way from staging to a segment (R295, R300). `shared`: they stand in a shared line;
`flag`: the flag of a TEND that completes with them; `ended`: a forward TEND has ended their region. -/
structure TapeLine where
  vd : Nat
  blk : Nat
  gid : Nat
  seg : Va
  off : Nat
  bytes : List Byte
  shared : Bool
  flag : Option Nat
  ended : Bool
  deriving DecidableEq, Repr

/-- Why a harvest context was parked last (R319, R320). -/
inductive ParkWhy where
  | never | need | capacity | express | reclaim | move
  deriving DecidableEq, Repr

/-- A resident block (R88, R110, R161, R227, R249). `held`: the group slots it has been given, as scheduler and
slot. `tiles`, `slabs`, `slots`: its storage as bytes from logical unit 0. `prog`, `sticky`: the progress register and the
flag word (R263, R270). `parkAt`, `parkWhy`: the order and the cause of its parking; `home`: the core that
it stands on or stood on last; `batch`: commands that wait to enter their queues again (R399);
`bins`, `lines`: its bins and tape lines while it is on no core (R106, R313, R321); `parts`: the group parts for which a harvest
context has reserved banks (R317); `admitted`, `came`: the order of its admission, and of its latest admission or resumption (R320,
R415); `image`, `imageAt`: its image as it was written to memory, and where (R322, R353, R359); `noted`: what of its storage the
present turn has written (R356). -/
structure Block where
  launch : Nat
  vd : Nat
  idx : W32
  loc : BlkLoc
  harvest : Bool
  narrow : Bool
  ngr : Nat
  held : List (Nat × Nat)
  nv : Nat
  ns : Nat
  nt : Nat
  nsl : Nat
  nsp : Nat
  ntag : Nat
  nctr : Nat
  prod : Nat
  img : Va
  entry : Va
  entries : List Va
  lvl : List W32
  hand : Va
  pool : Va
  tiles : Memory
  slabs : Memory
  slots : Memory
  tagTab : Tbl TagEnt
  tags : Tbl TagSt
  ctrs : Tbl Nat
  bars : Tbl Barrier
  tx : Tbl (BitVec 512)
  cb : Tbl (List Byte)
  prog : Option Stopped
  sticky : W32
  serials : Nat
  parks : Nat
  moved : Bool
  parked : Bool
  parkAt : Nat
  parkWhy : ParkWhy
  home : Nat
  admitted : Nat
  came : Nat
  batch : List EngCmd
  bins : List Bin
  lines : List TapeLine
  parts : Nat
  image : List Byte
  imageAt : Nat
  noted : List LogItem
  deriving DecidableEq, Repr

/-- A V result that has not been written yet (R44). `service`: it waits for the reply of a SYS (R350); `req`: the request that
waits for a ring entry; `at'`: the address of its ring entry; `pc`, `who`: the PC and the threads of the SYS; `wakes`: the
groups of a SPAWN, which are ready once it is written (R107). -/
structure Pending where
  gid : Nat
  writes : List RegWrite
  flag : Nat
  service : Bool
  req : List Byte
  at' : Nat
  pc : Va
  who : List W64
  wakes : List Nat
  deriving DecidableEq, Repr

/-- Page kinds (R180). -/
inductive Ord where
  | rc | so | uo
  deriving DecidableEq, Repr

/-- A run of bytes that an access reaches: physical bytes under a key slot, or bytes of the block's
scratchpad slots (R173, R228). -/
inductive Seg where
  | phys (pa n key : Nat) (ord : Ord)
  | slot (off n : Nat)
  | none (n : Nat)
  deriving DecidableEq, Repr

/-- What an access does at memory (R183 to R193); `ldb` writes a base, b14 in the paths whose lowest lane is in `m`. -/
inductive MemOp where
  | ld (d n : Nat) (sx resv u : Bool)
  | ldu (d n : Nat) (sx : Bool)
  | ldb (d : Nat) (m : LaneMask)
  | st (n : Nat)
  | stcond (n : Nat) (p : Nat)
  | atom (op : AtomOp) (ty : IntTy) (d : Nat)
  | fatom (op : FatomOp) (ty : FTy) (d : Nat)
  | ford (d : Nat)
  | acell
  | acellClose
  | acread (d : Nat)
  | pst (n : Nat)
  | tdef (tx : Nat)
  deriving DecidableEq, Repr

/-- One thread's part of an access: the bytes of it that lie in one page, from byte `off` of the value on.
`twin`: the second copy that a PST writes. `data`: the store data or operand; `aux`: the second operand (CAS,
sequence number, the running count of an ordered contribution). `got`: the value read. -/
structure Part where
  lane : Nat
  ltid : W64
  ea : Va
  off : Nat
  seg : Seg
  twin : Option Seg
  data : Nat
  aux : Nat
  done : Bool
  ok : Bool
  got : Nat
  deriving DecidableEq, Repr

/-- An issued memory access of a group (R176, R202). `who`: the threads of its live lanes. -/
structure Access where
  id : Nat
  gid : Nat
  launch : Nat
  blk : Nat
  vd : Nat
  pc : Va
  op : MemOp
  acq : Bool
  rel : Bool
  live : LaneMask
  who : List W64
  flag : Option Nat
  parts : List Part
  replay : Bool
  deriving DecidableEq, Repr

/-- What waits for a page request (R84, R176): a path's fetch, or lanes with a captured access and what becomes
of them: the code of a failure, their b14, where they go on, whether they are a handler's, whether the page is there and they wait for
their access to be taken up (R205). -/
inductive PageWait where
  | fetch (vd page gid : Nat) (lane : Nat)
  | lanes (page : Nat) (acc : Access) (code : BitVec 9) (b14 : Va) (next : Va) (handler come : Bool)
  deriving DecidableEq, Repr

/-- An invalidation that has not reached its completion point (R181, R196): the accesses of its virtual device
that it waits for, and the flag of a TLBINV. -/
structure Inval where
  gid : Option Nat
  flag : Option Nat
  ids : List Nat
  deriving DecidableEq, Repr

/-- States of a table slot (R256). -/
inductive BatSt where
  | empty | loading | valid
  deriving DecidableEq, Repr

/-- A table slot (R256, R257). -/
structure Bat where
  st : BatSt
  image : List Byte
  tid : W32
  serial : Nat
  deriving DecidableEq, Repr

/-- An event counter (R390). -/
structure EvCnt where
  sel : W32
  count : BitVec 48
  deriving DecidableEq, Repr

/-- The tagged instruction in flight (R387): its virtual device, its group, the flag that it sets (15: none), the cycle in which the
last of its results of fixed latency is written, bytes [31:4] of its record, its continuation records, the time of its issue, the
code that it raised at issue, whether its record has no write-back stage, its PC, the threads that it issued for, whether it may
access memory. -/
structure Tagged where
  vd : Nat
  gid : Nat
  flag : Nat
  till : Nat
  bytes : List Byte
  conts : List Byte
  time : Nat
  code : BitVec 9
  noWb : Bool
  pc : Va
  who : List W64
  mem : Bool
  deriving DecidableEq, Repr

/-- What one issue was: the group, the PC and the active mask. -/
structure Issued where
  gid : Nat
  pc : Va
  mask : LaneMask
  deriving DecidableEq, Repr

/-- A scheduler's last issue, as its cycle plus one, with the issues of that cycle, and the launches that have issued on it;
its tagging state (R387); its sampling state (R388, R389). -/
structure SchedObs where
  issued : Nat
  last : List Issued
  seen : List Nat
  left : Nat
  draws : Nat
  tagged : Option Tagged
  lastSlot : Nat
  clock : Nat
  deriving DecidableEq, Repr

/-- One core (R7, R87, R105, R234, R253, R256, R295, R325). `verified`: the chunks it may fetch from, by
virtual device and chunk number, with the bytes it verified (R77, R78); `checking`: checks that run. -/
structure Core where
  copyQ : List EngCmd
  follow : List (EngCmd)
  matQ : List EngCmd
  rot : Nat
  bat : Tbl Bat
  bins : List Bin
  xrev : Bool
  keep : Nat
  revs : Nat
  tape : List TapeLine
  verified : List (Nat × Nat × Memory)
  checking : List (Nat × Nat)
  cnt : Tbl EvCnt
  obs : Tbl SchedObs
  deriving DecidableEq, Repr

/-- States of an ordered accumulation cell (R190, R192); `opening`: its ACELL has not completed. -/
inductive CellSt where
  | opening | opened | done | failed
  deriving DecidableEq, Repr

/-- An ordered accumulation cell (R190, R191), with its contributions by key. -/
structure AccCell where
  vd : Nat
  pa : Nat
  key : Nat
  st : CellSt
  expct : Nat
  scope : Nat
  got : List (W64 × Nat × W32)
  deriving DecidableEq, Repr

/-- A request for a power permit (R398): the group that asks, the block whose parked command asks instead (R399), the
cost, whether it is granted. -/
structure Permit where
  gid : Nat
  blk : Option Nat
  cost : Nat
  granted : Bool
  deriving DecidableEq, Repr

/-- One die (R190, R334, R398, R400). -/
structure Die where
  live : Bool
  thot : Nat
  bud : Nat
  tlim : Nat
  tmp : Nat
  trip : Bool
  permits : List Permit
  cells : List AccCell
  collQ : List EngCmd
  cnt : Tbl EvCnt
  deriving DecidableEq, Repr

/-- A launch queue (R367). `tail`: the records that doorbells have made ready; `bells`: the doorbells that name records not
yet accepted, each with its place in the order of all doorbells; `stuck`: nothing is accepted until `rdf` or `en` is cleared
(R368). -/
structure Queue where
  base : Va
  en : Bool
  bad : Bool
  rdf : Bool
  lsz : Nat
  head : W32
  tail : W32
  bells : List (W32 × Nat)
  stuck : Bool
  deriving DecidableEq, Repr

/-- A code range (R76): text base, chunk count, the address of the leaf table, the object it belongs to,
the root. -/
structure CodeRange where
  base : Va
  chunks : Nat
  leaves : Va
  obj : Nat
  root : List Byte
  deriving DecidableEq, Repr

/-- A kernel of a loaded object (R66): its entry, the name of its symbol, its record, its SPAWN entries. -/
structure Kernel where
  entry : Va
  name : List Byte
  raw : List Byte
  entries : List Va
  deriving DecidableEq, Repr

/-- A GOT entry of a loaded object (R68, R69): the symbol it names, the object that defines it, whether other objects do not see
that symbol, its address, its addend. -/
structure GotEnt where
  name : List Byte
  obj : Nat
  own : Bool
  place : Va
  add : Int
  deriving DecidableEq, Repr

/-- A loaded object (R71, R72). `refs`: the objects its relocations name. `syms`: the symbols that other objects
see, `locals`: the others that it defines. `gotSyms`: its GOT entries, for a swap (R85). -/
structure Obj where
  base : Va
  size : Nat
  narrow : Bool
  kernels : List Kernel
  syms : List (List Byte × Va)
  locals : List (List Byte × Va)
  refs : List Nat
  gotSyms : List GotEnt
  deriving DecidableEq, Repr

/-- A cached page-table entry (R174): the level it was read at, the part of the address that led to it
(shifted down to its level's index), the entry. -/
structure TlbEnt where
  lvl : Nat
  tag : Nat
  entry : W64
  deriving DecidableEq, Repr

/-- A ring of R383. `cfg`: TCFG or SCFG; `wp`: bytes written; `shown`: xWP as the host reads it (R384); `lost`: a
LOSS record stands for the drops since the last record; `keep`: the same as of the latest milestone. -/
structure Ring where
  base : Va
  cfg : W32
  wp : W32
  shown : W32
  rp : W32
  drop : W32
  lost : Bool
  keep : Bool
  deriving DecidableEq, Repr

/-- A breakpoint unit (R395). -/
structure BpUnit where
  bpa : Va
  bpf : W32
  bpl : W32
  bpb : W32
  bpt : W32
  deriving DecidableEq, Repr

/-- An interrupt the device has raised (R364): function (none: the partition's supervisor), vector, code and address; `under`: the
underlying code (R341); `halt`: the record of a group's halt (R345). -/
structure Irq where
  vd : Option Nat
  vec : Nat
  code : BitVec 9
  addr : Va
  under : BitVec 9
  halt : Option HaltRec
  deriving DecidableEq, Repr

/-- A step of R375 or another effect that SLICE mode withholds until commit (R358). -/
inductive Effect where
  | bytes (pa key : Nat) (bs : List Byte)
  | irq (i : Irq)
  | add (pa key : Nat) (inc : W32)
  deriving DecidableEq, Repr

/-- A memory line that the undo log holds (R356): line, its bytes, the slot it was last written under. -/
structure LogLine where
  line : Nat
  bytes : List Byte
  slot : Option Nat
  deriving DecidableEq, Repr

/-- A launch from acceptance to its completion record (R369, R370). `units`: granted top-level units not yet resident, each
(die, first, count). `lost`: index ranges lost with a die (R30). `tx`: the entries written before the first instruction. `home`:
the cluster or die that a launch of such a top level lies in. `stop`: the status and code of its end other than DONE. -/
structure Launch where
  vd : Nat
  q : Nat
  index : W32
  raw : List Byte
  fail : Option (Nat × Nat)
  cls : Nat
  hv : Bool
  narrow : Bool
  img : Va
  entry : Va
  entries : List Va
  lvl : List W32
  nv : Nat
  ns : Nat
  nt : Nat
  nsl : Nat
  nsp : Nat
  ntag : Nat
  nctr : Nat
  prod : Nat
  obj : Nat
  tx : Tbl (BitVec 512)
  bell : Nat
  depsMet : List Bool
  started : Bool
  ended : Bool
  first : Nat
  next : Nat
  limit : Nat
  resident : Nat
  home : Option Nat
  leader : Option Nat
  mirror : Option Nat
  handLog : List (Nat × Nat × Nat)
  mirrorLog : List (Nat × Nat × Nat)
  units : List (Nat × Nat × Nat)
  lost : List (Nat × Nat)
  dieLost : Bool
  stop : Option (Nat × BitVec 9)
  deriving DecidableEq, Repr

/-- What a milestone captures of a core for one virtual device: its engine commands, table slots, bins and tape
in staging. -/
structure CoreSnap where
  copyQ : List EngCmd
  follow : List EngCmd
  matQ : List EngCmd
  bat : Tbl Bat
  bins : List Bin
  tape : List TapeLine
  deriving DecidableEq, Repr

/-- What a milestone captures of one virtual device (R356, R357). -/
structure Snapshot where
  launches : Tbl Launch
  blocks : Tbl Block
  groups : Tbl Group
  results : List Pending
  waits : List PageWait
  accesses : List Access
  cores : Tbl CoreSnap
  collQ : Tbl (List EngCmd)
  cells : List AccCell
  invals : List Inval
  deriving DecidableEq, Repr

/-- A stop that is taken at the next tick (R391, R394, R395): the group it holds (none: every group of the virtual device), its
lowest lane, the scope, the breakpoint unit, the code of its record, the instruction's opcode; for a request of the host, no group
and no unit. -/
structure StopAsk where
  gid : Option Nat
  lane : Nat
  scp : Nat
  unit : Nat
  code : Nat
  op : Nat
  deriving DecidableEq, Repr

/-- A virtual device (R364 to R368). `handOut`: the index ranges that launches have lost, by launch index (R375). `asks`: stops to be
taken; `gone`: launches that have completed since the latest milestone (R375); `noted`: what else the log holds, by the number of
the group, block or core or the address of the cell (R356); `exchanged`: KEY_EXCHANGE has been answered (R380). -/
structure VDev where
  config : List Byte
  run : Bool
  halt : Bool
  sched : Bool
  refused : Bool
  bad : Nat
  nextLaunch : W32
  queues : Tbl Queue
  objs : Tbl Obj
  kernels : List (Va × Nat × Nat)
  ranges : Tbl CodeRange
  tlb : List TlbEnt
  pages : List Nat
  msseq : W32
  msDue : Bool
  msAt : Nat
  log : List LogLine
  snap : Option Snapshot
  withheld : List Effect
  svHead : Nat
  cmplf : W32
  cmplv : Bool
  cmplRec : Bool
  cmplSig : Bool
  cmplLost : Nat
  cmplCode : BitVec 9
  trace : Ring
  sample : Ring
  dcfg : Bool
  stops : Nat
  asks : List StopAsk
  dbase : Va
  bps : Tbl BpUnit
  aperture : Tbl (List Byte)
  signKeys : List (Nat × List Byte)
  translators : List (List Byte)
  session : Bool
  rot : Tbl Nat
  served : Tbl Nat
  parkSeq : Nat
  handOut : Tbl (List (Nat × Nat))
  gone : Tbl Launch
  noted : List (Nat × LogItem)
  exchanged : Bool
  deriving DecidableEq, Repr

/-- A partition record (R377). `turn`: the time-sliced device that was in its slice last (R365). -/
structure Partition where
  gmask : W32
  mmask : W32
  lend : W32
  xres : Nat
  arec : Bool
  share : Nat
  turn : Nat
  deriving DecidableEq, Repr

/-- The lend state of a cluster (R378): the borrower, whether the lend has taken effect, whether it is being reclaimed. -/
structure Lend where
  borrower : Nat
  effect : Bool
  reclaim : Bool
  deriving DecidableEq, Repr

/-- A communicator slot (R332). `routes`: the package of each rank; `dropped`: ranks dropped (R336); `seq`:
collectives accepted. -/
structure Comm where
  valid : Bool
  nr : Nat
  me : Nat
  routes : List Nat
  sil : Nat
  broken : Bool
  dropped : List Nat
  seq : Nat
  deriving DecidableEq, Repr

/-- A Causeway link (R329, R330). `shares`: each partition's share register. -/
structure Link where
  up : Bool
  missed : Nat
  replays : Nat
  shares : Tbl W32
  deriving DecidableEq, Repr

/-- A Roadbed key slot (R179, R381): the virtual device it is assigned to and its key. -/
structure KeySlot where
  vd : Nat
  key : BitVec 512
  deriving DecidableEq, Repr

/-- Who issues: the group and the lowest lane of the path (the model's own field, set by step). -/
structure Issuer where
  gid : Nat
  lane : Nat
  deriving DecidableEq, Repr

/-- The state of a package. `hostData`: what the latest read by the host, by system software or by another package returned.
`peer`, `peerSlot`: the memory of the other packages and the key slot that each line there was last written under (R331).
`lendto`: the numbers last written to the LENDTO registers (R378). `latent`: lines of region 0 whose next access meets an
uncorrectable error (R178). -/
structure State where
  cycle : Nat
  agenda : List Turn
  issuer : Option Issuer
  free : Nat
  powered : Bool
  mailbox : Option Nat
  mem : Memory
  lineSlot : Tbl Nat
  poison : List Nat
  latent : List Nat
  peer : Memory
  peerSlot : Tbl Nat
  hostData : List Byte
  vds : Tbl VDev
  keys : Tbl KeySlot
  parts : Tbl Partition
  lends : Tbl Lend
  lendto : Tbl Nat
  links : Tbl Link
  comms : Tbl Comm
  dies : Tbl Die
  cores : Tbl Core
  launches : Tbl Launch
  blocks : Tbl Block
  groups : Tbl Group
  accesses : List Access
  invals : List Inval
  results : List Pending
  waits : List PageWait
  irqs : List Irq
  nextId : Nat
  deriving DecidableEq, Repr

/-- A launch queue at reset (R367). -/
def Queue.init : Queue :=
  { base := 0, en := false, bad := false, rdf := false, lsz := 0, head := 0, tail := 0, bells := [], stuck := false }

/-- A ring at reset (R383). -/
def Ring.init : Ring := { base := 0, cfg := 0, wp := 0, shown := 0, rp := 0, drop := 0, lost := false, keep := false }

/-- A virtual device at bring-up: stopped, its configuration block zero (R365, R366). -/
def VDev.init : VDev :=
  { config := List.replicate 256 0, run := false, halt := false, sched := false, refused := false, bad := 0,
    nextLaunch := 0, queues := [], objs := [], kernels := [], ranges := [], tlb := [], pages := [],
    msseq := 0, msDue := false, msAt := 0, log := [], snap := none, withheld := [], svHead := 0,
    cmplf := 0, cmplv := false, cmplRec := false, cmplSig := false, cmplLost := 0, cmplCode := 0,
    trace := .init, sample := .init, dcfg := false, stops := 0, asks := [], dbase := 0, bps := [], aperture := [],
    signKeys := [], translators := [], session := false, rot := [], served := [], parkSeq := 0, handOut := [],
    gone := [], noted := [], exchanged := false }

/-- A scheduler at bring-up. -/
def SchedObs.init : SchedObs :=
  { issued := 0, last := [], seen := [], left := 0, draws := 0, tagged := none, lastSlot := 31, clock := 0 }

/-- A core at bring-up: storage zero, slots EMPTY, HVCFG at its reset value (R256, R325, R402). -/
def Core.init : Core :=
  { copyQ := [], follow := [], matQ := [], rot := 0, bat := [], bins := [], xrev := true, keep := 0,
    revs := 0, tape := [], verified := [], checking := [], cnt := [], obs := [] }

/-- A die at bring-up: the governor resets of R400. -/
def Die.init : Die :=
  { live := true, thot := 95, bud := 360, tlim := 1023, tmp := 0, trip := false, permits := [],
    cells := [], collQ := [], cnt := [] }

/-- A partition record at reset (R377). -/
def Partition.init : Partition := { gmask := 0, mmask := 0, lend := 0, xres := 0, arec := false, share := 0, turn := 255 }

/-- A communicator slot that system software has not written (R332). -/
def Comm.init : Comm :=
  { valid := false, nr := 0, me := 0, routes := [], sil := 0, broken := false, dropped := [], seq := 0 }

/-- A link after training, its shares zero (R330, R402). -/
def Link.init : Link := { up := true, missed := 0, replays := 0, shares := [] }

/-- A track at group creation (R293). -/
def Track.init : Track :=
  { st := .idle, regions := [], segs := [], pend := [], spare := none, fill := [], vpos := ⟨0, 0⟩,
    dpos := ⟨0, 0⟩, bruTaken := 0, dead := false }

/-- The package right after bring-up (R402): powered, every memory and core zeroed, every key slot empty,
every virtual device stopped, nothing resident. -/
def State.reset : State :=
  { cycle := 0, agenda := [], issuer := none, free := 0, powered := true, mailbox := none, mem := [],
    lineSlot := [], poison := [], latent := [], peer := [], peerSlot := [], hostData := [], vds := [], keys := [],
    parts := [], lends := [], lendto := [], links := [],
    comms := [], dies := [], cores := [], launches := [], blocks := [], groups := [], accesses := [],
    invals := [], results := [], waits := [], irqs := [], nextId := 0 }

end Sys2Proof.Machine
end

