-- ==== Sys2Proof/Machine/Ops.lean ====
section
/-! DEFINITION. The named operations over groups, paths and registers; taking a fault, entering the handler
and returning from it (R342 to R349); the gather (R103). -/

namespace Sys2Proof.Machine

/-- What a meaning answers. -/
abbrev Out := Host.Outcome State Fault Refusal

/-- The entry of key `k`, or `d`. -/
def Tbl.getD {α : Type} (t : Tbl α) (k : Nat) (d : α) : α := (Tbl.find t k).getD d

/-- The table with the entry of key `k` changed by `f`, if it is listed. -/
def Tbl.upd {α : Type} (t : Tbl α) (k : Nat) (f : α → α) : Tbl α :=
  match Tbl.find t k with
  | some a => Tbl.put t k (f a)
  | none => t

/-- An element put in its place among sorted ones. -/
def insBy {α : Type} (le : α → α → Bool) (x : α) : List α → List α
  | [] => [x]
  | y :: ys => if le x y then x :: y :: ys else y :: insBy le x ys

/-- A list in the order `le`; equals keep their order. -/
def sortBy {α : Type} (le : α → α → Bool) : List α → List α
  | [] => []
  | x :: xs => insBy le x (sortBy le xs)

/-! ## Masks and lanes -/

/-- Lane `l` is in the mask. -/
def has (m : LaneMask) (l : Nat) : Bool := m.getLsbD l

/-- The lanes of a mask, ascending. -/
def lanesOf (m : LaneMask) : List Nat := (List.range 32).filter fun l => has m l

/-- The lowest lane of a mask; 0 for the empty mask. -/
def lowLane (m : LaneMask) : Nat := (lanesOf m).headD 0

/-- The number whose bit l is `f l`, for l below `n`. -/
def bitsBelow (f : Nat → Bool) : Nat → Nat
  | 0 => 0
  | n + 1 => bitsBelow f n + (if f n then 2 ^ n else 0)

/-- The mask whose lane l is `f l`. -/
def maskOf (f : Nat → Bool) : LaneMask := BitVec.ofNat 32 (bitsBelow f 32)

/-- The mask of one lane. -/
def bit (l : Nat) : LaneMask := BitVec.ofNat 32 (2 ^ l)

/-- The lanes of a group: 32, or 16 in narrow mode (R82). -/
def Group.width (g : Group) : Nat := if g.narrow then 16 else 32

/-- The mask of every lane of a group. -/
def Group.full (g : Group) : LaneMask := if g.narrow then 0xFFFF else 0xFFFFFFFF

/-! ## Vector values -/

/-- One value per lane. -/
def lanes (f : Nat → W32) : Lanes := Vector.ofFn fun i => f i.val

/-- The value of a vector register in lane `l` (R119). -/
def VReg.lane (r : VReg) (l : Nat) : W32 :=
  match r with
  | .u x => x
  | .a base stride => base + stride * BitVec.ofNat 32 l
  | .g w => if h : l < 32 then w[l] else 0

/-- An AFFINE value, tagged U when its stride is zero (R119). -/
def VReg.affine (base stride : W32) : VReg := if stride = 0 then .u base else .a base stride

/-- The register is UNIFORM. -/
def VReg.isU : VReg → Bool
  | .u _ => true
  | _ => false

/-- The two-bit tag of a register: 0 U, 1 A, 2 G (R128, R148). -/
def VReg.tag : VReg → Nat
  | .u _ => 0
  | .a _ _ => 1
  | .g _ => 2

/-- The bytes a register uses (R123). -/
def VReg.use : VReg → Nat
  | .u _ => 4
  | .a _ _ => 8
  | .g _ => 128

/-- The recompute of R122 over the first `k` lane slots: an empty slot holds what the tag gives it, in a GENERAL register what
`empty` gives it. -/
def recomputeOcc (k : Nat) (f : Nat → W32) (empty : Nat → W32) : VReg :=
  let ls := List.range k
  if ls.all fun l => f l = f 0 then .u (f 0)
  else if ls.all fun l => f l = f 0 + (f 1 - f 0) * BitVec.ofNat 32 l then .a (f 0) (f 1 - f 0)
  else .g (lanes fun l => if l < k then f l else empty l)

/-- The recompute of R121 over the lanes of a group of the given width. -/
def recompute (width : Nat) (f : Nat → W32) : VReg :=
  if (List.range width).all fun l => f l = f 0 then .u (f 0)
  else if (List.range width).all fun l => f l = f 0 + (f 1 - f 0) * BitVec.ofNat 32 l then
    .a (f 0) (f 1 - f 0)
  else .g (lanes fun l => if l < width then f l else 0)

/-- A write that is not full: live lanes take the new value, the others keep the old one (R121). -/
def VReg.merge (width : Nat) (live : LaneMask) (old new : VReg) : VReg :=
  recompute width fun l => if has live l then new.lane l else old.lane l

/-! ## Addresses of code -/

/-- The sequential successor of a PC (R50). -/
def nextPc (pc : Va) : Va := if pc.toNat % 4096 = 4080 then pc + 16 else pc + 12

/-- A code address (R49). -/
def isCode (a : Va) : Bool := (a.toNat % 4096) % 12 = 0 && a.toNat % 4096 ≤ 4080

/-- The target of a slot displacement (R51). -/
def slotTarget (pc : Va) (disp : Int) : Va :=
  let slot : Int := ((pc.toNat / 4096) * 341 + (pc.toNat % 4096) / 12 : Nat)
  let t := ((slot + disp) % (2 ^ 68 * 341 : Int)).toNat
  BitVec.ofNat 80 ((t / 341) * 4096 + (t % 341) * 12)

/-! ## Reaching the parts of the state -/

def State.core (s : State) (c : Nat) : Core := Tbl.getD s.cores c .init
def State.modCore (s : State) (c : Nat) (f : Core → Core) : State :=
  { s with cores := Tbl.put s.cores c (f (s.core c)) }

def State.die (s : State) (d : Nat) : Die := Tbl.getD s.dies d .init
def State.modDie (s : State) (d : Nat) (f : Die → Die) : State :=
  { s with dies := Tbl.put s.dies d (f (s.die d)) }

def State.vd (s : State) (v : Nat) : VDev := Tbl.getD s.vds v .init
def State.modVd (s : State) (v : Nat) (f : VDev → VDev) : State :=
  { s with vds := Tbl.put s.vds v (f (s.vd v)) }

def State.part (s : State) (p : Nat) : Partition := Tbl.getD s.parts p .init
def State.modPart (s : State) (p : Nat) (f : Partition → Partition) : State :=
  { s with parts := Tbl.put s.parts p (f (s.part p)) }

def State.link (s : State) (l : Nat) : Link := Tbl.getD s.links l .init
def State.modLink (s : State) (l : Nat) (f : Link → Link) : State :=
  { s with links := Tbl.put s.links l (f (s.link l)) }

def State.modGroup (s : State) (g : Nat) (f : Group → Group) : State :=
  { s with groups := Tbl.upd s.groups g f }
def State.modBlock (s : State) (b : Nat) (f : Block → Block) : State :=
  { s with blocks := Tbl.upd s.blocks b f }
def State.modLaunch (s : State) (l : Nat) (f : Launch → Launch) : State :=
  { s with launches := Tbl.upd s.launches l f }

/-- An interrupt that carries a code and an address alone. -/
def Irq.plain (vd : Option Nat) (vec : Nat) (code : BitVec 9) (addr : Va) : Irq :=
  { vd, vec, code, addr, under := 0, halt := none }

/-- An interrupt raised to system software (R364). -/
def State.raise (s : State) (i : Irq) : State := { s with irqs := s.irqs ++ [i] }

/-! ## Event counters (R390) -/

/-- Counters of a core or a die that count a source for a virtual device rise; the count wraps. -/
def countEvent (t : Tbl EvCnt) (src : Nat) (vd : Option Nat) (n : Nat) : Tbl EvCnt :=
  t.map fun (e : Nat × EvCnt) =>
    let sel := e.2.sel
    let mine := !sel.getLsbD 29 || vd = some (sel.toNat / 256 % 256)
    if sel.getLsbD 31 && sel.toNat % 256 = src && mine then
      let x := e.2.count.toNat + n
      (e.1, { sel := if 2 ^ 48 ≤ x then sel ||| 0x40000000 else sel, count := BitVec.ofNat 48 x })
    else e

/-- An event of a core (R390): its own counters, and its die's. -/
def State.countCore (s : State) (core src : Nat) (vd : Option Nat) (n : Nat) : State :=
  let s1 := if (s.core core).cnt.isEmpty then s else s.modCore core fun c => { c with cnt := countEvent c.cnt src vd n }
  if (s1.die (core / 64)).cnt.isEmpty then s1
  else s1.modDie (core / 64) fun d => { d with cnt := countEvent d.cnt src vd n }

/-- An event of a die. -/
def State.countDie (s : State) (die src : Nat) (vd : Option Nat) (n : Nat) : State :=
  if (s.die die).cnt.isEmpty then s else s.modDie die fun d => { d with cnt := countEvent d.cnt src vd n }

/-- A page request for a page, unless one is outstanding (R84); a core's request is counted. -/
def State.askPage (s : State) (vd page core : Nat) : State :=
  if (s.vd vd).pages.contains page then s
  else (s.modVd vd fun v => { v with pages := v.pages ++ [page] }).countCore core 0x38 (some vd) 1

/-- The core that a block stands on, or comes back to. -/
def Block.onCore (b : Block) : Nat :=
  match b.loc with
  | .core n => n
  | .layby n => n
  | .slice _ n => n
  | .memory => 0

/-- The core of a group. -/
def State.coreOf (s : State) (gid : Nat) : Nat := ((Tbl.find s.groups gid).map (·.core)).getD 0

/-- A little-endian number from bytes. -/
def leNat : List Byte → Nat
  | [] => 0
  | b :: bs => b.toNat + 256 * leNat bs

/-- The `n` bytes of a number, least significant first. -/
def leBytes : Nat → Nat → List Byte
  | 0, _ => []
  | n + 1, x => BitVec.ofNat 8 x :: leBytes n (x / 256)

/-- A little-endian field of a record. -/
def recFld (raw : List Byte) (lo n : Nat) : Nat := leNat ((raw.drop lo).take n)

/-- Bytes of a record are zero. -/
def recZero (raw : List Byte) (lo n : Nat) : Bool := ((raw.drop lo).take n).all fun b => b = 0

/-- One bit of a record's field. -/
def recBit (raw : List Byte) (lo n k : Nat) : Bool := recFld raw lo n / 2 ^ k % 2 = 1

/-! ## The configuration block (R365) -/

/-- A field of the configuration block, as a number. -/
def VDev.cfg (v : VDev) (lo n : Nat) : Nat := leNat ((v.config.drop lo).take n)
def VDev.ptroot (v : VDev) : Nat := v.cfg 0 10
/-- 0 OFF, 1 RECOVER, 2 SLICE (R355). -/
def VDev.msmode (v : VDev) : Nat := v.cfg 88 1
def VDev.partition (v : VDev) : Nat := v.cfg 92 1
def VDev.sliced (v : VDev) : Bool := v.cfg 93 1 = 1

/-- An interrupt of a virtual device: withheld in SLICE mode. -/
def State.raiseVd (s : State) (vd : Nat) (i : Irq) : State :=
  if (s.vd vd).msmode = 2 then s.modVd vd fun v => { v with withheld := v.withheld ++ [.irq i] } else s.raise i

/-- The virtual device of a group. -/
def State.vdOf (s : State) (gid : Nat) : Nat :=
  match Tbl.find s.groups gid with
  | some g => ((Tbl.find s.blocks g.blk).map (·.vd)).getD 0
  | none => 0

/-! ## Paths -/

/-- The path that holds lane `l`. -/
def pathAt (ps : List Path) (l : Nat) : Option Path := ps.find? fun p => has p.mask l

/-- The paths with the one that holds lane `l` replaced. -/
def replacePath (ps : List Path) (l : Nat) (new : List Path) : List Path :=
  ps.flatMap fun p => if has p.mask l then new else [p]

/-- The path that holds lane `l` takes a state. -/
def Group.setSt (g : Group) (l : Nat) (st : PathSt) : Group :=
  match pathAt g.paths l with
  | some p => { g with paths := replacePath g.paths l [{ p with st := st }] }
  | none => g

/-- The paths without the lanes of `m`; a path left with no lane is gone. -/
def dropLanes (ps : List Path) (m : LaneMask) : List Path :=
  (ps.map fun p => { p with mask := p.mask &&& ~~~m }).filter fun p => p.mask ≠ 0

/-- The lane that names the current path once the lanes of `m` have left their paths: where the path goes on without them, its
lowest lane (R93, R102). -/
def Group.curWithout (g : Group) (m : LaneMask) : Nat :=
  match pathAt g.paths g.cur with
  | some p => if p.mask &&& ~~~m = 0 then g.cur else lowLane (p.mask &&& ~~~m)
  | none => g.cur

/-- The current path is left with no lane once those of `m` have left it: another stands there from now on, for which the fairness
timer starts (R93). -/
def Group.leavesCurrent (g : Group) (m : LaneMask) : Bool :=
  match pathAt g.paths g.cur with
  | some p => p.mask &&& ~~~m = 0
  | none => true

/-- A fresh ready path. -/
def Path.fresh (pc : Va) (mask : LaneMask) (b14 : Va) : Path :=
  { pc, mask, st := .ready, b14, handler := false, hazards := [], defer := 0, stop := none, step := false, past := false }

/-- A path with a lane is kept, one without a lane is not (R92). -/
def nonEmpty (ps : List Path) : List Path := ps.filter fun p => p.mask ≠ 0

/-! ## The rejoin masks and the gather (R103) -/

/-- The mask jk as a path names it: a handler path's j0 and j1 are hj0 and hj1 (R344). -/
def Group.rejoin (g : Group) (handler : Bool) (k : Nat) : LaneMask :=
  if handler then
    match g.handler with
    | some hd => if k = 0 then hd.hj0 else if k = 1 then hd.hj1 else 0
    | none => 0
  else Tbl.getD g.j k 0

/-- A register of the group has been written in this turn (R356); a copy of b14 is part of its path. -/
def Group.note (g : Group) (r : RegId) : Group :=
  match r with
  | .b14 _ => g
  | r => if g.noted.contains r then g else { g with noted := g.noted ++ [r] }

/-- What of a block's storage has been written in this turn (R356). -/
def Block.note (b : Block) (xs : List LogItem) : Block :=
  { b with noted := b.noted ++ xs.eraseDups.filter fun x => !b.noted.contains x }

/-- The group with the mask jk, as a path names it, replaced. -/
def Group.setRejoin (g : Group) (handler : Bool) (k : Nat) (m : LaneMask) : Group :=
  if handler then
    { g with handler := g.handler.map fun hd =>
        if k = 0 then { hd with hj0 := m } else if k = 1 then { hd with hj1 := m } else hd }
  else Group.note { g with j := Tbl.put g.j k m } (.j k)

/-- The paths that wait on jk, among handler paths or among the others. -/
def Group.waiters (g : Group) (handler : Bool) (k : Nat) : List Path :=
  g.paths.filter fun p => p.handler = handler && p.st = .join k

/-- The outcome of a gather on jk: nothing happens, the waiting paths merge at one PC, or they wait at more
than one PC (R103). -/
inductive Gather where
  | wait
  | merge (need : LaneMask) (pc : Va)
  | mismatch (need : LaneMask)
  deriving DecidableEq, Repr

def Group.gather (g : Group) (handler : Bool) (k : Nat) : Gather :=
  let need := g.rejoin handler k
  let ws := g.waiters handler k
  let there := ws.foldl (fun m p => m ||| p.mask) (0 : LaneMask)
  if need = 0 || need &&& ~~~there ≠ 0 then .wait
  else
    match ws.filter fun p => p.mask &&& need ≠ 0 with
    | [] => .wait
    | p :: ps => if ps.all fun q => q.pc = p.pc then .merge need p.pc else .mismatch need

/-- The merge of a gather: one ready path of the needed lanes behind the WAITJ, with the b14 of the path that
holds the lowest of them; the bits of jk are cleared. A stop that held one of the paths holds the merged one (R391). -/
def Group.mergePaths (g : Group) (handler : Bool) (k : Nat) (need : LaneMask) (pc : Va) : Group :=
  let low := pathAt g.paths (lowLane need)
  let b14 := (low.map (·.b14)).getD 0
  let old := g.paths.filter fun p => p.mask &&& need ≠ 0
  let merged := { Path.fresh (nextPc pc) need b14 with
    handler := handler, hazards := old.flatMap (·.hazards), stop := old.findSome? (·.stop) }
  let wasCur := has need g.cur
  let g1 := { g with paths := dropLanes g.paths need ++ [merged]
                     cur := if wasCur then lowLane need else g.cur }
  g1.setRejoin handler k (g.rejoin handler k &&& ~~~need)

/-! ## Registers (R33, R44 to R47) -/

/-- The vector register whose contents nothing defines (R4, R45, R47): value and tag are free. -/
def freeVReg (seed pos : Nat) : VReg :=
  match (Config.freeTag seed pos).toNat with
  | 0 => .u (Config.freeWord seed pos 0)
  | 1 => VReg.affine (Config.freeWord seed pos 0) (Config.freeWord seed pos 1)
  | _ => .g (lanes fun l => Config.freeWord seed pos l)

/-- An undefined mask of lanes. -/
def freeMask (seed pos : Nat) : LaneMask := Config.freeWord seed pos 0

/-- An undefined base. -/
def freeBase (seed pos : Nat) : Va :=
  (Config.freeWord seed pos 2 ++ Config.freeWord seed pos 1 ++ Config.freeWord seed pos 0).setWidth 80

/-- The value in the register file of vN; undefined since creation where nothing was written (R116). -/
def Group.vreg (g : Group) (gid n : Nat) : VReg := Tbl.getD g.v n (.u (Config.creationWord gid n 0))
def Group.sreg (g : Group) (gid n : Nat) : W32 := Tbl.getD g.s n (Config.creationWord gid (256 + n) 0)

/-- pN as a lane mask; p15 reads 1 in every lane (R33), and masks have only the group's lanes (R82). -/
def Group.preg (g : Group) (gid n : Nat) : LaneMask :=
  if n = 15 then g.full else Tbl.getD g.p n (Config.creationWord gid (512 + n) 0) &&& g.full

def Group.breg (g : Group) (gid n : Nat) : Va := Tbl.getD g.b n (Config.creationBase gid n)

/-- Two names stand for one register, or for the b14 of one path. -/
def RegId.meets : RegId → RegId → Bool
  | .b14 m, .b14 k => m &&& k ≠ 0
  | r, q => r = q

/-- The name of bN for the paths whose lowest lanes are in `m` (R92). -/
def RegId.base (n : Nat) (m : LaneMask) : RegId := if n = 14 then .b14 m else .b n

/-- The register that a write names. -/
def RegWrite.reg : RegWrite → RegId
  | .v n .. => .v n
  | .s n _ => .s n
  | .b n _ m => RegId.base n m
  | .p n .. => .p n
  | .j n .. => .j n
  | .expand n .. => .v n

/-- A register value as a narrow group holds it: lanes 16 to 31 read zero (R82). -/
def VReg.trim (narrow : Bool) (r : VReg) : VReg :=
  match r with
  | .g w => if narrow then .g (lanes fun l => if l < 16 then (VReg.g w).lane l else 0) else .g w
  | .u x => .u x
  | .a x y => .a x y

/-- A vector register takes a result in the live lanes: a full write takes the result's shape, any other
merges (R120, R121). -/
def Group.writeV (g : Group) (gid n : Nat) (live : LaneMask) (val : VReg) (full : Bool) : Group :=
  Group.note { g with v := Tbl.put g.v n (if full then val.trim g.narrow else VReg.merge g.width live (g.vreg gid n) val) } (.v n)

/-- A write to bN; to b14 it changes only the copies of the paths whose lowest lane is in the mask (R92). -/
def Group.writeB (g : Group) (n : Nat) (m : LaneMask) (x : Va) : Group :=
  if n = 14 then
    { g with paths := g.paths.map fun (p : Path) => if has m (lowLane p.mask) then { p with b14 := x } else p }
  else Group.note { g with b := Tbl.put g.b n x } (.b n)

/-- One register write, and nothing else of the group. -/
def Group.write (g : Group) (gid : Nat) : RegWrite → Group
  | .v n live val full => g.writeV gid n live val full
  | .s n x => Group.note { g with s := Tbl.put g.s n x } (.s n)
  | .b n x m => g.writeB n m x
  | .p n live bits =>
    Group.note { g with p := Tbl.put g.p n ((g.preg gid n &&& ~~~live) ||| (bits &&& live)) } (.p n)
  | .j n m hd => g.setRejoin hd n (m &&& g.full)
  | .expand n live val =>
    Group.note { g with v := Tbl.put g.v n (VReg.trim g.narrow (.g (lanes fun l => if has live l then val.lane l else (g.vreg gid n).lane l))) }
      (.v n)

/-- The same write with undefined contents of the whole register (R47). -/
def RegWrite.undef (seed pos : Nat) : RegWrite → RegWrite
  | .v n live _ _ => .v n live (freeVReg seed pos) true
  | .s n _ => .s n (Config.freeWord seed pos 0)
  | .b n _ m => .b n (freeBase seed pos) m
  | .p n _ _ => .p n 0xFFFFFFFF (freeMask seed pos)
  | .j n _ hd => .j n (freeMask seed pos) hd
  | .expand n live _ => .v n live (freeVReg seed pos) true

/-- The same write with undefined contents in the lanes of `x`, and an undefined tag (R4, R44). -/
def RegWrite.undefIn (seed pos : Nat) (x : LaneMask) (w : RegWrite) : RegWrite :=
  let mixed := fun (n : Nat) (live : LaneMask) (val : VReg) =>
    let r : VReg := .g (lanes fun l => if has x l then Config.freeWord seed pos l else val.lane l)
    if (Config.freeTag seed pos).toNat = 2 then RegWrite.expand n live r else .v n live r false
  match w with
  | .v n live val _ => mixed n live val
  | .expand n live val => mixed n live val
  | .p n live bits => .p n live ((bits &&& ~~~x) ||| (freeMask seed pos &&& x))
  | w => w.undef seed pos

/-- The outstanding V results that will write a register. -/
def Group.vfor (g : Group) (r : RegId) : List RegId := g.vpend.filter fun x => x.meets r

/-- Outstanding V results whose registers have been written meanwhile (R47). -/
def Group.spoil (g : Group) (rs : List RegId) : Group :=
  { g with clobber := g.clobber ++ rs.filter fun r => !g.clobber.contains r }

/-- A result of fixed latency is written: over a register that an outstanding V result will write, both become
undefined (R47). -/
def Group.writeNow (g : Group) (gid seed : Nat) (w : RegWrite) : Group :=
  if (g.vfor w.reg).isEmpty then g.write gid w
  else (g.write gid (w.undef seed 40)).spoil (g.vfor w.reg)

/-- A V result is written: undefined if the register was written meanwhile (R47); the register is then no
longer pending, and what it had reserved is free (R124). -/
def Group.writeLate (g : Group) (gid seed : Nat) (w : RegWrite) : Group :=
  let w' := if g.clobber.contains w.reg then w.undef seed 41 else w
  let left := g.vpend.erase w.reg
  { (g.write gid w') with
    vpend := left
    grow := match w with
      | .v n .. => g.grow.erase n
      | _ => g.grow
    clobber := if left.contains w.reg then g.clobber else g.clobber.filter fun r => r ≠ w.reg }

/-- The lanes that a write reaches: a register that has no lanes is written whole. -/
def RegWrite.lanes : RegWrite → LaneMask
  | .v _ m _ _ => m
  | .p _ m _ => m
  | .expand _ m _ => m
  | .s .. => 0xFFFFFFFF
  | .b .. => 0xFFFFFFFF
  | .j .. => 0xFFFFFFFF

/-- The lanes of one register that two results of fixed latency reach both. -/
def RegWrite.shared (w x : RegWrite) : LaneMask := if w.reg.meets x.reg then w.lanes &&& x.lanes else 0

/-- Two results of fixed latency reach a common lane of one register. -/
def RegWrite.clash (w x : RegWrite) : Bool := w.shared x ≠ 0

/-- A result of fixed latency reaches its register; where two do so in one cycle, neither is known to stay in the lanes that both
reach. -/
def Group.landOne (g : Group) (gid : Nat) (before : List Due) (d : Due) : Group :=
  let both := (before.filter fun e => e.at' = d.at').foldl (fun m e => m ||| e.write.shared d.write) (0 : LaneMask)
  g.writeNow gid d.seed (if both = 0 then d.write else d.write.undefIn d.seed 43 both)

def Group.landAll (gid : Nat) : List Due → List Due → Group → Group
  | _, [], g => g
  | done, d :: ds, g => Group.landAll gid (d :: done) ds (g.landOne gid done d)

/-- The results of fixed latency that `sel` picks, in the order in which they are written. -/
def Group.landing (g : Group) (sel : Due → Bool) : List Due := sortBy (fun x y => x.at' ≤ y.at') (g.due.filter sel)

/-- The results of fixed latency that `sel` picks are written (R44, R45). -/
def Group.land (g : Group) (gid : Nat) (sel : Due → Bool) : Group :=
  Group.landAll gid [] (g.landing sel) { g with due := g.due.filter fun d => !sel d }

/-! ## Taking a fault -/

/-- The bytes of a verified chunk that a core fetches from (R77, R78). -/
def Core.chunk (c : Core) (vd : Nat) (pc : Va) : Option Memory :=
  (c.verified.find? fun (v, n, _) => v = vd && n = pc.toNat / 4096).map fun (_, _, m) => m

/-- One byte of a sparse image. -/
def Memory.get (m : Memory) (a : Nat) : Byte := (Tbl.find m a).getD 0

/-- The 96-bit word at a PC of a verified chunk. -/
def chunkWord (m : Memory) (pc : Va) : BitVec 96 :=
  wordOfBytes ((List.range 12).map fun i => Memory.get m (pc.toNat % 4096 + i))

/-- The word that a fault record carries for a PC: zero where the core holds no verified chunk. -/
def State.wordAt (s : State) (core vd : Nat) (pc : Va) : BitVec 96 :=
  match (s.core core).chunk vd pc with
  | some m => chunkWord m pc
  | none => 0

/-- A fault record at a PC with nothing but a code (R342). -/
def FaultRec.at' (code : BitVec 9) (pc : Va) (word : BitVec 96) (b14 : Va) : FaultRec :=
  { code, pos := 0, det := 0, info := 0, addr := 0, pc, orig := pc, word, b14, followOn := false, more := .none, lead := none }

/-- Lanes leave their paths and are parked with their records; their reservations are lost (R186, R342). -/
def Group.park (g : Group) (m : LaneMask) (rec : Nat → FaultRec) : Group :=
  { g with paths := dropLanes g.paths m
           cur := g.curWithout m
           faults := (lanesOf m).foldl (fun t l => Tbl.put t l (rec l)) g.faults
           resv := (lanesOf m).foldl (fun t l => Tbl.drop t l) g.resv }

/-- The lanes of a group that are parked for a page, with a record of what they wait for: the code that a failure of the request
would have; a fetch has none before its response (R84, R176). -/
def State.pageParked (s : State) (gid : Nat) (g : Group) : List (Nat × FaultRec) :=
  s.waits.flatMap fun w => match w with
    | .lanes _ a code b14 _ _ _ =>
      if a.gid = gid then (lanesOf a.live).map fun l => (l, { FaultRec.at' code a.pc 0 b14 with
        addr := ((a.parts.find? fun (p : Part) => p.lane = l).map (·.ea)).getD 0 }) else []
    | .fetch _ page x lane =>
      if x = gid then ((pathAt g.paths lane).toList.flatMap fun p => (lanesOf p.mask).map fun l => (l, { FaultRec.at' 0 p.pc 0 p.b14 with
        addr := BitVec.ofNat 80 (page * 4096) })) else []

/-- The full names of a group's parked lanes, with what their records hold, by rising lane (R21, R345): those that wait to enter the
handler and those that wait for a page. -/
def State.parkedNames (s : State) (gid : Nat) (g : Group) : List (W64 × FaultRec) :=
  (sortBy (fun x y => x.1 ≤ y.1) (g.faults ++ s.pageParked gid g)).map fun (e : Nat × FaultRec) =>
    (if h : e.1 < 32 then g.ltid[e.1] else 0, e.2)

/-- The record of a halt of a group: HANDLER_FAULT with the nested code and the PC of the handler path, or NO_HANDLER (R341). -/
def State.haltRec (s : State) (gid : Nat) (g : Group) (code nested : BitVec 9) (pc : Va) : HaltRec :=
  let b := Tbl.find s.blocks g.blk
  { vd := (b.map (·.vd)).getD 0
    launch := ((b.bind fun (b : Block) => Tbl.find s.launches b.launch).map (·.index)).getD 0
    code, nested, pc, lanes := s.parkedNames gid g }

/-- HANDLER_FAULT and NO_HANDLER halt the group: no path issues again, and the partition's supervisor is told, with the record of
the halt (R341, R345, R346). The lanes' own records stay as they are. -/
def State.haltGroup (s : State) (gid : Nat) (code nested : BitVec 9) (pc : Va) : State :=
  match Tbl.find s.groups gid with
  | none => s
  | some g =>
    ({ s with groups := Tbl.put s.groups gid { g with halt := some code } }).raiseVd (s.vdOf gid)
      { Irq.plain none 2 code 0 with under := nested, halt := some (s.haltRec gid g code nested pc) }

/-- The lanes of `m` stand as a path of their own where their path stands. -/
def Group.standApart (g : Group) (m : LaneMask) : Group :=
  match pathAt g.paths (lowLane m) with
  | some p => { g with paths := dropLanes g.paths m ++ [{ p with mask := m }] }
  | none => g

/-- TAKING A FAULT (R342, R345): the lanes of `m`, all of one issue, are parked as one entry set with the
record that `rec` gives each lane; if the path is a handler path, the group halts with HANDLER_FAULT
instead, and the lanes stand at the handler's instruction. -/
def State.takeFault (s : State) (gid : Nat) (handler : Bool) (m : LaneMask) (rec : Nat → FaultRec) : State :=
  if m = 0 then s
  else if handler then
    let r := rec (lowLane m)
    (s.modGroup gid fun g => g.standApart m).haltGroup gid 0x122 r.code r.pc
  else s.modGroup gid fun g => { g.park m rec with entries := g.entries ++ [m] }

/-- The gather of R103 on one rejoin mask: also run after every EXIT and every RTH. -/
def State.gather (s : State) (gid : Nat) (handler : Bool) (k : Nat) : State :=
  match Tbl.find s.groups gid with
  | none => s
  | some g =>
    match g.gather handler k with
    | .wait => s
    | .merge need pc => s.modGroup gid fun g =>
      { g.mergePaths handler k need pc with since := if has need g.cur then s.cycle else g.since }
    | .mismatch need =>
      let vd := ((Tbl.find s.blocks g.blk).map (·.vd)).getD 0
      s.takeFault gid handler need fun l =>
        match pathAt g.paths l with
        | some p => FaultRec.at' 0x038 p.pc (s.wordAt g.core vd p.pc) p.b14
        | none => FaultRec.at' 0x038 0 0 0

/-- The gathers of every rejoin mask, j0 first. -/
def State.gatherAll (s : State) (gid : Nat) (handler : Bool) : State :=
  (List.range 8).foldl (fun s k => s.gather gid handler k) s

/-- Registers of a group that have become GENERAL (R124). -/
def grown (g h : Group) (gid : Nat) : Nat :=
  (h.v.filter fun e => (h.vreg gid e.1).tag = 2 && (g.vreg gid e.1).tag ≠ 2).length

/-- A group after writes of its registers: expansions are counted (R390). -/
def State.wrote (s : State) (gid : Nat) (g h : Group) : State :=
  let t := { s with groups := Tbl.put s.groups gid h }
  if grown g h gid = 0 then t else t.countCore g.core 0x20 (some (s.vdOf gid)) (grown g h gid)

/-- The results of fixed latency of a group that `sel` picks are written; a rejoin mask among them is gathered (R44, R45, R142). -/
def State.land (s : State) (gid : Nat) (sel : Due → Bool) : State :=
  match Tbl.find s.groups gid with
  | none => s
  | some g =>
    let now := g.landing sel
    if now.isEmpty then s
    else now.foldl (fun (t : State) d => match d.write with
      | .j k _ hd => t.gather gid hd k
      | _ => t) (s.wrote gid g (g.land gid sel))

/-- Every result of fixed latency of a group is written, and no path waits for one any more: the time of a stop, a parking or a
slice covers the longest (R45, R321, R359). -/
def State.calm (s : State) (gid : Nat) : State :=
  (s.land gid fun _ => true).modGroup gid fun g => { g with paths := g.paths.map fun (p : Path) => { p with hazards := [] } }

/-- A path other than parked lanes can issue: it neither waits nor sleeps nor is held (R343). -/
def Path.couldIssue (p : Path) : Bool := p.st = .ready && p.stop.isNone

/-- The entry sets in the order in which they enter: those that one cycle parks stand by their lowest lanes (R342, R362). -/
def Group.queue (g : Group) : List LaneMask :=
  g.entries.take g.older ++ sortBy (fun x y => lowLane x ≤ lowLane y) (g.entries.drop g.older)

/-- ENTERING THE HANDLER (R343, R344): the oldest entry set becomes a path at the launch's handler entry, with
the b14 of the path it was parked from and hj0 and hj1 zero; without a handler the group halts with
NO_HANDLER (R346). While a stop holds the group none enters (R391). -/
def State.enterSet (s : State) (gid : Nat) : State :=
  match Tbl.find s.groups gid with
  | none => s
  | some g =>
    match g.queue, g.handler, g.halt, g.held with
    | m :: rest, none, none, none =>
      let hand := ((Tbl.find s.blocks g.blk).map (·.hand)).getD 0
      if hand = 0 then
        let code := (Tbl.getD g.faults (lowLane m) (FaultRec.at' 0 0 0 0)).code
        s.haltGroup gid 0x124 code 0
      else
        let b14 := (Tbl.getD g.faults (lowLane m) (FaultRec.at' 0 0 0 0)).b14
        s.modGroup gid fun g =>
          { g with entries := rest
                   older := g.older - 1
                   handler := some ⟨m, m, 0, 0⟩
                   paths := g.paths ++ [{ Path.fresh hand m b14 with handler := true }]
                   cur := lowLane m
                   since := s.cycle
                   rotate := false }
    | _, _, _, _ => s

/-- The handler is entered once every fixed-latency result of the set's threads has been written (R45). -/
def State.enterHandler (s : State) (gid : Nat) : State :=
  let m := ((Tbl.find s.groups gid).bind fun g => g.queue.head?).getD 0
  (s.land gid fun d => d.who &&& m ≠ 0).enterSet gid

/-- Where a lane that leaves the handler goes (R349). -/
inductive Leave where
  | skip
  | retry
  | at (a : Va)
  deriving DecidableEq, Repr

def Leave.target (w : Leave) (fpc : Va) : Va :=
  match w with
  | .skip => nextPc fpc
  | .retry => fpc
  | .at a => a

/-- The distinct targets of lanes, in order of their lowest lane, each with its mask. -/
def byTarget (ls : List Nat) (t : Nat → Va) : List (Va × LaneMask) :=
  ls.foldl (fun acc l =>
    match acc.find? fun e => e.1 = t l with
    | some _ => acc.map fun e => if e.1 = t l then (e.1, e.2 ||| bit l) else e
    | none => acc ++ [(t l, bit l)]) []

/-- RETURNING FROM THE HANDLER (R349), once every fixed-latency result of the threads has been written (R45): the live lanes
leave as ready paths, one for each distinct target, with the b14 saved at entry; their records are cleared; when every lane of
the entry mask has returned or exited the invocation ends and the gathers run. -/
def State.leaveHandler (s0 : State) (gid : Nat) (m : LaneMask) (w : Leave) : State :=
  let s := s0.land gid fun d => d.who &&& m ≠ 0
  match Tbl.find s.groups gid with
  | none => s
  | some g =>
    match g.handler with
    | none => s
    | some hd =>
      let fr := fun l => Tbl.getD g.faults l (FaultRec.at' 0 0 0 0)
      let news := (byTarget (lanesOf m) fun l => w.target (fr l).pc).map fun (t, mm) =>
        Path.fresh t mm (fr (lowLane mm)).b14
      let left := hd.left &&& ~~~m
      let hd' := { hd with left := left, hj0 := hd.hj0 &&& ~~~m, hj1 := hd.hj1 &&& ~~~m }
      let g' := { g with paths := dropLanes g.paths m ++ news
                         cur := g.curWithout m
                         since := if g.leavesCurrent m then s.cycle else g.since
                         faults := (lanesOf m).foldl (fun t l => Tbl.drop t l) g.faults
                         handler := if left = 0 then none else some hd' }
      let s' := { s with groups := Tbl.put s.groups gid g' }
      if left = 0 then s'.gatherAll gid false else s'.gatherAll gid true

end Sys2Proof.Machine
end

