-- ==== Sys2Proof/Machine/Operands.lean ====
section
/-! DEFINITION. The issuing context, every operand form of R33 to R36 and R118 as it reads at issue (R47), and
every form of destination as it is written (R119 to R122). -/

namespace Sys2Proof.Machine

/-- The context of an issue: the group and path as they stand after the issue's bookkeeping, the block, the
live lanes (R40), the number that its free values are drawn with. -/
structure Ctx where
  gid : Nat
  lane : Nat
  g : Group
  p : Path
  b : Block
  live : LaneMask
  now : Nat
  seed : Nat
  deriving DecidableEq, Repr

/-- A register may not be read by this path now: a result of its own has not had its latency (R45), or a V result of the group
is outstanding (R47). Another path reads what a result of fixed latency has not replaced yet (R44). -/
def Ctx.stale (c : Ctx) (r : RegId) : Bool := (c.p.hazards.any fun h => h.reg.meets r) || c.g.vpend.any fun x => x.meets r

/-- vN as the path reads it. `pos` numbers the operand position for free values. -/
def Ctx.v (c : Ctx) (pos n : Nat) : VReg :=
  if c.stale (.v n) then freeVReg c.seed pos else c.g.vreg c.gid n

/-- sN as the path reads it. -/
def Ctx.s (c : Ctx) (pos n : Nat) : W32 :=
  if c.stale (.s n) then Config.freeWord c.seed pos 0 else c.g.sreg c.gid n

/-- pN as the path reads it. -/
def Ctx.pred (c : Ctx) (pos n : Nat) : LaneMask :=
  if n = 15 then c.g.full
  else if c.stale (.p n) then freeMask c.seed pos &&& c.g.full
  else c.g.preg c.gid n

/-- bN as the path reads it: b14 is the path's own (R92). -/
def Ctx.base (c : Ctx) (pos n : Nat) : Va :=
  if c.stale (RegId.base n (bit (lowLane c.p.mask))) then freeBase c.seed pos
  else if n = 14 then c.p.b14 else c.g.breg c.gid n

/-- jk as the path reads it (R142, R344). -/
def Ctx.rejoin (c : Ctx) (pos k : Nat) : LaneMask :=
  if c.stale (.j k) then freeMask c.seed pos &&& c.g.full else c.g.rejoin c.p.handler k

/-! ## Names and shape of the launch (R19, R20, R22) -/

/-- `gnum` of an LTID (R19, R82). -/
def ltidGnum (narrow : Bool) (t : W64) : W32 :=
  if narrow then (t.extractLsb' 4 12).setWidth 32 else (t.extractLsb' 5 11).setWidth 32

def ltidLane (narrow : Bool) (t : W64) : W32 :=
  if narrow then (t.extractLsb' 0 4).setWidth 32 else (t.extractLsb' 0 5).setWidth 32

def ltidSser (t : W64) : W32 := (t.extractLsb' 20 12).setWidth 32
def ltidBlk (t : W64) : W32 := t.extractLsb' 32 32
def ltidTidx (t : W64) : W32 := (t.extractLsb' 0 16).setWidth 32

/-- The LTID that a lane slot holds. -/
def Group.lt (g : Group) (l : Nat) : W64 := if h : l < 32 then g.ltid[l] else 0

/-- The extent of a level in the block's hierarchy; 0 for a level that does not exist. -/
def extentAt (lvl : List W32) (i : Nat) : Nat :=
  if i < lvl.length then (lvl.getD i 0).toNat % 2 ^ 24 else 0

/-- q_i of a block linear index (R20), for i from 3; 0 for a level that does not exist. -/
def coord (lvl : List W32) (blk : Nat) (i : Nat) : Nat :=
  if i < 3 || lvl.length ≤ i then 0
  else
    let below := (List.range (i - 3)).foldl (fun a k => a * extentAt lvl (3 + k)) 1
    if i + 1 = lvl.length then blk / below else blk / below % extentAt lvl i

/-- The group is declared and has not been regrouped (R22). -/
def Group.declared (g : Group) : Bool := !g.regrouped && ltidSser (g.lt 0) = 0

/-- A name of the threads of a group with the shape that its values form: over every lane, and over the lane slots that were
filled in a fresh group of REFORM (R22, R122). Which LTID an empty lane slot holds nothing says: where the values are GENERAL it is
free. -/
def Group.merged (g : Group) (gid salt : Nat) (f : W64 → W32) : VReg :=
  if g.regrouped then recomputeOcc g.drawn (fun l => f (g.lt l)) fun l => Config.creationWord gid (1024 + salt) l
  else recompute g.width fun l => f (g.lt l)

/-- A name or shape special with the shape it carries (R22). -/
def Ctx.special (c : Ctx) (launch : W32) (n : Special) : VReg :=
  let g := c.g
  let per := g.merged c.gid
  let w : W32 := BitVec.ofNat 32 g.width
  match n with
  | .slane => .a 0 1
  | .llane => if g.declared then .a 0 1 else per 81 (ltidLane g.narrow)
  | .tidx => if g.declared then .a (ltidGnum g.narrow (g.lt 0) * w) 1 else per 82 ltidTidx
  | .gnum => if g.declared then .u (ltidGnum g.narrow (g.lt 0)) else per 83 (ltidGnum g.narrow)
  | .sser => per 84 ltidSser
  | .blkid => .u c.b.idx
  | .launch => .u launch
  | .nlev => .u (BitVec.ofNat 32 c.b.lvl.length)
  | .lcrd3 => .u (BitVec.ofNat 32 (coord c.b.lvl c.b.idx.toNat 3))
  | .lcrd4 => .u (BitVec.ofNat 32 (coord c.b.lvl c.b.idx.toNat 4))
  | .lcrd5 => .u (BitVec.ofNat 32 (coord c.b.lvl c.b.idx.toNat 5))
  | .lcrd6 => .u (BitVec.ofNat 32 (coord c.b.lvl c.b.idx.toNat 6))
  | .lcrd7 => .u (BitVec.ofNat 32 (coord c.b.lvl c.b.idx.toNat 7))
  | .lext1 => .u (BitVec.ofNat 32 (extentAt c.b.lvl 1))
  | .lext2 => .u (BitVec.ofNat 32 (extentAt c.b.lvl 2))
  | .lext3 => .u (BitVec.ofNat 32 (extentAt c.b.lvl 3))
  | .lext4 => .u (BitVec.ofNat 32 (extentAt c.b.lvl 4))
  | .lext5 => .u (BitVec.ofNat 32 (extentAt c.b.lvl 5))
  | .lext6 => .u (BitVec.ofNat 32 (extentAt c.b.lvl 6))
  | .lext7 => .u (BitVec.ofNat 32 (extentAt c.b.lvl 7))

/-- The constants of R34. -/
def Konst.val (width : Nat) : Konst → W32
  | .zero => 0
  | .one => 1
  | .ones => 0xFFFFFFFF
  | .width => BitVec.ofNat 32 width
  | .fone => 0x3F800000
  | .fmone => 0xBF800000
  | .fhalf => 0x3F000000
  | .ftwo => 0x40000000
  | .finf => 0x7F800000
  | .fmax => 0x7F7FFFFF

/-- The launch index of the context's launch. -/
def State.launchIx (s : State) (b : Block) : W32 := ((Tbl.find s.launches b.launch).map (·.index)).getD 0

/-- A 32-bit source operand at position `pos` (R118): immediates are sign-extended (R35). -/
def Ctx.src (c : Ctx) (launch : W32) (pos : Nat) : Opnd → VReg
  | .v n => c.v pos n.toNat
  | .s n => .u (c.s pos n.toNat)
  | .spec n => c.special launch n
  | .konst n => .u (Konst.val c.g.width n)
  | .imm n => .u (n.signExtend 32)
  | .j n => .u (c.rejoin pos n.toNat)
  | .base _ => .u 0
  | .p _ => .u 0
  | .tile _ => .u 0
  | .ctr _ => .u 0
  | .tx _ => .u 0

/-- The two halves of a 64-bit source operand, low first (R36): specials and constants are zero-extended,
immediates sign-extended (R118). -/
def Ctx.src64 (c : Ctx) (launch : W32) (pos : Nat) : Opnd → VReg × VReg
  | .v n => (c.v pos n.toNat, c.v (pos + 16) (n.toNat + 1))
  | .s n => (.u (c.s pos n.toNat), .u (c.s (pos + 16) (n.toNat + 1)))
  | .imm n => (.u (n.signExtend 32), .u ((n.signExtend 64).extractLsb' 32 32))
  | o => (c.src launch pos o, .u 0)

/-- A 64-bit value in lane `l`. -/
def lane64 (r : VReg × VReg) (l : Nat) : W64 := r.2.lane l ++ r.1.lane l

/-- A scalar operand (s, constant, special 85 to 99 or immediate) as a number read once (R182). -/
def Ctx.scalar (c : Ctx) (launch : W32) (pos : Nat) (o : Opnd) : W32 := (c.src launch pos o).lane (lowLane c.live)

/-! ## Demands (R117) -/

/-- The registers of a position exceed the group's demands: `cnt` registers from the one named. -/
def overDemand (b : Block) (cnt : Nat) : Opnd → Bool
  | .v n => b.nv < n.toNat + cnt
  | .s n => b.ns < n.toNat + cnt
  | _ => false

/-- The first position whose register exceeds the demands: 0 `d`, 1 `a`, 2 `b`, 3 `x`. -/
def demandFail (b : Block) (ops : List (Nat × Opnd × Nat)) : Option Nat :=
  (ops.find? fun o => overDemand b o.2.2 o.2.1).map (·.1)

/-! ## Results and their shapes (R120) -/

/-- A result of one source: UNIFORM when the source is, else GENERAL. -/
def map1 (f : W32 → W32) (a : VReg) : VReg :=
  match a with
  | .u x => .u (f x)
  | _ => .g (lanes fun l => f (a.lane l))

/-- A result of two sources: UNIFORM when both are, else GENERAL. -/
def map2 (f : W32 → W32 → W32) (a b : VReg) : VReg :=
  match a, b with
  | .u x, .u y => .u (f x y)
  | _, _ => .g (lanes fun l => f (a.lane l) (b.lane l))

/-- A result of three sources: UNIFORM when all are, else GENERAL. -/
def map3 (f : W32 → W32 → W32 → W32) (a b c : VReg) : VReg :=
  match a, b, c with
  | .u x, .u y, .u z => .u (f x y z)
  | _, _, _ => .g (lanes fun l => f (a.lane l) (b.lane l) (c.lane l))

/-- A pair of registers. -/
abbrev VPair := VReg × VReg

def VPair.isU (r : VPair) : Bool := r.1.isU && r.2.isU

/-- A 64-bit result per lane as a pair: both registers are U when `u` holds, else G (R120). -/
def pairOf (u : Bool) (f : Nat → W64) : VPair :=
  if u then (.u ((f 0).extractLsb' 0 32), .u ((f 0).extractLsb' 32 32))
  else (.g (lanes fun l => (f l).extractLsb' 0 32), .g (lanes fun l => (f l).extractLsb' 32 32))

/-- The writes of a 32-bit result to a vector register, or once to a uniform register (R118). -/
def dst32 (c : Ctx) (d : Opnd) (val : VReg) : List RegWrite :=
  match d with
  | .v n => [.v n.toNat c.live val (c.live = c.g.full)]
  | .s n => [.s n.toNat (val.lane (lowLane c.live))]
  | _ => []

/-- The writes of a 64-bit result to a pair (R36). -/
def dst64 (c : Ctx) (d : Opnd) (val : VPair) : List RegWrite :=
  match d with
  | .v n => [.v n.toNat c.live val.1 (c.live = c.g.full), .v (n.toNat + 1) c.live val.2 (c.live = c.g.full)]
  | .s n => [.s n.toNat (val.1.lane (lowLane c.live)), .s (n.toNat + 1) (val.2.lane (lowLane c.live))]
  | _ => []

/-- The write of a predicate in the live lanes (R135, R149). -/
def dstP (c : Ctx) (d : BitVec 4) (f : Nat → Bool) : List RegWrite := [.p d.toNat c.live (maskOf f)]

end Sys2Proof.Machine
end

