-- ==== Sys2Proof/Machine/Flags.lean ====
section
/-! DEFINITION. The completion flags (R44, R46), what every issue does (R40 to R45), the stalls of an issue, the
room that a growing register needs (R124, R319), and how results are finished. -/

namespace Sys2Proof.Machine

/-! ## Completion flags -/

/-- A flag is pending while an operation that names it is outstanding (R46). -/
def Group.flagPending (g : Group) (f : Nat) : Bool := 0 < Tbl.getD g.flags f 0

/-- One more outstanding operation names the flag. -/
def Group.flagUp (g : Group) (f : Option Nat) : Group :=
  match f with
  | some f => { g with flags := Tbl.put g.flags f (Tbl.getD g.flags f 0 + 1) }
  | none => g

/-- An operation that named the flag has reached its completion point. -/
def Group.flagDown (g : Group) (f : Option Nat) : Group :=
  match f with
  | some f => { g with flags := Tbl.put g.flags f (Tbl.getD g.flags f 0 - 1) }
  | none => g

/-- The flag becomes pending and clears when `n` cycles have passed (R41, R44). -/
def Group.flagFor (g : Group) (f : Option Nat) (due : Nat) : Group :=
  match f with
  | some k => { g.flagUp (some k) with flagDue := g.flagDue ++ [(k, due)] }
  | none => g

/-- The flag that `set` names: 15 names none (R32). -/
def setFlag (h : Hints) : Option Nat := if h.set = 15 then none else some h.set.toNat

/-- Every flag of the group is clear. -/
def Group.flagsClear (g : Group) : Bool := g.flags.all fun e => e.2 = 0

/-- Every flag of the wait mask is clear (R46). -/
def Group.waitMet (g : Group) (h : Hints) : Bool :=
  (List.range 12).all fun f => !(h.wait.getLsbD f && g.flagPending f)

/-- The flag that `set` names is free; a flag that is also waited on is satisfied first (R46). -/
def Group.setFree (g : Group) (h : Hints) : Bool :=
  match setFlag h with
  | some f => !g.flagPending f
  | none => true

/-- `dist` has elapsed since the group's last issue (R43). -/
def Group.distMet (g : Group) (h : Hints) (now : Nat) : Bool :=
  match g.lastIssue with
  | some t => t + max h.dist.toNat 1 ≤ now
  | none => true

/-! ## What every issue does -/

/-- Results of fixed latency come `d` cycles nearer (R45); those whose flag the issue has waited for are written (R44, R410). -/
def age (d : Nat) (wait : BitVec 12) (hz : List Hazard) : List Hazard :=
  hz.filterMap fun h =>
    if h.left ≤ d || (h.flag.map wait.getLsbD).getD false then none else some { h with left := h.left - d }

/-- The lanes in which the guard holds among the active ones (R40). -/
def guardLanes (h : Hints) (active pred : LaneMask) : LaneMask :=
  active &&& (if h.neg then ~~~pred else pred)

/-- The current path counts one more instruction against a timer switch that a reservation puts off (R93). -/
def deferred (g : Group) (p : Path) (now : Nat) : Nat :=
  if g.since + 512 ≤ now && (lanesOf p.mask).any fun l => (Tbl.find g.resv l).isSome then p.defer + 1 else 0

/-- Where an error that was found after issue is delivered (R178, R243, R312): `plain`: an instruction that waits
on the flag; `engine`: also an error point of engine faults; `tape`: a tape instruction; `all`: a FENCE or an
EXIT. -/
inductive ErrPoint where
  | plain | engine | tape | all
  deriving DecidableEq, Repr

/-- The first late error that is due in a lane: of the thread's own accesses, on a flag waited on, or any at a
FENCE or EXIT of a live lane. -/
def dueErr (g : Group) (h : Hints) (pt : ErrPoint) (live : LaneMask) (l : Nat) : Option LateFault :=
  g.errs.find? fun e => e.thr = some (g.lt l) &&
    ((pt = .all && has live l) || match e.flag with
      | some f => h.wait.getLsbD f
      | none => false)

/-- The first engine or tape fault that waits for its error point. -/
def engineErr (g : Group) (pt : ErrPoint) : Option LateFault :=
  match pt with
  | .plain => none
  | .engine => g.errs.find? fun e => e.thr.isNone && !e.tape
  | .tape => g.errs.find? fun e => e.thr.isNone && e.tape
  | .all => g.errs.find? fun e => e.thr.isNone

/-- The record of a late error at the instruction where it parks a lane; the origin is kept (R178). -/
def LateFault.at' (e : LateFault) (p : Path) (word : BitVec 96) : FaultRec :=
  { e.fault with pc := p.pc, word := word, b14 := p.b14 }

/-- The permits of a group's own issues are given back or no longer asked for. -/
def State.dropPermits (s : State) (gid : Nat) : State :=
  { s with dies := s.dies.map fun (e : Nat × Die) =>
      (e.1, { e.2 with permits := e.2.permits.filter fun (p : Permit) => p.gid ≠ gid || p.blk.isSome }) }

/-- The late errors that are due at an issue park their lanes before the instruction acts: an engine fault parks
every active lane, an error of a thread's access its lane. -/
def State.deliver (s : State) (gid : Nat) (g : Group) (p : Path) (vd : Nat) (h : Hints) (pt : ErrPoint)
    (live : LaneMask) : State :=
  let word := s.wordAt g.core vd p.pc
  match engineErr g pt with
  | some e =>
    ((s.dropPermits gid).modGroup gid fun g =>
      { g with errs := g.errs.erase e, track := if e.tape then .init else g.track }).takeFault gid p.handler p.mask
      fun _ => e.at' p word
  | none =>
    let m := maskOf fun l => has p.mask l && (dueErr g h pt live l).isSome
    let gone := (lanesOf m).filterMap fun l => dueErr g h pt live l
    if m = 0 then s
    else (s.modGroup gid fun g => { g with errs := gone.foldl (fun es e => es.erase e) g.errs }).takeFault gid
      p.handler m fun l =>
        match dueErr g h pt live l with
        | some e => e.at' p word
        | none => FaultRec.at' 0 p.pc word p.b14

/-- The issuing path after the bookkeeping of its issue (R45, R93, R394). -/
def Path.issued (p : Path) (g : Group) (h : Hints) (now : Nat) : Path :=
  { p with hazards := age (max h.dist.toNat 1) h.wait p.hazards, defer := deferred g p now, past := false }

/-- The issuing group after the bookkeeping of an issue (R43, R48, R91). -/
def Group.issued (g : Group) (lane : Nat) (p : Path) (h : Hints) (now : Nat) : Group :=
  { g with paths := replacePath g.paths lane [p.issued g h now]
           lastIssue := some now
           yielded := h.yld
           readySince := none
           stall := none
           why := none }

/-- The state after the bookkeeping of an issue. -/
def State.issued (s : State) (who : Issuer) (g : Group) (p : Path) (h : Hints) : State :=
  { s with free := s.free + 1, groups := Tbl.put s.groups who.gid (g.issued who.lane p h s.cycle) }

/-- The context of an issue, its live lanes still to be found. -/
def State.issueBase (s : State) (who : Issuer) (g : Group) (p : Path) (b : Block) (h : Hints) : Ctx :=
  { gid := who.gid, lane := who.lane, g := g.issued who.lane p h s.cycle, p := p.issued g h s.cycle, b := b, live := 0,
    now := s.cycle, seed := s.free }

/-- The context of an issue with its live lanes (R40). -/
def State.issueCtx (s : State) (who : Issuer) (g : Group) (p : Path) (b : Block) (h : Hints) : Ctx :=
  let c := s.issueBase who g p b h
  { c with live := guardLanes h p.mask (c.pred 12 h.gp.toNat) }

/-- The bookkeeping of an issue (R41, R43, R45), the late errors delivered at it, and its context: no path
issues (`none`), no lane is left (the state alone), or the instruction goes on. -/
def State.begin (s : State) (h : Hints) (pt : ErrPoint) : Option (Option Ctx × State) :=
  match s.issuer with
  | none => none
  | some who =>
    match Tbl.find s.groups who.gid with
    | none => none
    | some g =>
      match pathAt g.paths who.lane, Tbl.find s.blocks g.blk with
      | some p, some b =>
        let c := s.issueCtx who g p b h
        let s1 := s.issued who g p h
        if g.errs.isEmpty then some (some c, s1)
        else
          let s2 := s1.deliver who.gid c.g c.p b.vd h pt c.live
          match Tbl.find s2.groups who.gid with
          | none => some (none, s2)
          | some g2 =>
            match g2.halt, g2.paths.find? fun q => q.mask &&& p.mask ≠ 0 with
            | none, some q =>
              some (some { c with g := g2, p := q, lane := lowLane q.mask, live := c.live &&& q.mask }, s2)
            | _, _ => some (none, s2)
      | _, _ => none

/-- The issuing path goes on: the lanes of it that are not in `gone` stand at the sequential successor, and it
stays the current path. -/
def State.advance (s : State) (c : Ctx) (gone : LaneMask) : State :=
  let m := c.p.mask &&& ~~~gone
  if m = 0 then s
  else s.modGroup c.gid fun g =>
    match pathAt g.paths (lowLane m) with
    | some p => { g with paths := replacePath g.paths (lowLane m) [{ p with pc := nextPc c.p.pc }]
                         cur := lowLane m }
    | none => g

/-- An issue with an empty live set: no effect but R41's; a named flag clears in the following cycle. -/
def State.idle (s : State) (c : Ctx) (h : Hints) : State :=
  (s.modGroup c.gid fun g => g.flagFor (setFlag h) (c.now + 1)).advance c 0

/-- The fault record of the issuing path's instruction (R342). -/
def Ctx.frec (c : Ctx) (s : State) (code : BitVec 9) (pos : Nat) (det info : Nat) (addr : Va) : FaultRec :=
  { code, pos := BitVec.ofNat 3 pos, det := BitVec.ofNat 16 det, info := BitVec.ofNat 32 info, addr,
    pc := c.p.pc, orig := c.p.pc, word := s.wordAt c.g.core c.b.vd c.p.pc, b14 := c.p.b14, followOn := false, more := .none, lead := none }

/-- Lanes of the issuing path take a precise fault; the others go on. -/
def State.fault (s : State) (c : Ctx) (m : LaneMask) (rec : Nat → FaultRec) : State :=
  (s.takeFault c.gid c.p.handler m rec).advance c m

/-- Every live lane takes one fault. -/
def State.faultLive (s : State) (c : Ctx) (code : BitVec 9) (pos det info : Nat) (addr : Va) : State :=
  s.fault c c.live fun _ => c.frec s code pos det info addr

/-- The group did not issue, for a reason of R389; a read that finds no translation asks for its page, a command asks
for its permit once (R398), and a path waits for the bins (R92). -/
def State.stalled (s : State) (gid : Nat) (why : Stall) : State :=
  let s1 := s.modGroup gid fun g => { g with stall := some why, readySince := none, why := some why }
  match why with
  | .bins ts => s1.modGroup gid fun g => g.setSt g.cur (.bins ts)
  | .page vd page => s1.askPage vd page (s.coreOf gid)
  | .permit die cost =>
    if (s1.die die).permits.any fun p => p.gid = gid && p.blk.isNone && p.cost = cost then s1
    else s1.modDie die fun d =>
      { d with permits := d.permits ++ [{ gid := gid, blk := none, cost := cost, granted := false }] }
  | _ => s1

/-! ## Room for growing registers (R123, R124, R319) -/

/-- The bytes that a group's vector registers use (R123). -/
def Group.useBytes (g : Group) (gid nv : Nat) : Nat :=
  (List.range nv).foldl (fun a n => a + (g.vreg gid n).use) 0

/-- The slack of a group in bytes (R123). -/
def Group.slack (g : Group) (gid nv : Nat) : Nat := nv * 128 - g.useBytes gid nv

/-- A write may turn a U or A register into G: it is not full, its result is GENERAL, or it is the write of an EXPAND (R124,
R148). -/
def RegWrite.grows (g : Group) (gid : Nat) (w : RegWrite) : Bool :=
  match w with
  | .v n _ val full => ((g.vreg gid n).tag ≠ 2 || g.due.any fun d => d.write.reg = .v n) && (!full || val.tag = 2)
  | .expand n .. => (g.vreg gid n).tag ≠ 2 || g.due.any fun d => d.write.reg = .v n
  | _ => false

/-- The bytes of a GENERAL register are reserved for vN by a result to come (R124). -/
def Group.reserves (g : Group) (n : Nat) : Bool := g.grow.contains n || g.due.any fun d => d.grow && d.write.reg = .v n

/-- A full A result is on its way to vN. -/
def Due.affine (n : Nat) (d : Due) : Bool :=
  match d.write with
  | .v k _ (.a _ _) true => k = n
  | _ => false

/-- The bytes that vN uses, or that a result to come has reserved for it (R123, R124). -/
def Group.holds (g : Group) (gid n : Nat) : Nat :=
  if g.reserves n then 128 else max (g.vreg gid n).use (if g.due.any (Due.affine n) then 8 else 0)

/-- The bytes that a group's vector registers use or have reserved (R123, R124). -/
def Group.heldBytes (g : Group) (gid nv : Nat) : Nat := (List.range nv).foldl (fun a n => a + g.holds gid n) 0

/-- The groups on a core with their blocks; `hv` selects the harvest groups. -/
def State.groupsOn (s : State) (core : Nat) (hv : Bool) : List (Nat × Group × Block) :=
  s.groups.filterMap fun (gid, g) =>
    match Tbl.find s.blocks g.blk with
    | some b => if g.core = core && b.loc = .core core && b.harvest = hv then some (gid, g, b) else none
    | none => none

/-- The register-file bytes of a core that no owner group reserves (R88, R319): an owner block holds the reservation
of its declared groups, and each of its groups in the spawn pool holds one. -/
def State.unreserved (s : State) (core : Nat) : Nat :=
  let blocks := s.blocks.foldl (fun a e =>
    if e.2.loc = .core core && !e.2.harvest then a + e.2.ngr * e.2.nv * 128 else a) 0
  524288 - (blocks + (s.groupsOn core false).foldl (fun a e => if 16 ≤ e.2.1.slot then a + e.2.2.nv * 128 else a) 0)

/-- The register bytes that harvest groups hold on a core. -/
def State.harvestUse (s : State) (core : Nat) : Nat :=
  (s.groupsOn core true).foldl (fun a e => a + e.2.1.heldBytes e.1 e.2.2.nv) 0

/-- The slack of the core's owner groups that nothing has reserved, once the group `gid` holds `more` bytes, less `keep` bytes of
each that are never lent, in granules (R319). -/
def State.lendableWith (s : State) (core keep gid more : Nat) : Nat :=
  (s.groupsOn core false).foldl (fun a e =>
    a + (e.2.2.nv * 128 - e.2.1.heldBytes e.1 e.2.2.nv - (if e.1 = gid then more else 0) - keep) / 128 * 128) 0

/-- The slack of the core's owner groups as it stands. -/
def State.lendable (s : State) (core keep : Nat) : Nat := s.lendableWith core keep 0 0

/-- The harvest contexts of a core, the latest admitted first (R320). -/
def State.contexts (s : State) (core : Nat) : List Nat :=
  let mine := s.blocks.filter fun (e : Nat × Block) => e.2.harvest && e.2.loc = .core core
  (sortBy (fun x y => y.2.admitted ≤ x.2.admitted) mine).map (·.1)

/-- The contexts of a core that hold register bytes. -/
def State.byteHolders (s : State) (core : Nat) : List Nat :=
  (s.contexts core).filter fun k => (s.groupsOn core true).any fun e => e.2.1.blk = k && 0 < e.2.1.heldBytes e.1 e.2.2.nv

/-- What a write that needs `n` more bytes meets: nothing, bytes that are lent out, or a harvest context with no capacity
left. -/
def State.room (s : State) (c : Ctx) (n : Nat) : Option Stall :=
  let core := c.g.core
  if n = 0 then none
  else if c.b.harvest then
    if s.harvestUse core + n ≤ s.unreserved core + s.lendable core ((s.core core).keep * 128) then none
    else some .capacity
  else if (s.groupsOn core true).isEmpty then none
  else if s.harvestUse core ≤ s.unreserved core + s.lendableWith core 0 c.gid n then none
  else some (.revocation (s.byteHolders core))

/-- The bytes that a write needs beside those that its register holds: those of a GENERAL register where it may grow to one (R124),
those of an AFFINE one for a full A result (R123). -/
def RegWrite.need (g : Group) (gid : Nat) (w : RegWrite) : Nat :=
  match w with
  | .v n _ val full => (if w.grows g gid then 128 else if full then val.use else 0) - g.holds gid n
  | .expand n .. => (if w.grows g gid then 128 else 0) - g.holds gid n
  | _ => 0

/-- The bytes that an instruction's results need at its issue. -/
def growing (c : Ctx) (ws : List RegWrite) : Nat := ws.foldl (fun a w => a + w.need c.g c.gid) 0

/-- An instruction goes on once the bytes for the registers that it may grow are there (R124, R319). -/
def State.roomed (s : State) (c : Ctx) (ws : List RegWrite) (t : State) : Except Stall State :=
  match s.room c (growing c ws) with
  | none => .ok t
  | some why => .error why

/-! ## Finishing a result -/

/-- A write of a uniform register takes effect at its issue, so that paths of one group write it in the order of their issue
(R150). -/
def RegWrite.atIssue : RegWrite → Bool
  | .s .. => true
  | _ => false

/-- The writes of an instruction that take effect at its issue. -/
def Group.writeEarly (g : Group) (gid seed : Nat) (ws : List RegWrite) : Group :=
  (ws.filter RegWrite.atIssue).foldl (fun g w => g.writeNow gid seed w) g

/-- The group's registers take results of fixed latency `lat` when their time comes (R44, R150): a register that an outstanding V
result will write is undefined by then, and so is that result (R47). -/
def Group.enqueue (g : Group) (c : Ctx) (lat : Nat) (ws : List RegWrite) : Group :=
  let later := ws.filter fun w => !w.atIssue
  let due := later.map fun w : RegWrite =>
    ({ at' := c.now + lat, who := c.p.mask, seed := c.seed, grow := w.grows c.g c.gid
       write := if (g.vfor w.reg).isEmpty then w else w.undef c.seed 40 } : Due)
  Group.writeEarly { g.spoil (later.flatMap fun w => g.vfor w.reg) with due := g.due ++ due } c.gid c.seed ws

/-- The results of an issue for these registers, as the issuing path may not read them yet (R45). -/
def hazardsOf (h : Hints) (lat : Nat) (rs : List RegId) : List Hazard :=
  rs.map fun r => { reg := r, left := lat, flag := setFlag h }

/-- The issuing path may not read these registers until `lat` has passed for it or their flag is waited for (R45, R410). -/
def Group.hold (g : Group) (lane lat : Nat) (h : Hints) (rs : List RegId) : Group :=
  match pathAt g.paths lane with
  | some p => { g with paths := replacePath g.paths lane [{ p with hazards := hazardsOf h lat rs ++ p.hazards }] }
  | none => g

/-- Results of fixed latency `lat` (R44, R45, R150): each is written when its latency has passed, the path may not read it
before, a named flag clears then, and the path goes on. -/
def State.finishFixed (s : State) (c : Ctx) (h : Hints) (lat : Nat) (ws : List RegWrite) : State :=
  (s.modGroup c.gid fun g =>
    ((g.enqueue c lat ws).hold c.lane lat h (ws.map (·.reg))).flagFor (setFlag h) (c.now + lat)).advance c 0

/-- A category N instruction that is complete at its issue: a named flag clears in the following cycle. -/
def State.finishNow (s : State) (c : Ctx) (h : Hints) : State := s.idle c h

/-- The results for registers that an outstanding V result will write, with that result: they spoil each other (R47). -/
def Group.twice (g : Group) (rs : List RegId) : List RegId :=
  rs.flatMap fun r => if (g.vfor r).isEmpty then [] else r :: g.vfor r

/-- Registers that a V result will write, those that it may grow among them (R124). -/
def Group.awaitV (g : Group) (rs : List RegId) (grow : List Nat) : Group :=
  { g.spoil (g.twice rs) with vpend := rs ++ g.vpend, grow := grow ++ g.grow }

/-- The vector registers among writes that these may grow. -/
def growList (c : Ctx) (ws : List RegWrite) : List Nat :=
  ws.filterMap fun w => if w.grows c.g c.gid then (match w.reg with
    | .v n => some n
    | _ => none) else none

/-- A category V result (R44, R47): its registers are pending, the flag is pending, the path goes on. -/
def State.finishV (s : State) (c : Ctx) (h : Hints) (ws : List RegWrite) : State :=
  let regs := ws.map (·.reg)
  let f := h.set.toNat
  let s1 := s.modGroup c.gid fun g =>
    (g.flagUp (some f)).awaitV regs (growList c ws)
  let pend : Pending := { gid := c.gid, writes := ws, flag := f, service := false, req := [], at' := 0, pc := 0, who := [], wakes := [] }
  State.advance { s1 with results := s1.results ++ [pend] } c 0

/-! ## The issue of an instruction -/

/-- The lanes that one issue parks form one entry set (R342): the sets that joined the queue since it held `n`
are one. -/
def State.joinEntries (s : State) (gid n : Nat) : State :=
  s.modGroup gid fun g =>
    match g.entries.drop n with
    | m :: k :: ms => { g with entries := g.entries.take n ++ [(k :: ms).foldl (· ||| ·) m] }
    | _ => g

/-- The number of entry sets that wait in a group. -/
def State.queued (s : State) (gid : Nat) : Nat := ((Tbl.find s.groups gid).map (·.entries.length)).getD 0

/-- An issue at an error point, which may stall: the empty live set is R41's; the demands of the named registers
are checked (R117); then `k` acts, or names the stall. -/
def issueAt (pt : ErrPoint) (h : Hints) (s : State) (ops : List (Nat × Opnd × Nat))
    (k : Ctx → State → Except Stall State) : Out :=
  match s.begin h pt with
  | none => .next s
  | some (none, t) => .next t
  | some (some c, t) =>
    if c.live = 0 then .next (t.idle c h)
    else match demandFail c.b ops with
      | some pos =>
        .next ((t.faultLive c (BitVec.ofNat 9 (0x024 + pos)) (pos + 1) 0 0 0).joinEntries c.gid (s.queued c.gid))
      | none => match k c t with
        | .ok u => .next (u.joinEntries c.gid (s.queued c.gid))
        | .error why => .next (s.stalled c.gid why)

/-- An issue that may stall. -/
def issueWait (h : Hints) (s : State) (ops : List (Nat × Opnd × Nat))
    (k : Ctx → State → Except Stall State) : Out := issueAt .plain h s ops k

/-- An issue that never stalls. -/
def issue (h : Hints) (s : State) (ops : List (Nat × Opnd × Nat)) (k : Ctx → State → State) : Out :=
  issueWait h s ops fun c t => .ok (k c t)

/-- An instruction of classes 1 to 3 (R126, R131): `k` computes the register writes from the operands as read at
issue; a write that needs bytes which are lent out waits (R124). -/
def laneIssue (h : Hints) (s : State) (lat : Nat) (ops : List (Nat × Opnd × Nat))
    (k : Ctx → W32 → List RegWrite) : Out :=
  issueWait h s ops fun c t =>
    let ws := k c (t.launchIx c.b)
    t.roomed c ws (t.finishFixed c h lat ws)

end Sys2Proof.Machine
end

