-- ==== Sys2Proof/Machine/IntArith.lean ====
section
/-! DEFINITION. The integer instructions of class 1 (R130 to R135). -/

namespace Sys2Proof.Machine

/-! ## The exact results and their narrowing (R131 to R134) -/

/-- An operand read as an integer by the type's signedness (R131). -/
def asInt {w : Nat} (sgn : Bool) (x : BitVec w) : Int := if sgn then x.toInt else x.toNat

/-- The clamp of R131 to the range of the type. -/
def clamp (w : Nat) (sgn : Bool) (t : Int) : Int :=
  if sgn then max (-(2 ^ (w - 1) : Int)) (min t (2 ^ (w - 1) - 1)) else max 0 (min t (2 ^ w - 1))

/-- `sat` or `wrap` of an exact result (R131). -/
def narrowTo (w : Nat) (sgn sat : Bool) (t : Int) : BitVec w := BitVec.ofInt w (if sat then clamp w sgn t else t)

def opAdd {w : Nat} (sgn sat : Bool) (a b : BitVec w) : BitVec w := narrowTo w sgn sat (asInt sgn a + asInt sgn b)
def opSub {w : Nat} (sgn sat : Bool) (a b : BitVec w) : BitVec w := narrowTo w sgn sat (asInt sgn a - asInt sgn b)
def opMul {w : Nat} (a b : BitVec w) : BitVec w := a * b
/-- The high half of the exact product (R132). -/
def opMulHi {w : Nat} (sgn : Bool) (a b : BitVec w) : BitVec w :=
  BitVec.ofInt w ((asInt sgn a * asInt sgn b) / (2 ^ w : Int))
def opMad {w : Nat} (sgn : Bool) (a b c : BitVec w) : BitVec w :=
  narrowTo w sgn false (asInt sgn a * asInt sgn b + asInt sgn c)
def opMin {w : Nat} (sgn : Bool) (a b : BitVec w) : BitVec w := if asInt sgn a ≤ asInt sgn b then a else b
def opMax {w : Nat} (sgn : Bool) (a b : BitVec w) : BitVec w := if asInt sgn a ≤ asInt sgn b then b else a
def opAbs {w : Nat} (sat : Bool) (a : BitVec w) : BitVec w := narrowTo w true sat a.toInt.natAbs
def opNeg {w : Nat} (sat : Bool) (a : BitVec w) : BitVec w := narrowTo w true sat (-a.toInt)

/-- Shift counts are unsigned and may reach or pass the width (R133). -/
def opShl {w : Nat} (a : BitVec w) (n : Nat) : BitVec w := if w ≤ n then 0 else a <<< n
def opShr {w : Nat} (a : BitVec w) (n : Nat) : BitVec w := if w ≤ n then 0 else a >>> n
def opSar {w : Nat} (a : BitVec w) (n : Nat) : BitVec w := if w ≤ n then a.sshiftRight (w - 1) else a.sshiftRight n
def opRot {w : Nat} (a : BitVec w) (n : Nat) : BitVec w := a.rotateLeft (n % w)

/-- The number of set bits among the lowest `n`. -/
def popBelow (x : Nat) : Nat → Nat
  | 0 => 0
  | n + 1 => popBelow x n + (if x.testBit n then 1 else 0)

def opPopc {w : Nat} (a : BitVec w) : W32 := BitVec.ofNat 32 (popBelow a.toNat w)

/-- The number of zero bits above the highest set bit among the lowest `n`. -/
def lzBelow (x : Nat) : Nat → Nat
  | 0 => 0
  | n + 1 => if x.testBit n then 0 else lzBelow x n + 1

def opClz {w : Nat} (a : BitVec w) : W32 := BitVec.ofNat 32 (lzBelow a.toNat w)

/-- Bit i moved to bit w − 1 − i (R133). -/
def opBrev {w : Nat} (a : BitVec w) : BitVec w := a.reverse

/-- The trailing zeros are the leading zeros of the reversed value; both give w for 0 (R133). -/
def opCtz {w : Nat} (a : BitVec w) : W32 := opClz a.reverse

/-- `pos` and len' of a control word (R134). -/
def fieldPos (ctl : W32) : Nat := (ctl.extractLsb' 0 8).toNat
def fieldLen (w : Nat) (ctl : W32) : Nat := min (ctl.extractLsb' 8 8).toNat (w - fieldPos ctl)

/-- BFX: the field, extended by the type's signedness; 0 for an empty field (R134). -/
def opBfx {w : Nat} (sgn : Bool) (a : BitVec w) (ctl : W32) : BitVec w :=
  let len := fieldLen w ctl
  let f := (a.toNat >>> fieldPos ctl) % 2 ^ len
  if len = 0 then 0
  else if sgn && f.testBit (len - 1) then BitVec.ofInt w ((f : Int) - 2 ^ len) else BitVec.ofNat w f

/-- BFI: C with the field replaced by the low bits of A (R134). -/
def opBfi {w : Nat} (a c : BitVec w) (ctl : W32) : BitVec w :=
  let m := BitVec.ofNat w ((2 ^ fieldLen w ctl - 1) <<< fieldPos ctl)
  (c &&& ~~~m) ||| ((a <<< fieldPos ctl) &&& m)

/-- The comparison of ICMP (R135). -/
def icompare {w : Nat} (sgn : Bool) (cc : ICc) (a b : BitVec w) : Bool :=
  let x := asInt sgn a
  let y := asInt sgn b
  match cc with
  | .eq => x = y
  | .ne => x ≠ y
  | .lt => x < y
  | .le => x ≤ y
  | .gt => y < x
  | .ge => y ≤ x

/-! ## Operands with the immediate (R131) -/

/-- B := b + the extended immediate, with b's shape. -/
def addImm (b : VReg) (k : W32) : VReg :=
  match b with
  | .u x => .u (x + k)
  | .a base stride => .a (base + k) stride
  | .g w => .g (lanes fun l => (VReg.g w).lane l + k)

def simm (imm : BitVec 12) : W32 := imm.signExtend 32
def simm64 (imm : BitVec 12) : W64 := imm.signExtend 64

/-! ## Shapes of the 32-bit forms (R120) -/

def shAdd (a b : VReg) : VReg :=
  match a, b with
  | .a x s, .u y => VReg.affine (x + y) s
  | .u x, .a y t => VReg.affine (x + y) t
  | .a x s, .a y t => VReg.affine (x + y) (s + t)
  | _, _ => map2 (· + ·) a b

def shSub (a b : VReg) : VReg :=
  match a, b with
  | .a x s, .u y => VReg.affine (x - y) s
  | .u x, .a y t => VReg.affine (x - y) (-t)
  | .a x s, .a y t => VReg.affine (x - y) (s - t)
  | _, _ => map2 (· - ·) a b

def shMul (a b : VReg) : VReg :=
  match a, b with
  | .a x s, .u y => VReg.affine (x * y) (s * y)
  | .u x, .a y t => VReg.affine (x * y) (x * t)
  | _, _ => map2 (· * ·) a b

def shNeg (a : VReg) : VReg :=
  match a with
  | .a x s => VReg.affine (-x) (-s)
  | _ => map1 (fun x => -x) a

def shShl (a b : VReg) : VReg :=
  match a, b with
  | .a x s, .u n => VReg.affine (opShl x n.toNat) (opShl s n.toNat)
  | _, _ => map2 (fun x n => opShl x n.toNat) a b

/-! ## The forms -/

/-- A two-source form with imm12: `f` gives the 32-bit result and its shape, `g` the 64-bit result. -/
def intBin (h : Hints) (ty : IntTy) (lat : Nat) (d a b : Opnd) (imm : BitVec 12)
    (f : VReg → VReg → VReg) (g : W64 → W64 → W64) (s : State) : Out :=
  if ty.is64 then
    laneIssue h s (2 * lat) [(0, d, 2), (1, a, 2), (2, b, 2)] fun c li =>
      let x := c.src64 li 1 a
      let y := c.src64 li 2 b
      dst64 c d (pairOf (VPair.isU x && VPair.isU y) fun l => g (lane64 x l) (lane64 y l + simm64 imm))
  else
    laneIssue h s lat [(0, d, 1), (1, a, 1), (2, b, 1)] fun c li =>
      dst32 c d (f (c.src li 1 a) (addImm (c.src li 2 b) (simm imm)))

/-- A shift: the count stays a 32-bit operand, to which the immediate is added modulo 2^w (R131, R133). -/
def intShift (h : Hints) (w64 : Bool) (d a b : Opnd) (imm : BitVec 12)
    (f : VReg → VReg → VReg) (g : W64 → Nat → W64) (s : State) : Out :=
  if w64 then
    laneIssue h s 8 [(0, d, 2), (1, a, 2), (2, b, 1)] fun c li =>
      let x := c.src64 li 1 a
      let y := c.src li 2 b
      dst64 c d (pairOf (VPair.isU x && y.isU) fun l =>
        g (lane64 x l) ((y.lane l).setWidth 64 + simm64 imm).toNat)
  else
    laneIssue h s 4 [(0, d, 1), (1, a, 1), (2, b, 1)] fun c li =>
      dst32 c d (f (c.src li 1 a) (addImm (c.src li 2 b) (simm imm)))

/-- A one-source form whose result is as wide as its source. -/
def intUn (h : Hints) (w64 : Bool) (d a : Opnd) (f : VReg → VReg) (g : W64 → W64) (s : State) : Out :=
  if w64 then
    laneIssue h s 8 [(0, d, 2), (1, a, 2)] fun c li =>
      let x := c.src64 li 1 a
      dst64 c d (pairOf (VPair.isU x) fun l => g (lane64 x l))
  else laneIssue h s 4 [(0, d, 1), (1, a, 1)] fun c li => dst32 c d (f (c.src li 1 a))

/-- POPC, CLZ and CTZ: the destination is 32-bit for both types (R133). -/
def intCount (h : Hints) (w64 : Bool) (d a : Opnd) (f : W32 → W32) (g : W64 → W32) (s : State) : Out :=
  if w64 then
    laneIssue h s 8 [(0, d, 1), (1, a, 2)] fun c li =>
      let x := c.src64 li 1 a
      dst32 c d (if VPair.isU x then .u (g (lane64 x 0)) else .g (lanes fun l => g (lane64 x l)))
  else laneIssue h s 4 [(0, d, 1), (1, a, 1)] fun c li => dst32 c d (map1 f (c.src li 1 a))

def execIadd (h : Hints) (ty : IntTy) (sat : Bool) (d a b : Opnd) (imm : BitVec 12) (s : State) : Out :=
  intBin h ty 4 d a b imm (if sat then map2 (opAdd ty.isSigned true) else shAdd) (opAdd ty.isSigned sat) s

def execIsub (h : Hints) (ty : IntTy) (sat : Bool) (d a b : Opnd) (imm : BitVec 12) (s : State) : Out :=
  intBin h ty 4 d a b imm (if sat then map2 (opSub ty.isSigned true) else shSub) (opSub ty.isSigned sat) s

/-- IADDC: A + B + (C mod 2), low word or carry (R132). -/
def opAddc (cy : Bool) (a b c : W32) : W32 :=
  let t := a.toNat + b.toNat + c.toNat % 2
  BitVec.ofNat 32 (if cy then t / 2 ^ 32 else t)

def execIaddc (h : Hints) (cy : Bool) (d a b x : Opnd) (s : State) : Out :=
  laneIssue h s 4 [(0, d, 1), (1, a, 1), (2, b, 1), (3, x, 1)] fun c li =>
    dst32 c d (map3 (opAddc cy) (c.src li 1 a) (c.src li 2 b) (c.src li 3 x))

def execImul (h : Hints) (ty : IntTy) (d a b : Opnd) (imm : BitVec 12) (s : State) : Out :=
  intBin h ty 6 d a b imm shMul opMul s

def execImulhi (h : Hints) (ty : IntTy) (d a b : Opnd) (imm : BitVec 12) (s : State) : Out :=
  intBin h ty 6 d a b imm (map2 (opMulHi ty.isSigned)) (opMulHi ty.isSigned) s

def execImad (h : Hints) (ty : IntTy) (d a b x : Opnd) (s : State) : Out :=
  if ty.is64 then
    laneIssue h s 12 [(0, d, 2), (1, a, 2), (2, b, 2), (3, x, 2)] fun c li =>
      let p := c.src64 li 1 a
      let q := c.src64 li 2 b
      let r := c.src64 li 3 x
      dst64 c d (pairOf (VPair.isU p && VPair.isU q && VPair.isU r) fun l =>
        opMad ty.isSigned (lane64 p l) (lane64 q l) (lane64 r l))
  else
    laneIssue h s 6 [(0, d, 1), (1, a, 1), (2, b, 1), (3, x, 1)] fun c li =>
      dst32 c d (shAdd (shMul (c.src li 1 a) (c.src li 2 b)) (c.src li 3 x))

/-- IMADW: a 32 by 32 product and a 64-bit addend, modulo 2^64 (R132). -/
def opMadw (sgn : Bool) (a b : W32) (c : W64) : W64 := BitVec.ofInt 64 (asInt sgn a * asInt sgn b + asInt sgn c)

def execImadw (h : Hints) (sgn : Bool) (d a b x : Opnd) (s : State) : Out :=
  laneIssue h s 6 [(0, d, 2), (1, a, 1), (2, b, 1), (3, x, 2)] fun c li =>
    let p := c.src li 1 a
    let q := c.src li 2 b
    let r := c.src64 li 3 x
    dst64 c d (pairOf (p.isU && q.isU && VPair.isU r) fun l => opMadw sgn (p.lane l) (q.lane l) (lane64 r l))

def execImin (h : Hints) (ty : IntTy) (d a b : Opnd) (imm : BitVec 12) (s : State) : Out :=
  intBin h ty 4 d a b imm (map2 (opMin ty.isSigned)) (opMin ty.isSigned) s

def execImax (h : Hints) (ty : IntTy) (d a b : Opnd) (imm : BitVec 12) (s : State) : Out :=
  intBin h ty 4 d a b imm (map2 (opMax ty.isSigned)) (opMax ty.isSigned) s

def execIabs (h : Hints) (w64 sat : Bool) (d a : Opnd) (s : State) : Out :=
  intUn h w64 d a (map1 (opAbs sat)) (opAbs sat) s

def execIneg (h : Hints) (w64 sat : Bool) (d a : Opnd) (s : State) : Out :=
  intUn h w64 d a (if sat then map1 (opNeg true) else shNeg) (opNeg sat) s

def execAnd (h : Hints) (w64 : Bool) (d a b : Opnd) (imm : BitVec 12) (s : State) : Out :=
  intBin h (if w64 then .n64 else .n32) 4 d a b imm (map2 (· &&& ·)) (· &&& ·) s

def execOr (h : Hints) (w64 : Bool) (d a b : Opnd) (imm : BitVec 12) (s : State) : Out :=
  intBin h (if w64 then .n64 else .n32) 4 d a b imm (map2 (· ||| ·)) (· ||| ·) s

def execXor (h : Hints) (w64 : Bool) (d a b : Opnd) (imm : BitVec 12) (s : State) : Out :=
  intBin h (if w64 then .n64 else .n32) 4 d a b imm (map2 (· ^^^ ·)) (· ^^^ ·) s

def execAndn (h : Hints) (w64 : Bool) (d a b : Opnd) (imm : BitVec 12) (s : State) : Out :=
  intBin h (if w64 then .n64 else .n32) 4 d a b imm (map2 fun x y => x &&& ~~~y) (fun x y => x &&& ~~~y) s

def execNot (h : Hints) (w64 : Bool) (d a : Opnd) (s : State) : Out :=
  intUn h w64 d a (map1 fun x => ~~~x) (fun x => ~~~x) s

def execShl (h : Hints) (w64 : Bool) (d a b : Opnd) (imm : BitVec 12) (s : State) : Out :=
  intShift h w64 d a b imm shShl opShl s

def execShr (h : Hints) (w64 : Bool) (d a b : Opnd) (imm : BitVec 12) (s : State) : Out :=
  intShift h w64 d a b imm (map2 fun x n => opShr x n.toNat) opShr s

def execSar (h : Hints) (w64 : Bool) (d a b : Opnd) (imm : BitVec 12) (s : State) : Out :=
  intShift h w64 d a b imm (map2 fun x n => opSar x n.toNat) opSar s

def execRot (h : Hints) (w64 : Bool) (d a b : Opnd) (imm : BitVec 12) (s : State) : Out :=
  intShift h w64 d a b imm (map2 fun x n => opRot x n.toNat) opRot s

def execPopc (h : Hints) (w64 : Bool) (d a : Opnd) (s : State) : Out := intCount h w64 d a opPopc opPopc s
def execClz (h : Hints) (w64 : Bool) (d a : Opnd) (s : State) : Out := intCount h w64 d a opClz opClz s
def execCtz (h : Hints) (w64 : Bool) (d a : Opnd) (s : State) : Out := intCount h w64 d a opCtz opCtz s

def execBrev (h : Hints) (w64 : Bool) (d a : Opnd) (s : State) : Out :=
  intUn h w64 d a (map1 opBrev) opBrev s

/-- BFX: the control is b plus the zero-extended immediate, a 32-bit word for every type (R131, R134). -/
def execBfx (h : Hints) (ty : IntTy) (d a b : Opnd) (imm : BitVec 12) (s : State) : Out :=
  if ty.is64 then
    laneIssue h s 8 [(0, d, 2), (1, a, 2), (2, b, 1)] fun c li =>
      let x := c.src64 li 1 a
      let y := addImm (c.src li 2 b) (imm.setWidth 32)
      dst64 c d (pairOf (VPair.isU x && y.isU) fun l => opBfx ty.isSigned (lane64 x l) (y.lane l))
  else
    laneIssue h s 4 [(0, d, 1), (1, a, 1), (2, b, 1)] fun c li =>
      dst32 c d (map2 (opBfx ty.isSigned) (c.src li 1 a) (addImm (c.src li 2 b) (imm.setWidth 32)))

def execBfi (h : Hints) (w64 : Bool) (d a b x : Opnd) (s : State) : Out :=
  if w64 then
    laneIssue h s 8 [(0, d, 2), (1, a, 2), (2, b, 1), (3, x, 2)] fun c li =>
      let p := c.src64 li 1 a
      let q := c.src li 2 b
      let r := c.src64 li 3 x
      dst64 c d (pairOf (VPair.isU p && q.isU && VPair.isU r) fun l => opBfi (lane64 p l) (lane64 r l) (q.lane l))
  else
    laneIssue h s 4 [(0, d, 1), (1, a, 1), (2, b, 1), (3, x, 1)] fun c li =>
      dst32 c d (map3 (fun x ctl z => opBfi x z ctl) (c.src li 1 a) (c.src li 2 b) (c.src li 3 x))

def execIcmp (h : Hints) (ty : IntTy) (cc : ICc) (d : BitVec 4) (a b : Opnd) (imm : BitVec 12) (s : State) : Out :=
  if ty.is64 then
    laneIssue h s 8 [(1, a, 2), (2, b, 2)] fun c li =>
      let x := c.src64 li 1 a
      let y := c.src64 li 2 b
      dstP c d fun l => icompare ty.isSigned cc (lane64 x l) (lane64 y l + simm64 imm)
  else
    laneIssue h s 4 [(1, a, 1), (2, b, 1)] fun c li =>
      let x := c.src li 1 a
      let y := addImm (c.src li 2 b) (simm imm)
      dstP c d fun l => icompare ty.isSigned cc (x.lane l) (y.lane l)

/-- The value ISEL and FSEL choose: a predicate equal in every lane of the group keeps the chosen source's
shape; otherwise the result is GENERAL (R120, R135). -/
def select (full p : LaneMask) (a b : VReg) : VReg :=
  if p &&& full = full then a
  else if p &&& full = 0 then b
  else .g (lanes fun l => if has p l then a.lane l else b.lane l)

def execIsel (h : Hints) (w64 : Bool) (d a b : Opnd) (p : BitVec 4) (s : State) : Out :=
  if w64 then
    laneIssue h s 8 [(0, d, 2), (1, a, 2), (2, b, 2)] fun c li =>
      let x := c.src64 li 1 a
      let y := c.src64 li 2 b
      let m := c.pred 3 p.toNat
      dst64 c d (select c.g.full m x.1 y.1, select c.g.full m x.2 y.2)
  else
    laneIssue h s 4 [(0, d, 1), (1, a, 1), (2, b, 1)] fun c li =>
      dst32 c d (select c.g.full (c.pred 3 p.toNat) (c.src li 1 a) (c.src li 2 b))

end Sys2Proof.Machine
end

