-- ==== Sys2Proof/Machine/Num.lean ====
section
/-! DEFINITION. Number formats, exact values and the one rounding of R151 to R154; the exact functions of
R137 to R139. -/

namespace Sys2Proof.Machine

/-! ## Formats (R152) -/

/-- A floating-point format: exponent bits, mantissa bits, bias, whether it has infinities. -/
structure FF where
  e : Nat
  m : Nat
  bias : Nat
  hasInf : Bool
  deriving DecidableEq, Repr

def ffF32 : FF := ⟨8, 23, 127, true⟩
def ffF64 : FF := ⟨11, 52, 1023, true⟩
def ffF16 : FF := ⟨5, 10, 15, true⟩
def ffBF16 : FF := ⟨8, 7, 127, true⟩
def ffE5M2 : FF := ⟨5, 2, 15, true⟩
def ffE4M3 : FF := ⟨4, 3, 7, false⟩

/-- The bits of a format. -/
def FF.width (f : FF) : Nat := 1 + f.e + f.m

/-- The magnitude bits of +∞ in a format with infinities. -/
def FF.infBits (f : FF) : Nat := (2 ^ f.e - 1) * 2 ^ f.m

/-- The magnitude bits of the largest finite value: E4M3's is S.1111.110 (R152). -/
def FF.maxBits (f : FF) : Nat := if f.hasInf then f.infBits - 1 else f.infBits + 2 ^ f.m - 2

/-- The canonical NaN (R153). -/
def FF.nan (f : FF) : Nat := if f.hasInf then f.infBits + 2 ^ (f.m - 1) else f.infBits + 2 ^ f.m - 1

/-- The bit of the sign. -/
def FF.signBit (f : FF) : Nat := 2 ^ (f.e + f.m)

/-! ## Exact values -/

/-- An exact value: NaN, an infinity, or ±n/d with d > 0; zeros keep their sign. -/
inductive EV where
  | nan
  | inf (neg : Bool)
  | fin (neg : Bool) (n d : Nat)
  deriving DecidableEq, Repr

/-- 2^i as a fraction. -/
def pow2 (i : Int) : Nat × Nat := if 0 ≤ i then (2 ^ i.toNat, 1) else (1, 2 ^ (-i).toNat)

/-- The value that the bits of a format stand for (R152). -/
def FF.decode (f : FF) (x : Nat) : EV :=
  let neg := x.testBit (f.e + f.m)
  let mag := x % f.signBit
  let e := mag / 2 ^ f.m
  let m := mag % 2 ^ f.m
  if f.hasInf && e = 2 ^ f.e - 1 then (if m = 0 then .inf neg else .nan)
  else if !f.hasInf && mag = f.nan then .nan
  else
    let k := if e = 0 then m else m + 2 ^ f.m
    let i : Int := ((max e 1 : Nat) : Int) - f.bias - f.m
    let q := pow2 i
    .fin neg (k * q.1) q.2

/-- floor(log2(n/d)) for n > 0. -/
def ilog2 (n d : Nat) : Int :=
  let l : Int := (Nat.log2 n : Int) - Nat.log2 d
  let q := pow2 l
  if n * q.2 < d * q.1 then l - 1 else l

/-- overflow() of R154: the bits for a sign and a mode. -/
def FF.overflow (f : FF) (neg : Bool) (rm : Rm) : Nat :=
  let s := if neg then f.signBit else 0
  let inf := if f.hasInf then s + f.infBits else f.nan
  match rm with
  | .rne => inf
  | .rna => inf
  | .rtz => s + f.maxBits
  | .rdn => if neg then inf else s + f.maxBits
  | .rup => if neg then s + f.maxBits else inf

/-- The rounded multiple of the spacing: `k` whole steps and a remainder r of the step g. -/
def roundStep (neg : Bool) (rm : Rm) (k r g : Nat) : Nat :=
  if r = 0 then k
  else
    match rm with
    | .rtz => k
    | .rdn => if neg then k + 1 else k
    | .rup => if neg then k else k + 1
    | .rne => if 2 * r < g then k else if g < 2 * r then k + 1 else if k % 2 = 0 then k else k + 1
    | .rna => if 2 * r < g then k else k + 1

/-- round_fmt(v, f, rm) of R154. -/
def roundFmt (f : FF) (rm : Rm) (v : EV) : Nat :=
  match v with
  | .nan => f.nan
  | .inf neg => if f.hasInf then (if neg then f.signBit else 0) + f.infBits else f.nan
  | .fin neg n d =>
    let s := if neg then f.signBit else 0
    if n = 0 then s
    else
      let emin : Int := 1 - (f.bias : Int)
      let qe : Int := max (ilog2 n d) emin - f.m
      let q := pow2 (-qe)
      let num := n * q.1
      let g := d * q.2
      let t := roundStep neg rm (num / g) (num % g) g
      let mag : Nat := if t < 2 ^ f.m then t else ((qe + f.m + f.bias).toNat * 2 ^ f.m) + (t - 2 ^ f.m)
      if f.maxBits < mag then f.overflow neg rm else s + mag

/-! ## Exact arithmetic (R137) -/

def EV.neg : EV → EV
  | .nan => .nan
  | .inf b => .inf (!b)
  | .fin b n d => .fin (!b) n d

/-- The sign of an exact zero sum of operands of different signs: −0 only when rounding down (R154). -/
def zeroSum (rm : Rm) : Bool := rm = .rdn

def EV.add (rm : Rm) : EV → EV → EV
  | .nan, _ => .nan
  | _, .nan => .nan
  | .inf a, .inf b => if a = b then .inf a else .nan
  | .inf a, .fin .. => .inf a
  | .fin .., .inf b => .inf b
  | .fin a n d, .fin b k e =>
    let x := n * e
    let y := k * d
    if a = b then .fin a (x + y) (d * e)
    else if x = y then .fin (zeroSum rm) 0 1
    else if y < x then .fin a (x - y) (d * e)
    else .fin b (y - x) (d * e)

def EV.mul : EV → EV → EV
  | .nan, _ => .nan
  | _, .nan => .nan
  | .inf a, .inf b => .inf (a ^^ b)
  | .inf a, .fin b k _ => if k = 0 then .nan else .inf (a ^^ b)
  | .fin a n _, .inf b => if n = 0 then .nan else .inf (a ^^ b)
  | .fin a n d, .fin b k e => .fin (a ^^ b) (n * k) (d * e)

def EV.div : EV → EV → EV
  | .nan, _ => .nan
  | _, .nan => .nan
  | .inf _, .inf _ => .nan
  | .inf a, .fin b _ _ => .inf (a ^^ b)
  | .fin a _ _, .inf b => .fin (a ^^ b) 0 1
  | .fin a n d, .fin b k e =>
    if k = 0 then (if n = 0 then .nan else .inf (a ^^ b)) else .fin (a ^^ b) (n * e) (d * k)

/-- The order of finite and infinite values, −0 = +0; false for a NaN. -/
def EV.lt : EV → EV → Bool
  | .nan, _ => false
  | _, .nan => false
  | .inf a, .inf b => a && !b
  | .inf a, .fin .. => a
  | .fin .., .inf b => !b
  | .fin a n d, .fin b k e =>
    let x : Int := (if a then -1 else 1) * (n * e : Nat)
    let y : Int := (if b then -1 else 1) * (k * d : Nat)
    x < y

def EV.eq : EV → EV → Bool
  | .nan, _ => false
  | _, .nan => false
  | .inf a, .inf b => a = b
  | .fin a n d, .fin b k e => (n = 0 && k = 0) || (a = b && n * e = k * d)
  | _, _ => false

def EV.isNan : EV → Bool
  | .nan => true
  | _ => false

def EV.isNeg : EV → Bool
  | .nan => false
  | .inf b => b
  | .fin b _ _ => b

/-- The value times 2^i. -/
def EV.scale (v : EV) (i : Int) : EV :=
  match v with
  | .fin b n d => let q := pow2 i; .fin b (n * q.1) (d * q.2)
  | v => v

/-- An integer as a value. -/
def EV.ofInt (i : Int) : EV := .fin (i < 0) i.natAbs 1

/-! ## Square roots -/

/-- The integer square root of `x`, by bits from bit `i` − 1 down. -/
def isqrtFrom (x : Nat) : Nat → Nat → Nat
  | 0, r => r
  | i + 1, r => if (r + 2 ^ i) * (r + 2 ^ i) ≤ x then isqrtFrom x i (r + 2 ^ i) else isqrtFrom x i r

def isqrt (x : Nat) : Nat := isqrtFrom x (Nat.log2 x / 2 + 1) 0

/-- The square root of n/d for rounding: exact where it is rational with this scale, otherwise the middle of the
interval of width 2^−k that holds it, which no rounding boundary of a format divides. -/
def sqrtFrac (n d : Nat) : Nat × Nat :=
  let k := 80 + (Nat.log2 d + 1 - Nat.log2 n) / 2 + 1
  let x := n * 4 ^ k / d
  let r := isqrt x
  if r * r * d = n * 4 ^ k then (r, 2 ^ k) else (2 * r + 1, 2 ^ (k + 1))

/-- Square root of R139. -/
def EV.sqrt : EV → EV
  | .nan => .nan
  | .inf b => if b then .nan else .inf false
  | .fin b n d =>
    if n = 0 then .fin b 0 1 else if b then .nan else let q := sqrtFrac n d; .fin false q.1 q.2

/-- Reciprocal of R139: ±0 gives ±∞. -/
def EV.rcp (v : EV) : EV := EV.div (.fin false 1 1) v

/-- Reciprocal square root of R139. -/
def EV.rsq : EV → EV
  | .nan => .nan
  | .inf b => if b then .nan else .fin false 0 1
  | .fin b n d =>
    if n = 0 then .inf b else if b then .nan else let q := sqrtFrac d n; .fin false q.1 q.2

/-! ## FEXP2, FLOG2, FSIN, FCOS (R139): fixed point with an error bound -/

/-- atan(1/k)·2^K, from the alternating series: `t` is the next power term, `sub` its sign. -/
def atanInvFrom (k : Nat) : Nat → Nat → Nat → Bool → Int → Int
  | 0, _, _, _, acc => acc
  | fuel + 1, t, j, sub, acc =>
    if t = 0 then acc
    else atanInvFrom k fuel (t / (k * k)) (j + 2) (!sub) (if sub then acc - (t / j : Nat) else acc + (t / j : Nat))

/-- π·2^K by Machin's formula. -/
def piFix (K : Nat) : Int :=
  16 * atanInvFrom 5 (K + 10) (2 ^ K / 5) 1 false 0 - 4 * atanInvFrom 239 (K + 10) (2 ^ K / 239) 1 false 0

/-- 2·atanh(z)·2^K for z = t/2^K below 1/2: `t` is the next power term, `z2` is z². -/
def atanhFrom (K z2 : Nat) : Nat → Nat → Nat → Nat → Nat
  | 0, _, _, acc => 2 * acc
  | fuel + 1, t, j, acc =>
    if t = 0 then 2 * acc else atanhFrom K z2 fuel (t * z2 / 2 ^ K) (j + 2) (acc + t / j)

/-- ln(n/d)·2^K for 1 ≤ n/d < 2. -/
def lnFix (K n d : Nat) : Nat :=
  let z := (n - d) * 2 ^ K / (n + d)
  atanhFrom K (z * z / 2 ^ K) K z 1 0

/-- exp(y)·2^K for y = t/2^K: `term` is the next term. -/
def expFrom (K y : Nat) : Nat → Nat → Nat → Nat → Nat
  | 0, _, _, acc => acc
  | fuel + 1, term, j, acc =>
    if term = 0 then acc else expFrom K y fuel (term * y / 2 ^ K / j) (j + 1) (acc + term)

/-- Rounds an interval [lo, hi]/2^K of positive values (times 2^i): the bits when both ends agree. -/
def roundBoth (f : FF) (rm : Rm) (neg : Bool) (lo hi K : Nat) (i : Int) : Option Nat :=
  let a := roundFmt f rm ((EV.fin neg lo (2 ^ K)).scale i)
  let b := roundFmt f rm ((EV.fin neg hi (2 ^ K)).scale i)
  if a = b then some a else none

/-- An evaluation tried with ever more bits, until they decide the rounding: no value that is not exact lies on a boundary of
rounding, so that some precision decides. -/
def ladder : Nat → Nat → (Nat → Option Nat) → Option Nat
  | 0, _, _ => none
  | n + 1, K, g => match g K with
    | some x => some x
    | none => ladder n (2 * K) g

/-- 2^v. An integer is exact; beyond ±4096 every format of R136 over- or underflows. -/
def exp2Bits (f : FF) (rm : Rm) (v : EV) : Option Nat :=
  match v with
  | .nan => some f.nan
  | .inf b => some (roundFmt f rm (if b then .fin false 0 1 else .inf false))
  | .fin b n d =>
    if n % d = 0 then
      let i : Int := if b then -(min (n / d) 4096 : Nat) else (min (n / d) 4096 : Nat)
      some (roundFmt f rm ((EV.fin false 1 1).scale i))
    else ladder 24 400 fun K =>
      let x : Int := (if b then -1 else 1) * (n : Int)
      let i : Int := max (-4096) (min 4096 (x / (d : Int)))
      let fr := (x % (d : Int)).toNat
      let ln2 := lnFix (K + 20) 4 3 + lnFix (K + 20) 3 2
      let y := fr * ln2 / d / 2 ^ 20
      let r := expFrom K y K (2 ^ K) 1 0
      roundBoth f rm false (r - 2 ^ 20) (r + 2 ^ 20) K i

/-- log2 v. A power of two is exact. -/
def log2Bits (f : FF) (rm : Rm) (v : EV) : Option Nat :=
  match v with
  | .nan => some f.nan
  | .inf b => some (if b then f.nan else roundFmt f rm (.inf false))
  | .fin b n d =>
    if n = 0 then some (roundFmt f rm (.inf true))
    else if b then some f.nan
    else
      let e := ilog2 n d
      let q := pow2 (-e)
      let p := n * q.1
      let r := d * q.2
      if p = r then some (roundFmt f rm (EV.ofInt e))
      else ladder 24 400 fun K =>
        let ln2 := lnFix K 4 3 + lnFix K 3 2
        let g : Int := (lnFix K p r * 2 ^ K / ln2 : Nat)
        let t : Int := e * 2 ^ K + g
        let a := t.natAbs
        roundBoth f rm (t < 0) (a - 2 ^ 20) (a + 2 ^ 20) K 0

/-- sin(r)·2^K (from `term` = r, j = 1) or cos(r)·2^K (from `term` = 2^K, j = 0) by the alternating series;
`r2` is r² in the same scale. -/
def trigFrom (K r2 : Nat) : Nat → Nat → Nat → Bool → Int → Int
  | 0, _, _, _, acc => acc
  | fuel + 1, term, j, sub, acc =>
    if term = 0 then acc
    else trigFrom K r2 fuel (term * r2 / 2 ^ K / ((j + 1) * (j + 2))) (j + 2) (!sub)
      (if sub then acc - term else acc + term)

/-- sin v (`q` = 0) or cos v (`q` = 1), radians. ±0 is exact. -/
def trigBits (f : FF) (rm : Rm) (q : Nat) (v : EV) : Option Nat :=
  match v with
  | .nan => some f.nan
  | .inf _ => some f.nan
  | .fin b n d =>
    if n = 0 then some (roundFmt f rm (if q = 0 then .fin b 0 1 else .fin false 1 1))
    else ladder 24 640 fun K =>
      let half := piFix K / 2
      let x : Int := (if b then -1 else 1) * (n * 2 ^ K / d : Nat)
      let k := (2 * x + half) / (2 * half)
      let r := x - k * half
      let m := ((k + (q : Int)) % 4).toNat
      let ra := r.natAbs
      let r2 := ra * ra / 2 ^ K
      let sn : Int := (if r < 0 then -1 else 1) * trigFrom K r2 K ra 1 false 0
      let cs : Int := trigFrom K r2 K (2 ^ K) 0 false 0
      let t : Int := if m = 0 then sn else if m = 1 then cs else if m = 2 then -sn else -cs
      let eps := (k.natAbs + 1) * 2 ^ 20
      let a := t.natAbs
      if a ≤ eps then none else roundBoth f rm (t < 0) (a - eps) (a + eps) K 0

end Sys2Proof.Machine

namespace Sys2Proof

/-! ## Formats by name -/

def FTy.ff : FTy → Machine.FF
  | .f32 => Machine.ffF32
  | .f64 => Machine.ffF64
  | .f16 => Machine.ffF16
  | .bf16 => Machine.ffBF16

def HTy.ff : HTy → Machine.FF
  | .f16 => Machine.ffF16
  | .bf16 => Machine.ffBF16

/-- The floating-point format of a storage format, if it is one. -/
def Fmt.ff : Fmt → Option Machine.FF
  | .fp32 => some Machine.ffF32
  | .fp64 => some Machine.ffF64
  | .fp16 => some Machine.ffF16
  | .bf16 => some Machine.ffBF16
  | .e4m3 => some Machine.ffE4M3
  | .e5m2 => some Machine.ffE5M2
  | .int8 => none
  | .uint8 => none
  | .int32 => none
  | .int64 => none
  | .cb4 => none

/-- Storage formats by code (R151). -/
def Fmt.ofCode : Nat → Option Fmt
  | 0 => some .fp32
  | 1 => some .fp64
  | 2 => some .fp16
  | 3 => some .bf16
  | 4 => some .e4m3
  | 5 => some .e5m2
  | 6 => some .int8
  | 7 => some .uint8
  | 8 => some .int32
  | 9 => some .int64
  | 10 => some .cb4
  | _ => none

def Fmt.code : Fmt → Nat
  | .fp32 => 0 | .fp64 => 1 | .fp16 => 2 | .bf16 => 3 | .e4m3 => 4 | .e5m2 => 5 | .int8 => 6
  | .uint8 => 7 | .int32 => 8 | .int64 => 9 | .cb4 => 10

/-- Twice the element size in bytes (R151): CB4 has half a byte. -/
def Fmt.halfBytes : Fmt → Nat
  | .fp32 => 8 | .fp64 => 16 | .fp16 => 4 | .bf16 => 4 | .e4m3 => 2 | .e5m2 => 2 | .int8 => 2
  | .uint8 => 2 | .int32 => 8 | .int64 => 16 | .cb4 => 1

end Sys2Proof

namespace Sys2Proof.Machine

/-- round_rne(v, FP32) as an FP32 word. -/
def rneF32 (v : EV) : W32 := BitVec.ofNat 32 (roundFmt ffF32 .rne v)

/-- The value of an FP32 word. -/
def f32 (x : W32) : EV := ffF32.decode x.toNat

/-- FMIN or FMAX on the bits of a format (R138): −0 below +0; one NaN gives the other operand, two the
canonical NaN. -/
def fminmax (f : FF) (mx : Bool) (x y : Nat) : Nat :=
  let a := f.decode x
  let b := f.decode y
  if a.isNan then (if b.isNan then f.nan else y)
  else if b.isNan then x
  else
    let less := if a.eq b then a.isNeg && !b.isNeg else a.lt b
    if mx then (if less then y else x) else (if less then x else y)

end Sys2Proof.Machine
end

