-- ==== Sys2Proof/Machine/FloatArith.lean ====
section
/-! DEFINITION. The floating-point instructions of class 2 (R136 to R140). -/

namespace Sys2Proof.Machine

/-- An inline immediate as a floating-point operand: converted to FP32 and then rounded to the type (R35). -/
def immBits (f : FF) (n : BitVec 8) : Nat :=
  roundFmt f .rne (ffF32.decode (roundFmt ffF32 .rne (EV.ofInt n.toInt)))

/-- A floating-point source of a 32-bit or 16-bit type. -/
def Ctx.srcF (c : Ctx) (launch : W32) (pos : Nat) (f : FF) (o : Opnd) : VReg :=
  match o with
  | .imm n => .u (BitVec.ofNat 32 (immBits f n))
  | o => c.src launch pos o

/-- A floating-point source of type FP64, as a pair. -/
def Ctx.srcF64 (c : Ctx) (launch : W32) (pos : Nat) (o : Opnd) : VPair :=
  match o with
  | .imm n =>
    let x := BitVec.ofNat 64 (immBits ffF64 n)
    (.u (x.extractLsb' 0 32), .u (x.extractLsb' 32 32))
  | o => c.src64 launch pos o

/-- The bits of the type in a 32-bit register: a 16-bit type reads the low half (R118). -/
def lowBits (f : FF) (x : W32) : Nat := x.toNat % 2 ^ f.width

/-- A one-source form: `op` maps the operand's bits to the result's bits. -/
def floUn (h : Hints) (ty : FTy) (lat : Nat) (d a : Opnd) (op : FF → Nat → Nat) (s : State) : Out :=
  if ty = .f64 then
    laneIssue h s (2 * lat) [(0, d, 2), (1, a, 2)] fun c li =>
      let x := c.srcF64 li 1 a
      dst64 c d (pairOf (VPair.isU x) fun l => BitVec.ofNat 64 (op ffF64 (lane64 x l).toNat))
  else
    laneIssue h s lat [(0, d, 1), (1, a, 1)] fun c li =>
      dst32 c d (map1 (fun x => BitVec.ofNat 32 (op ty.ff (lowBits ty.ff x))) (c.srcF li 1 ty.ff a))

/-- A two-source form. -/
def floBin (h : Hints) (ty : FTy) (lat : Nat) (d a b : Opnd) (op : FF → Nat → Nat → Nat) (s : State) : Out :=
  if ty = .f64 then
    laneIssue h s (2 * lat) [(0, d, 2), (1, a, 2), (2, b, 2)] fun c li =>
      let x := c.srcF64 li 1 a
      let y := c.srcF64 li 2 b
      dst64 c d (pairOf (VPair.isU x && VPair.isU y) fun l =>
        BitVec.ofNat 64 (op ffF64 (lane64 x l).toNat (lane64 y l).toNat))
  else
    laneIssue h s lat [(0, d, 1), (1, a, 1), (2, b, 1)] fun c li =>
      dst32 c d (map2 (fun x y => BitVec.ofNat 32 (op ty.ff (lowBits ty.ff x) (lowBits ty.ff y)))
        (c.srcF li 1 ty.ff a) (c.srcF li 2 ty.ff b))

def fAdd (rm : Rm) (f : FF) (x y : Nat) : Nat := roundFmt f rm (EV.add rm (f.decode x) (f.decode y))
def fSub (rm : Rm) (f : FF) (x y : Nat) : Nat := roundFmt f rm (EV.add rm (f.decode x) (f.decode y).neg)
def fMul (rm : Rm) (f : FF) (x y : Nat) : Nat := roundFmt f rm ((f.decode x).mul (f.decode y))
def fDiv (rm : Rm) (f : FF) (x y : Nat) : Nat := roundFmt f rm ((f.decode x).div (f.decode y))
/-- One rounding (R137). -/
def fFma (rm : Rm) (f : FF) (x y z : Nat) : Nat :=
  roundFmt f rm (EV.add rm ((f.decode x).mul (f.decode y)) (f.decode z))

def execFadd (h : Hints) (ty : FTy) (rm : Rm) (d a b : Opnd) (s : State) : Out := floBin h ty 4 d a b (fAdd rm) s
def execFsub (h : Hints) (ty : FTy) (rm : Rm) (d a b : Opnd) (s : State) : Out := floBin h ty 4 d a b (fSub rm) s
def execFmul (h : Hints) (ty : FTy) (rm : Rm) (d a b : Opnd) (s : State) : Out := floBin h ty 4 d a b (fMul rm) s
def execFdiv (h : Hints) (ty : FTy) (rm : Rm) (d a b : Opnd) (s : State) : Out := floBin h ty 20 d a b (fDiv rm) s

def execFfma (h : Hints) (ty : FTy) (rm : Rm) (d a b x : Opnd) (s : State) : Out :=
  if ty = .f64 then
    laneIssue h s 8 [(0, d, 2), (1, a, 2), (2, b, 2), (3, x, 2)] fun c li =>
      let p := c.srcF64 li 1 a
      let q := c.srcF64 li 2 b
      let r := c.srcF64 li 3 x
      dst64 c d (pairOf (VPair.isU p && VPair.isU q && VPair.isU r) fun l =>
        BitVec.ofNat 64 (fFma rm ffF64 (lane64 p l).toNat (lane64 q l).toNat (lane64 r l).toNat))
  else
    laneIssue h s 4 [(0, d, 1), (1, a, 1), (2, b, 1), (3, x, 1)] fun c li =>
      dst32 c d (map3 (fun p q r =>
          BitVec.ofNat 32 (fFma rm ty.ff (lowBits ty.ff p) (lowBits ty.ff q) (lowBits ty.ff r)))
        (c.srcF li 1 ty.ff a) (c.srcF li 2 ty.ff b) (c.srcF li 3 ty.ff x))

def execFmin (h : Hints) (ty : FTy) (d a b : Opnd) (s : State) : Out :=
  floBin h ty 4 d a b (fun f => fminmax f false) s

def execFmax (h : Hints) (ty : FTy) (d a b : Opnd) (s : State) : Out :=
  floBin h ty 4 d a b (fun f => fminmax f true) s

/-- The comparison of FCMP: with a NaN only `.ne` and `.uo` hold (R138). -/
def fcompare (cc : FCc) (a b : EV) : Bool :=
  let uo := a.isNan || b.isNan
  match cc with
  | .eq => a.eq b
  | .ne => uo || !a.eq b
  | .lt => a.lt b
  | .le => a.lt b || a.eq b
  | .gt => b.lt a
  | .ge => b.lt a || a.eq b
  | .uo => uo
  | .or => !uo

def execFcmp (h : Hints) (ty : FTy) (cc : FCc) (d : BitVec 4) (a b : Opnd) (s : State) : Out :=
  if ty = .f64 then
    laneIssue h s 8 [(1, a, 2), (2, b, 2)] fun c li =>
      let x := c.srcF64 li 1 a
      let y := c.srcF64 li 2 b
      dstP c d fun l => fcompare cc (ffF64.decode (lane64 x l).toNat) (ffF64.decode (lane64 y l).toNat)
  else
    laneIssue h s 4 [(1, a, 1), (2, b, 1)] fun c li =>
      let x := c.srcF li 1 ty.ff a
      let y := c.srcF li 2 ty.ff b
      dstP c d fun l => fcompare cc (ty.ff.decode (lowBits ty.ff (x.lane l))) (ty.ff.decode (lowBits ty.ff (y.lane l)))

/-- A 16-bit value as FSEL chooses it: the low half, U when the source is U, else G (R120, R136). -/
def half16 (a : VReg) : VReg := map1 (fun x => BitVec.ofNat 32 (x.toNat % 2 ^ 16)) a

def execFsel (h : Hints) (ty : FTy) (d a b : Opnd) (p : BitVec 4) (s : State) : Out :=
  if ty = .f64 then
    laneIssue h s 8 [(0, d, 2), (1, a, 2), (2, b, 2)] fun c li =>
      let x := c.srcF64 li 1 a
      let y := c.srcF64 li 2 b
      let m := c.pred 3 p.toNat
      dst64 c d (select c.g.full m x.1 y.1, select c.g.full m x.2 y.2)
  else
    laneIssue h s 4 [(0, d, 1), (1, a, 1), (2, b, 1)] fun c li =>
      let x := c.srcF li 1 ty.ff a
      let y := c.srcF li 2 ty.ff b
      let m := c.pred 3 p.toNat
      dst32 c d (if ty = .f32 then select c.g.full m x y else select c.g.full m (half16 x) (half16 y))

/-- The class bit of FCLASS (R138). -/
def fclassBit (f : FF) (x : Nat) : Nat :=
  let neg := x.testBit (f.e + f.m)
  let mag := x % f.signBit
  let i :=
    if mag = 0 then (if neg then 3 else 4)
    else if mag < 2 ^ f.m then (if neg then 2 else 5)
    else if mag < f.infBits then (if neg then 1 else 6)
    else if mag = f.infBits then (if neg then 0 else 7)
    else if mag.testBit (f.m - 1) then 9 else 8
  2 ^ i

def execFclass (h : Hints) (ty : FTy) (d a : Opnd) (s : State) : Out :=
  if ty = .f64 then
    laneIssue h s 8 [(0, d, 1), (1, a, 2)] fun c li =>
      let x := c.srcF64 li 1 a
      dst32 c d (if VPair.isU x then .u (BitVec.ofNat 32 (fclassBit ffF64 (lane64 x 0).toNat))
        else .g (lanes fun l => BitVec.ofNat 32 (fclassBit ffF64 (lane64 x l).toNat)))
  else
    laneIssue h s 4 [(0, d, 1), (1, a, 1)] fun c li =>
      dst32 c d (map1 (fun x => BitVec.ofNat 32 (fclassBit ty.ff (lowBits ty.ff x))) (c.srcF li 1 ty.ff a))

/-- a × 2^n rounded once; an n beyond ±8192 over- or underflows every format like ±8192 (R138). -/
def fScale (rm : Rm) (f : FF) (x : Nat) (n : W32) : Nat :=
  roundFmt f rm ((f.decode x).scale (max (-8192) (min 8192 n.toInt)))

def execFscale (h : Hints) (ty : FTy) (rm : Rm) (d a b : Opnd) (s : State) : Out :=
  if ty = .f64 then
    laneIssue h s 8 [(0, d, 2), (1, a, 2), (2, b, 1)] fun c li =>
      let x := c.srcF64 li 1 a
      let n := c.src li 2 b
      dst64 c d (pairOf (VPair.isU x && n.isU) fun l =>
        BitVec.ofNat 64 (fScale rm ffF64 (lane64 x l).toNat (n.lane l)))
  else
    laneIssue h s 4 [(0, d, 1), (1, a, 1), (2, b, 1)] fun c li =>
      dst32 c d (map2 (fun x n => BitVec.ofNat 32 (fScale rm ty.ff (lowBits ty.ff x) n))
        (c.srcF li 1 ty.ff a) (c.src li 2 b))

def fSqrt (rm : Rm) (f : FF) (x : Nat) : Nat := roundFmt f rm (f.decode x).sqrt
def fRcp (rm : Rm) (f : FF) (x : Nat) : Nat := roundFmt f rm (f.decode x).rcp
def fRsq (rm : Rm) (f : FF) (x : Nat) : Nat := roundFmt f rm (f.decode x).rsq

/-- The result that the evaluation decides; it decides every argument, and no value is chosen beyond its last precision. -/
def decided (op : Nat) (rm : Rm) (f : FF) (x : Nat) (r : Option Nat) : Nat :=
  match r with
  | some b => b
  | none => (Config.freeTrans op (f.e * 64 + f.m) rm.code.toNat (BitVec.ofNat 64 x)).toNat % 2 ^ f.width

def fExp2 (rm : Rm) (f : FF) (x : Nat) : Nat := decided 0 rm f x (exp2Bits f rm (f.decode x))
def fLog2 (rm : Rm) (f : FF) (x : Nat) : Nat := decided 1 rm f x (log2Bits f rm (f.decode x))
def fSin (rm : Rm) (f : FF) (x : Nat) : Nat := decided 2 rm f x (trigBits f rm 0 (f.decode x))
def fCos (rm : Rm) (f : FF) (x : Nat) : Nat := decided 3 rm f x (trigBits f rm 1 (f.decode x))

def execFsqrt (h : Hints) (ty : FTy) (rm : Rm) (d a : Opnd) (s : State) : Out := floUn h ty 20 d a (fSqrt rm) s
def execFrcp (h : Hints) (ty : FTy) (rm : Rm) (d a : Opnd) (s : State) : Out := floUn h ty 20 d a (fRcp rm) s
def execFrsq (h : Hints) (ty : FTy) (rm : Rm) (d a : Opnd) (s : State) : Out := floUn h ty 20 d a (fRsq rm) s
def execFexp2 (h : Hints) (ty : FTy) (rm : Rm) (d a : Opnd) (s : State) : Out := floUn h ty 20 d a (fExp2 rm) s
def execFlog2 (h : Hints) (ty : FTy) (rm : Rm) (d a : Opnd) (s : State) : Out := floUn h ty 20 d a (fLog2 rm) s
def execFsin (h : Hints) (ty : FTy) (rm : Rm) (d a : Opnd) (s : State) : Out := floUn h ty 20 d a (fSin rm) s
def execFcos (h : Hints) (ty : FTy) (rm : Rm) (d a : Opnd) (s : State) : Out := floUn h ty 20 d a (fCos rm) s

/-- A packed source: an inline immediate stands in both halves (R140). -/
def Ctx.srcPacked (c : Ctx) (launch : W32) (pos : Nat) (f : FF) (o : Opnd) : VReg :=
  match o with
  | .imm n => let x := BitVec.ofNat 16 (immBits f n); .u (x ++ x)
  | o => c.src launch pos o

def loHalf (x : W32) : Nat := (x.extractLsb' 0 16).toNat
def hiHalf (x : W32) : Nat := (x.extractLsb' 16 16).toNat

/-- FDOT2: the exact sum of two products and c, rounded once to FP32 (R140). A zero sum has the sign that
IEEE 754 gives the sum taken left to right. -/
def fDot2 (rm : Rm) (f : FF) (a b c : W32) : W32 :=
  let p := (f.decode (loHalf a)).mul (f.decode (loHalf b))
  let q := (f.decode (hiHalf a)).mul (f.decode (hiHalf b))
  BitVec.ofNat 32 (roundFmt ffF32 rm (EV.add rm (EV.add rm p q) (f32 c)))

def hFma2 (rm : Rm) (f : FF) (a b c : W32) : W32 :=
  BitVec.ofNat 16 (fFma rm f (hiHalf a) (hiHalf b) (hiHalf c)) ++
    BitVec.ofNat 16 (fFma rm f (loHalf a) (loHalf b) (loHalf c))

def execFdot2 (h : Hints) (ty : HTy) (rm : Rm) (d a b x : Opnd) (s : State) : Out :=
  laneIssue h s 4 [(0, d, 1), (1, a, 1), (2, b, 1), (3, x, 1)] fun c li =>
    dst32 c d (map3 (fDot2 rm ty.ff) (c.srcPacked li 1 ty.ff a) (c.srcPacked li 2 ty.ff b) (c.srcF li 3 ffF32 x))

def execHfma2 (h : Hints) (ty : HTy) (rm : Rm) (d a b x : Opnd) (s : State) : Out :=
  laneIssue h s 4 [(0, d, 1), (1, a, 1), (2, b, 1), (3, x, 1)] fun c li =>
    dst32 c d (map3 (hFma2 rm ty.ff) (c.srcPacked li 1 ty.ff a) (c.srcPacked li 2 ty.ff b)
      (c.srcPacked li 3 ty.ff x))

end Sys2Proof.Machine
end

