-- ==== Sys2Proof/Machine/Tensor.lean ====
section
/-! DEFINITION. The tensor entry: its fields, its addresses and its checks (R155, R156, R158 to R160, R165). -/

namespace Sys2Proof.Machine

/-- A tensor entry (R158). -/
abbrev TxEnt := BitVec 512

/-- An unsigned field of an entry. -/
def TxEnt.fld (e : TxEnt) (lo n : Nat) : Nat := e.toNat / 2 ^ lo % 2 ^ n

def TxEnt.vld (e : TxEnt) : Bool := TxEnt.fld e 0 1 = 1
def TxEnt.fmtCode (e : TxEnt) : Nat := TxEnt.fld e 1 4
def TxEnt.ndim (e : TxEnt) : Nat := TxEnt.fld e 5 2 + 1
def TxEnt.skind (e : TxEnt) : Nat := TxEnt.fld e 7 2
def TxEnt.twin (e : TxEnt) : Bool := TxEnt.fld e 9 1 = 1
/-- The extent of dimension i, 0 to 3. -/
def TxEnt.n (e : TxEnt) (i : Nat) : Nat := TxEnt.fld e (12 + 20 * i) 20 + 1
/-- The byte stride of dimension i, 1 to 3, signed. -/
def TxEnt.st (e : TxEnt) (i : Nat) : Int := (BitVec.ofNat 32 (TxEnt.fld e (92 + 32 * (i - 1)) 32)).toInt
def TxEnt.tst (e : TxEnt) : Nat := TxEnt.fld e 188 20
def TxEnt.base (e : TxEnt) : Nat := TxEnt.fld e 208 80
def TxEnt.tbase (e : TxEnt) : Nat := TxEnt.fld e 288 73 * 128
def TxEnt.sbase (e : TxEnt) : Nat := TxEnt.fld e 361 76 * 16
def TxEnt.cbase (e : TxEnt) : Nat := TxEnt.fld e 437 75 * 32
def TxEnt.fmt (e : TxEnt) : Option Fmt := Fmt.ofCode (TxEnt.fmtCode e)

/-- Twice the element size: CB4 elements have half a byte. -/
def TxEnt.half (e : TxEnt) : Nat := ((TxEnt.fmt e).map (·.halfBytes)).getD 2

/-- The entry with an unsigned field replaced by the low bits of `x`. -/
def TxEnt.put (e : TxEnt) (lo n x : Nat) : TxEnt :=
  BitVec.ofNat 512 (e.toNat - TxEnt.fld e lo n * 2 ^ lo + x % 2 ^ n * 2 ^ lo)

/-- An element's address (R158); a CB4 element's byte. -/
def TxEnt.addr (e : TxEnt) (i0 i1 i2 i3 : Nat) : Int :=
  (TxEnt.base e : Int) + ((i0 * TxEnt.half e / 2 : Nat) : Int) + i1 * TxEnt.st e 1 + i2 * TxEnt.st e 2 +
    i3 * TxEnt.st e 3

/-- An element's twin address (R159). -/
def TxEnt.taddr (e : TxEnt) (i0 i1 i2 i3 : Nat) : Int :=
  (TxEnt.tbase e : Int) + ((i1 * TxEnt.half e / 2 : Nat) : Int) + ((i0 * TxEnt.tst e * 128 : Nat) : Int) +
    i2 * TxEnt.st e 2 + i3 * TxEnt.st e 3

/-- The address of an element's scale; none when the entry has no scale (R156). -/
def TxEnt.scaleAddr (e : TxEnt) (i1 i2 i3 : Nat) : Option Nat :=
  if TxEnt.skind e = 1 then some (TxEnt.sbase e)
  else if TxEnt.skind e = 2 then some (TxEnt.sbase e + 4 * (i1 + TxEnt.n e 1 * (i2 + TxEnt.n e 2 * i3)))
  else none

/-- The extents of an index i ≥ 1 contribute their stride times their last index, either way. -/
def spanEnd (up : Bool) (n : Nat) (st : Int) : Int :=
  if up = decide (0 ≤ st) then ((n - 1 : Nat) : Int) * st else 0

/-- A span from `lo` to `hi` lies within the address space. -/
def spanOk (lo hi : Int) : Bool := 0 ≤ lo && hi < (2 ^ 80 : Int)

/-- The plain copy, the twin and the scale array lie within the address space (R160, check 8). -/
def TxEnt.spansOk (e : TxEnt) : Bool :=
  let out := fun up => spanEnd up (TxEnt.n e 2) (TxEnt.st e 2) + spanEnd up (TxEnt.n e 3) (TxEnt.st e 3)
  let row := ((TxEnt.n e 0 * TxEnt.half e + 1) / 2 : Nat)
  let plain := spanOk (TxEnt.base e + spanEnd false (TxEnt.n e 1) (TxEnt.st e 1) + out false)
    (TxEnt.base e + (row : Int) - 1 + spanEnd true (TxEnt.n e 1) (TxEnt.st e 1) + out true)
  let col := ((TxEnt.n e 1 * TxEnt.half e + 1) / 2 : Nat)
  let twin := !TxEnt.twin e || spanOk (TxEnt.tbase e + out false)
    (TxEnt.tbase e + (((TxEnt.n e 0 - 1) * TxEnt.tst e * 128 : Nat) : Int) + (col : Int) - 1 + out true)
  let count := if TxEnt.skind e = 2 then TxEnt.n e 1 * TxEnt.n e 2 * TxEnt.n e 3 else 1
  let scale := TxEnt.skind e = 0 || spanOk (TxEnt.sbase e) ((TxEnt.sbase e + 4 * count - 1 : Nat) : Int)
  plain && twin && scale

/-- The number of the first failing check of R160 among 1 to 8; none for an image that is well formed or has
`vld` = 0. -/
def TxEnt.badCheck (e : TxEnt) : Option Nat :=
  let used := TxEnt.ndim e
  let aligned := fun i => used ≤ i || TxEnt.half e ≤ 1 || TxEnt.st e i % ((TxEnt.half e / 2 : Nat) : Int) = 0
  let wide := TxEnt.fmtCode e = 0 || TxEnt.fmtCode e = 1 || TxEnt.fmtCode e = 8 || TxEnt.fmtCode e = 9
  if !TxEnt.vld e then none
  else if TxEnt.fld e 10 2 ≠ 0 then some 1
  else if 11 ≤ TxEnt.fmtCode e then some 2
  else if (List.range 4).any fun i => used ≤ i && (TxEnt.n e i ≠ 1 || (1 ≤ i && TxEnt.st e i ≠ 0)) then some 3
  else if (2 ≤ TxEnt.half e && TxEnt.base e % (TxEnt.half e / 2) ≠ 0) ||
      !([1, 2, 3].all aligned) then some 4
  else if TxEnt.skind e = 3 || (TxEnt.skind e ≠ 0 && wide) || (TxEnt.skind e = 0 && TxEnt.sbase e ≠ 0) then some 5
  else if TxEnt.cbase e ≠ 0 && TxEnt.fmtCode e ≠ 10 then some 6
  else if (TxEnt.twin e && (used = 1 || TxEnt.fmtCode e = 10 ||
      TxEnt.tst e * 128 * 2 < TxEnt.n e 1 * TxEnt.half e)) ||
      (!TxEnt.twin e && (TxEnt.tbase e ≠ 0 || TxEnt.tst e ≠ 0)) then some 7
  else if !TxEnt.spansOk e then some 8
  else none

/-- What an instruction or an engine needs of an entry (R165). -/
structure TxNeed where
  fmts : List Fmt
  cb : Bool
  twin : Bool
  write : Bool
  deriving DecidableEq, Repr

/-- The reason of TENSOR_ENTRY_INVALID, if one of R165 holds. -/
def txReason (e : TxEnt) (store : Option (List Byte)) (need : TxNeed) : Option Nat :=
  if !TxEnt.vld e then some 0
  else if (match TxEnt.fmt e with | some f => !need.fmts.contains f | none => true) then some 1
  else if need.cb && TxEnt.fmtCode e = 10 && store.isNone then some 2
  else if need.twin && !TxEnt.twin e then some 3
  else if need.write && TxEnt.skind e ≠ 0 then some 4
  else none

/-- Every storage format. -/
def allFmts : List Fmt :=
  [.fp32, .fp64, .fp16, .bf16, .e4m3, .e5m2, .int8, .uint8, .int32, .int64, .cb4]

/-- Every storage format but CB4. -/
def plainFmts : List Fmt := [.fp32, .fp64, .fp16, .bf16, .e4m3, .e5m2, .int8, .uint8, .int32, .int64]

/-- The entry and the codebook store that a name of the block reaches; an entry never written is all zeros
(R161). -/
def Block.txEnt (b : Block) (n : Nat) : TxEnt := Tbl.getD b.tx n 0
def Block.store (b : Block) (n : Nat) : Option (List Byte) := Tbl.find b.cb n

/-- An image is applied: a change of `fmt` or `cbase` marks the codebook store absent (R162). -/
def Block.applyTx (b : Block) (n : Nat) (e : TxEnt) : Block :=
  let old := b.txEnt n
  let keep := TxEnt.fmtCode old = TxEnt.fmtCode e && TxEnt.cbase old = TxEnt.cbase e
  Block.note { b with tx := Tbl.put b.tx n e, cb := if keep then b.cb else Tbl.drop b.cb n }
    (if keep || (b.store n).isNone then [.tx n] else [.tx n, .store n])

/-- Codebook value `code` of a store of 32 bytes (R155): a BF16 pattern. -/
def cbValue (store : List Byte) (code : Nat) : Nat := leNat ((store.drop (2 * code)).take 2)

end Sys2Proof.Machine
end

