-- ==== Sys2Proof/Machine/Memory.lean ====
section
/-! DEFINITION. Memory: the canonical byte store, physical memory under key slots (R170, R179), the undo log and
the withheld effects of a time-sliced virtual device (R356, R358), the page-table walk (R172 to R175), and the
parts of an access (R176, R180, R228). -/

namespace Sys2Proof.Machine

/-! ## The byte store -/

/-- The store with one byte written: addresses keep rising, a zero byte is not listed. -/
def Memory.set : Memory → Nat → Byte → Memory
  | [], a, b => if b = 0 then [] else [(a, b)]
  | (x, y) :: m, a, b =>
    if a < x then (if b = 0 then (x, y) :: m else (a, b) :: (x, y) :: m)
    else if a = x then (if b = 0 then m else (a, b) :: m)
    else (x, y) :: Memory.set m a b

/-- The addresses rise strictly from above `lo` (none: from the start) and no byte is zero. -/
def Memory.wfFrom : Option Nat → Memory → Bool
  | _, [] => true
  | lo, (x, y) :: m => (match lo with | some l => decide (l < x) | none => true) && decide (y ≠ 0) &&
      Memory.wfFrom (some x) m

/-- The canonical form. -/
def Memory.wf (m : Memory) : Bool := Memory.wfFrom none m

/-- Consecutive bytes written from an address on. -/
def Memory.write : Memory → Nat → List Byte → Memory
  | m, _, [] => m
  | m, a, b :: bs => Memory.write (Memory.set m a b) (a + 1) bs

/-- `n` consecutive bytes. -/
def Memory.read (m : Memory) (a n : Nat) : List Byte := (List.range n).map fun i => Memory.get m (a + i)

/-! ## Physical memory -/

/-- PA[51:48] (R170). -/
def region (pa : Nat) : Nat := pa / 2 ^ 48 % 16

/-- The home slice of a line (R171). -/
def homeSlice (pa : Nat) : Nat :=
  (List.range 7).foldl (fun h i => h ^^^ (pa / 2 ^ (7 + 6 * i) % 64)) (pa / 2 ^ 49 % 8)

/-- The die of a line's home slice. -/
def homeDie (pa : Nat) : Nat := homeSlice pa / 16

/-- What a region-2 address names (R331): the address in the other packages' memory, the key slot there, the write permit. -/
structure PeerRef where
  at' : Nat
  key : Nat
  write : Bool
  deriving DecidableEq, Repr

/-- Where a region-2 address lies in the system (R331): peer package and partition above a 40-bit offset; none through an entry
that is not valid, or from a time-sliced virtual device, which has no fabric access (R201). An aperture entry is held as its
bytes: valid, package (2), partition, key slot (2), permit. -/
def VDev.peerAddr (v : VDev) (pa : Nat) : Option PeerRef :=
  let e := Tbl.getD v.aperture (pa / 2 ^ 40 % 256) []
  if leNat (e.take 1) % 2 = 1 && !v.sliced then
    some { at' := (leNat ((e.drop 1).take 2) * 256 + leNat ((e.drop 3).take 1)) * 2 ^ 40 + pa % 2 ^ 40
           key := leNat ((e.drop 4).take 2), write := leNat ((e.drop 6).take 1) % 2 = 1 }
  else none

/-- The byte of region 0 at `pa` as slot `key` reads it: undefined where the line was last written under another
slot, or never (R179). -/
def State.hbmByte (s : State) (key pa : Nat) : Byte :=
  if Tbl.find s.lineSlot (pa / 128) = some key then Memory.get s.mem pa else Config.freeByte s.free pa

/-- The byte of another package's memory as a slot there reads it (R179, R331). -/
def State.peerByte (s : State) (key q : Nat) : Byte :=
  if Tbl.find s.peerSlot (q / 128) = some key then Memory.get s.peer q else Config.freeByte s.free q

/-- Bytes from `lo` on as a withheld effect leaves them. -/
def Effect.over (lo : Nat) (bs : List Byte) : Effect → List Byte
  | .bytes q _ ds => bs.mapIdx fun i b => if q ≤ lo + i && lo + i < q + ds.length then ds.getD (lo + i - q) 0 else b
  | .add q _ inc =>
    if lo ≤ q && q + 4 ≤ lo + bs.length then
      let old : W32 := BitVec.ofNat 32 (leNat ((bs.drop (q - lo)).take 4))
      bs.take (q - lo) ++ leBytes 4 (old + inc).toNat ++ bs.drop (q - lo + 4)
    else bs
  | .irq _ => bs

/-- Bytes that a virtual device reads where SLICE mode withholds writes of its own, which are there for it (R203, R358); a word that
a signal raises may reach three bytes past the run. -/
def State.ownBytes (s : State) (vd pa n : Nat) (byte : Nat → Byte) : List Byte :=
  let lo := pa - 3
  let raw := (List.range (pa - lo + n + 3)).map fun i => byte (lo + i)
  (((s.vd vd).withheld.foldl (Effect.over lo) raw).drop (pa - lo)).take n

/-- Bytes of physical memory as an access reads them. -/
def State.readPhys (s : State) (vd key pa n : Nat) : List Byte :=
  if region pa = 0 then (List.range n).map fun i => s.hbmByte key (pa + i)
  else if region pa = 2 then
    match (s.vd vd).peerAddr pa with
    | some r => (List.range n).map fun i => s.peerByte r.key (r.at' + i)
    | none => (List.range n).map fun i => Config.freeByte s.free (pa + i)
  else if (s.vd vd).withheld.isEmpty then Memory.read s.mem pa n
  else s.ownBytes vd pa n (Memory.get s.mem)

/-- Every reservation on a granule but that of the writing thread is cleared (R186). -/
def State.clearResv (s : State) (agent : Option (Nat × Nat)) (line : Nat) : State :=
  { s with groups := s.groups.map fun (gid, g) =>
      (gid, { g with resv := g.resv.filter fun (l, r) => r ≠ line || agent = some (gid, l) }) }

/-- The pre-image of a line is logged at its first write after a milestone (R356); a line of another package stands above every
line of this one. -/
def State.logLine (s : State) (vd line : Nat) : State :=
  let v := s.vd vd
  if v.msmode = 0 || v.log.any fun e => e.line = line then s
  else
    let e : LogLine :=
      if 2 ^ 60 ≤ line then
        { line := line, bytes := Memory.read s.peer ((line - 2 ^ 60) * 128) 128, slot := Tbl.find s.peerSlot (line - 2 ^ 60) }
      else { line := line, bytes := Memory.read s.mem (line * 128) 128, slot := Tbl.find s.lineSlot line }
    s.modVd vd fun v => { v with log := e :: v.log }

/-- The rest of a line that is written under another slot than before becomes undefined under that slot (R179). -/
def State.takeLine (s : State) (key line : Nat) : State :=
  if Tbl.find s.lineSlot line = some key then s
  else
    { s with lineSlot := Tbl.put s.lineSlot line key
             mem := Memory.write s.mem (line * 128)
               ((List.range 128).map fun i => Config.freeByte s.free (line * 128 + i)) }

/-- The same of a line of another package's memory. -/
def State.takePeerLine (s : State) (key line : Nat) : State :=
  if Tbl.find s.peerSlot line = some key then s
  else
    { s with peerSlot := Tbl.put s.peerSlot line key
             peer := Memory.write s.peer (line * 128)
               ((List.range 128).map fun i => Config.freeByte s.free (line * 128 + i)) }

/-- The lines of region 0 or 2 that `n` bytes from `a` touch. -/
def linesOf (a n : Nat) : List Nat := (List.range ((a % 128 + n + 127) / 128)).map fun i => a / 128 + i

/-- Bytes written to region 0 under a slot: logged, merged into their lines, clearing reservations. A write that
covers a poisoned line clears its poison (R178). -/
def State.writeHbm (s : State) (vd : Option Nat) (agent : Option (Nat × Nat)) (key pa : Nat) (bs : List Byte) :
    State :=
  let ls := linesOf pa bs.length
  let s1 := match vd with
    | some v => ls.foldl (fun (r : State) l => r.logLine v l) s
    | none => s
  let s2 := ls.foldl (fun (r : State) l => (r.takeLine key l).clearResv agent l) s1
  { s2 with mem := Memory.write s2.mem pa bs
            poison := s2.poison.filter fun l => !(pa ≤ l * 128 && l * 128 + 128 ≤ pa + bs.length)
            latent := s2.latent.filter fun l => !(pa ≤ l * 128 && l * 128 + 128 ≤ pa + bs.length) }

/-- Bytes written to host memory: withheld in SLICE mode (R358). -/
def State.writeHost (s : State) (vd : Option Nat) (pa : Nat) (bs : List Byte) : State :=
  match vd with
  | some v =>
    if (s.vd v).msmode = 2 then s.modVd v fun d => { d with withheld := d.withheld ++ [.bytes pa 0 bs] }
    else { s with mem := Memory.write s.mem pa bs }
  | none => { s with mem := Memory.write s.mem pa bs }

/-- Bytes written by an access of a virtual device. -/
def State.writePhys (s : State) (vd : Nat) (agent : Option (Nat × Nat)) (key pa : Nat) (bs : List Byte) : State :=
  if region pa = 0 then s.writeHbm (some vd) agent key pa bs
  else if region pa = 2 then
    match (s.vd vd).peerAddr pa with
    | some r =>
      let ls := linesOf r.at' bs.length
      let s1 := ls.foldl (fun (t : State) l => (t.logLine vd (2 ^ 60 + l)).takePeerLine r.key l) s
      { s1 with peer := Memory.write s1.peer r.at' bs }
    | none => s
  else s.writeHost (some vd) pa bs

/-! ## The page-table walk -/

/-- Kinds of access (R173, R175). -/
inductive AKind where
  | rd | wr | atomic | fetch
  deriving DecidableEq, Repr

/-- The kind number in the codes of R175. -/
def AKind.num : AKind → Nat
  | .rd => 0
  | .wr => 1
  | .atomic => 1
  | .fetch => 2

/-- Bits of a page-table entry (R172). -/
def pteBit (e : W64) (i : Nat) : Bool := e.getLsbD i
def pteOrd (e : W64) : Nat := (e.extractLsb' 62 2).toNat
def pteKey (e : W64) : Nat := (e.extractLsb' 52 10).toNat
def ptePfn (e : W64) : Nat := (e.extractLsb' 12 40).toNat

/-- An entry with `v` = 1 that is malformed at a level (R173). -/
def pteMalformed (e : W64) (lvl : Nat) : Bool :=
  let leaf := pteBit e 3
  let reg := region (ptePfn e * 4096)
  pteBit e 7 || pteBit e 1 || pteBit e 2 || pteOrd e = 3 || (leaf && lvl < 3) || (!leaf && lvl = 5) ||
    (!leaf && (pteOrd e ≠ 0 || pteKey e ≠ 0 || pteBit e 6 || pteBit e 5 || pteBit e 4 || ptePfn e % 4 ≠ 0)) ||
    (leaf && lvl = 3 && ptePfn e % 2 ^ 22 ≠ 0) || (leaf && lvl = 4 && ptePfn e % 2 ^ 11 ≠ 0) ||
    (leaf && pteKey e ≠ 0 && (reg = 1 || reg = 2))

/-- The lowest address bit that a level's index uses. -/
def lvlShift (lvl : Nat) : Nat := if lvl = 0 then 67 else 56 - 11 * (lvl - 1)

/-- The index of a level (R173). -/
def lvlIndex (va lvl : Nat) : Nat := va / 2 ^ lvlShift lvl % (if lvl = 0 then 2 ^ 13 else 2 ^ 11)

/-- An entry of the table at a level, as the walk gets it: a cached copy may stand in for memory (R174). `salt`
tells the walks of one step apart. -/
def State.pte (s : State) (v : VDev) (t va lvl salt : Nat) : W64 :=
  let fresh : W64 := BitVec.ofNat 64 (leNat (Memory.read s.mem (t + 8 * lvlIndex va lvl) 8))
  let old := v.tlb.filter fun e => e.lvl = lvl && e.tag = va / 2 ^ lvlShift lvl && e.entry ≠ fresh
  match (List.range old.length).find? fun i => Config.cachedEntry s.free (salt * 4096 + lvl * 512 + i) with
  | some i => match old[i]? with
    | some e => e.entry
    | none => fresh
  | none => fresh

/-- What a walk finds. -/
inductive Walk where
  | leaf (e : W64) (lvl : Nat)
  | notPresent (lvl : Nat)
  | malformed
  deriving DecidableEq, Repr

/-- The walk from a table at a level, with the entries it read. -/
def State.walkFrom (s : State) (v : VDev) (va salt : Nat) : List Nat → Nat → Walk × List TlbEnt
  | [], _ => (.malformed, [])
  | lvl :: rest, t =>
    let e := s.pte v t va lvl salt
    let seen : TlbEnt := ⟨lvl, va / 2 ^ lvlShift lvl, e⟩
    if !pteBit e 0 then (.notPresent lvl, [])
    else if pteMalformed e lvl then (.malformed, [seen])
    else if pteBit e 3 then (.leaf e lvl, [seen])
    else
      let r := s.walkFrom v va salt rest (ptePfn e * 4096)
      (r.1, seen :: r.2)

def State.walk (s : State) (v : VDev) (va salt : Nat) : Walk × List TlbEnt :=
  s.walkFrom v va salt [0, 1, 2, 3, 4, 5] (v.ptroot % 2 ^ 52)

/-- The outcome of a translation. -/
inductive Trans where
  | ok (pa : Nat) (ord : Ord) (key : Nat)
  | notPresent (code : Nat)
  | bad (code : Nat)
  deriving DecidableEq, Repr

def ordOf (n : Nat) : Ord := if n = 0 then .rc else if n = 1 then .so else .uo

/-- translate(va, k) of R173, with the physical check of R170. -/
def State.translate (s : State) (vd va salt : Nat) (k : AKind) : Trans × List TlbEnt :=
  let w := s.walk (s.vd vd) va salt
  let r : Trans := match w.1 with
    | .notPresent lvl => .notPresent (0x080 + 8 * k.num + lvl)
    | .malformed => .bad (0x080 + 8 * k.num + 7)
    | .leaf e lvl =>
      let denied := match k with
        | .rd => !pteBit e 4
        | .wr => !pteBit e 5
        | .atomic => !pteBit e 5 || !pteBit e 4
        | .fetch => !pteBit e 6
      let pa := ptePfn e * 4096 + va % 2 ^ (12 + 11 * (5 - lvl))
      if denied then .bad (0x080 + 8 * k.num + 6)
      else if 3 ≤ region pa || (region pa = 0 && 2 ^ 39 ≤ pa) then .bad 0x098
      else .ok pa (ordOf (pteOrd e)) (pteKey e)
  (r, w.2)

/-- The device caches the entries that a walk has read (R174). -/
def State.cacheEntries (s : State) (vd : Nat) (es : List TlbEnt) : State :=
  if es.all fun e => (s.vd vd).tlb.contains e then s
  else s.modVd vd fun v => { v with tlb := es.foldl (fun t e => if t.contains e then t else e :: t) v.tlb }

/-- The slot is assigned to the virtual device (R179, R381). -/
def State.keyOk (s : State) (vd key : Nat) : Bool :=
  match Tbl.find s.keys key with
  | some k => k.vd = vd
  | none => false

/-! ## The checks of one thread's access (R176, R228) -/

/-- The kind number in the codes of R177. -/
inductive MKind where
  | load | store | atomic | engine
  deriving DecidableEq, Repr

def MKind.num : MKind → Nat
  | .load => 0
  | .store => 1
  | .atomic => 2
  | .engine => 3

/-- What one class of access asks of its address: bytes, natural alignment (0: none), the translation kind, the
kind of its codes, whether the scratchpad window serves it, and the regions that support it. -/
structure AccForm where
  n : Nat
  align : Nat
  tk : AKind
  mk' : MKind
  window : Bool
  regions : List Nat
  deriving DecidableEq, Repr

/-- The outcome of the checks for one address. -/
inductive Chk where
  | ok (segs : List Seg)
  | page (code page : Nat)
  | bad (code : Nat) (addr : Nat)
  | lent
  deriving DecidableEq, Repr

/-- EA[79:20] is all ones (R228). -/
def inWindow (ea : Nat) : Bool := 2 ^ 80 - 2 ^ 20 ≤ ea

/-- A slot's entry when none has been recorded: invalid; absent in a harvest block (R229, R231, R318). -/
def TagEnt.init (harvest : Bool) : TagEnt :=
  { vld := false, key := 0, busy := 0, lendable := false, lentTo := none, absent := harvest, age := 0 }

def Block.ent (b : Block) (k : Nat) : TagEnt := (Tbl.find b.tagTab k).getD (.init b.harvest)
/-- The harvest contexts that slots of an owner block back (R231). -/
def Block.backed (b : Block) (ks : List Nat) : List Nat := ks.filterMap fun k => (b.ent k).lentTo.map (·.1)

def Block.setEnt (b : Block) (k : Nat) (e : TagEnt) : Block := Block.note { b with tagTab := Tbl.put b.tagTab k e } [.tag k]

/-- A run of bytes zeroed. -/
def Memory.clear (m : Memory) (lo n : Nat) : Memory := m.filter fun c => !(lo ≤ c.1 && c.1 < lo + n)

/-- A lendable slot that backs nothing is the owner's again: invalid, not lent, every byte zero (R231). -/
def Block.takeBack (b : Block) (k : Nat) : Block :=
  let e := b.ent k
  { (b.setEnt k { e with vld := false, lendable := false, lentTo := none }) with
    slots := Memory.clear b.slots (1024 * k) 1024 }

/-- An access within the scratchpad window (R228, R231). -/
def windowChk (b : Block) (ea n : Nat) : Chk :=
  let slot := ea / 1024 % 512
  let last := (ea + n - 1) / 1024 % 512
  let ent := fun k => Tbl.find b.tagTab k
  let away := fun k => match ent k with
    | some e => e.lentTo.isSome
    | none => false
  let gone := fun k => match ent k with
    | some e => e.absent
    | none => b.harvest
  if ea / 2 ^ 19 % 2 = 1 || b.nsp ≤ slot || b.nsp ≤ last then .bad 0x0A0 ea
  else if !b.harvest && (away slot || away last) then .lent
  else if b.harvest && gone slot then
    if last = slot then .ok [.none n]
    else
      let m := 1024 - ea % 1024
      .ok [.none m, if gone last then .none (n - m) else .slot (last * 1024) (n - m)]
  else if b.harvest && gone last then
    let m := 1024 - ea % 1024
    .ok [.slot (ea % 2 ^ 20) m, .none (n - m)]
  else .ok [.slot (ea % 2 ^ 20) n]

/-- One page's part of an access outside the window. -/
def State.pageChk (s : State) (vd : Nat) (f : AccForm) (va n salt : Nat) : Chk × List TlbEnt :=
  let t := s.translate vd va salt f.tk
  let r : Chk := match t.1 with
    | .notPresent code => .page code (va / 4096)
    | .bad code => .bad code va
    | .ok pa ord key =>
      if region pa = 0 && !s.keyOk vd key then .bad (0x06C + f.mk'.num) va
      else if !f.regions.contains (region pa) then .bad (0x074 + f.mk'.num) va
      else .ok [.phys pa n key ord]
  (r, t.2)

/-- The checks of an access at `ea`: alignment, window, then each page's part; both parts are checked before
either is performed (R180). -/
def State.chk (s : State) (b : Block) (f : AccForm) (ea salt : Nat) : Chk × List TlbEnt :=
  let last' := (ea + f.n - 1) % 2 ^ 80
  if f.align ≠ 0 && ea % f.align ≠ 0 then (.bad (0x060 + f.mk'.num) ea, [])
  else if inWindow ea && inWindow last' && ea ≤ last' then
    (if f.window then windowChk b ea f.n else .bad (0x074 + f.mk'.num) ea, [])
  else if inWindow ea || inWindow last' then (.bad (0x074 + f.mk'.num) ea, [])
  else
    let m := 4096 - ea % 4096
    if f.n ≤ m then s.pageChk b.vd f ea f.n (2 * salt)
    else
      let x := s.pageChk b.vd f ea m (2 * salt)
      let y := s.pageChk b.vd f ((ea + m) % 2 ^ 80) (f.n - m) (2 * salt + 1)
      (match x.1, y.1 with
        | .ok p, .ok q => .ok (p ++ q)
        | .ok _, r => r
        | r, _ => r, x.2 ++ y.2)

def Seg.len : Seg → Nat
  | .phys _ n _ _ => n
  | .slot _ n => n
  | .none n => n

/-- The parts that the segments of one thread's access make, from byte `off` of its value on. -/
def partsOf (lane : Nat) (ltid : W64) (ea : Va) (data aux : Nat) : Nat → List Seg → List Part
  | _, [] => []
  | off, g :: gs =>
    { lane, ltid, ea := ea + BitVec.ofNat 80 off, off, seg := g, twin := none, data := data / 256 ^ off, aux,
      done := false, ok := true, got := 0 } :: partsOf lane ltid ea data aux (off + g.len) gs

end Sys2Proof.Machine
end

