-- ==== Sys2Proof/Machine/Access.lean ====
section
/-! DEFINITION. Accesses in flight: how an instruction starts one (R176, R205), when a part of it may be performed
(R202 to R206), what performing it does (R183 to R193), and how it finishes (R44, R184). -/

namespace Sys2Proof.Machine

def IntTy.bytes : IntTy → Nat
  | .n32 => 4
  | .s32 => 4
  | .n64 => 8
  | .s64 => 8

def ftyBytes : FTy → Nat
  | .f32 => 4
  | .f64 => 8
  | .f16 => 2
  | .bf16 => 2

/-- What each operation asks of its address (R180, R187 to R193). -/
def MemOp.form : MemOp → AccForm
  | .ld _ n _ resv _ => if resv then ⟨n, n, .rd, .load, false, [0]⟩ else ⟨n, 0, .rd, .load, true, [0, 1, 2]⟩
  | .ldu _ n _ => ⟨n, 0, .rd, .load, true, [0, 1, 2]⟩
  | .ldb .. => ⟨16, 16, .rd, .load, true, [0, 1, 2]⟩
  | .st n => ⟨n, 0, .wr, .store, true, [0, 1, 2]⟩
  | .stcond n _ => ⟨n, n, .wr, .store, false, [0]⟩
  | .atom op ty _ =>
    let n := IntTy.bytes ty
    ⟨n, n, .atomic, .atomic, false, if op = .add || op = .exch || op = .cas then [0, 1, 2] else [0, 2]⟩
  | .fatom _ ty _ => ⟨ftyBytes ty, ftyBytes ty, .atomic, .atomic, false, [0, 2]⟩
  | .ford _ => ⟨4, 4, .atomic, .atomic, false, [0, 1, 2]⟩
  | .acell => ⟨4, 4, .wr, .atomic, false, [0]⟩
  | .acellClose => ⟨4, 4, .wr, .atomic, false, [0, 1, 2]⟩
  | .acread _ => ⟨4, 0, .rd, .load, false, [0, 1, 2]⟩
  | .pst n => ⟨n, n, .wr, .store, false, [0, 1, 2]⟩
  | .tdef _ => ⟨64, 64, .rd, .load, false, [0, 1, 2]⟩

/-! ## Cells (R190, R191) -/

/-- The cell of a virtual device at a physical address. -/
def State.cellAt (s : State) (vd pa : Nat) : Option AccCell :=
  (s.die (homeDie pa)).cells.find? fun c => c.vd = vd && c.pa = pa

/-- The cell replaced, or removed. -/
def State.setCell (s : State) (vd pa : Nat) (c : Option AccCell) : State :=
  s.modDie (homeDie pa) fun d =>
    let rest := d.cells.filter fun x => !(x.vd = vd && x.pa = pa)
    { d with cells := match c with
        | some x => rest ++ [x]
        | none => rest }

/-- The number of a cell state in ACREAD's word (R192). -/
def CellSt.num : CellSt → Nat
  | .opening => 1
  | .opened => 1
  | .done => 2
  | .failed => 3

/-- The status word of R192. -/
def cellWord (c : Option AccCell) : W32 :=
  match c with
  | some x => BitVec.ofNat 32 (x.st.num * 2 ^ 30 + x.expct * 2 ^ 16 + x.got.length)
  | none => 0

/-- A contribution is placed in ascending key order (R191). -/
def insertKey (e : W64 × Nat × W32) : List (W64 × Nat × W32) → List (W64 × Nat × W32)
  | [] => [e]
  | x :: xs => if e.1 < x.1 || (e.1 = x.1 && e.2.1 < x.2.1) then e :: x :: xs else x :: insertKey e xs

/-- The fold of complete(cell): each step one rounded FP32 addition (R191). -/
def foldCell : List (W64 × Nat × W32) → W32
  | [] => 0
  | x :: xs => xs.foldl (fun acc e => rneF32 (EV.add .rne (f32 acc) (f32 e.2.2))) x.2.2

/-! ## Reading and writing the bytes of a part -/

def Seg.region : Seg → Nat
  | .phys pa _ _ _ => Machine.region pa
  | .slot _ _ => 0
  | .none _ => 0

def Seg.isOrd (o : Ord) : Seg → Bool
  | .phys _ _ _ x => x = o
  | .slot _ _ => o = .rc
  | .none _ => o = .rc

/-- Two runs of bytes overlap. -/
def Seg.meets : Seg → Seg → Bool
  | .phys a n _ _, .phys b m _ _ => a < b + m && b < a + n
  | .slot a n, .slot b m => a < b + m && b < a + n
  | _, _ => false

/-- The bytes of a block's slots. -/
def State.slots (s : State) (blk : Nat) : Memory := ((Tbl.find s.blocks blk).map (·.slots)).getD []

def State.readSeg (s : State) (vd blk : Nat) : Seg → List Byte
  | .phys pa n key _ => s.readPhys vd key pa n
  | .slot off n => Memory.read (s.slots blk) off n
  | .none n => List.replicate n 0

def State.writeSeg (s : State) (vd blk : Nat) (agent : Option (Nat × Nat)) (seg : Seg) (bs : List Byte) : State :=
  match seg with
  | .phys pa _ key _ => s.writePhys vd agent key pa bs
  | .slot off _ => s.modBlock blk fun b => { b with slots := Memory.write b.slots off bs }
  | .none _ => s

/-- The reason of R177 for which the memory system fails an access to a segment, if it does. -/
def State.segFail (s : State) (vd : Nat) (seg : Seg) (write : Bool) (err : MemErr) : Option Nat :=
  match seg with
  | .phys pa n _ _ =>
    if Machine.region pa = 0 then
      let cover := fun (l : Nat) => write && pa ≤ l * 128 && l * 128 + 128 ≤ pa + n
      if err = .uncorr || (linesOf pa n).any fun l => s.latent.contains l && !cover l then some 1
      else if (linesOf pa n).any fun l => s.poison.contains l && !cover l then some 2
      else none
    else if Machine.region pa = 2 then
      match (s.vd vd).peerAddr pa with
      | some r => if err ≠ .ok || (write && !r.write) then some 4 else none
      | none => some 4
    else if err ≠ .ok then some 4 else none
  | .slot _ _ => none
  | .none _ => none

/-- The lines of a run that an uncorrectable error of an access has hit: those that held one, or else the first. -/
def State.hitLines (s : State) (write : Bool) (pa n : Nat) : List Nat :=
  let ls := linesOf pa n
  match ls.filter fun l => s.latent.contains l && !(write && pa ≤ l * 128 && l * 128 + 128 ≤ pa + n) with
  | [] => ls.take 1
  | hit => hit

/-- An uncorrectable error poisons the lines that it has hit (R177, R178). -/
def State.poisonSeg (s : State) (write : Bool) (seg : Seg) : State :=
  match seg with
  | .phys pa n _ _ =>
    if Machine.region pa = 0 then
      let hit := s.hitLines write pa n
      { s with poison := s.poison ++ hit.filter fun l => !s.poison.contains l, latent := s.latent.filter fun l => !hit.contains l }
    else s
  | .slot _ _ => s
  | .none _ => s

/-- An operation that acts once for the group (R182): its one outcome is that of every live lane. -/
def MemOp.whole : MemOp → Bool
  | .ldu .. => true
  | .ldb .. => true
  | .acell => true
  | .acellClose => true
  | .acread _ => true
  | .tdef .. => true
  | _ => false

/-- The path of a TDEF stands at it until its image has been read, so that its faults are precise (R164). -/
def MemOp.stays : MemOp → Bool
  | .tdef _ => true
  | _ => false

/-! ## Starting an access -/

/-- One thread's request: lane, effective address, data, second operand. -/
structure Req where
  lane : Nat
  ea : Va
  data : Nat
  aux : Nat
  deriving DecidableEq, Repr

/-- The segments of a part: a PST has two (R193). -/
def Part.segs (p : Part) : List Seg := p.seg :: p.twin.toList

/-- A part reaches an SO page (R205). -/
def Part.isSo (p : Part) : Bool := p.segs.any (Seg.isOrd .so)

/-- A part reaches UO pages alone: what it reaches at one instant is ordered as the more ordered of its pages is (R193, R205). -/
def Part.isUo (p : Part) : Bool := p.segs.all (Seg.isOrd .uo)

/-- The threads whose access a part is: those of every live lane where the operation acts once for the group. -/
def Access.threads (a : Access) (p : Part) : List W64 := if a.op.whole then a.who else [p.ltid]

/-- A part of an access of one of these threads of a launch is still to be performed, of those that `sel` picks. -/
def State.partOut (s : State) (launch : Nat) (ltids : List W64) (sel : Part → Bool) : Bool :=
  s.accesses.any fun a => a.launch = launch && a.parts.any fun p =>
    !p.done && sel p && (a.threads p).any ltids.contains

/-- The threads of a set of lanes have an SO access outstanding (R205). -/
def State.soOut (s : State) (launch : Nat) (ltids : List W64) : Bool := s.partOut launch ltids Part.isSo

/-- The checks of a request; a PST's two copies are both checked (R193). -/
def State.chkReq (s : State) (b : Block) (op : MemOp) (r : Req) : Chk × List TlbEnt :=
  let f := op.form
  match op with
  | .pst _ =>
    let x := s.chk b f r.ea.toNat (2 * r.lane)
    let y := s.chk b f r.aux (2 * r.lane + 1)
    (match x.1, y.1 with
      | .ok p, .ok q => .ok (p ++ q)
      | .ok _, k => k
      | k, _ => k, x.2 ++ y.2)
  | _ => s.chk b f r.ea.toNat (2 * r.lane)

/-- The parts of a request whose checks gave segments. -/
def reqParts (op : MemOp) (ltid : W64) (r : Req) (segs : List Seg) : List Part :=
  match op, segs with
  | .pst _, [p, q] =>
    [{ lane := r.lane, ltid := ltid, ea := r.ea, off := 0, seg := p, twin := some q, data := r.data, aux := r.aux,
       done := false, ok := true, got := 0 }]
  | _, segs => partsOf r.lane ltid r.ea r.data r.aux 0 segs

/-- The physical address of the first segment. -/
def segPa : List Seg → Nat
  | .phys pa _ _ _ :: _ => pa
  | _ => 0

/-- One FATOM.ord contribution arrives (R191): the count it makes, or its fault. -/
def State.contribute (s : State) (vd pa : Nat) (ltid : W64) (seq : Nat) (x : W32) : State × Except Nat Nat :=
  match s.cellAt vd pa with
  | none => (s, .error 0x07C)
  | some c =>
    if c.st ≠ .opened || c.expct ≤ c.got.length then (s, .error 0x07C)
    else if 4095 < seq || c.got.any fun e => e.1 = ltid && e.2.1 = seq then (s, .error 0x07E)
    else (s.setCell vd pa (some { c with got := insertKey (ltid, seq, x) c.got }), .ok (c.got.length + 1))

/-- ACELL's own checks, and the cell it takes (R190); `data` is the count, `aux` the release scope. -/
def State.openCell (s : State) (vd pa key count scope : Nat) : State × Option Nat :=
  let busy : Bool := match s.cellAt vd pa with
    | some c => c.st = .opening || c.st = .opened
    | none => false
  let full := (s.cellAt vd pa).isNone && 1024 ≤ (s.die (homeDie pa)).cells.length
  if count < 1 || 4096 < count then (s, some 0x07D)
  else if busy then (s, some 0x07B)
  else if full then (s, some 0x07A)
  else
    let c : AccCell := { vd := vd, pa := pa, key := key, st := .opening, expct := count, scope := scope, got := [] }
    (s.setCell vd pa (some c), none)

/-- The key slot of the first segment. -/
def segKey : List Seg → Nat
  | .phys _ _ key _ :: _ => key
  | _ => 0

/-- What the home answers when the requests of a cell instruction arrive, lane by lane (R190, R191): a request
becomes a fault, or carries its count. Other operations pass. -/
def State.admitAll (vd : Nat) (op : MemOp) (ltid : Nat → W64) : State → List (Req × Chk) → State × List (Req × Chk)
  | s, [] => (s, [])
  | s, (r, k) :: rest =>
    let x : State × (Req × Chk) := match op, k with
      | .ford _, .ok segs =>
        let y := s.contribute vd (segPa segs) (ltid r.lane) r.aux (BitVec.ofNat 32 r.data)
        match y.2 with
        | .ok n => (y.1, ({ r with aux := n }, k))
        | .error code => (y.1, (r, .bad code r.ea.toNat))
      | .acell, .ok segs =>
        let y := s.openCell vd (segPa segs) (segKey segs) r.data r.aux
        match y.2 with
        | none => (y.1, (r, k))
        | some code => (y.1, (r, .bad code r.ea.toNat))
      | .acellClose, .ok segs =>
        if (s.cellAt vd (segPa segs)).isSome then (s.setCell vd (segPa segs) none, (r, k))
        else (s, (r, .bad 0x07C r.ea.toNat))
      | _, k => (s, (r, k))
    let y := State.admitAll vd op ltid x.1 rest
    (y.1, x.2 :: y.2)

/-- The distinct pages of a list of outcomes, in order, with their codes. -/
def pagesOf (outs : List (Req × Chk)) : List (Nat × Nat) :=
  outs.foldl (fun acc o => match o.2 with
    | .page code page => if acc.any fun e => e.2 = page then acc else acc ++ [(code, page)]
    | _ => acc) []

/-- The vector registers among results to come that may grow (R124, R184). -/
def growRegs (g : Group) (gid : Nat) (regs : List RegId) : List Nat :=
  regs.filterMap fun r => match r with
    | .v n => if (g.vreg gid n).tag ≠ 2 || g.due.any fun d => d.write.reg = .v n then some n else none
    | _ => none

/-- The registers that an operation's result will write. -/
def MemOp.regs : MemOp → List RegId
  | .ld d n _ _ _ => (List.range ((n + 3) / 4)).map fun r => .v (d + r)
  | .ldu d n _ => (List.range ((n + 3) / 4)).map fun r => .s (d + r)
  | .ldb d m => [.base d m]
  | .st _ => []
  | .stcond _ p => [.p p]
  | .atom _ ty d => (List.range (IntTy.bytes ty / 4)).map fun r => .v (d + r)
  | .fatom _ ty d => (List.range ((ftyBytes ty + 3) / 4)).map fun r => .v (d + r)
  | .ford d => [.v d]
  | .acell => []
  | .acellClose => []
  | .acread d => [.s d]
  | .pst _ => []
  | .tdef _ => []

/-- The vector registers that an access of these lanes may grow (R124): a `.u` load of every lane does not (R184). -/
def Access.growOf (a : Access) (g : Group) (live : LaneMask) : List Nat :=
  match a.op with
  | .ld _ _ _ _ true => if live = g.full then [] else growRegs g a.gid a.op.regs
  | _ => growRegs g a.gid a.op.regs

/-- The registers of an access are pending. -/
def Access.awaits (a : Access) (live : LaneMask) (g : Group) : Group :=
  { g.flagUp a.flag with vpend := a.op.regs ++ g.vpend, grow := a.growOf g live ++ g.grow }

/-- An access starts: it is listed with its parts, its flag counts one more operation, its registers are
pending. -/
def State.addAccess (s : State) (a : Access) (parts : List Part) (live : LaneMask) : State :=
  let who := ((Tbl.find s.groups a.gid).map fun g => (lanesOf live).map g.lt).getD []
  let a' := { a with id := s.nextId, parts := parts, live := live, who := who }
  let s1 := { s with accesses := s.accesses ++ [a'], nextId := s.nextId + 1 }
  s1.modGroup a.gid fun g => a.awaits live g

/-- Where the lanes of an access stand: b14, the PC they go on at, whether they are a handler's. -/
structure Place where
  b14 : Va
  next : Va
  handler : Bool
  deriving DecidableEq, Repr

/-- Lanes wait for a page with their access as captured (R176). -/
def State.holdPage (s : State) (a : Access) (page code : Nat) (live : LaneMask) (reqs : List Req)
    (at' : Place) (ltid : Nat → W64) : State :=
  let parts := reqs.map fun r =>
    ({ lane := r.lane, ltid := ltid r.lane, ea := r.ea, off := 0, seg := .none a.op.form.n, twin := none,
       data := r.data, aux := r.aux, done := false, ok := true, got := 0 } : Part)
  let a' := { a with live := live, parts := parts }
  let w := PageWait.lanes page a' (BitVec.ofNat 9 code) at'.b14 at'.next at'.handler false
  let s1 := { s with waits := s.waits ++ [w] }.askPage a.vd page (s.coreOf a.gid)
  s1.modGroup a.gid fun g =>
    { a.awaits live g with paths := dropLanes g.paths live, cur := g.curWithout live }

/-- The outcome of an access's checks for each request: the state once the entries walked are cached and the
homes have answered, and the outcomes. -/
def State.resolve (s : State) (b : Block) (op : MemOp) (ltid : Nat → W64) (reqs : List Req) :
    State × List (Req × Chk) :=
  let outs := reqs.map fun r => (r, s.chkReq b op r)
  State.admitAll b.vd op ltid (s.cacheEntries b.vd (outs.flatMap fun o => o.2.2)) (outs.map fun o => (o.1, o.2.1))

/-- The lanes whose outcome `sel` picks. -/
def lanesWhere (whole : Bool) (live : LaneMask) (res : List (Req × Chk)) (sel : Chk → Bool) : LaneMask :=
  res.foldl (fun m o => if sel o.2 then m ||| (if whole then live else bit o.1.lane) else m) 0

def Chk.isOk : Chk → Bool
  | .ok _ => true
  | _ => false

def Chk.isPage : Chk → Bool
  | .page _ _ => true
  | _ => false

def Chk.isBad : Chk → Bool
  | .bad _ _ => true
  | _ => false

/-- The code and the address of a lane's failed check. -/
def badOf (whole : Bool) (res : List (Req × Chk)) (l : Nat) : Nat × Nat :=
  match res.find? fun o => whole || o.1.lane = l with
  | some (_, .bad k x) => (k, x)
  | _ => (0, 0)

/-- The lanes whose checks passed have their access started, and those without a translation wait for their
pages. -/
def State.place (s : State) (a : Access) (live : LaneMask) (res : List (Req × Chk)) (at' : Place)
    (ltid : Nat → W64) : State :=
  let w := a.op.whole
  let okM := lanesWhere w live res Chk.isOk
  let parts := res.flatMap fun o => match o.2 with
    | .ok segs => reqParts a.op (ltid o.1.lane) o.1 segs
    | _ => []
  let s1 := if okM = 0 then s else s.addAccess a parts okM
  (pagesOf res).foldl (fun (t : State) e =>
    let mine := res.filter fun o => match o.2 with
      | .page _ page => page = e.2
      | _ => false
    t.holdPage a e.2 e.1 (lanesWhere w live mine Chk.isPage) (mine.map (·.1)) at' ltid) s1

/-- The slots that window accesses reach. -/
def windowSlots (f : AccForm) (reqs : List Req) : List Nat :=
  reqs.flatMap fun r =>
    if inWindow r.ea.toNat then [r.ea.toNat / 1024 % 512, (r.ea.toNat + f.n - 1) / 1024 % 512] else []

/-- The unbound lendable slots that an owner's window accesses reach are taken back (R231). -/
def State.takeWindow (s : State) (blk : Nat) (b : Block) (f : AccForm) (reqs : List Req) : State :=
  let ks := (windowSlots f reqs).filter fun k => !b.harvest && (b.ent k).lendable && (b.ent k).lentTo.isNone && k < b.nsp
  if ks.isEmpty then s else s.modBlock blk fun b => ks.foldl Block.takeBack b

/-- An access of the issuing path (R176): every live lane's checks are made; lanes that fail take their precise
faults, lanes without a translation wait for their pages, the others' access starts and the path goes on, or stands where it is until
its image has been read. -/
def State.startAccess (s : State) (c : Ctx) (op : MemOp) (acq rel : Bool) (flag : Option Nat) (reqs : List Req) :
    Except Stall State :=
  let r := s.resolve c.b op c.g.lt reqs
  let okM := lanesWhere op.whole c.live r.2 Chk.isOk
  let badM := lanesWhere op.whole c.live r.2 Chk.isBad
  let pageM := lanesWhere op.whole c.live r.2 Chk.isPage
  let so := r.2.any fun o => match o.2 with
    | .ok segs => segs.any (Seg.isOrd .so)
    | _ => false
  let a : Access := { id := 0, gid := c.gid, launch := c.b.launch, blk := c.g.blk, vd := c.b.vd, pc := c.p.pc,
                      op := op, acq := acq, rel := rel, live := 0, who := [], flag := flag, parts := [], replay := false }
  let room := s.room c ((a.growOf c.g okM).foldl (fun x n => x + (128 - c.g.holds c.gid n)) 0)
  if r.2.any fun o => o.2 = .lent then .error (.revocation (c.b.backed (windowSlots op.form reqs)))
  else if room.isSome then .error (room.getD .capacity)
  else if so && s.soOut c.b.launch (reqs.map fun q => c.g.lt q.lane) then .error .memoryQueue
  else
    let passed := (r.2.filter fun o => o.2.isOk).map (·.1)
    let s1 := (r.1.takeWindow c.g.blk c.b op.form passed).modGroup c.gid fun g => g.spoil (c.g.twice op.regs)
    let s2 := s1.place a c.live r.2 ⟨c.p.b14, nextPc c.p.pc, c.p.handler⟩ c.g.lt
    let s3 := s2.takeFault c.gid c.p.handler badM fun l =>
      let k := badOf op.whole r.2 l
      c.frec s (BitVec.ofNat 9 k.1) 0 0 0 (BitVec.ofNat 80 k.2)
    .ok (if op.stays && okM ≠ 0 then s3.modGroup c.gid fun g => g.setSt c.lane .read else s3.advance c (badM ||| pageM))

/-- The requests of an access as captured at its issue: one for each lane. -/
def Access.reqs (a : Access) : List Req :=
  (a.parts.filter fun p => p.off = 0).map fun p => { lane := p.lane, ea := p.ea, data := p.data, aux := p.aux }

/-- An access is taken back: its flag counts one operation less, its registers are no longer pending. -/
def State.takeBack (s : State) (a : Access) : State :=
  s.modGroup a.gid fun g =>
    { g.flagDown a.flag with
      vpend := a.op.regs.foldl (fun v r => v.erase r) g.vpend
      grow := a.op.regs.foldl (fun v r => match r with
        | .v n => v.erase n
        | _ => v) g.grow }

/-- A captured access is made again from its captured addresses and data (R176, R181, R197): lanes that hold no
path stand at `at'` again once their checks have passed, those of a TDEF at the TDEF. -/
def State.replay (s : State) (a : Access) (at' : Place) (parked : Bool) : State :=
  match Tbl.find s.groups a.gid, Tbl.find s.blocks a.blk with
  | some g, some b =>
    let r := (s.takeBack a).resolve b a.op g.lt a.reqs
    let okM := lanesWhere a.op.whole a.live r.2 Chk.isOk
    let badM := lanesWhere a.op.whole a.live r.2 Chk.isBad
    let s1 := r.1.place { a with replay := false } a.live r.2 at' g.lt
    let s2 := if parked && okM ≠ 0 then s1.modGroup a.gid fun g =>
        { g with paths := g.paths ++ [
            { Path.fresh (if a.op.stays then a.pc else at'.next) okM at'.b14 with
              handler := at'.handler, st := if a.op.stays then .read else .ready, stop := g.held }] } else s1
    s2.takeFault a.gid at'.handler badM fun l =>
      let k := badOf a.op.whole r.2 l
      { FaultRec.at' (BitVec.ofNat 9 k.1) a.pc (s.wordAt g.core a.vd a.pc) at'.b14 with addr := BitVec.ofNat 80 k.2 }
  | _, _ => s

/-! ## Performing a part -/

/-- Cell operations reach their target word only when a sum is written. -/
def MemOp.isCell : MemOp → Bool
  | .ford _ => true
  | .acell => true
  | .acellClose => true
  | .acread _ => true
  | _ => false

/-- A part of an earlier access of the same thread must be performed first: overlapping bytes (R203), two SO
accesses (R205), an earlier acquire, or a release that follows (R206), which order no UO access unless an ordered cell makes
them (R207). -/
def mustFollow (a : Access) (p : Part) (q : Access) (r : Part) : Bool :=
  let uo := p.isUo || r.isUo
  !r.done && q.launch = a.launch && (q.threads r).any (a.threads p).contains &&
    (p.segs.any (fun x => r.segs.any fun y => x.meets y) || (p.isSo && r.isSo) ||
      (q.acq && (!uo || q.op.isCell)) || (a.rel && (!uo || a.op.isCell)))

/-- Lanes act in ascending order: always in STCOND, FATOM.ord and PST, on equal bytes in ST and the atomics. -/
def laneFirst (a : Access) (p r : Part) : Bool :=
  !r.done && r.lane < p.lane && (match a.op with
    | .stcond _ _ => true
    | .ford _ => true
    | .pst _ => true
    | .st _ => p.seg.meets r.seg
    | .atom .. => p.seg.meets r.seg
    | .fatom .. => p.seg.meets r.seg
    | _ => false)

/-- An operation whose data return to registers and that changes nothing at memory but a reservation (R197). -/
def MemOp.isLoad : MemOp → Bool
  | .ld .. => true
  | .ldu .. => true
  | .ldb .. => true
  | .acread _ => true
  | .tdef _ => true
  | _ => false

/-- What an engine asks of an address: no alignment, no scratchpad window, every region (R176). -/
def engForm (n : Nat) (k : AKind) : AccForm := ⟨n, 0, k, .engine, false, [0, 1, 2]⟩

/-- A part of a read of a block meets bytes of a region that a forward TEND of the block has ended and that have not reached their
segment: it is ordered after them (R307). -/
def State.awaitsTape (s : State) (a : Access) (p : Part) : Bool :=
  a.op.isLoad && s.cores.any fun e => e.2.tape.any fun (l : TapeLine) => l.blk = a.blk && l.ended &&
    (match Tbl.find s.blocks l.blk with
      | some b => match (s.chk b (engForm l.bytes.length .wr) (l.seg.toNat + l.off) 0).1 with
        | .ok segs => segs.any fun g => p.segs.any fun x => x.meets g
        | _ => false
      | none => false)

/-- The part `i` of access `k` may be performed now. -/
def State.mayPerform (s : State) (k i : Nat) : Bool :=
  match s.accesses[k]? with
  | none => false
  | some a =>
    match a.parts[i]? with
    | none => false
    | some p =>
      !p.done && !a.replay && !((s.accesses.take k).any fun q => q.parts.any fun r => mustFollow a p q r) &&
        !(a.parts.any fun r => laneFirst a p r) && !s.awaitsTape a p

/-- The update of an ATOM in a width of w bits (R188): old value, operand, and CAS's second operand. -/
def atomNew (op : AtomOp) (w : Nat) (sgn : Bool) (old c swap : Nat) : Nat :=
  let x := BitVec.ofNat w old
  let y := BitVec.ofNat w c
  let le := fun a b : BitVec w => asInt sgn a ≤ asInt sgn b
  (match op with
    | .add => x + y
    | .min => opMin sgn x y
    | .max => opMax sgn x y
    | .and => x &&& y
    | .or => x ||| y
    | .xor => x ^^^ y
    | .exch => y
    | .cas => if x = y then BitVec.ofNat w swap else x
    | .incw => if le y x then 0 else x + 1
    | .decw => if x = 0 || !le x y then y else x - 1).toNat

/-- The update of a FATOM (R189). -/
def fatomNew (op : FatomOp) (ty : FTy) (old c : Nat) : Nat :=
  let f := FTy.ff ty
  match op with
  | .add => fAdd .rne f old (c % 2 ^ f.width)
  | .min => fminmax f false old (c % 2 ^ f.width)
  | .max => fminmax f true old (c % 2 ^ f.width)

/-- The group of a block that holds a thread. -/
def State.groupOf (s : State) (blk : Nat) (ltid : W64) : Option Nat :=
  (s.groups.find? fun e => e.2.blk = blk && (lanesOf e.2.occ).any fun l => e.2.lt l = ltid).map (·.1)

/-- A filed thread of a block takes a late error. -/
def Bin.err (blk : Nat) (thr : W64) (e : LateFault) (b : Bin) : Bin :=
  if b.blk = blk then
    { b with threads := b.threads.map fun (t : Filed) => if t.ltid = thr then { t with errs := t.errs ++ [e] } else t }
  else b

/-- The late error of a thread: code and address, delivered at its error point (R178), wherever the thread
is by then: in a group or in a bin. -/
def State.lateErrOf (s : State) (a : Access) (ea : Va) (code : Nat) (thr : W64) : State :=
  let e : LateFault :=
    { thr := some thr, flag := a.flag, tape := false,
      fault := { FaultRec.at' (BitVec.ofNat 9 code) a.pc 0 0 with addr := ea } }
  match s.groupOf a.blk thr with
  | some gid =>
    s.modGroup gid fun g => { g with errs := g.errs ++ [if gid = a.gid then e else { e with flag := none }] }
  | none =>
    let file := Bin.err a.blk thr { e with flag := none }
    { s with cores := s.cores.map fun (c : Nat × Core) => (c.1, { c.2 with bins := c.2.bins.map file })
             blocks := s.blocks.map fun (b : Nat × Block) => (b.1, { b.2 with bins := b.2.bins.map file }) }

/-- The late error of a part, in every lane that it affects. -/
def State.lateErr (s : State) (a : Access) (p : Part) (code : Nat) : State :=
  (a.threads p).foldl (fun (t : State) thr => t.lateErrOf a p.ea code thr) s

/-- The physical address of a part. -/
def Part.pa (p : Part) : Nat :=
  match p.seg with
  | .phys pa _ _ _ => pa
  | .slot off _ => off
  | .none _ => 0

/-- The thread of a part holds a reservation on its granule (R186, R187). -/
def State.holds (s : State) (a : Access) (p : Part) : Bool :=
  match Tbl.find s.groups a.gid with
  | some g => Tbl.find g.resv p.lane = some (p.pa / 128) && g.lt p.lane = p.ltid
  | none => false

/-- The final sum is written when every contribution has arrived and no other is under way (R191). -/
def State.completeCell (s : State) (a : Access) (p : Part) (err : MemErr) : State :=
  match s.cellAt a.vd p.pa with
  | none => s
  | some c =>
    let waiting := s.accesses.any fun q => match q.op with
      | .ford _ => q.vd = a.vd && q.parts.any fun r => !r.done && r.pa = p.pa && !(q.id = a.id && r.lane = p.lane)
      | _ => false
    if c.st ≠ .opened || c.got.length ≠ c.expct || waiting then s
    else
      match s.segFail a.vd p.seg true err with
      | some _ => s.setCell a.vd p.pa (some { c with st := .failed })
      | none =>
        ((s.writeSeg a.vd a.blk none p.seg (leBytes 4 (foldCell c.got).toNat)).setCell a.vd p.pa
          (some { c with st := .done })).countDie (homeDie p.pa) 0x86 (some a.vd) 1

/-- A part reads: the part with what it read. -/
def State.doRead (s : State) (a : Access) (p : Part) : Part :=
  { p with done := true, got := leNat (s.readSeg a.vd a.blk p.seg) * 256 ^ p.off }

/-- A read-modify-write part. -/
def State.doUpdate (s : State) (a : Access) (p : Part) (f : Nat → Nat) : State × Part :=
  let old := leNat (s.readSeg a.vd a.blk p.seg)
  (s.writeSeg a.vd a.blk (some (a.gid, p.lane)) p.seg (leBytes p.seg.len (f old)), { p with done := true, got := old })

/-- What the part does at memory: the state and the part afterwards. -/
def State.act (s : State) (a : Access) (p : Part) (err : MemErr) : State × Part :=
  let who := some (a.gid, p.lane)
  match a.op with
  | .ld _ _ _ resv _ =>
    (if resv then s.modGroup a.gid fun g => { g with resv := Tbl.put g.resv p.lane (p.pa / 128) } else s, s.doRead a p)
  | .ldu .. => (s, s.doRead a p)
  | .ldb .. => (s, s.doRead a p)
  | .tdef _ => (s, s.doRead a p)
  | .st _ => (s.writeSeg a.vd a.blk who p.seg (leBytes p.seg.len p.data), { p with done := true })
  | .stcond _ _ =>
    let ok := s.holds a p
    let s1 := if ok then s.writeSeg a.vd a.blk who p.seg (leBytes p.seg.len p.data) else s
    (s1.modGroup a.gid fun g => { g with resv := Tbl.drop g.resv p.lane },
      { p with done := true, got := if ok then 1 else 0 })
  | .atom op ty _ => s.doUpdate a p fun old => atomNew op (8 * IntTy.bytes ty) ty.isSigned old p.data p.aux
  | .fatom op ty _ => s.doUpdate a p fun old => fatomNew op ty old p.data
  | .ford _ => (s.completeCell a p err, { p with done := true, got := p.aux })
  | .acell =>
    (match s.cellAt a.vd p.pa with
      | some c => if c.st = .opening then s.setCell a.vd p.pa (some { c with st := .opened }) else s
      | none => s, { p with done := true })
  | .acellClose => (s, { p with done := true })
  | .acread _ => (s, { p with done := true, got := if p.off = 0 then (cellWord (s.cellAt a.vd p.pa)).toNat else 0 })
  | .pst _ =>
    let s1 := s.writeSeg a.vd a.blk who p.seg (leBytes p.seg.len p.data)
    (match p.twin with
      | some t => s1.writeSeg a.vd a.blk who t (leBytes t.len p.data)
      | none => s1, { p with done := true })

/-- The operation writes memory at its part. -/
def MemOp.writes : MemOp → Bool
  | .st _ => true
  | .stcond _ _ => true
  | .atom .. => true
  | .fatom .. => true
  | .pst _ => true
  | _ => false

/-- A part is performed: it acts, or it fails with a late error and does nothing (R178, R193); the failed read of a TDEF, whose faults
are precise, keeps its code (R164). -/
def State.performPart (s : State) (a : Access) (p : Part) (err : MemErr) : State × Part :=
  let w := a.op.writes
  let fail := if a.op.isCell then none
    else p.segs.findSome? fun g => (s.segFail a.vd g w err).map fun r => (r, g)
  match fail with
  | none => s.act a p err
  | some (r, g) =>
    let s1 := if r = 1 then s.poisonSeg w g else s
    let code := match a.op with
      | .pst _ => 0x078
      | op => 0x060 + 4 * r + op.form.mk'.num
    let s2 := if a.op.stays then s1 else s1.lateErr a p code
    let s3 := match a.op with
      | .stcond _ _ => s2.modGroup a.gid fun g => { g with resv := Tbl.drop g.resv p.lane }
      | _ => s2
    (s3, { p with done := true, ok := false, got := code })

/-! ## Finishing an access -/

/-- The value that a lane's parts read; undefined where one of them failed. -/
def Access.laneVal (a : Access) (seed l : Nat) : Nat :=
  let ps := a.parts.filter fun p => p.lane = l
  if ps.all (·.ok) then ps.foldl (fun x p => x + p.got) 0
  else (Config.freeWord seed 50 l).toNat + (Config.freeWord seed 51 l).toNat * 2 ^ 32 +
    (Config.freeWord seed 52 l).toNat * 2 ^ 64 + (Config.freeWord seed 53 l).toNat * 2 ^ 96

/-- A loaded value of n bytes as a 32-bit register holds it (R183). -/
def extend (n : Nat) (sx : Bool) (x : Nat) : Nat :=
  if sx then (if n = 1 then (BitVec.ofNat 8 x).signExtend 32 else (BitVec.ofNat 16 x).signExtend 32).toNat
  else if n ≤ 2 then x % 256 ^ n else x

/-- The register writes of a per-lane result of `regs` registers from `d` on. -/
def laneWrites (d regs : Nat) (live : LaneMask) (u full : Bool) (f : Nat → Nat) : List RegWrite :=
  (List.range regs).map fun r =>
    let word := fun l => BitVec.ofNat 32 (f l / 2 ^ (32 * r))
    .v (d + r) live (if u then .u (word (lowLane live)) else .g (lanes word)) full

/-- The registers that an access writes when it finishes. -/
def Access.writes (a : Access) (seed : Nat) (full : Bool) : List RegWrite :=
  let val := a.laneVal seed
  let low := (a.parts.headD ⟨0, 0, 0, 0, .none 0, none, 0, 0, true, true, 0⟩).lane
  match a.op with
  | .ld d n sx _ u => laneWrites d ((n + 3) / 4) a.live u full fun l => extend n sx (val l)
  | .ldu d n sx =>
    (List.range ((n + 3) / 4)).map fun r => .s (d + r) (BitVec.ofNat 32 (extend n sx (val low) / 2 ^ (32 * r)))
  | .ldb d m => [.b d (BitVec.ofNat 80 (val low)) m]
  | .stcond _ p => [.p p a.live (maskOf fun l => val l % 2 = 1)]
  | .atom _ ty d => laneWrites d (IntTy.bytes ty / 4) a.live false full val
  | .fatom _ ty d => laneWrites d ((ftyBytes ty + 3) / 4) a.live false full val
  | .ford d => laneWrites d 1 a.live false full val
  | .acread d => [.s d (BitVec.ofNat 32 (val low))]
  | .st _ => []
  | .acell => []
  | .acellClose => []
  | .pst _ => []
  | .tdef _ => []

/-- The invalidations that waited for an access go on without it; those that wait for no other are complete. -/
def State.dropInval (s : State) (id : Nat) : State :=
  let is := s.invals.map fun i => { i with ids := i.ids.erase id }
  let s1 := { s with invals := is.filter fun i => !i.ids.isEmpty }
  (is.filter fun i => i.ids.isEmpty).foldl (fun (t : State) i =>
    match i.gid with
    | some gid => t.modGroup gid fun g => g.flagDown i.flag
    | none => t) s1

/-! ## What the caches do (R390) -/

/-- What the counters of the caches see of a line of region 0: nothing determines whether a cache holds it. `core`: the core whose
read-mostly cache a load asks first. -/
def State.countLine (s : State) (seed vd : Nat) (core : Option Nat) (line : Nat) : State :=
  let free := Config.freeNat seed (8000 + line)
  let die := homeDie (line * 128)
  let home := fun (t : State) =>
    let t1 := if free / 2 % 2 = 1 then t.countDie die 0x80 (some vd) 1
      else (t.countDie die 0x81 (some vd) 1).countDie die 0x82 (some vd) (free / 4 % 2)
    t1.countDie die 0x83 (some vd) (free / 8 % 2)
  match core with
  | some c => if free % 2 = 1 then s.countCore c 0x30 (some vd) 1 else home (s.countCore c 0x31 (some vd) 1)
  | none => home s

/-- The same of a segment. -/
def State.countSeg (s : State) (seed vd : Nat) (core : Option Nat) : Seg → State
  | .phys pa n _ _ => if region pa = 0 then (linesOf pa n).foldl (fun (t : State) l => t.countLine seed vd core l) s else s
  | .slot _ _ => s
  | .none _ => s

/-- The same of a part of an access. -/
def State.countPart (s : State) (a : Access) (p : Part) : State :=
  if s.cores.all (fun e => e.2.cnt.isEmpty) && s.dies.all (fun e => e.2.cnt.isEmpty) then s
  else p.segs.foldl (fun (t : State) g => t.countSeg s.free a.vd (if a.op.isLoad then some (s.coreOf a.gid) else none) g) s

/-- An access is complete: its registers are written, its flag counts one operation less (R44). -/
def State.finishAccess (s : State) (k : Nat) (a : Access) : State :=
  let s1 := { s with accesses := s.accesses.eraseIdx k }
  let s2 := match Tbl.find s1.groups a.gid with
    | none => s1
    | some g => s1.wrote a.gid g
        (((a.writes s.free (a.live = g.full)).foldl (fun (g : Group) w => g.writeLate a.gid s.free w) g).flagDown a.flag)
  s2.dropInval a.id

/-- An access with no part left finishes; a TDEF stands until the turn in which its image is applied (R162). -/
def Access.finished (a : Access) : Bool := a.parts.all (·.done) && !a.op.stays

/-- One part of an access is performed, and the access finishes with its last part. -/
def State.performAt (s : State) (k i : Nat) (err : MemErr) : State :=
  match s.accesses[k]? with
  | none => s
  | some a =>
    match a.parts[i]? with
    | none => s
    | some p =>
      let r := s.performPart a p err
      let a' := { a with parts := a.parts.set i r.2 }
      let s1 := { r.1.countPart a p with accesses := r.1.accesses.set k a', free := s.free + 1 }
      if a'.finished then s1.finishAccess k a' else s1

/-- A part that lies in region 2 is a peer's to answer. -/
def Part.isPeer (p : Part) : Bool := p.seg.region = 2

/-- MEMORY_ACCESS_COMPLETE: a part of an access to this package or its host is performed. -/
def execMemoryAccessComplete (k part : Nat) (err : MemErr) (s : State) : Out :=
  .next (match (s.accesses[k]?).bind fun a => a.parts[part]? with
    | some p => if s.mayPerform k part && !p.isPeer then s.performAt k part err else s
    | none => s)

/-- PEER_ACCESS: the peer package performs a part, or does not answer (R331). -/
def execPeerAccess (k part : Nat) (answered : Bool) (s : State) : Out :=
  .next (match (s.accesses[k]?).bind fun a => a.parts[part]? with
    | some p =>
      if s.mayPerform k part && p.isPeer then s.performAt k part (if answered then .ok else .noResp) else s
    | none => s)

end Sys2Proof.Machine
end

