-- ==== Sys2Proof/Machine/Product.lean ====
section
/-! DEFINITION. The arithmetic of matrix products: depth 0 (R157), the checksums (R264), the bilinear tables (R257 to
R260) and the numerical contract of bilinear algorithms (R283 to R289). -/

namespace Sys2Proof.Machine

/-! ## Exact dyadic values -/

/-- NaN, an infinity, or ±m·2^e. -/
inductive DV where
  | nan
  | inf (neg : Bool)
  | fin (neg : Bool) (m : Nat) (e : Int)
  deriving DecidableEq, Repr

/-- The value of a number whose denominator is a power of two. -/
def DV.of : EV → DV
  | .nan => .nan
  | .inf b => .inf b
  | .fin b n d => .fin b n (-(Nat.log2 d : Int))

def DV.toEV : DV → EV
  | .nan => .nan
  | .inf b => .inf b
  | .fin b m e => let q := pow2 e; .fin b (m * q.1) q.2

def DV.zero : DV := .fin false 0 0

def DV.finite : DV → Bool
  | .fin .. => true
  | _ => false

/-- The exact product (R156): 0 × ∞ is a NaN. -/
def DV.mul : DV → DV → DV
  | .nan, _ => .nan
  | _, .nan => .nan
  | .inf a, .inf b => .inf (a ^^ b)
  | .inf a, .fin b m _ => if m = 0 then .nan else .inf (a ^^ b)
  | .fin a m _, .inf b => if m = 0 then .nan else .inf (a ^^ b)
  | .fin a m e, .fin b n f => .fin (a ^^ b) (m * n) (e + f)

/-- The exact sum of two values (R283): a zero is −0 only when both are. -/
def DV.add : DV → DV → DV
  | .nan, _ => .nan
  | _, .nan => .nan
  | .inf a, .inf b => if a = b then .inf a else .nan
  | .inf a, .fin .. => .inf a
  | .fin .., .inf b => .inf b
  | .fin a m e, .fin b n f =>
    let g := min e f
    let x := m * 2 ^ (e - g).toNat
    let y := n * 2 ^ (f - g).toNat
    if a = b then .fin a (x + y) g
    else if x = y then .fin false 0 g
    else if y < x then .fin a (x - y) g
    else .fin b (y - x) g

/-- The exact sum; the empty sum is +0. -/
def DV.sum : List DV → DV
  | [] => .zero
  | x :: xs => xs.foldl DV.add x

/-- floor(log2 |v|) of a finite non-zero value. -/
def DV.log2 : DV → Int
  | .fin _ m e => (Nat.log2 m : Int) + e
  | _ => 0

def DV.isZero : DV → Bool
  | .fin _ m _ => m = 0
  | _ => false

/-- round_rne(v, f): the bits. -/
def DV.bits (f : FF) (v : DV) : Nat := roundFmt f .rne v.toEV

/-- The value rounded to a format. -/
def DV.rnd (f : FF) (v : DV) : DV := .of (f.decode (v.bits f))

/-- Equal as numbers. -/
def DV.same (x y : DV) : Bool := EV.eq x.toEV y.toEV

/-! ## Operand values -/

/-- The value of an element's bits in a storage format; a CB4 code goes through the codebook (R155). -/
def Fmt.val (f : Fmt) (cb : List Byte) (x : Nat) : DV :=
  match Fmt.ff f with
  | some g => .of (g.decode x)
  | none =>
    match f with
    | .cb4 => .of (ffBF16.decode (cbValue cb x))
    | .int8 => .of (EV.ofInt (BitVec.ofNat 8 x).toInt)
    | .int32 => .of (EV.ofInt (BitVec.ofNat 32 x).toInt)
    | .int64 => .of (EV.ofInt (BitVec.ofNat 64 x).toInt)
    | _ => .of (EV.ofInt x)

/-- Element `k` of a run of bytes in a format: its bits. -/
def Fmt.elem (f : Fmt) (bs : Array Byte) (k : Nat) : Nat :=
  let b := fun i => (bs.getD i 0).toNat
  match Fmt.halfBytes f with
  | 1 => b (k / 2) / (if k % 2 = 0 then 1 else 16) % 16
  | 2 => b k
  | 4 => b (2 * k) + 256 * b (2 * k + 1)
  | 8 => (List.range 4).foldr (fun i x => b (4 * k + i) + 256 * x) 0
  | _ => (List.range 8).foldr (fun i x => b (8 * k + i) + 256 * x) 0

/-- K per tile (R249). -/
def Fmt.kb (f : Fmt) : Nat := 128 / Fmt.halfBytes f

/-- The formats of R249. -/
def tileFmts : List Fmt := [.fp64, .fp32, .bf16, .fp16, .e4m3, .e5m2, .int8, .uint8, .cb4]

def isIntFmt (f : Fmt) : Bool := f = .int8 || f = .uint8
def isFp8 (f : Fmt) : Bool := f = .e4m3 || f = .e5m2

/-- The format pairs of R251. -/
def pairOk (fa fb : Fmt) : Bool :=
  tileFmts.contains fa && (fa = fb || (isFp8 fa && isFp8 fb) || (isIntFmt fa && isIntFmt fb))

/-- wf of R283. -/
def Fmt.wf (f : Fmt) : FF := if f = .fp64 then ffF64 else ffF32

/-- opf of R283. -/
def Fmt.opf (f : Fmt) : FF := if f = .cb4 then ffBF16 else (Fmt.ff f).getD ffF32

/-- The chunk of R157. -/
def Fmt.chunk (f : Fmt) : Nat := if f = .fp32 then 8 else Fmt.kb f

/-- A brick of 16 rows (of A, or of B by column) of kb values: element (r, k) at r·kb + k. -/
abbrev Brick := Array DV

def Brick.at' (b : Brick) (kb r k : Nat) : DV := b.getD (r * kb + k) .zero

/-- The brick of a tile's bytes (R249). -/
def tileBrick (f : Fmt) (cb : List Byte) (bs : List Byte) : Brick :=
  let rows := bs.toArray
  ((List.range 16).flatMap fun r => (List.range (Fmt.kb f)).map fun k =>
    Fmt.val f cb (Fmt.elem f rows (r * Fmt.kb f + k))).toArray

/-! ## Depth 0 (R157) -/

/-- The exact sum of products over a range of K. -/
def dot (a b : Nat → DV) (lo n : Nat) : DV := DV.sum ((List.range n).map fun i => (a (lo + i)).mul (b (lo + i)))

/-- An exact integer, mod 2^32. -/
def DV.word : DV → W32
  | .fin neg m e =>
    let x := m * 2 ^ e.toNat / 2 ^ (-e).toNat
    BitVec.ofInt 32 (if neg then -(x : Int) else x)
  | _ => 0

/-- mac(acc, a, b, K, fmt) of R157 on the accumulator's bits. -/
def mac (f : Fmt) (acc : Nat) (a b : Nat → DV) (n : Nat) : Nat :=
  if f = .fp64 then
    (List.range n).foldl (fun x k => ((a k).mul (b k) |>.add (.of (ffF64.decode x))).bits ffF64) acc
  else if isIntFmt f then (BitVec.ofNat 32 acc + (dot a b 0 n).word).toNat
  else
    let c := Fmt.chunk f
    (List.range ((n + c - 1) / c)).foldl (fun x i =>
      let t := (dot a b (i * c) (min c (n - i * c))).rnd ffF32
      ((DV.of (ffF32.decode x)).add t).bits ffF32) acc

/-! ## Bilinear tables (R257 to R260) -/

/-- The header of a table image. -/
structure Table where
  corr : Bool
  rank : Nat
  bm : Nat
  bk : Nat
  bn : Nat
  bytes : Array Byte
  deriving DecidableEq, Repr

def Table.of (img : List Byte) : Table :=
  let a := img.toArray
  let b := fun i => (a.getD i 0).toNat
  { corr := b 0 = 1, rank := b 1, bm := b 2, bk := b 3, bn := b 4, bytes := a }

/-- The code of column p in row r of U (0), V (1) or W (2). -/
def Table.code (t : Table) (mat r p : Nat) : Nat :=
  (t.bytes.getD (16 + 512 * mat + 32 * r + p / 2) 0).toNat / (if p % 2 = 0 then 1 else 16) % 16

/-- Eight times the coefficient of a code (R258). -/
def coef8 (c : Nat) : Int := if c = 0 then 0 else if c < 8 then (2 ^ (c - 1) : Nat) else -((2 ^ (c - 9) : Nat) : Int)

/-- The used rows of U, V and W. -/
def Table.rows (t : Table) (mat : Nat) : Nat :=
  if t.corr then (if mat = 0 then t.bm + t.bk - 1 else if mat = 1 then t.bk else t.bm)
  else if mat = 0 then t.bm * t.bk else if mat = 1 then t.bk * t.bn else t.bm * t.bn

/-- A byte offset of check 0 that fails, if one does. -/
def badHeader (img : Array Byte) : Option Nat :=
  let b := fun i => (img.getD i 0).toNat
  let corr := b 0 = 1
  let top := if corr then 8 else 4
  if 1 < b 0 then some 0
  else if b 1 < 1 || 64 < b 1 then some 1
  else if b 2 < 1 || top < b 2 then some 2
  else if b 3 < 1 || top < b 3 || (corr && 8 < b 2 + b 3 - 1) then some 3
  else if (if corr then b 4 ≠ 0 else b 4 < 1 || 4 < b 4) then some 4
  else ([5, 6, 7, 12, 13, 14, 15] : List Nat).find? fun i => b i ≠ 0

/-- The three-coefficient sum of row choices, scaled by 2^9. -/
def Table.triple (t : Table) (u v w : Nat) : Int :=
  (List.range t.rank).foldl (fun x p => x + coef8 (t.code 0 u p) * coef8 (t.code 1 v p) * coef8 (t.code 2 w p)) 0

/-- The equation that fails first (R259). -/
def Table.badEquation (t : Table) : Option Nat :=
  let nu := t.rows 0
  let nv := t.rows 1
  let nw := t.rows 2
  (List.range (nu * nv * nw)).find? fun e =>
    let w := e % nw
    let v := e / nw % nv
    let u := e / nw / nv
    let one := if t.corr then u = w + v
      else u % t.bk = v / t.bn && u / t.bk = w / t.bn && v % t.bn = w % t.bn
    t.triple u v w ≠ if one then 512 else 0

/-- The first failing check of R259 and its index. -/
def tableBad (img : List Byte) : Option (Nat × Nat) :=
  let a := img.toArray
  let t := Table.of img
  let code := fun i h => (a.getD i 0).toNat / (if h = 0 then 1 else 16) % 16
  let body := (List.range 1536).map (· + 16)
  match badHeader a with
  | some i => some (0, i)
  | none =>
    match body.find? fun i => code i 0 = 8 || code i 1 = 8 with
    | some i => some (1, i)
    | none =>
      match body.find? fun i =>
          let row := (i - 16) % 512 / 32
          let p := (i - 16) % 32 * 2
          let used := row < t.rows ((i - 16) / 512)
          (code i 0 ≠ 0 && !(used && p < t.rank)) || (code i 1 ≠ 0 && !(used && p + 1 < t.rank)) with
      | some i => some (2, i)
      | none => t.badEquation.map fun e => (3, e)

/-- Eight times a growth factor (R260): the largest column sum of U or V, the largest row sum of W. -/
def Table.growth (t : Table) (mat : Nat) : Nat :=
  let abs8 := fun r p => (coef8 (t.code mat r p)).natAbs
  if mat = 2 then
    (List.range (t.rows 2)).foldl (fun m r => max m ((List.range t.rank).foldl (fun a p => a + abs8 r p) 0)) 0
  else
    (List.range t.rank).foldl (fun m p => max m ((List.range (t.rows mat)).foldl (fun a r => a + abs8 r p) 0)) 0

/-! ## The contract (R283 to R288) -/

/-- How a product rounds: `pre` of R285, `post` of R287, the formats. -/
structure Rounding where
  pre : Nat
  post : Nat
  fa : Fmt
  fb : Fmt
  deriving DecidableEq, Repr

/-- A coefficient times a value; none for a code of 0 (R283). -/
def scaleBy (code : Nat) (v : DV) : Option DV :=
  if code = 0 then none
  else
    let neg := 8 ≤ code
    let i : Int := ((code % 8 : Nat) : Int) - 4
    some (match v with
      | .nan => .nan
      | .inf b => .inf (b ^^ neg)
      | .fin b m e => .fin (b ^^ neg) m (e + i))

/-- Status flags (R289), as a word. -/
abbrev Flags := BitVec 32

/-- A pre-sum of one element and its flags (R285, R289). -/
def presum (r : Rounding) (f : Fmt) (terms : List DV) : DV × Flags :=
  let x := DV.sum terms
  if r.pre = 2 then (x, 0)
  else
    let y := x.rnd (if r.pre = 0 then Fmt.opf f else Fmt.wf f)
    if terms.all DV.finite then
      if !y.finite then (y, 1) else if y.same x then (y, 0) else (y, 4)
    else (y, 0)

/-- A rounding that gives an infinity from finite inputs sets POST_OVF. -/
def postOvf (inputs : List DV) (y : DV) : Flags :=
  if inputs.all DV.finite && (match y with | .inf _ => true | _ => false) then 2 else 0

/-- CANCEL of R289. -/
def cancels (terms : List DV) : Bool :=
  let big := terms.foldl (fun (m : Option Int) t =>
    if t.isZero then m else match m with
      | some x => some (max x t.log2)
      | none => some t.log2) none
  match terms.all DV.finite, big with
  | true, some t =>
    let e := DV.sum terms
    e.isZero || 12 ≤ t - e.log2
  | _, _ => false

/-- The terms of a post-sum one after another (R287): the running value and the flags. -/
def postSteps (wf : FF) : List DV → DV → Flags → DV × Flags
  | [], y, fl => (y, fl)
  | t :: ts, y, fl =>
    let u := t.rnd wf
    let z := (y.add u).rnd wf
    postSteps wf ts z (fl ||| postOvf [t] u ||| postOvf [y, u] z)

/-- A post-sum of one element and its flags (R287, R289). -/
def postsum (r : Rounding) (terms : List DV) : DV × Flags :=
  let wf := Fmt.wf r.fa
  let cn : Flags := if cancels terms then 8 else 0
  match terms with
  | [] => (.zero, 0)
  | t :: ts =>
    if r.post = 1 then
      let y := (DV.sum terms).rnd wf
      (y, cn ||| postOvf terms y)
    else
      let y := t.rnd wf
      postSteps wf ts y (cn ||| postOvf [t] y)

/-- An array of values with flags, each entry from `f`. -/
def collect (n : Nat) (f : Nat → DV × Flags) : Array DV × Flags :=
  (List.range n).foldl (fun (acc : Array DV × Flags) i => let x := f i; (acc.1.push x.1, acc.2 ||| x.2)) (#[], 0)

/-- A list of arrays with flags. -/
def collectAll (n : Nat) (f : Nat → Array DV × Flags) : Array (Array DV) × Flags :=
  (List.range n).foldl (fun (acc : Array (Array DV) × Flags) i => let x := f i; (acc.1.push x.1, acc.2 ||| x.2)) (#[], 0)

/-- The pre-sums of bricks: `terms` gives each contributing brick with its code. -/
def presumBrick (r : Rounding) (f : Fmt) (size : Nat) (terms : List (Nat × Brick)) : Brick × Flags :=
  collect size fun i => presum r f (terms.filterMap fun t => scaleBy t.1 (t.2.getD i .zero))

/-- A leaf product (R286): 16 × 16 values. -/
def leaf (r : Rounding) (kb : Nat) (x y : Brick) : Array DV × Flags :=
  let wf := Fmt.wf r.fa
  collect 256 fun q =>
    let a := fun k => x.at' kb (q / 16) k
    let b := fun k => y.at' kb (q % 16) k
    let z := (dot a b 0 kb).rnd wf
    (z, postOvf ((List.range kb).flatMap fun k => [a k, b k]) z)

/-- The post-sum of products' elements for one row of W. -/
def postsumBrick (r : Rounding) (t : Table) (row : Nat) (ms : Nat → Array DV) : Array DV × Flags :=
  collect 256 fun q => postsum r ((List.range t.rank).filterMap fun p => scaleBy (t.code 2 row p) ((ms p).getD q .zero))

/-- bil(X, Y, t) of R284. -/
def bil (r : Rounding) (tb : Table) (kb : Nat) : Nat → Array Brick → Array Brick → Array (Array DV) × Flags
  | 0, x, y => let z := leaf r kb (x.getD 0 #[]) (y.getD 0 #[]); (#[z.1], z.2)
  | t + 1, x, y =>
    let m := tb.bm
    let k := tb.bk
    let n := tb.bn
    let mt := m ^ t
    let kt := k ^ t
    let nt := n ^ t
    let subX := fun i1 i2 a => x.getD ((i1 * mt + a / kt) * (k * kt) + i2 * kt + a % kt) #[]
    let subY := fun j1 j2 a => y.getD ((j1 * kt + a / nt) * (n * nt) + j2 * nt + a % nt) #[]
    let prod := fun p =>
      let sa := collectAll (mt * kt) fun a =>
        presumBrick r r.fa (16 * kb) ((List.range (m * k)).map fun u => (tb.code 0 u p, subX (u / k) (u % k) a))
      let sb := collectAll (kt * nt) fun a =>
        presumBrick r r.fb (16 * kb) ((List.range (k * n)).map fun v => (tb.code 1 v p, subY (v / n) (v % n) a))
      let z := bil r tb kb t sa.1 sb.1
      (z.1, sa.2 ||| sb.2 ||| z.2)
    let ms := (List.range tb.rank).foldl (fun (acc : Array (Array (Array DV)) × Flags) p =>
      let z := prod p; (acc.1.push z.1, acc.2 ||| z.2)) (#[], 0)
    let out := collectAll (m * mt * (n * nt)) fun q =>
      let i := q / (n * nt)
      let j := q % (n * nt)
      let inner := i % mt * nt + j % nt
      postsumBrick r tb (i / mt * n + j / nt) fun p => (ms.1.getD p #[]).getD inner #[]
    (out.1, ms.2 ||| out.2)

/-- The CORR step of R288: one array for each C slab. -/
def corr (r : Rounding) (tb : Table) (kb : Nat) (x y : Array Brick) : Array (Array DV) × Flags :=
  let sum := fun mat f (bs : Array Brick) p =>
    presumBrick r f (16 * kb) ((List.range (tb.rows mat)).map fun u => (tb.code mat u p, bs.getD u #[]))
  let ms := collectAll tb.rank fun p =>
    let sa := sum 0 r.fa x p
    let sb := sum 1 r.fb y p
    let z := leaf r kb sa.1 sb.1
    (z.1, sa.2 ||| sb.2 ||| z.2)
  let out := collectAll tb.bm fun i => postsumBrick r tb i fun p => ms.1.getD p #[]
  (out.1, ms.2 ||| out.2)

/-- One accumulator after a step: its bits and the flag of the addition (R284, R289). -/
def accumulate (r : Rounding) (old : Nat) (x : DV) : Nat × Flags :=
  let wf := Fmt.wf r.fa
  let c := DV.of (wf.decode old)
  let y := (c.add x).rnd wf
  (y.bits wf, postOvf [c, x] y)

/-! ## Checksums (R264) -/

/-- One check of a C slab: the exact classical sum over pairs of A and B bricks. Row check i, or column check. -/
def checkSum (kb : Nat) (pairs : List (Brick × Brick)) (col : Bool) (i : Nat) : DV :=
  DV.sum (pairs.flatMap fun (a, b) => (List.range kb).map fun k =>
    if col then (DV.sum ((List.range 16).map fun r => a.at' kb r k)).mul (b.at' kb i k)
    else (a.at' kb i k).mul (DV.sum ((List.range 16).map fun j => b.at' kb j k)))

/-- A check word after a step. -/
def checkWord (f : Fmt) (old : Nat) (x : DV) : Nat :=
  if isIntFmt f then (BitVec.ofNat 32 old + x.word).toNat
  else ((DV.of (ffF32.decode old)).add (x.rnd ffF32)).bits ffF32

end Sys2Proof.Machine
end

