-- ==== Sys2Proof/Machine/Engine.lean ====
section
/-! DEFINITION. Accesses of the device's own engines (R176, R177): reading and writing bytes by virtual address;
and the splitting of the issuing path (R95). -/

namespace Sys2Proof.Machine

/-- Why an engine's access failed: its page has no translation, or a code of R175 or R177 at an address. -/
inductive EFail where
  | page (code page : Nat)
  | bad (code addr : Nat)
  deriving DecidableEq, Repr

/-- The code that the memory system's failure of an engine access has (R177). -/
def engCode (r : Nat) : Nat := 0x063 + 4 * r

/-- The checks of an engine's access, with the entries it caches; `salt` tells the walks of one step apart. -/
def State.engLook (s : State) (b : Block) (k : AKind) (ea n salt : Nat) : State × Except EFail (List Seg) :=
  let r := s.chk b (engForm n k) ea salt
  (s.cacheEntries b.vd r.2, match r.1 with
    | .ok segs => .ok segs
    | .page code page => .error (.page code page)
    | .bad code addr => .error (.bad code addr)
    | .lent => .ok [])

/-- The failure of the memory system that an access to segments meets. -/
def State.segsFail (s : State) (vd : Nat) (segs : List Seg) (write : Bool) (err : MemErr) : Option Nat :=
  segs.findSome? fun g => s.segFail vd g write err

/-- An uncorrectable error that an access to segments has met poisons what it has hit of the first of them that fails (R178). -/
def State.poisonIf (s : State) (vd : Nat) (write : Bool) (err : MemErr) (segs : List Seg) : State :=
  match segs.find? fun g => (s.segFail vd g write err).isSome with
  | some g => if s.segFail vd g write err = some 1 then s.poisonSeg write g else s
  | none => s

/-- An engine reads `n` bytes. -/
def State.engRead (s : State) (b : Block) (ea n salt : Nat) : State × Except EFail (List Byte) :=
  let r := s.engLook b .rd ea n salt
  match r.2 with
  | .error e => (r.1, .error e)
  | .ok segs =>
    match r.1.segsFail b.vd segs false .ok with
    | some why => (r.1.poisonIf b.vd false .ok segs, .error (.bad (engCode why) ea))
    | none => (r.1, .ok (segs.flatMap fun g => r.1.readSeg b.vd 0 g))

/-- The bytes written segment by segment. -/
def State.writeSegs (s : State) (vd : Nat) : List Seg → List Byte → State
  | [], _ => s
  | g :: gs, bs => State.writeSegs (s.writeSeg vd 0 none g (bs.take g.len)) vd gs (bs.drop g.len)

/-- An engine writes bytes. -/
def State.engWrite (s : State) (b : Block) (ea salt : Nat) (bs : List Byte) : State × Except EFail Unit :=
  let r := s.engLook b .wr ea bs.length salt
  match r.2 with
  | .error e => (r.1, .error e)
  | .ok segs =>
    match r.1.segsFail b.vd segs true .ok with
    | some why => (r.1.poisonIf b.vd true .ok segs, .error (.bad (engCode why) ea))
    | none => (r.1.writeSegs b.vd segs bs, .ok ())

/-- A block that stands for the device itself, so far as an access needs one: its virtual device. -/
def devBlock (vd : Nat) : Block :=
  { launch := 0, vd := vd, idx := 0, loc := .memory, harvest := false, narrow := false, ngr := 0, held := [], nv := 0, ns := 0,
    nt := 0, nsl := 0, nsp := 0, ntag := 0, nctr := 0, prod := 0, img := 0, entry := 0, entries := [], lvl := [], hand := 0,
    pool := 0, tiles := [], slabs := [], slots := [], tagTab := [], tags := [], ctrs := [], bars := [], tx := [],
    cb := [], prog := none, sticky := 0, serials := 0, parks := 0, moved := false,
    parked := false, parkAt := 0, parkWhy := .never, home := 0, admitted := 0, came := 0, batch := [], bins := [], lines := [], parts := 0, image := [], imageAt := 0,
    noted := [] }

/-- The underlying code of a failed access. -/
def EFail.code : EFail → Nat
  | .page code _ => code
  | .bad code _ => code

/-- A read of one of the device's own areas (R355): the bytes, or the underlying code. -/
def State.devRead (s : State) (vd va n : Nat) : State × Except Nat (List Byte) :=
  let r := s.engRead (devBlock vd) va n 3
  (r.1, match r.2 with
    | .ok bs => .ok bs
    | .error e => .error e.code)

/-- A write of one of the device's own areas (R355): none, or the underlying code. -/
def State.devWrite (s : State) (vd va : Nat) (bs : List Byte) : State × Option Nat :=
  let r := s.engWrite (devBlock vd) va 3 bs
  (r.1, match r.2 with
    | .ok _ => none
    | .error e => some e.code)

/-- The segments of an access of the device itself, or the code that it would raise in a thread (R175, R177); `ok`: the memory
system answers it. -/
def State.stepSegs (s : State) (vd : Nat) (f : AccForm) (ea : Nat) (ok : Bool) : State × Except Nat (List Seg) :=
  let r := s.chk (devBlock vd) f ea 3
  let s1 := s.cacheEntries vd r.2
  (s1, match r.1 with
    | .ok segs =>
      match s1.segsFail vd segs (f.tk ≠ .rd) .ok with
      | some why => .error (0x060 + 4 * why + f.mk'.num)
      | none =>
        if ok then .ok segs
        else .error (0x060 + 4 * (if segs.all fun g => g.region = 0 then 1 else 4) + f.mk'.num)
    | .page code _ => .error code
    | .bad code _ => .error code
    | .lent => .ok [])

/-- What an event says of the memory system's answer to an engine. -/
def engMem : EngErr → MemErr
  | .ok => .ok
  | .pageFail => .ok
  | .uncorr => .uncorr
  | .noResp => .noResp

/-! ## The tape's own failures (R312) -/

/-- The group's track as the state holds it. -/
def State.track (s : State) (gid : Nat) : Track := ((Tbl.find s.groups gid).map (·.track)).getD .init

def State.modTrack (s : State) (gid : Nat) (f : Track → Track) : State :=
  s.modGroup gid fun g => { g with track := f g.track }

/-- A tape memory fault waits for the group's next tape instruction, FENCE or EXIT, where the track enters IDLE; what is staged of
the track is dropped, and its segments are not reached again (R312). -/
def State.tapeFail (s : State) (gid : Nat) (code det : Nat) (addr : Va) : State :=
  match Tbl.find s.groups gid with
  | none => s
  | some g =>
    let lost := (s.core g.core).tape.filter fun (l : TapeLine) => l.gid = gid
    let s1 := s.modCore g.core fun k => { k with tape := k.tape.filter fun (l : TapeLine) => l.gid ≠ gid }
    s1.modGroup gid fun g =>
      { lost.foldl (fun (g : Group) l => g.flagDown l.flag) g with
        track := { g.track with dead := true }
        errs := g.errs ++ [{ thr := none, flag := none, tape := true,
                             fault := { FaultRec.at' (BitVec.ofNat 9 code) 0 0 0 with
                               det := BitVec.ofNat 16 det, addr := addr } }] }

/-! ## Splitting the issuing path (R95) -/

/-- The issuing path's lanes, less those that have left it, go on as one path for each entry of `out` that has a
lane; each takes the path's b14. The path of `cur` is the current path. -/
def State.fork (s : State) (c : Ctx) (out : List (Va × LaneMask)) (cur : LaneMask) : State :=
  s.modGroup c.gid fun g =>
    match g.paths.find? fun p => p.mask &&& c.p.mask ≠ 0 with
    | some p =>
      let news := (out.map fun (e : Va × LaneMask) => { p with pc := e.1, mask := e.2 &&& p.mask }).filter
        fun (q : Path) => q.mask ≠ 0
      let g1 := { g with paths := replacePath g.paths (lowLane p.mask) news }
      if cur = 0 then g1 else { g1 with cur := lowLane cur }
    | none => g

/-- A named flag of an instruction complete at issue clears in the following cycle (R44). -/
def State.flagNow (s : State) (c : Ctx) (h : Hints) : State :=
  s.modGroup c.gid fun g => g.flagFor (setFlag h) (c.now + 1)

end Sys2Proof.Machine
end

