-- ==== Sys2Proof/Machine/Milestone.lean ====
section
/-! DEFINITION. Milestones, rollback and time slices (R209, R355 to R361). -/

namespace Sys2Proof.Machine

/-- The virtual device may issue: started, not halted, in its slice (R366). -/
def VDev.runs (v : VDev) : Bool := v.run && !v.halt && v.sched

/-- The block belongs to the virtual device. -/
def State.blkIn (s : State) (vd blk : Nat) : Bool :=
  match Tbl.find s.blocks blk with
  | some b => b.vd = vd
  | none => false

/-- The group belongs to the virtual device. -/
def State.grpIn (s : State) (vd gid : Nat) : Bool :=
  match Tbl.find s.groups gid with
  | some g => s.blkIn vd g.blk
  | none => false

/-- The core lies in a cluster of the partition of a virtual device: guaranteed, its own margin that is not lent, or margin lent to
it (R326, R377, R378). -/
def State.coreIn (s : State) (vd core : Nat) : Bool :=
  let p := (s.vd vd).partition
  let c := core / 8
  match Tbl.find s.lends c with
  | some l => if l.effect then l.borrower = p else (s.part p).mmask.getLsbD c
  | none => (s.part p).gmask.getLsbD c || (s.part p).mmask.getLsbD c

/-! ## Withheld effects (R358) -/

/-- A 32-bit word of physical memory is raised by an increment. -/
def State.addWord (s : State) (pa key : Nat) (inc : W32) : State :=
  let old : W32 := BitVec.ofNat 32 (leNat (if region pa = 0 then (List.range 4).map fun i => s.hbmByte key (pa + i)
    else Memory.read s.mem pa 4))
  let bs := leBytes 4 (old + inc).toNat
  if region pa = 0 then s.writeHbm none none key pa bs else { s with mem := Memory.write s.mem pa bs }

/-- A withheld effect is released. -/
def State.release (s : State) : Effect → State
  | .bytes pa key bs => if region pa = 0 then s.writeHbm none none key pa bs else { s with mem := Memory.write s.mem pa bs }
  | .irq i => s.raise i
  | .add pa key inc => s.addWord pa key inc

/-! ## Taking a milestone (R357) -/

/-- The first part of the accesses that `sel` picks which may be performed, as access and part. -/
def State.openPart (s : State) (sel : Access → Bool) : Option (Nat × Nat) :=
  (List.range s.accesses.length).findSome? fun k =>
    match s.accesses[k]? with
    | some a => if sel a then ((List.range a.parts.length).find? fun i => s.mayPerform k i).map fun i => (k, i) else none
    | none => none

/-- Every store, atomic and conditional store already sent is performed, with the loads that must come first;
`fuel` bounds the parts. -/
def State.performSent (sel : Access → Bool) : Nat → State → State
  | 0, s => s
  | fuel + 1, s =>
    if s.accesses.all fun a => !sel a || a.op.isLoad then s
    else match s.openPart fun a => sel a && !a.op.isLoad with
      | some (k, i) => State.performSent sel fuel (s.performAt k i .ok)
      | none => match s.openPart sel with
        | some (k, i) => State.performSent sel fuel (s.performAt k i .ok)
        | none => s

/-- The number of parts in flight. -/
def State.openParts (s : State) : Nat := s.accesses.foldl (fun n a => n + a.parts.length) 0

/-- A command from its start: transfers and copies have no step counter (R357). -/
def EngCmd.fromStart (q : EngCmd) : EngCmd :=
  match q.body with
  | .copy k st z slot tx ent quad tag _ fol => { q with body := .copy k st z slot tx ent quad tag 0 fol }
  | .xfer st slab z d tx ent quad _ => { q with body := .xfer st slab z d tx ent quad 0 }
  | _ => q

/-- What a core holds for a virtual device. -/
def State.coreSnap (s : State) (vd : Nat) (c : Core) : CoreSnap :=
  let mine := fun (qs : List EngCmd) => (qs.filter fun q => s.blkIn vd q.blk).map (·.fromStart)
  { copyQ := mine c.copyQ, follow := mine c.follow, matQ := mine c.matQ, bat := c.bat,
    bins := c.bins.filter fun b => s.blkIn vd b.blk, tape := c.tape.filter fun t => t.vd = vd }

/-- The fairness timer of a group that leaves its core keeps the cycles that have passed, and goes on from there when the group
comes back (R353). -/
def Group.turnClock (g : Group) (now : Nat) : Group := { g with since := now - g.since }

/-- A block stands on a core. -/
def Block.stands (b : Block) : Bool :=
  match b.loc with
  | .core _ => true
  | _ => false

def State.standsOn (s : State) (blk : Nat) : Bool := (Tbl.find s.blocks blk).any (·.stands)

/-- What the groups and blocks of a virtual device have noted for the log is taken from them (R356). -/
def State.clearNoted (s : State) (vd : Nat) : State :=
  { s with
    groups := s.groups.map fun (e : Nat × Group) => if s.blkIn vd e.2.blk then (e.1, { e.2 with noted := [] }) else e
    blocks := s.blocks.map fun (e : Nat × Block) => if e.2.vd = vd then (e.1, { e.2 with noted := [] }) else e }

/-- The state of a virtual device as a milestone captures it (R356, R357). -/
def State.capture (s : State) (vd : Nat) : Snapshot :=
  { launches := s.launches.filter fun e => e.2.vd = vd
    blocks := s.blocks.filter fun e => e.2.vd = vd
    groups := (s.groups.filter fun e => s.blkIn vd e.2.blk).map fun e =>
      (e.1, if s.standsOn e.2.blk then e.2.turnClock s.cycle else e.2)
    results := s.results.filter fun r => s.grpIn vd r.gid
    waits := s.waits.filter fun w => match w with
      | .fetch v _ _ _ => v = vd
      | .lanes _ a _ _ _ _ _ => a.vd = vd
    accesses := (s.accesses.filter fun a => a.vd = vd).map fun a => { a with replay := true }
    cores := (s.cores.filter fun e => s.coreIn vd e.1).map fun e => (e.1, s.coreSnap vd e.2)
    collQ := s.dies.map fun e => (e.1, e.2.collQ.filter fun q => s.blkIn vd q.blk)
    cells := s.dies.flatMap fun e => e.2.cells.filter fun c => c.vd = vd
    invals := s.invals.filter fun i => i.gid.any (s.grpIn vd) }

/-- A milestone is taken: sent accesses are performed, the state is captured, the log is emptied, the withheld
effects are released in order, MSSEQ rises (R357). -/
def State.milestone (s : State) (vd : Nat) : State :=
  if (s.vd vd).msmode = 0 then s
  else
    let s1 := (State.performSent (fun a => a.vd = vd) s.openParts s).clearNoted vd
    let snap := s1.capture vd
    let held := (s1.vd vd).withheld
    let s2 := s1.modVd vd fun v =>
      { v with snap := some snap, log := [], withheld := [], msseq := v.msseq + 1, msDue := false, msAt := s1.cycle,
               gone := [], noted := []
               trace := { v.trace with shown := v.trace.wp, keep := v.trace.lost }
               sample := { v.sample with shown := v.sample.wp, keep := v.sample.lost } }
    held.foldl State.release s2

/-- MILESTONE: when one is due and the virtual device runs. -/
def execMilestone (vd : Nat) (s : State) : Out :=
  let v := s.vd vd
  .next (if v.runs && v.msmode ≠ 0 && (v.msDue || v.msAt + v.cfg 90 2 * 4000 ≤ s.cycle) then s.milestone vd else s)

/-- The milestone that a SYS forces: one taken in this cycle serves, if nothing has been withheld since (R362). -/
def State.forceMilestone (s : State) (vd : Nat) : State :=
  let v := s.vd vd
  if v.snap.isSome && v.msAt = s.cycle && v.withheld.isEmpty then s else s.milestone vd

/-! ## Rollback (R359) -/

/-- A line of the undo log goes back. -/
def State.undo (s : State) (e : LogLine) : State :=
  let slot := fun (t : Tbl Nat) (line : Nat) => match e.slot with
    | some k => Tbl.put t line k
    | none => Tbl.drop t line
  if 2 ^ 60 ≤ e.line then
    { s with peer := Memory.write s.peer ((e.line - 2 ^ 60) * 128) e.bytes, peerSlot := slot s.peerSlot (e.line - 2 ^ 60) }
  else { s with mem := Memory.write s.mem (e.line * 128) e.bytes, lineSlot := slot s.lineSlot e.line }

/-- A block stands on a core in a milestone's image. -/
def Snapshot.standsOn (p : Snapshot) (blk : Nat) : Bool := (Tbl.find p.blocks blk).any (·.stands)

/-- A launch as it was accepted: no dependence met, no unit handed out. One that has been ended from outside stays so. -/
def Launch.unstarted (l : Launch) : Launch :=
  if l.ended then l
  else
    { l with started := false, next := l.first, resident := 0, units := [], handLog := [], mirrorLog := [], home := none
             leader := none, mirror := none, lost := [], dieLost := false
             depsMet := (List.range 4).map fun i => !recBit l.raw (152 + 8 * i) 4 31 }

/-- The state that stands for a virtual device that has taken no milestone: nothing resident. -/
def State.emptySnap (s : State) (vd : Nat) : Snapshot :=
  { launches := (s.launches.filter fun e => e.2.vd = vd).map fun e => (e.1, e.2.unstarted), blocks := [], groups := [],
    results := [], waits := [], accesses := [], cores := (s.cores.filter fun e => s.coreIn vd e.1).map fun e => (e.1, ⟨[], [], [], [], [], []⟩),
    collQ := [], cells := [], invals := [] }

/-- A virtual device goes back to its latest milestone: commands in flight are discarded, the log is applied in
reverse, the captured state is restored, and what was withheld since is discarded (R359). Recorded commands wait to
enter their queues again (R399), recorded loads for their replay; an invalidation that waited for the accesses of the milestone is
complete (R181). -/
def State.rollback (s : State) (vd : Nat) : State :=
  let v := s.vd vd
  let snap := v.snap.getD (s.emptySnap vd)
  let later := ((s.launches ++ v.gone).filter fun e => e.2.vd = vd && (Tbl.find snap.launches e.1).isNone).map
    fun e => (e.1, e.2.unstarted)
  let cores := s.cores.map fun e =>
    let others := fun (qs : List EngCmd) => qs.filter fun q => !s.blkIn vd q.blk
    let c := e.2
    match Tbl.find snap.cores e.1 with
    | some k =>
      (e.1, { c with copyQ := others c.copyQ, follow := others c.follow, matQ := others c.matQ, bat := k.bat,
                     bins := (c.bins.filter fun (b : Bin) => !s.blkIn vd b.blk) ++ k.bins,
                     tape := (c.tape.filter fun (t : TapeLine) => t.vd ≠ vd) ++ k.tape })
    | none =>
      (e.1, { c with copyQ := others c.copyQ, follow := others c.follow, matQ := others c.matQ,
                     bat := if s.coreIn vd e.1 then [] else c.bat,
                     bins := c.bins.filter fun b => !s.blkIn vd b.blk, tape := c.tape.filter fun t => t.vd ≠ vd })
  let dies := s.dies.map fun e =>
    let cells := (e.2.cells.filter fun c => c.vd ≠ vd) ++ snap.cells.filter fun c => homeDie c.pa = e.1
    let permits := e.2.permits.filter fun p => match p.blk with
      | some b => !s.blkIn vd b
      | none => !s.grpIn vd p.gid
    (e.1, { e.2 with cells := cells, collQ := e.2.collQ.filter fun q => !s.blkIn vd q.blk, permits := permits })
  let queued := (snap.cores.flatMap fun e => e.2.copyQ ++ e.2.matQ ++ e.2.follow) ++ snap.collQ.flatMap (·.2)
  let s1 := { s with
    launches := (s.launches.filter fun (e : Nat × Launch) => e.2.vd ≠ vd) ++ snap.launches ++ later
    groups := (s.groups.filter fun (e : Nat × Group) => !s.blkIn vd e.2.blk) ++ snap.groups.map fun (e : Nat × Group) =>
      (e.1, if snap.standsOn e.2.blk then e.2.turnClock s.cycle else e.2)
    results := (s.results.filter fun (r : Pending) => !s.grpIn vd r.gid) ++ snap.results
    waits := (s.waits.filter fun (w : PageWait) => match w with
      | .fetch x _ _ _ => x ≠ vd
      | .lanes _ a _ _ _ _ _ => a.vd ≠ vd) ++ snap.waits
    accesses := (s.accesses.filter fun (a : Access) => a.vd ≠ vd) ++ snap.accesses
    invals := s.invals.filter fun (i : Inval) => !i.gid.any (s.grpIn vd)
    cores := cores
    dies := dies }
  let back := snap.blocks.map fun e => (e.1, { e.2 with batch := (queued.filter fun (q : EngCmd) => q.blk = e.1) ++ e.2.batch })
  let s2 := { s1 with blocks := (s.blocks.filter fun (e : Nat × Block) => e.2.vd ≠ vd) ++ back }
  let s3 := v.log.foldl State.undo s2
  let gone := ((s.accesses.filter fun a => a.vd = vd).map (·.id)).foldl (fun (t : State) i => t.dropInval i) s3
  let met := snap.invals.foldl (fun (t : State) i => match i.gid with
    | some g => t.modGroup g fun g => g.flagDown i.flag
    | none => t) gone
  let calm := snap.groups.foldl (fun (t : State) e => t.calm e.1) met
  calm.modVd vd fun v => { v with
    log := [], withheld := [], msDue := false, gone := [], noted := []
    trace := { v.trace with wp := v.trace.shown, lost := v.trace.keep }
    sample := { v.sample with wp := v.sample.shown, lost := v.sample.keep } }

/-- A virtual device is halted by one of 0x125 to 0x128, and system software is told (R358 to R361, R366). -/
def State.haltVd (s : State) (vd : Nat) (code : BitVec 9) (addr : Va) : State :=
  (s.modVd vd fun v => { v with halt := true }).raise (.plain (some vd) 2 code addr)

/-- A halt whose record carries the underlying code of a failed access (R341). -/
def State.haltUnder (s : State) (vd : Nat) (code : BitVec 9) (under : Nat) (addr : Va) : State :=
  (s.modVd vd fun v => { v with halt := true }).raise
    { Irq.plain (some vd) 2 code addr with under := BitVec.ofNat 9 under }

/-- The context save area of a virtual device (R365). -/
def VDev.csave (v : VDev) : Va := BitVec.ofNat 80 (v.cfg 48 10)

/-! ## Accesses from outside (R186, R209, R331, R358) -/

/-- The byte of region 0 or of a peer line's own memory that an outside reader gets: the logged pre-image of a
line where a virtual device has one (R209, R358), else what the line holds. -/
def State.outerByte (s : State) (vd : Option Nat) (pa : Nat) : Byte :=
  let line := pa / 128
  let logged := match vd with
    | some v => if (s.vd v).msmode = 2 then (s.vd v).log.find? (fun (e : LogLine) => e.line = line) else none
    | none => none
  match logged with
  | some e => if e.slot.isSome then e.bytes.getD (pa % 128) 0 else Config.freeByte s.free pa
  | none => if region pa ≠ 0 || (Tbl.find s.lineSlot line).isSome then Memory.get s.mem pa else Config.freeByte s.free pa

/-- A write from outside clears the reservations on its granules that a milestone has captured (R186, R209). -/
def State.clearCaptured (s : State) (lines : List Nat) : State :=
  { s with vds := s.vds.map fun (e : Nat × VDev) => (e.1, { e.2 with snap := e.2.snap.map fun (p : Snapshot) =>
      { p with groups := p.groups.map fun (x : Nat × Group) =>
          (x.1, { x.2 with resv := x.2.resv.filter fun (r : Nat × Nat) => !lines.contains r.2 }) } }) }

/-- A write from outside lands in memory, and in the pre-image of a line that has one. Another package names the key slot that its
aperture entry gives (R331); the host's write keeps the slot of the line. -/
def State.outerWrite (s : State) (vd key' : Option Nat) (pa : Nat) (bs : List Byte) : State :=
  if region pa ≠ 0 then { s with mem := Memory.write s.mem pa bs }
  else
    let key := key'.getD ((Tbl.find s.lineSlot (pa / 128)).getD 0)
    let s1 := (s.writeHbm none none key pa bs).clearCaptured (linesOf pa bs.length)
    match vd with
    | some v => s1.modVd v fun d => { d with log := d.log.map fun (e : LogLine) =>
        { e with bytes := (List.range 128).map fun i =>
            let a := e.line * 128 + i
            if pa ≤ a && a < pa + bs.length then bs.getD (a - pa) 0 else e.bytes.getD i 0 } }
    | none => s1

/-- An access by the host or by another package, performed at the line's home. -/
def State.outer (s : State) (vd key : Option Nat) (a : OuterAcc) : State :=
  let get := fun (pa n : Nat) => (List.range n).map fun i => match key with
    | some k => if region (pa + i) = 0 then s.hbmByte k (pa + i) else Memory.get s.mem (pa + i)
    | none => s.outerByte vd (pa + i)
  match a with
  | .read pa n => { s with hostData := get pa n, free := s.free + 1 }
  | .write pa bs => { s.outerWrite vd key pa bs with free := s.free + 1 }
  | .atomAdd pa n c =>
    let old := get pa n
    { s.outerWrite vd key pa (leBytes n (leNat old + c)) with hostData := old, free := s.free + 1 }

/-- HOST_ACCESS: the host reaches a virtual device's memory. -/
def execHostAccess (vd : Nat) (a : OuterAcc) (s : State) : Out := .next (s.outer (some vd) none a)

/-- INCOMING_PEER_ACCESS: another package's access arrives over the Causeway, under the key slot that its aperture entry names
(R331). -/
def execIncomingPeerAccess (a : PeerAcc) (s : State) : Out := .next (s.outer none (some a.key) a.acc)

end Sys2Proof.Machine
end

