-- ==== Sys2Proof/Machine/MemInstr.lean ====
section
/-! DEFINITION. The memory instructions of class 4 (R169, R182 to R196) and the events of translation: page
responses and invalidations (R84, R176, R181). -/

namespace Sys2Proof.Machine

/-- EA(l) of R169: base, offset and immediate, modulo 2^80. -/
def Ctx.ea (c : Ctx) (li : W32) (a : BitVec 4) (b : Opnd) (o64 : Bool) (imm : BitVec 12) (l : Nat) : Va :=
  let off : Va := if o64 then (lane64 (c.src64 li 2 b) l).signExtend 80 else ((c.src li 2 b).lane l).signExtend 80
  c.base 1 a.toNat + off + imm.signExtend 80

/-- The value of `cnt` consecutive registers in lane `l`, low register first; an immediate is sign-extended, other
32-bit sources zero-extended (R118). -/
def Ctx.wide (c : Ctx) (li : W32) (pos : Nat) (o : Opnd) (cnt l : Nat) : Nat :=
  match o with
  | .v n => (List.range cnt).foldl (fun x r => x + ((c.v (pos + 16 * r) (n.toNat + r)).lane l).toNat * 2 ^ (32 * r)) 0
  | .s n => (List.range cnt).foldl (fun x r => x + (c.s (pos + 16 * r) (n.toNat + r)).toNat * 2 ^ (32 * r)) 0
  | .imm n => (n.signExtend (32 * cnt)).toNat
  | o => ((c.src li pos o).lane l).toNat

def widthSigned : Width → Bool
  | .s8 => true
  | .s16 => true
  | _ => false

def resBytes : ResW → Nat
  | .b32 => 4
  | .b64 => 8

/-- The registers that hold n bytes. -/
def regsOf (n : Nat) : Nat := (n + 3) / 4

/-- A withheld write to host memory overlaps these bytes (R357). -/
def overlapsHeld (v : VDev) : Seg → Bool
  | .phys pa n _ _ => v.withheld.any fun e => match e with
    | .bytes q _ bs => pa < q + bs.length && q < pa + n
    | .add q _ _ => pa < q + 4 && q < pa + n
    | .irq _ => false
  | .slot _ _ => false
  | .none _ => false

/-- In SLICE mode an atomic on host memory, or a read of host memory that overlaps a withheld write, first forces
a milestone (R357). -/
def State.forces (s : State) (c : Ctx) (op : MemOp) (reqs : List Req) : Bool :=
  let v := s.vd c.b.vd
  v.msmode = 2 && reqs.any fun r => match (s.chkReq c.b op r).1 with
    | .ok segs => segs.any fun g => g.region = 1 && (match op with
        | .atom .. => true
        | op => !op.writes && overlapsHeld v g)
    | _ => false

/-- The issue of a memory instruction: `mk'` gives the operation and the requests of the live lanes. -/
def memIssue (h : Hints) (s : State) (ops : List (Nat × Opnd × Nat)) (acq rel : Bool)
    (mk' : Ctx → W32 → MemOp × List Req) : Out :=
  let k := fun (c : Ctx) (t : State) =>
    let m := mk' c (t.launchIx c.b)
    t.startAccess c m.1 acq rel (setFlag h) m.2
  match s.begin h .plain with
  | some (some c, t) =>
    let m := mk' c (t.launchIx c.b)
    if c.live ≠ 0 && t.forces c m.1 m.2 then issueWait h (s.milestone c.b.vd) ops k else issueWait h s ops k
  | _ => issueWait h s ops k

/-- One request for each live lane. -/
def Ctx.each (c : Ctx) (ea : Nat → Va) (data aux : Nat → Nat) : List Req :=
  (lanesOf c.live).map fun l => { lane := l, ea := ea l, data := data l, aux := aux l }

/-- Every lane's EA is the same (R184). -/
def sameEa (rs : List Req) : Bool :=
  match rs with
  | [] => true
  | r :: rs => rs.all fun q => q.ea = r.ea

/-! ## Loads and stores (R183) -/

def execLd (h : Hints) (w : Width) (o64 : Bool) (_pol : Pol) (d : BitVec 8) (a : BitVec 4) (b : Opnd) (imm : BitVec 12)
    (_sc : BitVec 4) (acq : Bool) (s : State) : Out :=
  let n := w.bytes
  memIssue h s [(0, .v d, regsOf n), (2, b, if o64 then 2 else 1)] acq false fun c li =>
    let rs := c.each (c.ea li a b o64 imm) (fun _ => 0) (fun _ => 0)
    (.ld d.toNat n (widthSigned w) false (sameEa rs), rs)

def execSt (h : Hints) (w : Width) (o64 : Bool) (_pol : Pol) (d : Opnd) (a : BitVec 4) (b : Opnd) (imm : BitVec 12)
    (_sc : BitVec 4) (rel : Bool) (s : State) : Out :=
  let n := w.bytes
  memIssue h s [(0, d, regsOf n), (2, b, if o64 then 2 else 1)] false rel fun c li =>
    (.st n, c.each (c.ea li a b o64 imm) (fun l => c.wide li 0 d (regsOf n) l % 256 ^ n) (fun _ => 0))

/-- LDU: once, with the EA of the lowest live lane. -/
def execLdu (h : Hints) (w : Width) (o64 : Bool) (d : Opnd) (a : BitVec 4) (b : Opnd) (imm : BitVec 12)
    (_sc : BitVec 4) (acq : Bool) (s : State) : Out :=
  let n := w.bytes
  memIssue h s [(0, d, regsOf n), (2, b, if o64 then 2 else 1)] acq false fun c li =>
    let l := lowLane c.live
    let r : Req := { lane := l, ea := c.ea li a b o64 imm l, data := 0, aux := 0 }
    (match d with
      | .base k => .ldb k.toNat c.p.mask
      | .s k => .ldu k.toNat n (widthSigned w)
      | _ => .ldu 0 n (widthSigned w), [r])

/-- PREF and CCTL make no access that any agent observes, change no value and never fault (R185). -/
def execPref (h : Hints) (_k : PrefKind) (_o64 : Bool) (_a : BitVec 4) (_b : Opnd) (_imm : BitVec 12) (s : State) : Out :=
  issue h s [] fun c t => t.finishNow c h

def execCctl (h : Hints) (_k : CctlKind) (_a : BitVec 4) (_b : Opnd) (_imm : BitVec 12) (s : State) : Out :=
  issue h s [] fun c t => t.finishNow c h

/-! ## Reservations (R187) -/

def execLdres (h : Hints) (w : ResW) (o64 : Bool) (d : BitVec 8) (a : BitVec 4) (b : Opnd) (imm : BitVec 12)
    (_sc : BitVec 4) (acq : Bool) (s : State) : Out :=
  let n := resBytes w
  memIssue h s [(0, .v d, regsOf n), (2, b, if o64 then 2 else 1)] acq false fun c li =>
    (.ld d.toNat n false true false, c.each (c.ea li a b o64 imm) (fun _ => 0) (fun _ => 0))

def execStcond (h : Hints) (w : ResW) (rel o64 : Bool) (d : BitVec 8) (a : BitVec 4) (b : Opnd) (imm : BitVec 12)
    (_sc : BitVec 4) (st : BitVec 4) (s : State) : Out :=
  let n := resBytes w
  memIssue h s [(0, .v d, regsOf n), (2, b, if o64 then 2 else 1)] false rel fun c li =>
    (.stcond n st.toNat, c.each (c.ea li a b o64 imm) (fun l => c.wide li 0 (.v d) (regsOf n) l) (fun _ => 0))

/-! ## Atomics (R188, R189) -/

def execAtom (h : Hints) (op : AtomOp) (ty : IntTy) (d : BitVec 8) (a : BitVec 4) (b x : Opnd) (s : State) : Out :=
  let n := IntTy.bytes ty
  let cnt := (if op = .cas then 2 else 1) * regsOf n
  memIssue h s [(0, .v d, regsOf n), (2, b, 1), (3, x, cnt)] false false fun c li =>
    let v := fun l => c.wide li 3 x cnt l
    (.atom op ty d.toNat, c.each (c.ea li a b false 0) (fun l => v l % 256 ^ n) (fun l => v l / 256 ^ n))

def execFatom (h : Hints) (op : FatomOp) (ty : FTy) (d : BitVec 8) (a : BitVec 4) (b x : Opnd) (s : State) : Out :=
  let cnt := if ty = .f64 then 2 else 1
  memIssue h s [(0, .v d, cnt), (2, b, 1), (3, x, cnt)] false false fun c li =>
    (.fatom op ty d.toNat, c.each (c.ea li a b false 0) (fun l => c.wide li 3 x cnt l) (fun _ => 0))

/-- FATOM.ord contributes to the cell at bA under the key (LTID, seq) (R191). -/
def execFatomOrd (h : Hints) (d : BitVec 8) (a : BitVec 4) (seq x : Opnd) (s : State) : Out :=
  memIssue h s [(0, .v d, 1), (2, seq, 1), (3, x, 1)] false true fun c li =>
    let q := c.src li 2 seq
    (.ford d.toNat, c.each (fun _ => c.base 1 a.toNat) (fun l => c.wide li 3 x 1 l) (fun l => (q.lane l).toNat))

/-! ## Cells (R190, R192) -/

/-- The one request of a cell instruction at EA = bA + imm. -/
def Ctx.cellReq (c : Ctx) (a : BitVec 4) (imm : BitVec 12) (data aux : Nat) : List Req :=
  [{ lane := lowLane c.live, ea := c.base 1 a.toNat + imm.signExtend 80, data, aux }]

def execAcell (h : Hints) (a : BitVec 4) (count : Opnd) (imm : BitVec 12) (scope : BitVec 4) (s : State) : Out :=
  memIssue h s [(2, count, 1)] false false fun c li =>
    (.acell, c.cellReq a imm (c.scalar li 2 count).toNat scope.toNat)

def execAcellClose (h : Hints) (a : BitVec 4) (imm : BitVec 12) (_scope : BitVec 4) (s : State) : Out :=
  memIssue h s [] false false fun c _ => (.acellClose, c.cellReq a imm 0 0)

/-- ACREAD: later accesses of its threads follow it, as they must where it reads `state` = 2 (R192). -/
def execAcread (h : Hints) (d : BitVec 6) (a : BitVec 4) (imm : BitVec 12) (s : State) : Out :=
  memIssue h s [(0, .s d, 1)] true false fun c _ => (.acread d.toNat, c.cellReq a imm 0 0)

/-! ## PST (R193) -/

/-- The formats that PST accepts. -/
def pstNeed : TxNeed := ⟨plainFmts, false, true, true⟩

/-- PST. Its data are a pair where the entry's elements have 8 bytes: an odd register is then an operand-class error (R36, R182),
which only the issue can find, for decoding does not see the entry (R55). -/
def execPst (h : Hints) (d : Opnd) (tx : BitVec 6) (i0 i1 : Opnd) (s : State) : Out :=
  issueWait h s [(0, d, 1), (2, i0, 1), (3, i1, 1)] fun c t =>
    let e := c.b.txEnt tx.toNat
    let li := t.launchIx c.b
    let n := TxEnt.half e / 2
    match txReason e none pstNeed with
    | some r => .ok (t.faultLive c 0x0E0 0 r tx.toNat 0)
    | none =>
      if n = 8 && !d.aligned 2 then .ok (t.faultLive c 0x020 1 0 0 0)
      else if n = 8 && overDemand c.b 2 d then .ok (t.faultLive c 0x024 1 0 0 0)
      else
        let x := c.src li 2 i0
        let y := c.src li 3 i1
        let inside := fun l => (x.lane l).toNat < TxEnt.n e 0 && (y.lane l).toNat < TxEnt.n e 1
        let out := maskOf fun l => has c.live l && !inside l
        let c' := { c with live := c.live &&& ~~~out }
        let addr := fun l => TxEnt.addr e (x.lane l).toNat (y.lane l).toNat 0 0
        let twin := fun l => TxEnt.taddr e (x.lane l).toNat (y.lane l).toNat 0 0
        let reqs := c'.each (fun l => BitVec.ofInt 80 (addr l)) (fun l => c.wide li 0 d (regsOf n) l % 256 ^ n)
          (fun l => ((twin l) % (2 ^ 80 : Int)).toNat)
        let t1 := t.takeFault c.gid c.p.handler out fun _ => c.frec t 0x079 0 0 tx.toNat 0
        match t1.startAccess { c' with p := { c.p with mask := c.p.mask &&& ~~~out } } (.pst n) false false (setFlag h) reqs with
        | .ok u => .ok u
        | .error why => .error why

/-! ## Fences and bases (R194, R195) -/

/-- An access of one of these threads is still to be performed. -/
def State.threadBusy (s : State) (launch : Nat) (ltids : List W64) : Bool := s.partOut launch ltids fun _ => true

/-- The LTIDs of a set of lanes. -/
def Group.ltids (g : Group) (m : LaneMask) : List W64 := (lanesOf m).map g.lt

/-- FENCE: an error point of the thread and of the producer group (R178, R243); it issues when every earlier
access of the live lanes has been performed (R194). -/
def execFence (h : Hints) (_k : FenceKind) (_scope : BitVec 4) (s : State) : Out :=
  issueAt .all h s [] fun c t =>
    if t.threadBusy c.b.launch (c.g.ltids c.live) then .error .memoryQueue else .ok (t.finishNow c h)

/-- A base is written at issue; a later instruction of the group reads the new value (R195). -/
def State.writeBase (s : State) (c : Ctx) (h : Hints) (d : BitVec 4) (x : Va) : State :=
  (s.modGroup c.gid fun g => g.writeNow c.gid c.seed (.b d.toNat x c.p.mask)).finishNow c h

def execBset (h : Hints) (d a : BitVec 4) (u : Opnd) (imm : BitVec 20) (s : State) : Out :=
  issue h s [(2, u, 1)] fun c t =>
    t.writeBase c h d (c.base 1 a.toNat + (c.scalar (t.launchIx c.b) 2 u).signExtend 80 + imm.signExtend 80)

def execBsetAdd64 (h : Hints) (d a : BitVec 4) (p : BitVec 6) (imm : BitVec 20) (s : State) : Out :=
  issue h s [(2, .s p, 2)] fun c t =>
    t.writeBase c h d (c.base 1 a.toNat + (lane64 (c.src64 0 2 (.s p)) 0).signExtend 80 + imm.signExtend 80)

/-- Bits [32k+31:32k] of a base replaced; k = 2 takes 16 bits (R195). -/
def insBase (x : Va) (u : W32) (k : Nat) : Va :=
  let m : Va := (BitVec.ofNat 80 0xFFFFFFFF) <<< (32 * k)
  (x &&& ~~~m) ||| ((u.setWidth 80) <<< (32 * k))

def execBsetIns (h : Hints) (d a : BitVec 4) (u : Opnd) (k : BitVec 2) (s : State) : Out :=
  issue h s [(2, u, 1)] fun c t =>
    t.writeBase c h d (insBase (c.base 1 a.toNat) (c.scalar (t.launchIx c.b) 2 u) k.toNat)

def execBsetRd (h : Hints) (d : BitVec 6) (a : BitVec 4) (k : BitVec 2) (s : State) : Out :=
  issue h s [(0, .s d, 1)] fun c t =>
    let x := ((c.base 1 a.toNat) >>> (32 * k.toNat)).setWidth 32
    (t.modGroup c.gid fun g => g.writeNow c.gid c.seed (.s d.toNat x)).finishNow c h

/-! ## Invalidation (R181, R196) -/

/-- A cached entry that an invalidation covers: every entry, or those on the walk to an address. -/
def covers (va : Option Va) (e : TlbEnt) : Bool :=
  match va with
  | none => true
  | some a => e.tag = a.toNat / 2 ^ lvlShift e.lvl

/-- A chunk whose translation an invalidation drops: the address's own, or one that a dropped leaf maps. -/
def coversChunk (va : Option Va) (dropped : List TlbEnt) (chunk : Nat) : Bool :=
  match va with
  | none => true
  | some a => a.toNat / 4096 = chunk ||
      dropped.any fun e => pteBit e.entry 3 && e.tag = chunk * 4096 / 2 ^ lvlShift e.lvl

/-- Covered entries are dropped, with the verified chunks that were fetched through them (R77, R181); the
invalidation waits for the accesses of the virtual device that are under way. -/
def State.invalidate (s : State) (vd : Nat) (va : Option Va) (gid : Option Nat) (flag : Option Nat) : State :=
  let gone := (s.vd vd).tlb.filter (covers va)
  let s1 := s.modVd vd fun v => { v with tlb := v.tlb.filter fun e => !covers va e }
  let cores := s1.cores.map fun (e : Nat × Core) =>
    (e.1, { e.2 with verified := e.2.verified.filter fun x => !(x.1 = vd && coversChunk va gone x.2.1) })
  let ids := (s1.accesses.filter fun a => a.vd = vd && !a.replay).map (·.id)
  let s2 := { s1 with cores := cores }
  if ids.isEmpty then s2
  else
    let s3 := { s2 with invals := s2.invals ++ [{ gid := gid, flag := flag, ids := ids }] }
    match gid with
    | some g => s3.modGroup g fun g => g.flagUp flag
    | none => s3

/-- TLBINV: complete at once where no access is under way, else with the last of them. -/
def tlbinv (h : Hints) (s : State) (ops : List (Nat × Opnd × Nat)) (va : Ctx → W32 → Option Va) : Out :=
  issue h s ops fun c t =>
    let v := va c (t.launchIx c.b)
    let busy := t.accesses.any fun a => a.vd = c.b.vd && !a.replay
    let t1 := t.invalidate c.b.vd v (some c.gid) (setFlag h)
    if busy then t1.advance c 0 else t1.finishNow c h

/-- TLBINV.page: it raises no fault (R196). -/
def execTlbinvPage (h : Hints) (a : BitVec 4) (u : Opnd) (imm : BitVec 12) (s : State) : Out :=
  tlbinv h s [] fun c li => some (c.ea li a u false imm (lowLane c.live))

def execTlbinvAll (h : Hints) (s : State) : Out := tlbinv h s [] fun _ _ => none

/-- INVALIDATION_REQUEST: by system software or an ATS invalidation request. -/
def execInvalidationRequest (vd : Nat) (va : Option Va) (s : State) : Out := .next (s.invalidate vd va none none)

/-! ## Page responses (R84, R176) -/

/-- The wait is for this page of the virtual device, which has not come yet. -/
def PageWait.isFor (vd page : Nat) : PageWait → Bool
  | .fetch v p _ _ => v = vd && p = page
  | .lanes p a _ _ _ _ come => a.vd = vd && p = page && !come

/-- Lanes whose page has come and whose access waits for an earlier one to an SO page (R205). -/
def PageWait.come : PageWait → Bool
  | .fetch .. => false
  | .lanes _ _ _ _ _ _ come => come

/-- A path that waited for its fetch is ready to fetch again, or takes the fetch code. -/
def State.fetchAgain (s : State) (gid lane : Nat) (ok : Bool) (code : BitVec 9) : State :=
  match Tbl.find s.groups gid with
  | none => s
  | some g =>
    match pathAt g.paths lane with
    | none => s
    | some p =>
      if p.st ≠ .fetch then s
      else if ok then
        s.modGroup gid fun g => { g with paths := replacePath g.paths lane [{ p with st := .ready }] }
      else s.takeFault gid p.handler p.mask fun _ => { FaultRec.at' code p.pc 0 p.b14 with addr := p.pc }

/-- The address of a part's access that a page holds: its EA, the twin's of a PST, or the page of a second part (R180). -/
def pageAddr (op : MemOp) (p : Part) (page : Nat) : Va :=
  if p.ea.toNat / 4096 = page then p.ea
  else match op with
    | .pst _ => BitVec.ofNat 80 p.aux
    | _ => BitVec.ofNat 80 (page * 4096)

/-- An access that is to be made again reaches an SO page while its threads have another such access outstanding (R205). -/
def State.soHeld (s : State) (a : Access) : Bool :=
  match Tbl.find s.groups a.gid, Tbl.find s.blocks a.blk with
  | some g, some b =>
    s.soOut a.launch (g.ltids a.live) && a.reqs.any fun r => match (s.chkReq b a.op r).1 with
      | .ok segs => segs.any (Seg.isOrd .so)
      | _ => false
  | _, _ => false

/-- One wait is resolved by the response. -/
def State.resolveWait (s : State) (ok : Bool) (w : PageWait) : State :=
  match w with
  | .fetch vd page gid lane =>
    let code := match (s.translate vd (page * 4096) 0 .fetch).1 with
      | .notPresent k => k
      | .bad k => k
      | .ok _ _ _ => 0x096
    s.fetchAgain gid lane ok (BitVec.ofNat 9 code)
  | .lanes page a code b14 next handler _ =>
    if ok then
      if s.soHeld a then { s with waits := s.waits ++ [.lanes page a code b14 next handler true] }
      else s.replay a ⟨b14, next, handler⟩ true
    else
      let word := match Tbl.find s.groups a.gid with
        | some g => s.wordAt g.core a.vd a.pc
        | none => 0
      (s.takeBack a).takeFault a.gid handler a.live fun l =>
        let p := a.parts.find? fun p => a.op.whole || p.lane = l
        { FaultRec.at' code a.pc word b14 with addr := (p.map fun p => pageAddr a.op p page).getD 0 }

/-- A page request of the tape engine has failed: the reading tracks fail (R312). -/
def State.failTapes (s : State) (vd page : Nat) : State :=
  let code := match (s.translate vd (page * 4096) 0 .rd).1 with
    | .notPresent k => k
    | .bad k => k
    | .ok _ _ _ => 0x085
  s.groups.foldl (fun (t : State) (e : Nat × Group) =>
    if e.2.stall = some (.page vd page) then t.tapeFail e.1 0x108 code (BitVec.ofNat 80 (page * 4096)) else t) s

/-- A block that can act: on a core, its virtual device in its slice. -/
def State.onCore (s : State) (blk : Nat) : Bool :=
  match Tbl.find s.blocks blk with
  | some b => b.stands && (s.vd b.vd).runs
  | none => false

/-- The block whose path or access waits. -/
def State.waitBlk (s : State) : PageWait → Nat
  | .fetch _ _ gid _ => ((Tbl.find s.groups gid).map (·.blk)).getD 0
  | .lanes _ a _ _ _ _ _ => a.blk

/-- A lane of an access has a part that is still to be performed. -/
def Access.openLane (a : Access) (l : Nat) : Bool := a.parts.any fun p => p.lane = l && !p.done

/-- The parts of a load that is made again for one request: those that its checks give, where a part that has been performed keeps
what it read (R202, R203), or a part that has failed. -/
def Access.remade (a : Access) (o : Req × Chk) : List Part :=
  let ltid := ((a.parts.find? fun p => p.lane = o.1.lane).map (·.ltid)).getD 0
  let fail := fun (code addr : Nat) =>
    ({ lane := o.1.lane, ltid := ltid, ea := BitVec.ofNat 80 addr, off := 0, seg := .none a.op.form.n, twin := none, data := o.1.data,
       aux := o.1.aux, done := true, ok := false, got := code } : Part)
  match o.2 with
  | .ok segs => (reqParts a.op ltid o.1 segs).map fun p =>
      (a.parts.find? fun q => q.lane = p.lane && q.off = p.off && q.done).getD p
  | .bad code addr => [fail code addr]
  | _ => [fail 0 o.1.ea.toNat]

/-- A load that is made again keeps its place in program order (R202); failures wait for the error points of their lanes, but not
those of a TDEF; it is complete where nothing is left to be performed. -/
def State.again (s : State) (a : Access) (bad : List (Nat × Nat × Nat)) : State :=
  let s1 := { s with accesses := s.accesses.map fun (q : Access) => if q.id = a.id then a else q }
  let s2 := if a.op.stays then s1 else bad.foldl (fun (t : State) e => match a.parts.find? fun p => p.lane = e.1 with
    | some p => t.lateErr a { p with ea := BitVec.ofNat 80 e.2.2 } e.2.1
    | none => t) s1
  if a.finished then match s2.accesses.findIdx? fun q => q.id = a.id with
    | some k => s2.finishAccess k a
    | none => s2
  else s2

/-- A load marked for replay is made again from its captured addresses, in the lanes that have not read (R181, R197, R202): it waits
for a missing page, and a failure is delivered at the error point of its lane. `fail`: the page whose request has failed. -/
def State.reissue (s : State) (a : Access) (fail : Option Nat) : State :=
  match Tbl.find s.groups a.gid, Tbl.find s.blocks a.blk with
  | some g, some b =>
    let r := s.resolve b a.op g.lt (a.reqs.filter fun q => a.openLane q.lane)
    let kept := a.parts.filter fun p => !a.openLane p.lane
    let out := r.2.map fun o => match o.2 with
      | .page code page => if fail = some page then (o.1, Chk.bad code o.1.ea.toNat) else o
      | _ => o
    let pages := pagesOf out
    if !pages.isEmpty then pages.foldl (fun (t : State) p => t.askPage a.vd p.2 g.core) r.1
    else r.1.again { a with replay := false, parts := sortBy (fun x y => x.lane ≤ y.lane) (kept ++ out.flatMap a.remade) } (out.flatMap fun o => match o.2 with
      | .bad code x => [(o.1.lane, code, x)]
      | _ => [])
  | _, _ => s

/-- The loads of a virtual device that are marked for replay, of blocks that can act, are made again. -/
def State.reissueAll (s : State) (sel : Access → Bool) (fail : Option Nat) : State :=
  (s.accesses.filter fun a => a.replay && sel a && s.onCore a.blk).foldl (fun (t : State) a => t.reissue a fail) s

/-- PAGE_RESPONSE: Success makes every path fetch again and every captured access replay; any other response
delivers the code (R84, R176). Of the requests of a virtual device, the 64 oldest are outstanding. What a block that is
off its core waits for is looked at again when it is back. -/
def execPageResponse (vd page : Nat) (ok : Bool) (s : State) : Out :=
  .next (if ((s.vd vd).pages.take 64).contains page then
      let mine := fun w => PageWait.isFor vd page w && s.onCore (s.waitBlk w)
      let s1 := (s.modVd vd fun v => { v with pages := v.pages.erase page })
      let s2 := { s1 with waits := s1.waits.filter fun w => !mine w, free := s1.free + 1 }
      let s3 := (s.waits.filter mine).foldl (fun (t : State) w => t.resolveWait ok w) (if ok then s2 else s2.failTapes vd page)
      s3.reissueAll (fun a => a.vd = vd) (if ok then none else some page)
    else s)

/-- The waits that `sel` picks are looked at again: their pages are asked for where they are still missing. -/
def State.retryWaits (s : State) (sel : PageWait → Bool) : State :=
  let mine := s.waits.filter sel
  mine.foldl (fun (t : State) w => t.resolveWait true w) { s with waits := s.waits.filter fun w => !sel w }

end Sys2Proof.Machine
end

