-- ==== Sys2Proof/Machine/Observe.lean ====
section
/-! DEFINITION. Records, rings, stops and counters (R383 to R396), with MARK and BKPT. -/

namespace Sys2Proof.Machine

/-! ## Names of threads in records (R21, R385) -/

/-- The logical group that a thread belongs to, as its LTID with the lane zero. -/
def ltidGroup (narrow : Bool) (t : W64) : W64 := if narrow then t >>> 4 <<< 4 else t >>> 5 <<< 5

/-- A list with an element put in its place among rising numbers; one that is there stands. -/
def insertUp (x : W64) : List W64 → List W64
  | [] => [x]
  | y :: ys => if x = y then y :: ys else if x < y then x :: y :: ys else y :: insertUp x ys

/-- The logical groups of a set of lanes in ascending LTID: the LTID of the lowest thread of each, and the mask over
its logical lanes. -/
def Group.named (g : Group) (m : LaneMask) : List (W64 × LaneMask) :=
  let ids := (g.ltids m).map (ltidGroup g.narrow)
  (ids.foldl (fun acc x => insertUp x acc) []).map fun x =>
    let mask := (g.ltids m).foldl (fun (k : LaneMask) t =>
      if ltidGroup g.narrow t = x then k ||| bit (ltidLane g.narrow t).toNat else k) 0
    (x + BitVec.ofNat 64 (lowLane mask), mask)

/-- The launch index and the virtual device of a group's block. -/
def State.launchOf (s : State) (g : Group) : W32 :=
  match Tbl.find s.blocks g.blk with
  | some b => s.launchIx b
  | none => 0

/-- The placement byte (R385). -/
def Group.place (g : Group) : Nat := g.sched * 64 + g.slot % 32

/-- The code range that holds an address (R76). -/
def VDev.rangeAt (v : VDev) (pc : Va) : Option (Nat × CodeRange) :=
  v.ranges.find? fun e => e.2.base ≤ pc && pc.toNat < e.2.base.toNat + e.2.chunks * 4096

/-! ## Rings (R383, R384) -/

def ringBit (w : W32) (i : Nat) : Bool := w.getLsbD i

/-- The bytes of a ring. -/
def Ring.size (r : Ring) : Nat := 4096 * 2 ^ (r.cfg.toNat / 2 ^ 20 % 16)

def VDev.ring (v : VDev) (sample : Bool) : Ring := if sample then v.sample else v.trace
def VDev.setRing (v : VDev) (sample : Bool) (r : Ring) : VDev :=
  if sample then { v with sample := r } else { v with trace := r }

/-- A ring write has failed: `err` is set, `en` cleared, the function told. -/
def State.ringFail (s : State) (vd : Nat) (sample : Bool) (addr : Va) : State :=
  let r := (s.vd vd).ring sample
  let cfg := (r.cfg ||| 0x40000000) &&& 0x7FFFFFFF
  (s.modVd vd fun v => v.setRing sample { r with cfg := cfg }).raiseVd vd (.plain (some vd) 2 0x166 addr)

/-- Bytes written to a ring's area, which is in region 0; the Boolean says whether they were. -/
def State.ringWrite (s : State) (vd va : Nat) (bs : List Byte) : State × Bool :=
  let r := s.stepSegs vd ⟨bs.length, 0, .wr, .engine, false, [0]⟩ va true
  match r.2 with
  | .ok segs => (r.1.writeSegs vd segs bs, true)
  | .error _ => (r.1, false)

/-- Bytes written to a ring from its write pointer on, wrapping at its end. -/
def State.ringBytes (s : State) (vd : Nat) (sample : Bool) (bs : List Byte) : State :=
  let r := (s.vd vd).ring sample
  let off := r.wp.toNat % r.size
  let fst := bs.take (r.size - off)
  let snd := bs.drop (r.size - off)
  let a := s.ringWrite vd (r.base.toNat + off) fst
  let b := if snd.isEmpty || !a.2 then a else a.1.ringWrite vd r.base.toNat snd
  if !b.2 then b.1.ringFail vd sample (r.base + BitVec.ofNat 80 off)
  else
    b.1.modVd vd fun v =>
      let q := v.ring sample
      let wp := q.wp + BitVec.ofNat 32 bs.length
      v.setRing sample { q with wp := wp, shown := if v.msmode = 2 then q.shown else wp }

/-- The first word of a record. -/
def recHead (kind vd low : Nat) : List Byte := leBytes 4 (kind * 2 ^ 28 + vd % 256 * 2 ^ 20 + low)

/-- A record, whole with its continuations, or a drop with its LOSS record. -/
def State.ringRecord (s : State) (vd : Nat) (sample : Bool) (bs : List Byte) : State :=
  let r := (s.vd vd).ring sample
  if !ringBit r.cfg 31 then s
  else if (r.wp - r.rp).toNat + bs.length + 32 ≤ r.size then
    (s.ringBytes vd sample bs).modVd vd fun v => v.setRing sample { v.ring sample with lost := false }
  else
    let s1 := s.modVd vd fun v => v.setRing sample { v.ring sample with drop := (v.ring sample).drop + 1, lost := true }
    if r.lost then s1
    else s1.ringBytes vd sample
      (recHead 3 vd 0 ++ List.replicate 16 0 ++ leBytes 8 s.cycle ++ List.replicate 4 0)

/-- A write of xRP by the host that keeps the pointers within the ring, both as they are shown and as they are written (R384). -/
def execRingReadPointerWrite (vd : Nat) (sample : Bool) (w : W32) (s : State) : Out :=
  let r := (s.vd vd).ring sample
  .next (if (r.wp - w).toNat ≤ r.size && (r.shown - w).toNat ≤ r.size then s.modVd vd fun v => v.setRing sample { v.ring sample with rp := w } else s)

/-! ## MARK (R385, R386) -/

/-- The continuation records of lanes that span several logical groups (R385). -/
def State.contBytes (s : State) (vd : Nat) (g : Group) (m : LaneMask) : List Byte :=
  ((g.named m).drop 1).flatMap fun x =>
    recHead 6 vd 0 ++ leBytes 4 (s.launchOf g).toNat ++ leBytes 8 x.1.toNat ++ leBytes 4 x.2.toNat ++ List.replicate 12 0

/-- One MARK record with its continuations. -/
def State.markBytes (s : State) (vd : Nat) (g : Group) (live : LaneMask) (pc : Va) (id : Nat) : List Byte :=
  let li := leBytes 4 (s.launchOf g).toNat
  let range := (((s.vd vd).rangeAt pc).map (·.1)).getD 0 % 64
  match g.named live with
  | [] => []
  | e :: _ =>
    recHead 1 vd id ++ li ++ leBytes 8 e.1.toNat ++ leBytes 4 e.2.toNat ++ leBytes 8 s.cycle ++
      leBytes 1 g.core ++ leBytes 1 g.place ++ leBytes 1 range ++ [0] ++ s.contBytes vd g live

def execMark (h : Hints) (id : BitVec 20) (s : State) : Out :=
  issue h s [] fun c t =>
    (t.ringRecord c.b.vd false (t.markBytes c.b.vd c.g c.live c.p.pc id.toNat)).finishNow c h

/-! ## Stops (R391 to R396) -/

/-- A STOP record (R393). -/
def State.stopBytes (s : State) (vd : Nat) (g : Group) (m : LaneMask) (pc : Va) (unit code id : Nat) : List Byte :=
  let e := (g.named m).headD (0, 0)
  leBytes 4 (7 * 2 ^ 28 + vd % 256 * 2 ^ 20 + unit % 256 * 2 ^ 12 + code) ++ leBytes 4 (s.launchOf g).toNat ++
    leBytes 8 e.1.toNat ++ leBytes 4 e.2.toNat ++ leBytes 10 pc.toNat ++ leBytes 1 g.core ++ leBytes 1 g.place ++
    leBytes 4 id ++ leBytes 8 s.cycle ++ List.replicate 20 0

/-- The number of the next stop of a virtual device: stops are numbered from 1. -/
def VDev.nextStop (v : VDev) : Nat := v.stops + 1

/-- The lanes of a group that a stop holds. -/
def Group.stopped (g : Group) : LaneMask :=
  g.paths.foldl (fun (m : LaneMask) (p : Path) => if p.stop.isSome then m ||| p.mask else m) 0

/-- The lanes and the PC at which a group stands: those of its current path, of another, or of its parked lanes, by the record or the
captured access of the lowest. -/
def State.stands (s : State) (gid : Nat) (g : Group) : LaneMask × Va :=
  match (pathAt g.paths g.cur).orElse fun _ => g.paths.head? with
  | some p => (p.mask, p.pc)
  | none =>
    let parked := g.faults ++ s.pageParked gid g
    (g.alive, ((Tbl.find parked (lowLane g.alive)).map (·.pc)).getD 0)

/-- At the boundary of a stop every result of fixed latency of the paths that it holds has been written (R391). -/
def State.settleStops (s : State) : State :=
  let s1 := s.groups.foldl (fun (t : State) (e : Nat × Group) => t.land e.1 fun d => d.who &&& e.2.stopped ≠ 0) s
  { s1 with groups := s1.groups.map fun (e : Nat × Group) =>
      (e.1, { e.2 with paths := e.2.paths.map fun (p : Path) => if p.stop.isSome then { p with hazards := [] } else p }) }

/-- Bytes written to the stop area from the record of a stop on; they wrap at its end (R383). -/
def State.stopWrite (s : State) (vd n : Nat) (bs : List Byte) : State :=
  let base := (s.vd vd).dbase.toNat
  let off := 64 * (n % 16)
  let a := (s.devWrite vd (base + off) (bs.take (1024 - off))).1
  if bs.length ≤ 1024 - off then a else (a.devWrite vd base (bs.drop (1024 - off))).1

/-- A stop whose paths hold its number is reported: in SLICE mode after a forced milestone, by a record in the stop
area with the continuations of its lanes, by DSTAT and by an interrupt (R385, R391, R394). -/
def State.reportStop (s0 : State) (vd : Nat) (g : Group) (m : LaneMask) (pc : Va) (unit code id : Nat) : State :=
  let s := s0.settleStops
  let s1 := if (s.vd vd).msmode = 2 then s.milestone vd else s
  let n := (s1.vd vd).nextStop
  let w := s1.stopWrite vd n (s1.stopBytes vd g m pc unit code id ++ s1.contBytes vd g m)
  (w.modVd vd fun v => { v with stops := n }).raiseVd vd (.plain (some vd) 2 (BitVec.ofNat 9 code) pc)

/-- BKPT (R392). -/
def execBkpt (h : Hints) (id : BitVec 20) (s : State) : Out :=
  issue h s [] fun c t =>
    if !(t.vd c.b.vd).dcfg then t.finishNow c h
    else
      let n := (t.vd c.b.vd).nextStop
      let next := nextPc c.p.pc
      let s1 := (t.flagNow c h).fork c [(next, c.live), (next, c.p.mask &&& ~~~c.live)] c.live
      let s2 := s1.modGroup c.gid fun g =>
        { g with paths := g.paths.map fun p => if p.mask = c.live then { p with stop := some n } else p }
      s2.reportStop c.b.vd c.g c.live next 0xFF 0x160 id.toNat

/-- The `op` of an engine command, as breakpoints and stops name it (R393, R395). -/
def EngBody.op : EngBody → Nat
  | .copy .copy .. => 0x285
  | .copy .copyw .. => 0x286
  | .copy .copym .. => 0x287
  | .tloadcb .. => 0x304
  | .batload .. => 0x305
  | .mmt m => if m.fol then 0x287 else 0x307
  | .mmx .. => 0x308
  | .mresume .. => 0x309
  | .msave .. => 0x30A
  | .xfer store .. => if store then 0x30C else 0x30B
  | .mzero .. => 0x30D
  | .mdrain .. => 0x311
  | .coll .. => 0x319

/-- A breakpoint unit is armed for a kind, and a thread meets its filters (R395). -/
def BpUnit.meets (u : BpUnit) (kind : Nat) (launch blk : W32) (t : W64) : Bool :=
  let agree : Bool := (t.setWidth 16 ^^^ u.bpt.setWidth 16) &&& (u.bpt >>> 16).setWidth 16 = (0 : BitVec 16)
  u.bpf.getLsbD 31 && u.bpf.toNat / 2 ^ 28 % 8 = kind && (!u.bpf.getLsbD 25 || u.bpl = launch) &&
    (!u.bpf.getLsbD 24 || u.bpb = blk) && (!u.bpf.getLsbD 23 || agree)

/-- The lowest breakpoint unit that passes a test. -/
def VDev.firstUnit (v : VDev) (f : BpUnit → Bool) : Option (Nat × BpUnit) :=
  (List.range 8).findSome? fun k => match Tbl.find v.bps k with
    | some u => if f u then some (k, u) else none
    | none => none

/-- What a stop holds: the path of a lane, its group, its block, or every group of the virtual device. A group that is held as a
whole lets no entry set enter (R391). -/
def State.holdScope (s : State) (vd gid blk lane scp n : Nat) : State :=
  { s with groups := s.groups.map fun (e : Nat × Group) =>
      let inIt := if scp ≤ 1 then e.1 = gid else if scp = 2 then e.2.blk = blk else s.blkIn vd e.2.blk
      if inIt then
        (e.1, { e.2 with
          held := if scp = 0 then e.2.held else some (e.2.held.getD n)
          paths := e.2.paths.map fun (p : Path) =>
            if p.stop.isNone && (scp ≠ 0 || has p.mask lane) then { p with stop := some n, step := false } else p })
      else e }

/-- A stop is asked for: it is taken at the next tick (R391, R394). -/
def State.askStop (s : State) (vd : Nat) (a : StopAsk) : State := s.modVd vd fun v => { v with asks := v.asks ++ [a] }

/-- The lowest unit that an engine command of a group matches, at its acceptance (`kind` 1) or its completion (2), asks for a stop with
BREAK_ENG_ISSUE or BREAK_ENG_DONE at the group's next boundary. -/
def State.breakEng (s : State) (gid : Nat) (ltid : W64) (op kind : Nat) : State :=
  let vd := s.vdOf gid
  match Tbl.find s.groups gid with
  | none => s
  | some g =>
    match Tbl.find s.blocks g.blk with
    | none => s
    | some b =>
      if !(s.vd vd).dcfg then s
      else match (s.vd vd).firstUnit fun u =>
          u.meets kind (s.launchIx b) b.idx ltid && (u.bpa.toNat % 1024 = 0 || u.bpa.toNat % 1024 = op) with
        | none => s
        | some (k, u) =>
          s.askStop vd { gid := some gid, lane := g.cur, scp := u.bpf.toNat / 2 ^ 26 % 4, unit := k, code := 0x161 + kind, op := op }

/-- The group is held by a stop, whole or in one of its paths. -/
def Group.stoppedBy (g : Group) (serial : Nat) : Bool := g.held = some serial || g.paths.any fun p => p.stop = some serial

/-- What a stop holds of a group is released; with `step`, each path stops again after one instruction, and the group as a whole
stays held while it has such a path. -/
def Group.release (g : Group) (serial : Nat) (step : Bool) : Group :=
  { g with
    held := if g.held = some serial && !(step && g.paths.any fun p => p.stop = some serial) then none else g.held
    paths := g.paths.map fun (p : Path) => if p.stop = some serial then { p with stop := none, step := step } else p }

/-- What a stop holds is released. -/
def State.releaseStop (s : State) (vd serial : Nat) (step : Bool) : State :=
  { s with groups := s.groups.map fun (e : Nat × Group) =>
      if s.blkIn vd e.2.blk then (e.1, e.2.release serial step) else e }

def execDctlContinue (vd serial : Nat) (s : State) : Out := .next (s.releaseStop vd serial false)
def execDctlStep (vd serial : Nat) (s : State) : Out := .next (s.releaseStop vd serial true)

/-- DCTL stop request: every group of the virtual device is to stop with STOP_REQ (R396). -/
def execDctlStopReq (vd : Nat) (s : State) : Out :=
  .next (if (s.vd vd).dcfg && s.groups.any fun e => s.blkIn vd e.2.blk then
      s.askStop vd { gid := none, lane := 0, scp := 3, unit := 0xFF, code := 0x165, op := 0 }
    else s)

/-- The group that a stop is taken for: the one that it names, or the first of the virtual device, that stands on a core. -/
def State.stopGroup (s : State) (vd : Nat) (a : StopAsk) : Option (Nat × Group) :=
  s.groups.find? fun e => s.blkIn vd e.2.blk && s.standsOn e.2.blk && (a.gid.all fun x => e.1 = x)

/-- A stop that has been asked for is taken, and reported; one whose group has been revoked waits for its resumption (R394, R397), one
whose groups are all over, or that finds `en` cleared, is dropped. -/
def State.takeStop (s : State) (vd : Nat) (a : StopAsk) : State :=
  if !(s.vd vd).dcfg then s
  else match s.stopGroup vd a with
    | some (gid, g) =>
      let at' := s.stands gid g
      (s.holdScope vd gid g.blk a.lane a.scp (s.vd vd).nextStop).reportStop vd g at'.1 at'.2 a.unit a.code a.op
    | none =>
      if s.groups.any fun e => s.blkIn vd e.2.blk && (a.gid.all fun x => e.1 = x) then s.askStop vd a else s

/-- The stops that have been asked for are taken, in order. -/
def State.takeStops (s : State) : State :=
  s.vds.foldl (fun (t : State) (e : Nat × VDev) =>
    e.2.asks.foldl (fun (u : State) a => u.takeStop e.1 a) (if e.2.asks.isEmpty then t else t.modVd e.1 fun v => { v with asks := [] })) s

end Sys2Proof.Machine
end

