-- ==== Sys2Proof/Machine/Moves.lean ====
section
/-! DEFINITION. The moves, conversions and lane operations of class 3 (R141 to R149). -/

namespace Sys2Proof.Machine

/-- A handler path takes HANDLER_FAULT in place of an instruction it may not issue or a name it may not use
(R345); no other code is nested in it. -/
def State.handlerFault (s : State) (c : Ctx) : State := s.faultLive c 0 0 0 0 0

/-- The operand names j2 to j7, which a handler path must not (R345). -/
def namesHighJ : Opnd → Bool
  | .j n => 2 ≤ n.toNat
  | _ => false

/-- MOV: the source's shape, except that a written pair is U or G (R120, R142). A rejoin mask is gathered when it is written
(R103). -/
def execMov (h : Hints) (w64 : Bool) (d a : Opnd) (s : State) : Out :=
  if w64 then
    laneIssue h s 2 [(0, d, 2), (1, a, 2)] fun c li =>
      let x := c.src64 li 1 a
      dst64 c d (pairOf (VPair.isU x) (lane64 x))
  else
    issueWait h s [(0, d, 1), (1, a, 1)] fun c t =>
      if c.p.handler && (namesHighJ d || namesHighJ a) then .ok (t.handlerFault c)
      else
        let x := c.src (t.launchIx c.b) 1 a
        match d with
        | .j k => .ok (t.finishFixed c h 2 [.j k.toNat (x.lane (lowLane c.live)) c.p.handler])
        | d =>
          let ws := dst32 c d x
          t.roomed c ws (t.finishFixed c h 2 ws)

def execMovi (h : Hints) (d : Opnd) (imm : BitVec 20) (s : State) : Out :=
  laneIssue h s 2 [(0, d, 1)] fun c _ => dst32 c d (.u (imm.signExtend 32))

def execMovhi (h : Hints) (d : Opnd) (imm : BitVec 20) (s : State) : Out :=
  laneIssue h s 2 [(0, d, 1)] fun c _ => dst32 c d (.u (imm.setWidth 32 <<< 12))

/-! ## CVT (R143) -/

/-- What CVT makes of a format: a floating-point format, or an integer of a width and a signedness. -/
inductive CvtKind where
  | flo (f : FF)
  | int (w : Nat) (sgn : Bool)
  deriving DecidableEq, Repr

def cvtKind : CvtFmt → CvtKind
  | .f32 => .flo ffF32
  | .f64 => .flo ffF64
  | .f16 => .flo ffF16
  | .bf16 => .flo ffBF16
  | .e4m3 => .flo ffE4M3
  | .e5m2 => .flo ffE5M2
  | .s8 => .int 8 true
  | .n8 => .int 8 false
  | .s32 => .int 32 true
  | .s64 => .int 64 true

def cvtIs64 (f : CvtFmt) : Bool := f = .f64 || f = .s64

/-- A value rounded to an integer by a mode. -/
def roundInt (rm : Rm) (neg : Bool) (n d : Nat) : Int :=
  let t : Int := (roundStep neg rm (n / d) (n % d) d : Nat)
  if neg then -t else t

/-- An integer as its destination register holds it: `s8` sign-extended, `n8` zero-extended. -/
def intBits (w : Nat) (sgn : Bool) (t : Int) : Nat :=
  if w = 8 then
    let x := BitVec.ofInt 8 t
    if sgn then (x.signExtend 32).toNat else x.toNat
  else (BitVec.ofInt 64 t).toNat % 2 ^ w

/-- Conversion of the operand bits (the low 32 or 64 of the source) to the destination's bits (R143). -/
def cvt (rm : Rm) (sat : Bool) (frm dst : CvtKind) (x : Nat) : Nat :=
  match frm, dst with
  | .flo f, .flo g =>
    let v := f.decode (x % 2 ^ f.width)
    let r := roundFmt g rm v
    let top := (if v.isNeg then g.signBit else 0) + g.maxBits
    if sat && !v.isNan && (r % g.signBit > g.maxBits) then top else r
  | .flo f, .int w sgn =>
    match f.decode (x % 2 ^ f.width) with
    | .nan => 0
    | .inf neg => intBits w sgn (clamp w sgn (if neg then -(2 ^ 70) else 2 ^ 70))
    | .fin neg n d => intBits w sgn (clamp w sgn (roundInt rm neg n d))
  | .int w sgn, .flo g =>
    let t : Int := if sgn then (BitVec.ofNat 64 (x % 2 ^ w * 2 ^ (64 - w))).toInt / 2 ^ (64 - w) else (x % 2 ^ w : Nat)
    roundFmt g rm (EV.ofInt t)
  | .int w sgn, .int w2 sgn2 =>
    let t : Int := if sgn then (BitVec.ofNat 64 (x % 2 ^ w * 2 ^ (64 - w))).toInt / 2 ^ (64 - w) else (x % 2 ^ w : Nat)
    intBits w2 sgn2 (if sat then clamp w2 sgn2 t else t)

/-- The source of a conversion: an immediate is converted to a floating-point source format (R35), else
sign-extended. -/
def cvtSrc (c : Ctx) (li : W32) (frm : CvtFmt) (a : Opnd) : VPair :=
  match cvtKind frm with
  | .flo f => if cvtIs64 frm then c.srcF64 li 1 a else (c.srcF li 1 f a, .u 0)
  | .int _ _ => if cvtIs64 frm then c.src64 li 1 a else (c.src li 1 a, .u 0)

def execCvt (h : Hints) (rm : Rm) (sat : Bool) (dst frm : CvtFmt) (d a : Opnd) (s : State) : Out :=
  let wide := cvtIs64 dst
  laneIssue h s 4 [(0, d, if wide then 2 else 1), (1, a, if cvtIs64 frm then 2 else 1)] fun c li =>
    let x := cvtSrc c li frm a
    let f := fun l => BitVec.ofNat 64 (cvt rm sat (cvtKind frm) (cvtKind dst) (lane64 x l).toNat)
    let r := pairOf (VPair.isU x) f
    if wide then dst64 c d r else dst32 c d r.1

/-! ## CBDEC (R144) -/

/-- A TLOADCB of the block is under way for the entry. -/
def State.loadingCb (s : State) (core blk tx : Nat) : Bool :=
  ((s.core core).copyQ ++ (s.core core).follow).any fun q =>
    q.blk = blk && (match q.body with | .tloadcb i _ => i = tx | _ => false)

/-- The codebook values of a word: one, or two with `.x2`. -/
def cbdec (store : List Byte) (x2 : Bool) (nib : Nat) (a : W32) : W32 :=
  let code := fun i => a.toNat / 16 ^ i % 16
  if x2 then BitVec.ofNat 32 (cbValue store (code (2 * nib)) + 65536 * cbValue store (code (2 * nib + 1)))
  else BitVec.ofNat 32 (cbValue store (code nib))

/-- What CBDEC writes while its codebook is under way: undefined values where a codebook value would stand, in the shape of R120
(R144). -/
def unread (x2 uni : Bool) (seed : Nat) : VReg :=
  let f := fun l => if x2 then Config.freeWord seed 20 l else Config.freeWord seed 20 l &&& 0xFFFF
  if uni then .u (f 0) else .g (lanes f)

def execCbdec (h : Hints) (x2 : Bool) (d a : Opnd) (tx : BitVec 6) (nib : BitVec 3) (s : State) : Out :=
  issueWait h s [(0, d, 1), (1, a, 1)] fun c t =>
    let e := c.b.txEnt tx.toNat
    let store := c.b.store tx.toNat
    let loading := t.loadingCb c.g.core c.g.blk tx.toNat
    match txReason e (if loading then some [] else store) ⟨[.cb4], true, false, false⟩ with
    | some r => .ok (t.faultLive c 0x0E0 0 r tx.toNat 0)
    | none =>
      let x := c.src (t.launchIx c.b) 1 a
      let val := if loading then unread x2 x.isU c.seed
        else map1 (cbdec (store.getD []) x2 nib.toNat) x
      let ws := dst32 c d val
      t.roomed c ws (t.finishFixed c h 6 ws)

/-! ## SHFL, VOTE, REDUX, PRMT -/

/-- The lane that lane `l` reads (R145). -/
def shflFrom (narrow : Bool) (m : ShflMode) (l : Nat) (k : W32) : Nat :=
  let width : Int := if narrow then 16 else 32
  let low := k.toNat % 32
  let j : Int := match m with
    | .idx => if narrow then (low % 16 : Nat) else low
    | .xor => if narrow then ((l ^^^ low) % 16 : Nat) else (l ^^^ low : Nat)
    | .up => (l : Int) - k.toNat
    | .down => (l : Int) + k.toNat
  if j < 0 || width ≤ j then l else j.toNat

def execShfl (h : Hints) (m : ShflMode) (d : BitVec 8) (a b : Opnd) (imm : BitVec 12) (s : State) : Out :=
  laneIssue h s 8 [(0, .v d, 1), (1, a, 1), (2, b, 1)] fun c li =>
    let x := c.src li 1 a
    let y := addImm (c.src li 2 b) (simm imm)
    let at' := fun l => x.lane (shflFrom c.g.narrow m l (y.lane l))
    dst32 c (.v d) (if x.isU || (m = .idx && y.isU) then .u (at' 0) else .g (lanes at'))

def execVote (h : Hints) (m : VoteMode) (d : Opnd) (a : BitVec 4) (s : State) : Out :=
  laneIssue h s 8 [(0, d, 1)] fun c _ =>
    let p := c.pred 1 a.toNat &&& c.live
    match d with
    | .p n =>
      let r := match m with
        | .all => p = c.live
        | .any => p ≠ 0
        | .uni => p = c.live || p = 0
        | .ballot => p ≠ 0
      dstP c n fun _ => r
    | d => dst32 c d (.u p)

/-- The operation of REDUX on two words. -/
def reduxOp (op : ReduxOp) (x y : W32) : W32 :=
  match op with
  | .add => x + y
  | .umin => opMin false x y
  | .umax => opMax false x y
  | .smin => opMin true x y
  | .smax => opMax true x y
  | .and => x &&& y
  | .or => x ||| y
  | .xor => x ^^^ y

/-- The reduction over the lanes of a mask. -/
def redux (op : ReduxOp) (m : LaneMask) (x : VReg) : W32 :=
  match lanesOf m with
  | [] => 0
  | l :: ls => ls.foldl (fun r k => reduxOp op r (x.lane k)) (x.lane l)

def execRedux (h : Hints) (op : ReduxOp) (d : Opnd) (a : BitVec 8) (s : State) : Out :=
  laneIssue h s 12 [(0, d, 1), (1, .v a, 1)] fun c _ =>
    dst32 c d (.u (redux op c.live (c.v 1 a.toNat)))

/-- Byte i of PRMT.b for one six-bit field (R147). -/
def prmtByte (q : BitVec 64) (f : Nat) : Nat :=
  let x : Byte := (q >>> (8 * (f % 8))).setWidth 8
  match f / 8 with
  | 0 => x.toNat
  | 1 => 0
  | 2 => 255
  | 3 => x.reverse.toNat
  | 4 => (x.rotateLeft 4).toNat
  | 5 => (~~~x).toNat
  | _ => 0

/-- PRMT of one lane. -/
def prmt (nib : Bool) (a b ctl : W32) : W32 :=
  let q : BitVec 64 := b ++ a
  if nib then
    BitVec.ofNat 32 ((List.range 8).foldl (fun r i => r + q.toNat / 16 ^ (ctl.toNat / 16 ^ i % 16) % 16 * 16 ^ i) 0)
  else
    BitVec.ofNat 32 ((List.range 4).foldl (fun r i => r + prmtByte q (ctl.toNat / 64 ^ i % 64) * 256 ^ i) 0)

def execPrmt (h : Hints) (nib : Bool) (d a b x : Opnd) (s : State) : Out :=
  laneIssue h s 4 [(0, d, 1), (1, a, 1), (2, b, 1), (3, x, 1)] fun c li =>
    dst32 c d (map3 (prmt nib) (c.src li 1 a) (c.src li 2 b) (c.src li 3 x))

/-! ## SHAPE, EXPAND, SMOV, predicates -/

/-- SHAPE: a copy whose tag is recomputed (R148). -/
def execShape (h : Hints) (d a : BitVec 8) (s : State) : Out :=
  laneIssue h s 2 [(0, .v d, 1), (1, .v a, 1)] fun c _ =>
    let x := c.v 1 a.toNat
    dst32 c (.v d) (recompute c.g.width fun l => x.lane l)

def execShapeQ (h : Hints) (d : BitVec 6) (a : BitVec 8) (s : State) : Out :=
  laneIssue h s 2 [(0, .s d, 1), (1, .v a, 1)] fun c _ =>
    dst32 c (.s d) (.u (BitVec.ofNat 32 (c.v 1 a.toNat).tag))

/-- EXPAND: the live lanes take the source, every other lane keeps its value, and the destination is G, full write or not; no
recompute is made (R121, R148). -/
def execExpand (h : Hints) (d a : BitVec 8) (s : State) : Out :=
  laneIssue h s 4 [(0, .v d, 1), (1, .v a, 1)] fun c _ => [.expand d.toNat c.live (c.v 1 a.toNat)]

/-- One lane's value to a uniform register; lanes 16 to 31 read 0 in narrow mode (R148). -/
def smovLane (c : Ctx) (a : BitVec 8) (l : Nat) : W32 :=
  if c.g.narrow && 16 ≤ l then 0 else (c.v 1 a.toNat).lane l

def execSmov (h : Hints) (d : BitVec 6) (a : BitVec 8) (s : State) : Out :=
  laneIssue h s 2 [(0, .s d, 1), (1, .v a, 1)] fun c _ =>
    dst32 c (.s d) (.u (smovLane c a (lowLane c.live)))

/-- SMOV.chk: live lanes that differ all take NOT_UNIFORM (R148). -/
def execSmovChk (h : Hints) (d : BitVec 6) (a : BitVec 8) (s : State) : Out :=
  issue h s [(0, .s d, 1), (1, .v a, 1)] fun c t =>
    let x := c.v 1 a.toNat
    let v := x.lane (lowLane c.live)
    if (lanesOf c.live).all fun l => x.lane l = v then t.finishFixed c h 2 (dst32 c (.s d) (.u v))
    else t.faultLive c 0x02B 0 0 0 0

def execSmovLane (h : Hints) (d : BitVec 6) (a : BitVec 8) (ln : BitVec 5) (s : State) : Out :=
  laneIssue h s 2 [(0, .s d, 1), (1, .v a, 1)] fun c _ => dst32 c (.s d) (.u (smovLane c a ln.toNat))

def execPset (h : Hints) (nz : Bool) (d : BitVec 4) (a : Opnd) (s : State) : Out :=
  laneIssue h s 2 [(1, a, 1)] fun c li =>
    let x := c.src li 1 a
    dstP c d fun l => if nz then x.lane l ≠ 0 else (x.lane 0).getLsbD l

/-- PLOP on one lane (R149). -/
def plop (op : PlopOp) (x y z : Bool) : Bool :=
  match op with
  | .and => x && y && z
  | .or => x || y || z
  | .andor => (x && y) || z
  | .orand => (x || y) && z
  | .xor => x ^^ y ^^ z

def execPlop (h : Hints) (op : PlopOp) (na nb nc : Bool) (d a b x : BitVec 4) (s : State) : Out :=
  laneIssue h s 2 [] fun c _ =>
    let p := c.pred 1 a.toNat
    let q := c.pred 2 b.toNat
    let r := c.pred 3 x.toNat
    dstP c d fun l => plop op (has p l ^^ na) (has q l ^^ nb) (has r l ^^ nc)

end Sys2Proof.Machine
end

