-- ==== Sys2Proof/Machine/Tape.lean ====
section
/-! DEFINITION. The tape engine (R293 to R314, R412): the pool, the placement of entries in segments, overflow, the
reverse reads, and the tape instructions. -/

namespace Sys2Proof.Machine

/-- The track is locked to one issue order (R294). -/
def Track.locked (t : Track) : Bool := t.st = .recording || t.st = .rev

/-- The code of a track state in TPOP.st (R310). -/
def TapeSt.num : TapeSt → Nat
  | .idle => 0
  | .recording => 1
  | .held => 2
  | .rev => 3

/-! ## The pool (R297) -/

/-- The fields of a pool record. -/
structure Pool where
  fbase : Nat
  ntop : Nat
  cap : Nat
  truncate : Bool
  nfail : Nat
  deriving DecidableEq, Repr

/-- The record is malformed in itself. -/
def poolBad (bs : List Byte) : Bool :=
  let f := fun lo n => leNat ((bs.drop lo).take n)
  f 10 6 ≠ 0 || f 25 7 ≠ 0 || f 36 28 ≠ 0 || 1 < f 24 1 || f 20 4 = 0 || 2 ^ 20 < f 20 4 || f 20 4 < f 16 4 ||
    f 0 10 % 16 ≠ 0 || 2 ^ 80 < f 0 10 + f 20 4 * 16

def poolOf (bs : List Byte) : Pool :=
  let f := fun lo n => leNat ((bs.drop lo).take n)
  { fbase := f 0 10, ntop := f 16 4, cap := f 20 4, truncate := f 24 1 = 1, nfail := f 32 4 }

/-- A step at the pool: the state, and the underlying code of a failure (0: malformed). -/
abbrev PoolOut (α : Type) := State × Except Nat α

/-- The access lies in region 0. -/
def State.inHbm (s : State) (b : Block) (va n : Nat) : Bool :=
  match (s.engLook b .rd va n 0).2 with
  | .ok segs => segs.all fun g => g.region = 0
  | .error _ => true

/-- The checked pool record of a block's launch; none without a pool. -/
def State.poolRec (s : State) (b : Block) : PoolOut (Option Pool) :=
  let va := b.pool.toNat
  if va = 0 then (s, .ok none)
  else
    let r := s.engRead b va 64 0
    match r.2 with
    | .error e => (r.1, .error e.code)
    | .ok bs =>
      let p := poolOf bs
      let l := r.1.engLook b .rd p.fbase 16 1
      if va % 64 ≠ 0 || !r.1.inHbm b va 64 || poolBad bs then (r.1, .error 0)
      else match l.2 with
        | .error e => (l.1, .error e.code)
        | .ok segs => if segs.all fun g => g.region = 0 then (l.1, .ok (some p)) else (l.1, .error 0)

/-- One 32-bit field of the record is written. -/
def State.poolField (s : State) (b : Block) (off x : Nat) : PoolOut Unit :=
  let r := s.engWrite b (b.pool.toNat + off) 0 (leBytes 4 x)
  (r.1, match r.2 with
    | .ok _ => .ok ()
    | .error e => .error e.code)

/-- A pop: a segment, or none from an empty pool, which counts the failure. -/
def State.poolPop (s : State) (b : Block) : PoolOut (Option Va) :=
  let r := s.poolRec b
  match r.2 with
  | .error k => (s, .error k)
  | .ok none => (r.1, .ok none)
  | .ok (some p) =>
    if p.ntop = 0 then
      let w := r.1.poolField b 32 ((p.nfail + 1) % 2 ^ 32)
      match w.2 with
      | .error k => (s, .error k)
      | .ok _ => (w.1, .ok none)
    else
      let e := r.1.engRead b (p.fbase + 16 * (p.ntop - 1)) 16 2
      match e.2 with
      | .error f => (s, .error f.code)
      | .ok bs =>
        let a := leNat (bs.take 10)
        if leNat (bs.drop 10) ≠ 0 || a % 4096 ≠ 0 || !r.1.inHbm b (p.fbase + 16 * (p.ntop - 1)) 16 then (s, .error 0)
        else
          let w := e.1.poolField b 16 (p.ntop - 1)
          match w.2 with
          | .error k => (s, .error k)
          | .ok _ => (w.1, .ok (some (BitVec.ofNat 80 a)))

/-- A push of one segment; without a pool it raises nothing. -/
def State.poolPush (s : State) (b : Block) (a : Va) : PoolOut Unit :=
  let r := s.poolRec b
  match r.2 with
  | .error k => (s, .error k)
  | .ok none => (r.1, .ok ())
  | .ok (some p) =>
    if p.ntop = p.cap then (s, .error 0)
    else
      let e := r.1.engWrite b (p.fbase + 16 * p.ntop) 2 (leBytes 10 a.toNat ++ List.replicate 6 0)
      match e.2 with
      | .error f => (s, .error f.code)
      | .ok _ =>
        let w := e.1.poolField b 16 (p.ntop + 1)
        match w.2 with
        | .error k => (s, .error k)
        | .ok _ => (w.1, .ok ())

/-- Pushes for an instruction: all of them, or the first failure with nothing pushed. -/
def State.poolPushAll (s : State) (b : Block) : List Va → Except Nat State
  | [] => .ok s
  | a :: as =>
    let r := s.poolPush b a
    match r.2 with
    | .error k => .error k
    | .ok _ => r.1.poolPushAll b as

/-- Pushes without an instruction: a segment whose push fails stays outside the pool, and the function is told
(R297). -/
def State.poolReturn (s : State) (b : Block) (as : List Va) : State :=
  as.foldl (fun (t : State) a =>
    let r := t.poolPush b a
    match r.2 with
    | .error _ => t.raiseVd b.vd (.plain (some b.vd) 2 0x106 a)
    | .ok _ => r.1) s

/-! ## Placing entries (R295, R296, R299, R300) -/

/-- The words of an entry, footer last. -/
abbrev Entry := List W32

def entOpen (r : LaneMask) : Entry := [r, 0x10000000]
def entClose (r : LaneMask) : Entry := [r, 0x20000000]
def entBrd (act tk : LaneMask) : Entry := [act, tk, 0x50000000]
def entMark (id : BitVec 20) : Entry := [0x60000000 ||| id.setWidth 32]

/-- A BRU of pending bits, bit 0 oldest. -/
def entBru (bits : List Bool) : Entry :=
  [BitVec.ofNat 32 (4 * 2 ^ 28 + (bits.length - 1) * 2 ^ 23 + bitsBelow (fun i => bits.getD i false) bits.length)]

/-- The VAL entry of a source in the live lanes (R304). -/
def entVal (live : LaneMask) (r : VReg) : Entry :=
  match r with
  | .u x => [x, 0x30000002]
  | .a x y => [x, y, 0x34000003]
  | .g w =>
    let vs := (lanesOf live).map fun l => (VReg.g w).lane l
    live :: vs ++ [BitVec.ofNat 32 (3 * 2 ^ 28 + 2 * 2 ^ 26 + (vs.length + 2))]

/-- The bytes of an entry. -/
def Entry.bytes (e : Entry) : List Byte := e.flatMap fun (w : W32) => leBytes 4 w.toNat

/-- The full lines at the head of bytes that begin at an offset of a segment, and what stays in the fill line. -/
def cutLines : Nat → Nat → List Byte → List (Nat × List Byte) × List Byte
  | 0, _, bs => ([], bs)
  | fuel + 1, off, bs =>
    if bs.length < 128 then ([], bs)
    else
      let r := cutLines fuel (off + 128) (bs.drop 128)
      ((off, bs.take 128) :: r.1, r.2)

/-- The current segment (R412). -/
def Track.cur (t : Track) : Option Segment := t.segs.getLast?

/-- Where the next forward entry goes. -/
def Track.wpos (t : Track) : TapePos :=
  match t.cur with
  | some g => ⟨g.seq, 32 + g.used⟩
  | none => ⟨0, 0⟩

/-- The next entry fits in the current segment. -/
def Track.fits (t : Track) (e : Entry) : Bool :=
  match t.cur with
  | some g => 32 + g.used + 4 * e.length ≤ 4084
  | none => false

/-- The newest region changed by `f`. -/
def Track.modTop (t : Track) (f : Region → Region) : Track :=
  match t.regions with
  | r :: rs => { t with regions := f r :: rs }
  | [] => t

/-- An entry goes into the fill line of the current segment; the lines that it completes, each with its segment. -/
def Track.place (t : Track) (e : Entry) : Track × List (Va × Nat × List Byte) :=
  match t.cur with
  | none => (t, [])
  | some g =>
    let bs := t.fill ++ Entry.bytes e
    let cut := cutLines 3 (32 + g.used - t.fill.length) bs
    let g' := { g with used := g.used + 4 * e.length }
    let t1 := { t with segs := t.segs.dropLast ++ [g'], fill := cut.2 }
    let mark := (e.getLastD 0)
    (t1.modTop fun (r : Region) =>
      { r with first := if r.first = r.last then ⟨g.seq, 32 + g.used⟩ else r.first
               last := ⟨g.seq, 32 + g'.used⟩
               lastMark := if mark.toNat / 2 ^ 28 = 6 then mark &&& 0xFFFFF else r.lastMark },
      cut.1.map fun l => (g.addr, l.1, l.2))

def Track.placeAll (t : Track) : List Entry → Track × List (Va × Nat × List Byte)
  | [] => (t, [])
  | e :: es =>
    let r := t.place e
    let q := Track.placeAll r.1 es
    (q.1, r.2 ++ q.2)

/-- The entries that fit in the current segment, and the others. -/
def Track.split (t : Track) : List Entry → List Entry × List Entry
  | [] => ([], [])
  | e :: es =>
    if t.fits e then
      let r := Track.split (t.place e).1 es
      (e :: r.1, r.2)
    else ([], e :: es)

/-- What is left in the fill line, as a line. -/
def Track.rest (t : Track) : List (Va × Nat × List Byte) :=
  match t.cur with
  | some g => if t.fill.isEmpty then [] else [(g.addr, 32 + g.used - t.fill.length, t.fill)]
  | none => []

/-- The header of the current segment (R296); the names are those of the thread in lane slot 0. -/
def Track.header (t : Track) (g : Group) : List (Va × Nat × List Byte) :=
  match t.cur with
  | none => []
  | some sg =>
    let prev := ((t.segs.dropLast.getLast?).map (·.addr.toNat)).getD 0
    let id := g.lt 0
    [(sg.addr, 0, leBytes 10 prev ++ List.replicate 6 0 ++ leBytes 4 sg.used ++ leBytes 4 sg.seq ++
      leBytes 4 (ltidBlk id).toNat ++ leBytes 2 (ltidSser id).toNat ++ leBytes 2 (ltidGnum g.narrow id).toNat)]

/-- A new current segment. -/
def Track.take (t : Track) (a : Va) : Track :=
  let seq := match t.cur with
    | some g => g.seq + 1
    | none => 0
  { t with segs := t.segs ++ [{ addr := a, used := 0, seq := seq }], fill := [] }

/-- The TRUNC entry of the newest region, from byte `off` of it on (R308). -/
def Track.truncLine (t : Track) (off : Nat) : List (Va × Nat × List Byte) :=
  match t.regions with
  | r :: _ =>
    match r.truncSeg.bind fun k => t.segs.find? fun g => g.seq = k with
    | some g =>
      let e : Entry := [r.lastMark, BitVec.ofNat 32 r.dropped, 0x70000000]
      [(g.addr, 4084 + off, (Entry.bytes e).drop off)]
    | none => []
  | [] => []

/-- Lines on their way to their segments; lines in shared lines need a free one (R295). -/
def State.sendLines (s : State) (c : Ctx) (shared : Bool) (ls : List (Va × Nat × List Byte)) : State :=
  let new := ls.map fun l =>
    ({ vd := c.b.vd, blk := c.g.blk, gid := c.gid, seg := l.1, off := l.2.1, bytes := l.2.2, shared := shared,
       flag := none, ended := false } : TapeLine)
  if ls.isEmpty then s else s.modCore c.g.core fun k => { k with tape := k.tape ++ new }

def State.sharedFree (s : State) (core n : Nat) : Bool :=
  n = 0 || ((s.core core).tape.filter fun (l : TapeLine) => l.shared).length + n ≤ 32

/-- Why a tape instruction does not go on: it waits, or a fault with code, detail, information and address. -/
inductive TapeStop where
  | wait (why : Stall)
  | fault (code det info : Nat) (addr : Va) (more : Detail)

/-- What a tape instruction makes of the state: the state, which counts a failed pop also where the instruction
stops, and the stop. -/
abbrev TapeOut := State × Option TapeStop

/-- Entries are appended to the newest region (R300, R308): those that fit, then a new segment for the others, or
the truncation. Nothing is appended to a track whose memory has failed (R312). -/
def State.append (s : State) (c : Ctx) (t : Track) (es : List Entry) : TapeOut :=
  let done := fun (s : State) (t : Track) => s.modTrack c.gid fun _ => t
  let head := (t.split es).1
  let tail := (t.split es).2
  if t.dead then (s, none)
  else if (t.regions.headD ⟨0, ⟨0, 0⟩, ⟨0, 0⟩, false, none, 0, 0⟩).trunc then
    (done s (t.modTop fun (r : Region) => { r with dropped := r.dropped + es.length }), none)
  else
    let p := t.placeAll head
    if tail.isEmpty then
      if s.sharedFree c.g.core p.2.length then ((done s p.1).sendLines c true p.2, none)
      else (s, some (.wait .tape))
    else
      let got : PoolOut (Option Va) := match t.spare with
        | some a => (s, .ok (some a))
        | none => s.poolPop c.b
      match got.2 with
      | .error k => (s, some (.fault 0x106 k 0 c.b.pool .none))
      | .ok (some a) =>
        let q := ({ p.1 with spare := none }.take a).placeAll tail
        let full := p.2 ++ p.1.rest ++ q.2
        if s.sharedFree c.g.core (p.2.length + p.1.rest.length + q.2.length) then
          (((done got.1 q.1).sendLines c true full).sendLines c false (p.1.header c.g), none)
        else (s, some (.wait .tape))
      | .ok none =>
        let pol := match (got.1.poolRec c.b).2 with
          | .ok (some r) => r.truncate
          | _ => false
        if pol then
          let tr := p.1.modTop fun (r : Region) =>
            { r with trunc := true, dropped := tail.length, truncSeg := p.1.cur.map (·.seq) }
          if s.sharedFree c.g.core p.2.length then
            (((done got.1 tr).sendLines c true p.2).sendLines c false (tr.truncLine 0), none)
          else (s, some (.wait .tape))
        else
          let seq := match t.cur with
            | some g => g.seq + 1
            | none => 0
          (got.1, some (.fault 0x101 0 seq c.b.pool .none))

/-- Pending decision bits go out as one BRU before the entries (R300). -/
def State.emit (s : State) (c : Ctx) (t : Track) (es : List Entry) : TapeOut :=
  if t.pend.isEmpty then s.append c t es
  else s.append c { t with pend := [] } (entBru t.pend :: es)

/-! ## Recording decisions (R305) -/

/-- A BRA guarded by one of p0 to p14 records its decision while the track is in REC; the lanes it records for. -/
def State.recordBranch (s : State) (c : Ctx) (h : Hints) : TapeOut × LaneMask :=
  let t := c.g.track
  let r := (t.regions.headD ⟨0, ⟨0, 0⟩, ⟨0, 0⟩, false, none, 0, 0⟩).mask
  let act := c.p.mask &&& r
  let tk := c.live &&& r
  if t.st ≠ .recording || c.p.handler || h.gp = 15 || act = 0 then ((s, none), act)
  else if tk = 0 || tk = act then
    let bits := t.pend ++ [decide (tk = act)]
    if bits.length = 23 then (s.append c { t with pend := [] } [entBru bits], act)
    else ((s.modTrack c.gid fun t => { t with pend := bits }, none), act)
  else (s.emit c t [entBrd act tk], act)

/-! ## Removing regions (R307, R313) -/

/-- Bytes of the group are on their way to a segment, from its core or parked with its block. -/
def State.tapeBusy (s : State) (core gid : Nat) : Bool :=
  ((s.core core).tape.any fun (l : TapeLine) => l.gid = gid) || s.blocks.any fun e => e.2.lines.any fun (l : TapeLine) => l.gid = gid

/-- The segments that hold only the newest region's entries. -/
def Track.own (t : Track) : List Segment :=
  match t.regions with
  | r :: _ =>
    if r.first = r.last then []
    else t.segs.filter fun g => r.first.seg < g.seq || (r.first.seg = g.seq && r.first.off = 32)
  | [] => []

/-- The track without its newest region. -/
def Track.pop (t : Track) : Track :=
  let gone := t.own
  let left := t.segs.filter fun g => !gone.contains g
  let rs := t.regions.drop 1
  let segs := match left.getLast?, rs.head? with
    | some g, some r => left.dropLast ++ [{ g with used := if r.last.seg = g.seq then r.last.off - 32 else g.used }]
    | _, _ => left
  { t with st := if rs.isEmpty then .idle else .held, regions := rs, segs := segs, pend := [], fill := [],
           bruTaken := 0 }

/-- An instruction pushes the newest region's segments and removes it. -/
def State.popRegion (s : State) (c : Ctx) : TapeOut :=
  let t := s.track c.gid
  match s.poolPushAll c.b (t.own.map (·.addr)) with
  | .error k => (s, some (.fault 0x106 k 0 c.b.pool .none))
  | .ok u => (u.modTrack c.gid fun t => t.pop, none)

/-- Staged bytes of segments that leave a track are gone. -/
def State.dropLines (s : State) (core gid : Nat) (segs : List Va) : State :=
  s.modCore core fun k => { k with tape := k.tape.filter fun (l : TapeLine) => !(l.gid = gid && segs.contains l.seg) }

/-- The last lane of an open region has exited: the region is discarded (R313). -/
def State.exitRegion (s : State) (gid : Nat) : State :=
  match Tbl.find s.groups gid with
  | none => s
  | some g =>
    match Tbl.find s.blocks g.blk, g.track.regions with
    | some b, r :: _ =>
      if g.track.locked && !g.track.dead && r.mask &&& g.alive = 0 then
        let as := g.track.own.map (·.addr)
        (((s.dropLines g.core gid as).poolReturn b as)).modTrack gid fun t => t.pop
      else s
    | _, _ => s

/-- Group end, once what was staged has been written: every remaining segment and the spare are pushed (R313). -/
def State.endTrack (s : State) (gid : Nat) : State :=
  match Tbl.find s.groups gid with
  | none => s
  | some g =>
    match Tbl.find s.blocks g.blk with
    | none => s
    | some b =>
      let as := g.track.segs.map (·.addr) ++ g.track.spare.toList
      if as.isEmpty || g.track.dead then s
      else (s.poolReturn b as).modTrack gid fun _ => .init

/-! ## Reverse reads (R309) -/

/-- A position lies below another. -/
def TapePos.below (p q : TapePos) : Bool := p.seg < q.seg || (p.seg = q.seg && p.off < q.off)

/-- An entry that a reverse read finds: its first and its last position, its words. -/
structure Found where
  at' : TapePos
  top : TapePos
  words : Entry
  deriving DecidableEq, Repr

def Found.foot (f : Found) : W32 := f.words.getLastD 0
def Found.kind (f : Found) : Nat := f.foot.toNat / 2 ^ 28

/-- The length that a footer of a written kind gives; none for a footer that no entry ends in. -/
def footLen (w : W32) : Option Nat :=
  let low := w.toNat % 2 ^ 28
  match w.toNat / 2 ^ 28 with
  | 1 => if low = 0 then some 2 else none
  | 2 => if low = 0 then some 2 else none
  | 3 =>
    let len := w.toNat % 256
    let shape := low / 2 ^ 26
    if low / 256 % 2 ^ 18 ≠ 0 || shape = 3 || (shape = 0 && len ≠ 2) || (shape = 1 && len ≠ 3) ||
      (shape = 2 && (len < 3 || 34 < len)) then none else some len
  | 4 => if low / 2 ^ 23 < 23 then some 1 else none
  | 5 => if low = 0 then some 3 else none
  | 6 => if low / 2 ^ 20 = 0 then some 1 else none
  | 7 => if low = 0 then some 3 else none
  | _ => none

/-- A mask over the group's lanes. -/
def maskOk (g : Group) (m : W32) : Bool := m &&& ~~~g.full = 0

/-- The payload of an entry is one that was written: masks over the group's lanes, as many values as lanes. -/
def payloadOk (g : Group) (ws : Entry) : Bool :=
  match (ws.getLastD 0).toNat / 2 ^ 28 with
  | 1 => maskOk g (ws.headD 0)
  | 2 => maskOk g (ws.headD 0)
  | 3 => (ws.getLastD 0).toNat / 2 ^ 26 % 4 ≠ 2 ||
    (maskOk g (ws.headD 0) && (lanesOf (ws.headD 0)).length + 2 = ws.length)
  | 5 => maskOk g (ws.headD 0) && maskOk g (ws.getD 1 0)
  | _ => true

/-- What a read of the tape meets: an entry, a footer that no entry has, or a failed read. -/
inductive TapeRead where
  | ent (f : Found)
  | odd (foot : W32)
  | page (code page : Nat)
  | err (code : Nat) (addr : Va)
  deriving DecidableEq, Repr

/-- The position at the top of the entry below another: in the segment before, where a segment begins. -/
def Track.stepDown (t : Track) (p : TapePos) : TapePos :=
  if p.off ≤ 32 then
    match t.segs.find? fun g => g.seq + 1 = p.seg with
    | some g => ⟨g.seq, 32 + g.used⟩
    | none => p
  else p

/-- Words of a list of bytes. -/
def wordsOf : Nat → List Byte → List W32
  | 0, _ => []
  | n + 1, bs => BitVec.ofNat 32 (leNat (bs.take 4)) :: wordsOf n (bs.drop 4)

/-- The entry that ends at a position. -/
def State.entryAt (s : State) (c : Ctx) (t : Track) (pos : TapePos) (salt : Nat) : TapeRead :=
  let p := t.stepDown pos
  match t.segs.find? fun g => g.seq = p.seg with
  | none => .odd 0
  | some g =>
    let fail := fun e => match e with
      | EFail.page code page => TapeRead.page code page
      | EFail.bad code _ => TapeRead.err code g.addr
    match (s.engRead c.b (g.addr.toNat + p.off - 4) 4 salt).2 with
    | .error e => fail e
    | .ok fb =>
      let foot : W32 := BitVec.ofNat 32 (leNat fb)
      match footLen foot with
      | none => .odd foot
      | some len =>
        if p.off < 32 + 4 * len then .odd foot
        else match (s.engRead c.b (g.addr.toNat + p.off - 4 * len) (4 * len) salt).2 with
          | .error e => fail e
          | .ok bs =>
            let ws := wordsOf len bs
            if payloadOk c.g ws then .ent { at' := ⟨p.seg, p.off - 4 * len⟩, top := p, words := ws } else .odd foot

/-- An entry that carries a decision. -/
def Found.decides (f : Found) : Bool := f.kind = 4 || f.kind = 5

/-- The entry that the value position takes next: entries of decisions already consumed are passed over. -/
def State.valueRead (s : State) (c : Ctx) (t : Track) : Nat → TapePos → TapeRead
  | 0, pos => s.entryAt c t pos 0
  | fuel + 1, pos =>
    match s.entryAt c t pos fuel with
    | .ent f => if f.decides && !f.at'.below t.dpos then s.valueRead c t fuel f.at' else .ent f
    | r => r

/-- The entry that the decision position takes next: values and marks are passed over. -/
def State.decisionRead (s : State) (c : Ctx) (t : Track) : Nat → TapePos → TapeRead
  | 0, pos => s.entryAt c t pos 0
  | fuel + 1, pos =>
    match s.entryAt c t pos fuel with
    | .ent f => if f.kind = 3 || f.kind = 6 then s.decisionRead c t fuel f.at' else .ent f
    | r => r

/-- More entries than the segments of a track can hold. -/
def Track.fuel (t : Track) : Nat := 1024 * t.segs.length + 1

/-- A read at a position of the newest region (R308, R309): an entry, or why the instruction stops: truncation, a
missing page, a failed read, a footer that it cannot take. -/
def tapeGet (c : Ctx) (t : Track) (expect : Nat) (r : TapeRead) : Except TapeStop Found :=
  match t.regions with
  | [] => .error (.fault 0x100 0 t.st.num 0 .none)
  | top :: _ =>
    if top.trunc then .error (.fault 0x102 top.lastMark.toNat top.dropped 0 (.trunc top.lastMark top.dropped))
    else match r with
      | .ent f => .ok f
      | .odd foot => .error (.fault 0x103 expect foot.toNat 0 .none)
      | .page _ page => .error (.wait (.page c.b.vd page))
      | .err code addr => .error (.fault 0x108 code 0 addr .none)

/-! ## The instructions (R302) -/

/-- The stop of a tape instruction: it waits, takes a precise fault in the lanes of `m`, or finds that its read has
failed, which parks every active lane (R312). -/
def State.tapeStop (s : State) (c : Ctx) (m : LaneMask) (e : TapeStop) : Except Stall State :=
  match e with
  | .wait why => .error why
  | .fault code det info addr more =>
    if code = 0x108 then
      let k := if det = 0x06B || det = 0x067 then 0x10A else 0x108
      .ok (((s.modTrack c.gid fun _ => .init)).fault c c.p.mask fun _ => c.frec s (BitVec.ofNat 9 k) 0 det 0 addr)
    else .ok (s.fault c m fun _ => { c.frec s (BitVec.ofNat 9 code) 0 det info addr with more := more })

/-- The outcome of a step of a tape instruction in the live lanes: on success the path goes on. -/
def State.tapeDone (r : TapeOut) (c : Ctx) (h : Hints) : Except Stall State :=
  match r.2 with
  | none => .ok (r.1.finishNow c h)
  | some e => r.1.tapeStop c c.live e

/-- The issue of a tape instruction, an error point of tape faults; handler paths may not issue it. -/
def tapeIssue (h : Hints) (s : State) (ops : List (Nat × Opnd × Nat))
    (k : Ctx → State → Except Stall State) : Out :=
  issueAt .tape h s ops fun c t => if c.p.handler then .ok (t.handlerFault c) else k c t

/-- TAPE_STATE with its reason (R301). -/
def stateStop (t : Track) (reason : Nat) : TapeStop := .fault 0x100 reason t.st.num 0 .none

/-- TBEGIN (R303, R412). -/
def execTbegin (h : Hints) (s : State) : Out :=
  tapeIssue h s [] fun c t =>
    let tr := c.g.track
    if tr.locked then t.tapeStop c c.live (stateStop tr 0)
    else if 255 ≤ tr.regions.length then t.tapeStop c c.live (stateStop tr 2)
    else
      let r : Region := { mask := c.live, first := tr.wpos, last := tr.wpos, trunc := false, truncSeg := none,
                          dropped := 0, lastMark := 0xFFFFFFFF }
      State.tapeDone (t.append c { tr with st := .recording, regions := r :: tr.regions, pend := [] }
        [entOpen c.live]) c h

/-- TBEGIN.seg (R303): the segment at EA becomes the track's spare. -/
def execTbeginSeg (h : Hints) (a : BitVec 4) (b : Opnd) (imm : BitVec 12) (s : State) : Out :=
  issueAt .tape h s [(2, b, 1)] fun c t =>
    let ea := c.ea (t.launchIx c.b) a b false imm (lowLane c.live)
    if ea.toNat % 4096 ≠ 0 then t.tapeStop c c.live (.fault 0x105 0 0 ea .none)
    else
      match t.poolPushAll c.b c.g.track.spare.toList with
      | .error k => t.tapeStop c c.live (.fault 0x106 k 0 c.b.pool .none)
      | .ok u => .ok ((u.modTrack c.gid fun tr => { tr with spare := some ea }).finishNow c h)

/-- A live lane lies outside the newest region. -/
def Ctx.outside (c : Ctx) : Bool :=
  match c.g.track.regions with
  | r :: _ => c.live &&& ~~~r.mask ≠ 0
  | [] => true

/-- TREC (R304). -/
def execTrec (h : Hints) (a : Opnd) (s : State) : Out :=
  tapeIssue h s [(1, a, 1)] fun c t =>
    let tr := c.g.track
    if tr.st ≠ .recording then t.tapeStop c c.live (stateStop tr 0)
    else if c.outside then t.tapeStop c c.live (stateStop tr 1)
    else State.tapeDone (t.emit c tr [entVal c.live (c.src (t.launchIx c.b) 1 a)]) c h

/-- The lines of the group on their way are those of an ended region (R307). -/
def endLines (gid : Nat) (ls : List TapeLine) : List TapeLine := ls.map fun l => if l.gid = gid then { l with ended := true } else l

/-- The last line of the group on its way completes the flag. -/
def flagLast (gid : Nat) (f : Option Nat) (ls : List TapeLine) : List TapeLine :=
  match ls.reverse with
  | l :: rest => if l.gid = gid then (rest.reverse ++ [{ l with flag := f }]) else ls
  | [] => ls

/-- The forward TEND (R300, R307, R308): the last entries, the rest of the fill line, the header; the flag completes
with the last of the lines. -/
def State.endForward (s : State) (c : Ctx) (h : Hints) : Except Stall State :=
  let tr := c.g.track
  let r := (tr.regions.headD ⟨0, ⟨0, 0⟩, ⟨0, 0⟩, false, none, 0, 0⟩).mask
  let e := s.emit c tr [entClose r]
  match e.2 with
  | some stop => e.1.tapeStop c c.live stop
  | none =>
    let t1 := e.1.track c.gid
    let ls := t1.rest ++ t1.truncLine 4 ++ t1.header c.g
    let s1 := (e.1.modTrack c.gid fun t => { t with st := .held, fill := [] }).sendLines c false ls
    if ls.isEmpty then
      .ok ((s1.modCore c.g.core fun k => { k with tape := endLines c.gid k.tape }).finishNow c h)
    else
      let s2 := s1.modCore c.g.core fun k => { k with tape := endLines c.gid (flagLast c.gid (setFlag h) k.tape) }
      .ok ((s2.modGroup c.gid fun g => g.flagUp (setFlag h)).advance c 0)

/-- The reverse TEND (R307). -/
def State.endReverse (s : State) (c : Ctx) (h : Hints) : Except Stall State :=
  let tr := c.g.track
  match tapeGet c tr 1 (s.valueRead c tr tr.fuel tr.vpos) with
  | .error e => s.tapeStop c c.live e
  | .ok f =>
    let r := (tr.regions.headD ⟨0, ⟨0, 0⟩, ⟨0, 0⟩, false, none, 0, 0⟩).mask
    if f.kind ≠ 1 || f.words.headD 0 ≠ r then s.tapeStop c c.live (.fault 0x103 1 f.foot.toNat 0 .none)
    else State.tapeDone (s.popRegion c) c h

def execTend (h : Hints) (s : State) : Out :=
  tapeIssue h s [] fun c t =>
    match c.g.track.st with
    | .recording => t.endForward c h
    | .rev => t.endReverse c h
    | .idle => t.tapeStop c c.live (stateStop c.g.track 0)
    | .held => t.tapeStop c c.live (stateStop c.g.track 0)

/-- TEND.drop (R307), once the region's bytes have been written. -/
def execTendDrop (h : Hints) (s : State) : Out :=
  tapeIssue h s [] fun c t =>
    let tr := c.g.track
    if tr.st ≠ .rev && tr.st ≠ .held then t.tapeStop c c.live (stateStop tr 0)
    else if t.tapeBusy c.g.core c.gid then .error .tape
    else State.tapeDone (t.popRegion c) c h

/-- TREV (R309), once the region's bytes have been written. -/
def execTrev (h : Hints) (s : State) : Out :=
  tapeIssue h s [] fun c t =>
    let tr := c.g.track
    if tr.st ≠ .held then t.tapeStop c c.live (stateStop tr 0)
    else if t.tapeBusy c.g.core c.gid then .error .tape
    else
      let top := tr.regions.headD ⟨0, ⟨0, 0⟩, ⟨0, 0⟩, false, none, 0, 0⟩
      if top.trunc then
        if c.outside then t.tapeStop c c.live (stateStop tr 1)
        else .ok ((t.modTrack c.gid fun x => { x with st := .rev, vpos := top.last, dpos := top.last,
                                                      bruTaken := 0 }).finishNow c h)
      else match tapeGet c tr 2 (t.entryAt c tr top.last 0) with
        | .error e => t.tapeStop c c.live e
        | .ok f =>
          let r := f.words.headD 0
          if f.kind ≠ 2 then t.tapeStop c c.live (.fault 0x103 2 f.foot.toNat 0 .none)
          else if c.live &&& ~~~r ≠ 0 then t.tapeStop c c.live (stateStop tr 1)
          else .ok ((t.modTrack c.gid fun x =>
            { x.modTop fun (q : Region) => { q with mask := r } with
              st := .rev, vpos := f.at', dpos := f.at', bruTaken := 0 }).finishNow c h)

/-- The value of lane `l` in a VAL of shape G: values stand in ascending lane order. -/
def packedLane (m : LaneMask) (vs : List W32) (l : Nat) : W32 :=
  if has m l then vs.getD ((lanesOf m).filter fun k => k < l).length 0 else 0

/-- The value of a VAL entry (R310). -/
def Found.value (f : Found) : VReg :=
  match f.foot.toNat / 2 ^ 26 % 4 with
  | 0 => .u (f.words.headD 0)
  | 1 => .a (f.words.headD 0) (f.words.getD 1 0)
  | _ => .g (lanes fun l => packedLane (f.words.headD 0) (f.words.drop 1) l)

/-- TPOP (R310). -/
def execTpop (h : Hints) (d : Opnd) (s : State) : Out :=
  tapeIssue h s [(0, d, 1)] fun c t =>
    let tr := c.g.track
    if tr.st ≠ .rev then t.tapeStop c c.live (stateStop tr 0)
    else match tapeGet c tr 3 (t.valueRead c tr tr.fuel tr.vpos) with
      | .error e => t.tapeStop c c.live e
      | .ok f =>
        let scalar := match d with
          | .s _ => true
          | _ => false
        if f.kind ≠ 3 || (scalar && !f.value.isU) then t.tapeStop c c.live (.fault 0x103 3 f.foot.toNat 0 .none)
        else
          let ws := dst32 c d f.value
          t.roomed c ws ((t.modTrack c.gid fun x => { x with vpos := f.at' }).finishV c h ws)

/-- The status word of TPOP.st (R310). -/
def Track.status (t : Track) : W32 :=
  let trunc := match t.regions with
    | r :: _ => if r.trunc then 1 else 0
    | [] => 0
  BitVec.ofNat 32 (t.st.num * 2 ^ 30 + trunc * 2 ^ 29 + (if t.spare.isSome then 2 ^ 28 else 0) +
    t.regions.length % 256 * 2 ^ 16 + t.segs.length % 2 ^ 16)

def execTpopSt (h : Hints) (d : BitVec 6) (s : State) : Out :=
  tapeIssue h s [(0, .s d, 1)] fun c t => .ok (t.finishV c h [.s d.toNat c.g.track.status])

/-- TMARK (R306). -/
def execTmark (h : Hints) (id : BitVec 20) (s : State) : Out :=
  tapeIssue h s [] fun c t =>
    let tr := c.g.track
    match tr.st with
    | .recording => State.tapeDone (t.emit c tr [entMark id]) c h
    | .rev =>
      match tapeGet c tr 6 (t.valueRead c tr tr.fuel tr.vpos) with
      | .error e => t.tapeStop c c.live e
      | .ok f =>
        if f.kind ≠ 6 then t.tapeStop c c.live (.fault 0x103 6 f.foot.toNat 0 .none)
        else if f.foot.setWidth 20 ≠ id then
          t.tapeStop c c.live (.fault 0x104 id.toNat (f.foot.toNat % 2 ^ 20) 0 (.marks (f.foot.toNat % 2 ^ 20) id.toNat))
        else .ok ((t.modTrack c.gid fun x => { x with vpos := f.at' }).finishNow c h)
    | .idle => t.tapeStop c c.live (stateStop tr 0)
    | .held => t.tapeStop c c.live (stateStop tr 0)

/-- The lanes that a decision sends to the target, and the track once the decision is taken (R311). -/
def decide' (t : Track) (live : LaneMask) (f : Found) : LaneMask × Track :=
  if f.kind = 5 then (live &&& f.words.getD 1 0, { t with dpos := f.at', bruTaken := 0 })
  else
    let n := f.foot.toNat / 2 ^ 23 % 32 + 1
    let taken := if f.top = t.dpos then t.bruTaken else 0
    let i := n - 1 - taken
    let br := if f.foot.getLsbD i then live else 0
    (br, if i = 0 then { t with dpos := f.at', bruTaken := 0 } else { t with dpos := f.top, bruTaken := taken + 1 })

/-- TBR (R311): the fall-through path stays current. -/
def execTbr (h : Hints) (disp : BitVec 20) (s : State) : Out :=
  tapeIssue h s [] fun c t =>
    let tr := c.g.track
    if tr.st ≠ .rev then t.tapeStop c c.live (stateStop tr 0)
    else match tapeGet c tr 4 (t.decisionRead c tr tr.fuel tr.dpos) with
      | .error e => t.tapeStop c c.live e
      | .ok f =>
        if !f.decides then t.tapeStop c c.live (.fault 0x103 4 f.foot.toNat 0 .none)
        else
          let k := decide' tr c.live f
          let fall := c.p.mask &&& ~~~k.1
          let s1 := (t.modTrack c.gid fun _ => k.2).flagNow c h
          .ok (s1.fork c [(nextPc c.p.pc, fall), (slotTarget c.p.pc disp.toInt, k.1)]
            (if fall = 0 then k.1 else fall))

/-! ## Lines reach their segments (R295, R303, R312) -/

/-- The line stands behind another of its group, which is written first (R300). -/
def lineFirst (ls : List TapeLine) (ix : Nat) (l : TapeLine) : Bool := !((ls.take ix).any fun q => q.gid = l.gid)

/-- Staged bytes are written to their segment, wait for its page, or fail. -/
def State.writeLine (s : State) (core ix : Nat) (err : EngErr) : State :=
  (match (s.core core).tape[ix]? with
    | none => s
    | some l =>
      match Tbl.find s.blocks l.blk with
      | none => s
      | some b =>
        if !lineFirst (s.core core).tape ix l then s
        else
          let r := s.engLook b .wr (l.seg.toNat + l.off) l.bytes.length 0
          let s1 := { r.1 with free := r.1.free + 1 }
          match r.2 with
          | .error (.page code page) =>
            if err = .pageFail then s1.tapeFail l.gid 0x109 code l.seg else s1.askPage l.vd page core
          | .error (.bad code _) => s1.tapeFail l.gid 0x109 code l.seg
          | .ok segs =>
            if segs.any fun g => g.region ≠ 0 then s1.tapeFail l.gid 0x109 0x098 l.seg
            else match s1.segsFail l.vd segs true (engMem err) with
              | some why =>
                let s2 := s1.poisonIf l.vd true (engMem err) segs
                s2.tapeFail l.gid 0x10A (engCode why) l.seg
              | none =>
                let s2 := s1.writeSegs l.vd segs l.bytes
                let s3 := (s2.modCore core fun k => { k with tape := k.tape.eraseIdx ix }).countCore core 0x2C (some l.vd)
                  (l.bytes.length / 32)
                s3.modGroup l.gid fun g => g.flagDown l.flag)

/-- TAPE_LINE_WRITE. -/
def execTapeLineWrite (core ix : Nat) (err : EngErr) (s : State) : Out := .next (s.writeLine core ix err)

/-- The lines of a block are written in order, from the `ix`-th of the core's lines on; those that wait for a page stay. -/
def State.flushLines (core blk : Nat) : Nat → Nat → State → State
  | 0, _, s => s
  | fuel + 1, ix, s =>
    match (s.core core).tape[ix]? with
    | none => s
    | some l =>
      if l.blk ≠ blk then State.flushLines core blk fuel (ix + 1) s
      else
        let t := s.writeLine core ix .ok
        State.flushLines core blk fuel (if (t.core core).tape.length < (s.core core).tape.length then ix else ix + 1) t

end Sys2Proof.Machine
end

