-- ==== Sys2Proof/Machine/Control.lean ====
section
/-! DEFINITION. The control instructions of class 0 (R96 to R114), the end of groups and blocks (R25, R89), and the
bins of REFORM (R104 to R106). -/

namespace Sys2Proof.Machine

/-! ## Branches and calls (R98 to R101) -/

/-- NOP (R98). -/
def execNop (h : Hints) (_x : BitVec 20) (s : State) : Out := issue h s [] fun c t => t.finishNow c h

/-- The split of a branch (R99): the taken path stays current. -/
def State.branch (s : State) (c : Ctx) (h : Hints) (target : Va) (live rest : LaneMask) : State :=
  (s.flagNow c h).fork c [(target, live), (nextPc c.p.pc, rest)] (if live = 0 then rest else live)

/-- An issue that acts also with an empty live set, as a recording BRA does (R305). -/
def issueAll (h : Hints) (s : State) (k : Ctx → State → Except Stall State) : Out :=
  match s.begin h .plain with
  | none => .next s
  | some (none, t) => .next t
  | some (some c, t) =>
    match k c t with
    | .ok u => .next (u.joinEntries c.gid (s.queued c.gid))
    | .error why => .next (s.stalled c.gid why)

/-- BRA (R99): it first records its decision (R305); lanes that it cannot record for take the fault and have not
branched. -/
def execBra (h : Hints) (disp : BitVec 20) (s : State) : Out :=
  issueAll h s fun c t =>
    let target := slotTarget c.p.pc disp.toInt
    let rest := c.p.mask &&& ~~~c.live
    let r := t.recordBranch c h
    match r.1.2 with
    | none => if c.live = 0 then .ok (r.1.1.idle c h) else .ok (r.1.1.branch c h target c.live rest)
    | some (.wait why) => .error why
    | some (.fault code det info addr more) =>
      let s1 := r.1.1.takeFault c.gid c.p.handler r.2 fun _ => { c.frec t (BitVec.ofNat 9 code) 0 det info addr with more := more }
      .ok (s1.branch c h target (c.live &&& ~~~r.2) (rest &&& ~~~r.2))

/-- The return address of a call goes into bD: the copy of the path of the live lanes, for b14 (R101). -/
def State.link' (s : State) (c : Ctx) (d : BitVec 4) : State :=
  if d = 14 then s
  else s.modGroup c.gid fun g => g.writeNow c.gid c.seed (.b d.toNat (nextPc c.p.pc) c.p.mask)

/-- The paths of the live lanes hold the return address in b14. -/
def State.linkPaths (s : State) (c : Ctx) (d : BitVec 4) : State :=
  if d = 14 then
    s.modGroup c.gid fun g => g.writeNow c.gid c.seed (.b 14 (nextPc c.p.pc) c.live)
  else s

/-- CALL (R101). -/
def execCall (h : Hints) (bD : BitVec 4) (disp : BitVec 20) (s : State) : Out :=
  issue h s [] fun c t =>
    (((t.link' c bD).branch c h (slotTarget c.p.pc disp.toInt) c.live (c.p.mask &&& ~~~c.live))).linkPaths c bD

/-- The target of lane `l` (R100). -/
def jumpTarget (c : Ctx) (li : W32) (bN : BitVec 4) (off : Option Opnd) (l : Nat) : Va :=
  let base := c.base 3 bN.toNat
  match off with
  | none => base
  | some o => if isCode base then slotTarget base ((c.src li 2 o).lane l).toInt else base

/-- BRX, CALLX and RET (R100): lanes whose target is no code address take TARGET_NOT_SLOT, the others form one path
for each target. -/
def State.jump (s : State) (c : Ctx) (h : Hints) (ret : Option (BitVec 4)) (target : Nat → Va) : State :=
  let bad := maskOf fun l => has c.live l && !isCode (target l)
  let good := c.live &&& ~~~bad
  let b14 := if ret = some 14 then nextPc c.p.pc else c.p.b14
  let s1 := match ret with
    | some d => s.link' c d
    | none => s
  let s2 := s1.takeFault c.gid c.p.handler bad fun l => { c.frec s 0x007 0 0 0 (target l) with b14 := b14 }
  let out := byTarget (lanesOf good) target ++ [(nextPc c.p.pc, c.p.mask &&& ~~~c.live)]
  let s3 := (s2.flagNow c h).fork c out (if good = 0 then c.p.mask &&& ~~~c.live else bit (lowLane good))
  match ret with
  | some d => s3.linkPaths c d
  | none => s3

def jumpOps (off : Option Opnd) : List (Nat × Opnd × Nat) :=
  match off with
  | some o => [(2, o, 1)]
  | none => []

/-- The issue of a register-target branch. -/
def jumpIssue (h : Hints) (s : State) (ret : Option (BitVec 4)) (bN : BitVec 4) (off : Option Opnd) : Out :=
  issue h s (jumpOps off) fun c t => t.jump c h ret (jumpTarget c (t.launchIx c.b) bN off)

def execBrx (h : Hints) (bN : BitVec 4) (s : State) : Out := jumpIssue h s none bN none
def execBrxIx (h : Hints) (off : Opnd) (bN : BitVec 4) (s : State) : Out := jumpIssue h s none bN (some off)
def execCallx (h : Hints) (bD bN : BitVec 4) (s : State) : Out := jumpIssue h s (some bD) bN none
def execCallxIx (h : Hints) (bD : BitVec 4) (off : Opnd) (bN : BitVec 4) (s : State) : Out :=
  jumpIssue h s (some bD) bN (some off)
def execRet (h : Hints) (bN : BitVec 4) (s : State) : Out := jumpIssue h s none bN none

/-! ## The end of groups and blocks (R25, R89) -/

/-- The group holds no thread any more and every flag of it has cleared. -/
def Group.over (g : Group) : Bool := g.alive = 0 && g.flagsClear

/-- A block has threads in bins: of a core, or in its own while it is parked. -/
def State.hasFiled (s : State) (blk : Nat) : Bool :=
  (s.cores.any fun e => e.2.bins.any fun b => b.blk = blk) || ((Tbl.find s.blocks blk).any fun (b : Block) => !b.bins.isEmpty)

/-- A block has no thread left: in no group and in no bin. -/
def State.blockOver (s : State) (blk : Nat) : Bool := s.groups.all (fun e => e.2.blk ≠ blk) && !s.hasFiled blk

/-- A group stands in a slot of a block. -/
def State.standsIn (s : State) (blk : Nat) (k : Nat × Nat) : Bool :=
  s.groups.any fun e => e.2.blk = blk && e.2.sched = k.1 && e.2.slot = k.2

/-- The slots of spawned groups that have gone are free again (R89), unless threads of the block wait in bins, which may be drawn
into them (R105). The slots of the declared groups stay the block's until it retires (R88). -/
def State.trimSlots (s : State) (blk : Nat) : State :=
  if s.hasFiled blk then s
  else s.modBlock blk fun b => { b with held := b.held.take b.ngr ++ (b.held.drop b.ngr).filter (s.standsIn blk) }

/-- A block retires (R25): slots lent to it are their owners' again, and its launch counts one resident block less. -/
def State.retireBlock (s : State) (blk : Nat) : State :=
  match Tbl.find s.blocks blk with
  | none => s
  | some b =>
    let blocks := (Tbl.drop s.blocks blk).map fun (e : Nat × Block) =>
      (e.1, { e.2 with tagTab := e.2.tagTab.map fun (x : Nat × TagEnt) =>
        match x.2.lentTo with
        | some (k, _) => if k = blk then (x.1, { x.2 with lentTo := none }) else x
        | none => x })
    ({ s with blocks := blocks }).modLaunch b.launch fun l => { l with resident := l.resident - 1 }

/-- The slot of a group that is over frees once what its track has staged is written (R300), its track ends, and its block retires
with its last thread. -/
def State.reap (s : State) (gid : Nat) : State :=
  match Tbl.find s.groups gid with
  | none => s
  | some g =>
    if !g.over || s.tapeBusy g.core gid then s
    else
      let s1 := s.endTrack gid
      let s2 := ({ s1 with groups := Tbl.drop s1.groups gid }).trimSlots g.blk
      if s2.blockOver g.blk then s2.retireBlock g.blk else s2

/-- Every group that is over. -/
def State.reapAll (s : State) : State := s.groups.foldl (fun (t : State) e => if e.2.over then t.reap e.1 else t) s

/-- Lanes leave their group at its EXIT: their rejoin bits, records and reservations go (R102). -/
def Group.leave (g : Group) (m : LaneMask) : Group :=
  { g with
    alive := g.alive &&& ~~~m
    occ := g.occ &&& ~~~m
    paths := dropLanes g.paths m
    cur := g.curWithout m
    j := g.j.map fun (e : Nat × LaneMask) => (e.1, e.2 &&& ~~~m)
    faults := (lanesOf m).foldl (fun t l => Tbl.drop t l) g.faults
    resv := (lanesOf m).foldl (fun t l => Tbl.drop t l) g.resv
    handler := g.handler.bind fun hd =>
      if hd.left &&& ~~~m = 0 then none
      else some { hd with left := hd.left &&& ~~~m, hj0 := hd.hj0 &&& ~~~m, hj1 := hd.hj1 &&& ~~~m } }

/-- EXIT (R102): in the producer group it waits until every engine command has ended (R243); as an error point it waits until
every access of its threads has been performed, so that each error is delivered to a live lane (R178, R198). -/
def execExit (h : Hints) (s : State) : Out :=
  issueAt .all h s [] fun c t =>
    if 0 < c.g.engOut then .error .engineWait
    else if t.threadBusy c.b.launch (c.g.ltids c.live) then .error .memoryQueue
    else
      let s1 := (t.flagNow c h).advance c c.live
      let s2 := s1.modGroup c.gid fun g => g.leave c.live
      let s3 := (s2.gatherAll c.gid false).gatherAll c.gid true
      .ok ((s3.exitRegion c.gid).reap c.gid)

/-! ## Rejoin masks (R103) -/

/-- The mask named is one that a handler path may not name (R345). -/
def highJ (c : Ctx) (k : BitVec 3) : Bool := c.p.handler && 2 ≤ k.toNat

def execJoin (h : Hints) (jk : BitVec 3) (s : State) : Out :=
  issue h s [] fun c t =>
    if highJ c jk then t.handlerFault c
    else (t.modGroup c.gid fun g =>
      g.setRejoin c.p.handler jk.toNat (g.rejoin c.p.handler jk.toNat ||| c.live)).finishNow c h

/-- WAITJ (R103): lanes with the bit wait at the instruction, the others pass and stay current; then the gather. -/
def execWaitj (h : Hints) (jk : BitVec 3) (s : State) : Out :=
  issue h s [] fun c t =>
    if highJ c jk then t.handlerFault c
    else
      let k := jk.toNat
      let waiters := c.live &&& c.rejoin 1 k
      let passers := c.p.mask &&& ~~~waiters
      let s1 := (t.flagNow c h).fork c [(nextPc c.p.pc, passers), (c.p.pc, waiters)]
        (if passers = 0 then waiters else passers)
      let s2 := if waiters = 0 then s1 else s1.modGroup c.gid fun g => g.setSt (lowLane waiters) (.join k)
      s2.gather c.gid c.p.handler k

/-! ## REFORM and its bins (R104 to R106) -/

/-- Why REFORM may not file a lane (R104). -/
def reformBad (c : Ctx) (idx : VReg) (l : Nat) : Option Nat :=
  let tape := c.g.track.locked && match c.g.track.regions with
    | r :: _ => has r.mask l
    | [] => false
  if (List.range 8).any fun k => has (c.rejoin (20 + k) k) l then some 0
  else if tape then some 1
  else if (idx.lane l).toInt < 0 || 4095 < (idx.lane l).toInt then some 2
  else none

/-- A thread as it is filed. -/
def Group.filed (g : Group) (gid nv l at' : Nat) : Filed :=
  { ltid := g.lt l
    v := (List.range nv).map fun n => (n, (g.vreg gid n).lane l)
    p := (List.range 15).map fun n => (n, has (g.preg gid n) l)
    s := (List.range 64).map fun n => (n, g.sreg gid n)
    b := (List.range 14).map fun n => (n, g.breg gid n)
    errs := (g.errs.filter fun e => e.thr = some (g.lt l)).map fun e => { e with flag := none }
    at' := at' }

/-- A thread joins the oldest bin of its key that has room, else a new one. -/
def fileIn (cap blk : Nat) (pc : Va) (hv : Bool) (t : Filed) : List Bin → List Bin
  | [] => [{ blk := blk, pc := pc, threads := [t], harvest := hv }]
  | b :: bs =>
    if b.blk = blk && b.pc = pc && b.threads.length < cap then { b with threads := b.threads ++ [t] } :: bs
    else b :: fileIn cap blk pc hv t bs

/-- The bins of a core can take threads for these targets, in this order (R104). -/
def Core.takes (k : Core) (cap blk : Nat) (hv : Bool) (targets : List Va) : Bool :=
  (targets.foldl (fun bs pc => fileIn cap blk pc hv { ltid := 0, v := [], p := [], s := [], b := [], errs := [], at' := 0 } bs)
    k.bins).length ≤ 64

/-- The lowest flag of a group that is pending. -/
def Group.firstFlag (g : Group) : Option Nat := (List.range 12).find? g.flagPending

/-- Lanes by ascending LTID. -/
def byLtid (g : Group) (ls : List Nat) : List Nat :=
  let ids := ls.foldl (fun acc l => insertUp (g.lt l) acc) []
  ids.filterMap fun x => ls.find? fun l => g.lt l = x

/-- The results of fixed latency of lanes are written, and the lanes' threads stand in the bins of the core (R45, R104). -/
def State.fileLanes (s0 : State) (c : Ctx) (target : Nat → Va) (m : LaneMask) : State :=
  let s := s0.land c.gid fun d => d.who &&& m ≠ 0
  let g := (Tbl.find s.groups c.gid).getD c.g
  let bins := (byLtid g (lanesOf m)).foldl (fun bs l =>
    fileIn g.width g.blk (target l) c.b.harvest (g.filed c.gid c.b.nv l s.cycle) bs) (s.core g.core).bins
  (s.modCore g.core fun k => { k with bins := bins }).countCore g.core 0x23 (some c.b.vd) (lanesOf m).length

/-- REFORM (R104): it waits for every flag of the group, and its path for the bins. -/
def execReform (h : Hints) (idx : Opnd) (s : State) : Out :=
  issueWait h s [(1, idx, 1)] fun c t =>
    match c.g.firstFlag with
    | some f => if c.p.handler then .ok (t.handlerFault c) else .error (.waitFlag f)
    | none =>
      if c.p.handler then .ok (t.handlerFault c)
      else
      let x := c.src (t.launchIx c.b) 1 idx
      let bad := maskOf fun l => has c.live l && (reformBad c x l).isSome
      let good := c.live &&& ~~~bad
      let target := fun l => slotTarget c.p.pc (1 + (x.lane l).toInt)
      let ts := (byLtid c.g (lanesOf good)).map target
      if !(t.core c.g.core).takes c.g.width c.g.blk c.b.harvest ts then .error (.bins ts)
      else
        let s1 := t.takeFault c.gid false bad fun l => c.frec t 0x039 0 ((reformBad c x l).getD 0) 0 0
        let s2 := s1.fileLanes c target good
        let s3 := (s2.flagNow c h).fork c [(nextPc c.p.pc, c.p.mask &&& ~~~c.live)] (c.p.mask &&& ~~~c.live)
        let s4 := s3.modGroup c.gid fun g =>
          { g.leave good with errs := g.errs.filter fun e => !((lanesOf good).any fun l => e.thr = some (g.lt l)) }
        .ok (s4.reap c.gid)

/-- A bin may be drawn: it is full, or its oldest thread has waited 256 cycles. -/
def Bin.ripe (b : Bin) (cap now : Nat) : Bool :=
  cap ≤ b.threads.length || b.threads.any fun t => t.at' + 256 ≤ now

/-- A slot that a block has been given and that no group stands in. -/
def State.emptySlot (s : State) (core blk : Nat) (b : Block) : Option (Nat × Nat) :=
  b.held.find? fun k => b.loc = .core core && !s.standsIn blk k

/-- A group as it is created: every flag clear, every mask zero, b13 and b15 the image base (R70, R106, R107). -/
def Group.fresh (blk core sched slot : Nat) (narrow : Bool) (img : Va) (ltid : Vector W64 32) (occ : LaneMask)
    (p : Path) (now : Nat) : Group :=
  { blk, core, sched, slot, narrow, regrouped := false, ltid, drawn := 0, occ, alive := occ, v := [], s := [], p := [],
    b := [(13, img), (15, img)], j := [], flags := [], flagDue := [], due := [], vpend := [], clobber := [], grow := [],
    paths := [p], cur := lowLane occ, since := now, rotate := false, lastIssue := none, yielded := false,
    readySince := none, stall := none, faults := [], entries := [], older := 0, handler := none, errs := [], halt := none,
    hscr := [], resv := [], track := .init, engOut := 0, noted := [], held := none, why := none }

/-- The fresh group of drawn threads (R106). -/
def drawGroup (gid blk core sched slot : Nat) (b : Block) (pc : Va) (ts : List Filed) (now : Nat) : Group :=
  let k := ts.length
  let nth := fun l => ts[l]?
  let occ := maskOf fun l => l < k
  let ltid : Vector W64 32 := Vector.ofFn fun i => ((nth i.val).map (·.ltid)).getD 0
  let g := Group.fresh blk core sched slot b.narrow b.img ltid occ
    (Path.fresh pc occ (Config.creationBase gid 14)) now
  let val := fun n l => ((nth l).bind fun t => Tbl.find t.v n).getD 0
  let first := nth 0
  { g with
    regrouped := true
    drawn := k
    v := (List.range b.nv).map fun n => (n, (recomputeOcc k (val n) fun l => Config.creationWord gid n l).trim b.narrow)
    p := (List.range 15).map fun n => (n, maskOf fun l => ((nth l).bind fun t => Tbl.find t.p n).getD false)
    s := (first.map (·.s)).getD []
    b := ((first.map (·.b)).getD []).filter (fun e => e.1 ≠ 13) ++ [(13, b.img), (15, b.img)]
    errs := ts.flatMap (·.errs) }

/-- A bin older than another: its oldest thread was filed earlier. -/
def Bin.age (b : Bin) : Nat := (b.threads.headD ⟨0, [], [], [], [], [], 0⟩).at'

/-- A bin can be drawn now (R105): it is ripe and its block has an empty slot. -/
def State.drawable (s : State) (core : Nat) (b : Bin) : Bool :=
  match Tbl.find s.blocks b.blk with
  | some k => b.ripe (if k.narrow then 16 else 32) s.cycle && (s.emptySlot core b.blk k).isSome
  | none => false

/-- BIN_DRAW: the oldest bin that can be drawn gives up to a group's worth of threads (R105, R106). -/
def execBinDraw (core bin : Nat) (s : State) : Out :=
  let bins := (s.core core).bins
  .next (match bins[bin]? with
    | none => s
    | some x =>
      match Tbl.find s.blocks x.blk with
      | none => s
      | some b =>
        match s.emptySlot core x.blk b with
        | none => s
        | some (sched, slot) =>
          let older := bins.any fun y => y.age < x.age && s.drawable core y
          if !s.drawable core x || older then s
          else
            let n := if b.narrow then 16 else 32
            let ts := x.threads.take n
            let gid := s.nextId
            let left := x.threads.drop n
            let bins' := if left.isEmpty then bins.eraseIdx bin else bins.set bin { x with threads := left }
            let s1 := s.modCore core fun k => { k with bins := bins' }
            ({ s1 with groups := s1.groups ++ [(gid, drawGroup gid x.blk core sched slot b x.pc ts s.cycle)]
                       nextId := gid + 1 }).trimSlots x.blk)

/-! ## SPAWN (R107, R108) -/

/-- Group slots of a scheduler from `lo` on that no block on the core has been given and no group stands in (R88). -/
def State.openSlots (s : State) (core sched lo n : Nat) : List Nat :=
  ((List.range n).map (· + lo)).filter fun k =>
    !(s.blocks.any fun e => e.2.loc = .core core && e.2.held.contains (sched, k)) &&
    !(s.groups.any fun e => e.2.core = core && e.2.sched = sched && e.2.slot = k && (match Tbl.find s.blocks e.2.blk with
      | some b => b.loc = .core core
      | none => false))

/-- The four slots of a scheduler for spawned groups, from `lo` on, that are free (R107). -/
def State.freeSlots (s : State) (core sched lo : Nat) : List Nat := s.openSlots core sched lo 4

/-- The full size of a context with `n` group parts (R316). -/
def Block.fullSize (b : Block) (n : Nat) : Nat :=
  8192 + (b.nt + b.nsl) * 1024 + n * (1024 + b.nv * 128 + 16 * ((b.nv + 63) / 64))

/-- The lay-by banks that a context reserves: those of its admission and of every SPAWN since (R317). -/
def Block.banks (b : Block) : Nat := (b.fullSize b.parts + 1023) / 1024

/-- The lay-by banks of a core that no context has reserved (R317, R325). -/
def State.freeBanks (s : State) (core : Nat) : Nat :=
  128 - s.blocks.foldl (fun a e =>
    if e.2.harvest && (e.2.loc = .core core || e.2.loc = .layby core) then a + e.2.banks else a) 0

/-- The schedulers and slots of `m` spawned groups, each on the scheduler with the most free entries. -/
def pickSlots : Nat → List (Nat × List Nat) → List (Nat × Nat)
  | 0, _ => []
  | m + 1, fs =>
    let best := fs.foldl (fun (b : Nat × List Nat) e => if b.2.length < e.2.length then e else b) (fs.headD (0, []))
    match best.2 with
    | [] => []
    | k :: rest => (best.1, k) :: pickSlots m (fs.map fun e => if e.1 = best.1 then (e.1, rest) else e)

/-- The spawned groups of a virtual device that are resident on a core. -/
def State.spawnedOn (s : State) (vd core : Nat) : Nat :=
  (s.groups.filter fun e => ltidSser (e.2.lt 0) ≠ 0 && (match Tbl.find s.blocks e.2.blk with
    | some b => b.vd = vd && b.loc = .core core
    | none => false)).length

/-- The status word of a failure. -/
def spawnFail (why : Nat) : W32 := BitVec.ofNat 32 (2 ^ 31 + why * 2 ^ 28)

/-- The reason for which SPAWN fails, in the order of R107. -/
def State.spawnWhy (s : State) (c : Ctx) (m : Nat) : Option Nat :=
  let core := c.g.core
  let lo := if c.b.harvest then 20 else 16
  let free := ((List.range 4).map fun k => (s.freeSlots core k lo).length).foldl (· + ·) 0
  let more := (c.b.fullSize (c.b.parts + m) + 1023) / 1024 - c.b.banks
  let quota := (s.vd c.b.vd).cfg 95 1
  let regs := if c.b.harvest then
      s.unreserved core + s.lendable core ((s.core core).keep * 128) < s.harvestUse core + m * c.b.nv * 4
    else s.unreserved core < m * c.b.nv * 128
  if m < 1 || 16 < m then some 5
  else if c.b.serials = 4095 then some 4
  else if free < m || (c.b.harvest && s.freeBanks core < more) then some 1
  else if quota < s.spawnedOn c.b.vd core + m then some 2
  else if regs then some 3
  else none

/-- A spawned group (R23, R107): its threads are named under the serial, its first registers are the parent's. -/
def Ctx.child (c : Ctx) (serial i : Nat) (sched slot : Nat) (entry : Va) (nargs : Nat) (gid now : Nat) : Group :=
  let w := c.g.width
  let sh := if c.g.narrow then 4 else 5
  let ltid : Vector W64 32 := Vector.ofFn fun l =>
    if l.val < w then BitVec.ofNat 64 (c.b.idx.toNat * 2 ^ 32 + serial * 2 ^ 20 + i * 2 ^ sh + l.val) else 0
  let g := Group.fresh c.g.blk c.g.core sched slot c.g.narrow c.b.img ltid c.g.full
    (Path.fresh entry c.g.full (Config.creationBase gid 14)) now
  { g with s := (List.range nargs).map fun n => (n, c.s (32 + n) n) }

/-- SPAWN (R107). -/
def execSpawn (h : Hints) (d : BitVec 6) (entry count : Opnd) (nargs : BitVec 8) (s : State) : Out :=
  issueWait h s [(0, .s d, 1), (1, entry, 1), (2, count, 1)] fun c t =>
    let li := t.launchIx c.b
    let e := (c.scalar li 1 entry).toNat
    let m := (c.scalar li 2 count).toNat
    let core := c.g.core
    if c.p.handler then .ok (t.handlerFault c)
    else if c.b.entries.length < e then .ok (t.faultLive c 0x03D 0 0 0 0)
    else match t.spawnWhy c m with
      | some why => .ok ((t.countCore core 0x25 (some c.b.vd) 1).finishV c h [.s d.toNat (spawnFail why)])
      | none =>
        let held := t.unreserved core - m * c.b.nv * 128 + t.lendable core 0
        if !c.b.harvest && held < t.harvestUse core then .error (.revocation (t.byteHolders core))
        else
          let at' := if e = 0 then c.b.entry else c.b.entries.getD (e - 1) 0
          let serial := c.b.serials + 1
          let lo := if c.b.harvest then 20 else 16
          let slots := pickSlots m ((List.range 4).map fun k => (k, t.freeSlots core k lo))
          let base := t.nextId
          let new := slots.zipIdx.map fun (x : (Nat × Nat) × Nat) =>
            (base + x.2, c.child serial x.2 x.1.1 x.1.2 at' nargs.toNat (base + x.2) t.cycle)
          let s1 := t.finishV c h [.s d.toNat (BitVec.ofNat 32 serial)]
          let s2 := { s1 with groups := s1.groups ++ new, nextId := base + slots.length,
                              results := s1.results.map fun (r : Pending) =>
                                if r.gid = c.gid && r.flag = h.set.toNat && r.wakes.isEmpty && !r.service then
                                  { r with wakes := new.map fun (q : Nat × Group) => q.1 } else r }
          .ok ((s2.modBlock c.g.blk fun b => { b with serials := serial, held := b.held ++ slots, parts := b.parts + slots.length }).countCore core
            0x24 (some c.b.vd) 1)

/-! ## YIELD (R109) -/

/-- YIELD: the path of the live lanes sleeps for n cycles, and the group's paths rotate (R294: not while the track
is in REC or REV). -/
def execYield (h : Hints) (n : BitVec 20) (s : State) : Out :=
  issue h s [] fun c t =>
    let next := nextPc c.p.pc
    let s1 := (t.flagNow c h).fork c [(next, c.live), (next, c.p.mask &&& ~~~c.live)] c.live
    s1.modGroup c.gid fun g =>
      let g1 := if n = 0 then g else g.setSt (lowLane c.live) (.sleep (c.now + n.toNat))
      { g1 with rotate := !g.track.locked }

/-- A sleep that has ended: the path that holds a lane is ready. -/
def Group.wake (g : Group) (l now : Nat) : Group :=
  match pathAt g.paths l with
  | some p =>
    match p.st with
    | .sleep till => if till ≤ now then g.setSt l .ready else g
    | _ => g
  | none => g

/-- YIELD_WAKE: a sleep ends. -/
def execYieldWake (grp path : Nat) (s : State) : Out := .next (s.modGroup grp fun g => g.wake path s.cycle)

/-! ## Barriers (R110 to R113) -/

/-- A barrier that has not been initialised. -/
def Barrier.none : Barrier := { init := false, count := 0, arrived := 0, phase := false, eng := 0 }

def Block.barrier (b : Block) (n : Nat) : Barrier := Tbl.getD b.bars n .none

/-- A path waits on a barrier of a block. -/
def State.barWaiters (s : State) (blk n : Nat) : Bool :=
  s.groups.any fun e => e.2.blk = blk && e.2.paths.any fun p => p.st = .bar n

/-- Arrivals at a barrier (R111): when C have arrived the waiting paths are ready behind their BAR. -/
def State.arrive (s : State) (blk n k : Nat) : State :=
  match Tbl.find s.blocks blk with
  | none => s
  | some b =>
    let x := b.barrier n
    let sum := x.arrived + k
    if x.init && x.count ≤ sum then
      let s1 := s.modBlock blk fun b =>
        { b with bars := Tbl.put b.bars n { x with arrived := sum - x.count, phase := !x.phase } }
      { s1 with groups := s1.groups.map fun (e : Nat × Group) =>
          if e.2.blk = blk then
            (e.1, { e.2 with paths := e.2.paths.map fun (p : Path) =>
              if p.st = (.bar n) then { p with st := .ready, pc := nextPc p.pc } else p })
          else e }
    else s.modBlock blk fun b => { b with bars := Tbl.put b.bars n { x with arrived := sum } }

/-- The issue of BAR and BARARV: an arrival is a release of the threads' earlier accesses, which have been
performed by then. -/
def barIssue (h : Hints) (s : State) (n : BitVec 4) (k : Ctx → State → State) : Out :=
  issueWait h s [] fun c t =>
    if c.p.handler then .ok (t.handlerFault c)
    else if !(c.b.barrier n.toNat).init then .ok (t.faultLive c 0x03B 0 0 0 0)
    else if t.threadBusy c.b.launch (c.g.ltids c.live) then .error .memoryQueue
    else .ok (k c t)

def execBar (h : Hints) (n : BitVec 4) (s : State) : Out :=
  barIssue h s n fun c t =>
    let rest := c.p.mask &&& ~~~c.live
    let s1 := (t.flagNow c h).fork c [(c.p.pc, c.live), (nextPc c.p.pc, rest)] c.live
    (s1.modGroup c.gid fun g => g.setSt (lowLane c.live) (.bar n.toNat)).arrive c.g.blk n.toNat
      (lanesOf c.live).length

def execBararv (h : Hints) (n : BitVec 4) (s : State) : Out :=
  barIssue h s n fun c t => (t.finishNow c h).arrive c.g.blk n.toNat (lanesOf c.live).length

/-- BARINIT (R112): acts once. -/
def State.barInit (s : State) (c : Ctx) (h : Hints) (n count : Nat) : State :=
  let x := c.b.barrier n
  if c.p.handler then s.handlerFault c
  else if count < 1 || 4095 < count then s.faultLive c 0x03C 0 0 0 0
  else if s.barWaiters c.g.blk n || 0 < x.eng then s.faultLive c 0x03A 0 0 0 0
  else
    (s.modBlock c.g.blk fun b =>
      { b with bars := Tbl.put b.bars n { x with init := true, count := count, arrived := 0 } }).finishNow c h

def execBarinit (h : Hints) (n : BitVec 4) (cnt : BitVec 12) (s : State) : Out :=
  issue h s [] fun c t => t.barInit c h n.toNat cnt.toNat

def execBarinitA (h : Hints) (cnt : Opnd) (n : BitVec 4) (s : State) : Out :=
  issue h s [(1, cnt, 1)] fun c t => t.barInit c h n.toNat (c.scalar (t.launchIx c.b) 1 cnt).toNat

/-! ## HVQ (R114) -/

/-- The logical number of a core for a partition. -/
def State.logicalCore (s : State) (vd core : Nat) : Nat :=
  let p := (s.vd vd).partition
  let own := (s.part p).gmask ||| (s.part p).mmask
  let cl := core / 8
  let lent : Bool := match Tbl.find s.lends cl with
    | some l => l.effect && l.borrower = p
    | none => false
  if lent then 256 + 8 * cl + core % 8
  else 8 * ((List.range cl).filter fun k => own.getLsbD k).length + core % 8

/-- The value that HVQ reads (R114). -/
def State.hvq (s : State) (c : Ctx) (sel : Nat) : W32 :=
  match sel with
  | 0 =>
    let core := s.logicalCore c.b.vd c.g.core % 2 ^ 16 * 2 ^ 16
    if c.b.harvest then
      BitVec.ofNat 32 (core + c.b.parks % 256 * 256 + (if c.b.moved then 4 else 0) + (if c.b.parked then 2 else 0) + 1)
    else BitVec.ofNat 32 core
  | 1 => BitVec.ofNat 32 (c.g.slack c.gid c.b.nv / 128)
  | _ => BitVec.ofNat 32 ((s.groupsOn c.g.core true).filter fun e => e.2.2.vd = c.b.vd).length

def execHvq (h : Hints) (d : BitVec 6) (sel : BitVec 4) (s : State) : Out :=
  issue h s [(0, .s d, 1)] fun c t =>
    let t1 := if sel = 0 then t.modBlock c.g.blk fun b => { b with moved := false, parked := false } else t
    t1.finishV c h [.s d.toNat (t.hvq c sel.toNat)]

end Sys2Proof.Machine
end

