-- ==== Sys2Proof/Machine/Scratch.lean ====
section
/-! DEFINITION. Scratchpad slots, the tag table, copy tags and completion counters (R227 to R233), and the instructions
of class 5 that start no engine command (R236 to R238, R246, R247). -/

namespace Sys2Proof.Machine

/-- Why an instruction of classes 5 and 6 is turned away with a precise fault in its live lanes. -/
structure Deny where
  code : Nat
  det : Nat
  info : Nat
  addr : Va
  pos : Nat
  followOn : Bool
  deriving DecidableEq, Repr

/-- A denial with nothing but its code. -/
def deny (code : Nat) : Deny := ⟨code, 0, 0, 0, 0, false⟩

/-- A denial that names an operand position. -/
def denyAt (code pos : Nat) : Deny := ⟨code, 0, 0, 0, pos, false⟩

/-- A denial as the precise fault of every live lane. -/
def State.denied (s : State) (c : Ctx) (d : Deny) : State :=
  s.fault c c.live fun _ =>
    { c.frec s (BitVec.ofNat 9 d.code) d.pos d.det d.info d.addr with followOn := d.followOn }

/-- The one value that an operand has in every active lane; none where it differs (R235, R265). -/
def Ctx.same (c : Ctx) (li : W32) (pos : Nat) (o : Opnd) : Option Nat :=
  let v := c.src li pos o
  let x := v.lane (lowLane c.p.mask)
  if (lanesOf c.p.mask).all fun l => v.lane l = x then some x.toNat else none

/-- A slot operand (R227, R235). -/
def Ctx.slot (c : Ctx) (li : W32) (pos : Nat) (o : Opnd) : Except Deny Nat :=
  match c.same li pos o with
  | none => .error (deny 0x02A)
  | some k => if c.b.nsp ≤ k then .error (deny 0x0A0) else .ok k

/-- The key of an address (R229). -/
def keyOf (ea : Va) : BitVec 70 := ea.extractLsb' 10 70

/-- The slot of a block whose valid entry holds a key. -/
def Block.hit (b : Block) (key : BitVec 70) : Option Nat :=
  (List.range b.nsp).find? fun k => (b.ent k).vld && (b.ent k).key = key

/-- A slot that LOOKUP may suggest (R230). -/
def TagEnt.open' (e : TagEnt) : Bool := e.busy = 0 && !e.absent && !e.lendable && e.lentTo.isNone

/-- The victim suggestion of R230. -/
def Block.victim (b : Block) : Option Nat :=
  let ks := (List.range b.nsp).filter fun k => (b.ent k).open'
  match ks.find? fun k => !(b.ent k).vld with
  | some k => some k
  | none => ks.foldl (fun (best : Option Nat) k => match best with
      | some j => if (b.ent k).age < (b.ent j).age then some k else best
      | none => some k) none

/-- LOOKUP's word for a key (R236), and the block with the hit's age set. -/
def Block.lookup (b : Block) (now : Nat) (key : BitVec 70) : Block × W32 :=
  match b.hit key with
  | some k => (b.setEnt k { b.ent k with age := now }, BitVec.ofNat 32 k)
  | none => (b, match b.victim with
      | some k => BitVec.ofNat 32 (2 ^ 31 + 2 ^ 30 + (if (b.ent k).vld then 0 else 2 ^ 29) + k)
      | none => BitVec.ofNat 32 (2 ^ 31))

/-- The lookups of lanes, in ascending order. -/
def lookups (now : Nat) (key : Nat → BitVec 70) : List Nat → Block → Block × List (Nat × W32)
  | [], b => (b, [])
  | l :: ls, b =>
    let x := b.lookup now (key l)
    let y := lookups now key ls x.1
    (y.1, (l, x.2) :: y.2)

def execLookup (h : Hints) (d : Opnd) (a : BitVec 4) (b : Opnd) (imm : BitVec 12) (s : State) : Out :=
  issueWait h s [(0, d, 1), (2, b, 1)] fun c t =>
    let key := fun l => keyOf (c.ea (t.launchIx c.b) a b false imm l)
    let once := b.isUs
    let r := lookups c.now key (if once then [lowLane c.live] else lanesOf c.live) c.b
    let val : VReg := if once then .u (Tbl.getD r.2 (lowLane c.live) 0) else .g (lanes fun l => Tbl.getD r.2 l 0)
    let ws := dst32 c d val
    t.roomed c ws ((t.modBlock c.g.blk fun _ => r.1).finishFixed c h 8 ws)

/-- The slot is lent out, so that an owner's instruction on it waits for its return (R231). -/
def Block.away (b : Block) (k : Nat) : Bool := !b.harvest && (b.ent k).lentTo.isSome

/-- TAGSET (R237): an absent harvest slot is left alone, a lendable slot is taken back first (R231). -/
def execTagset (h : Hints) (slot : Opnd) (a : BitVec 4) (u : Opnd) (imm : BitVec 12) (s : State) : Out :=
  issueWait h s [(0, slot, 1), (2, u, 1)] fun c t =>
    let key := keyOf (c.ea (t.launchIx c.b) a u false imm (lowLane c.live))
    match c.slot (t.launchIx c.b) 0 slot with
    | .error e => .ok (t.denied c e)
    | .ok k =>
      if (c.b.ent k).absent then .ok (t.finishNow c h)
      else if 0 < (c.b.ent k).busy then .ok (t.denied c (deny 0x0A1))
      else if (List.range c.b.nsp).any fun j => j ≠ k && (c.b.ent j).vld && (c.b.ent j).key = key then
        .ok (t.denied c (deny 0x0A2))
      else if c.b.away k then .error (.revocation (c.b.backed [k]))
      else .ok ((t.modBlock c.g.blk fun b =>
        let b1 := if (b.ent k).lendable then b.takeBack k else b
        b1.setEnt k { b1.ent k with vld := true, key := key, age := c.now }).finishNow c h)

/-! ## Lending (R231, R415) -/

/-- The harvest blocks resident on a core, the one admitted or resumed earliest first. -/
def State.harvestOn (s : State) (vd core : Nat) : List (Nat × Block) :=
  let mine := s.blocks.filter fun (e : Nat × Block) => e.2.harvest && e.2.vd = vd && e.2.loc = .core core
  sortBy (fun x y => x.2.came ≤ y.2.came) mine

/-- The lowest absent slot of a block. -/
def Block.firstAbsent (b : Block) : Option Nat := (List.range b.nsp).find? fun k => (b.ent k).absent

/-- A lendable slot of an owner block backs the first absent slot of the core's harvest blocks (R415), whose bytes are
then the owner slot's. -/
def State.bindSlot (s : State) (blk k : Nat) : State :=
  match Tbl.find s.blocks blk with
  | none => s
  | some b =>
    let core := match b.loc with
      | .core n => n
      | _ => 256
    if b.harvest || !(b.ent k).lendable || (b.ent k).lentTo.isSome then s
    else match (s.harvestOn b.vd core).find? fun e => e.2.firstAbsent.isSome with
      | none => s
      | some (hb, hblk) =>
        let j := hblk.firstAbsent.getD 0
        let bytes := Memory.read b.slots (1024 * k) 1024
        (s.modBlock blk fun b => b.setEnt k { b.ent k with lentTo := some (hb, j) }).modBlock hb fun x =>
          { (x.setEnt j { x.ent j with vld := false, absent := false }) with slots := Memory.write x.slots (1024 * j) bytes }

/-- The unbound lendable slots of a core are bound, lowest owner slot first (R415). -/
def State.bindSlots (s : State) (core : Nat) : State :=
  let free := s.blocks.flatMap fun (e : Nat × Block) =>
    if e.2.loc = .core core && !e.2.harvest then
      ((List.range e.2.nsp).filter fun k => (e.2.ent k).lendable && (e.2.ent k).lentTo.isNone).map fun k => (k, e.1)
    else []
  (sortBy (fun x y => x.1 ≤ y.1) free).foldl (fun (t : State) x => t.bindSlot x.2 x.1) s

/-- The bytes of a block's slots as the engines read them: a lent slot's are those of the slot that it backs. -/
def State.slotBytes (s : State) (b : Block) (off n : Nat) : List Byte :=
  (List.range n).map fun i =>
    let a := off + i
    let e := b.ent (a / 1024)
    if b.harvest && e.absent then 0
    else match e.lentTo with
      | some (hb, j) => match Tbl.find s.blocks hb with
        | some x => Memory.get x.slots (1024 * j + a % 1024)
        | none => Memory.get b.slots a
      | none => Memory.get b.slots a

/-- TAGCLR and TAGCLR.lend (R237). -/
def tagclr (h : Hints) (slot : Opnd) (lend : Bool) (s : State) : Out :=
  issueWait h s [(0, slot, 1)] fun c t =>
    match c.slot (t.launchIx c.b) 0 slot with
    | .error e => .ok (t.denied c e)
    | .ok k =>
      if (c.b.ent k).absent then .ok (t.finishNow c h)
      else if 0 < (c.b.ent k).busy then .ok (t.denied c (deny 0x0A1))
      else
        let s1 := t.modBlock c.g.blk fun b =>
          b.setEnt k { b.ent k with vld := false, lendable := (b.ent k).lendable || (lend && !b.harvest) }
        .ok ((if lend then s1.bindSlot c.g.blk k else s1).finishNow c h)

def execTagclr (h : Hints) (slot : Opnd) (s : State) : Out := tagclr h slot false s
def execTagclrLend (h : Hints) (slot : Opnd) (s : State) : Out := tagclr h slot true s

def execTagclrAll (h : Hints) (s : State) : Out :=
  issue h s [] fun c t =>
    (t.modBlock c.g.blk fun b =>
      Block.note { b with tagTab := b.tagTab.map fun (e : Nat × TagEnt) => if e.2.busy = 0 then (e.1, { e.2 with vld := false }) else e }
        (((List.range b.nsp).filter fun k => (b.ent k).busy = 0).map .tag)).finishNow c h

/-- TAGRD's status word (R238). -/
def TagEnt.word (e : TagEnt) : W32 :=
  BitVec.ofNat 32 ((if e.vld then 2 ^ 31 else 0) + (if 0 < e.busy then 2 ^ 30 else 0) +
    (if e.lendable || e.lentTo.isSome then 2 ^ 29 else 0) + (if e.absent then 2 ^ 28 else 0))

def execTagrd (h : Hints) (d : BitVec 6) (slot : Opnd) (s : State) : Out :=
  issue h s [(0, .s d, 1), (1, slot, 1)] fun c t =>
    match c.slot (t.launchIx c.b) 1 slot with
    | .error e => t.denied c e
    | .ok k => t.finishFixed c h 4 [.s d.toNat (c.b.ent k).word]

def execTagrdAddr (h : Hints) (d : BitVec 4) (slot : Opnd) (s : State) : Out :=
  issue h s [(1, slot, 1)] fun c t =>
    match c.slot (t.launchIx c.b) 1 slot with
    | .error e => t.denied c e
    | .ok k =>
      let e := c.b.ent k
      t.finishFixed c h 4 [.b d.toNat (if e.vld then e.key ++ (0 : BitVec 10) else 0) c.p.mask]

/-! ## Tags and counters -/

def Block.tag (b : Block) (i : Nat) : TagSt := Tbl.getD b.tags i .free
def Block.ctr (b : Block) (i : Nat) : Nat := Tbl.getD b.ctrs i 0

def TagSt.isDone : TagSt → Bool
  | .done _ => true
  | _ => false

/-- The bits of a 64-bit mask. -/
def maskBits (m : W64) : List Nat := (List.range 64).filter fun i => m.getLsbD i

/-- The condition that WAITANY or WAITALL waits for (R246). -/
def Block.tagsMet (b : Block) (any : Bool) (m : W64) : Bool :=
  m = 0 || (if any then (maskBits m).any fun i => (b.tag i).isDone else (maskBits m).all fun i => (b.tag i).isDone)

/-- A waiting path's condition holds (R246, R247). -/
def Block.waitOver (b : Block) : PathSt → Bool
  | .tags any m => b.tagsMet any m
  | .ctr k thr => b.ctr k < thr
  | _ => false

/-- The paths of a block whose waits on tags and counters are over go on behind them. -/
def State.wakeWaits (s : State) (blk : Nat) : State :=
  match Tbl.find s.blocks blk with
  | none => s
  | some b =>
    { s with groups := s.groups.map fun (e : Nat × Group) =>
        if e.2.blk = blk then
          (e.1, { e.2 with paths := e.2.paths.map fun (p : Path) =>
            if (b.waitOver p.st) then { p with st := .ready, pc := nextPc p.pc } else p })
        else e }

/-- A mask operand (R235). -/
def Ctx.tagMask (c : Ctx) (li : W32) (lo : Bool) (o : Opnd) : W64 :=
  if lo then ((c.src li 1 o).lane (lowLane c.live)).setWidth 64 else lane64 (c.src64 li 1 o) (lowLane c.live)

/-- A mask bit at or above the tag demand (R232). -/
def Block.maskBad (b : Block) (m : W64) : Bool := (maskBits m).any fun i => b.ntag ≤ i

/-- The live lanes are held until a condition holds; the other active lanes go on as a new path (R246, R247). -/
def State.hold (s : State) (c : Ctx) (h : Hints) (st : PathSt) : State :=
  if c.b.waitOver st then s.finishNow c h
  else
    let rest := c.p.mask &&& ~~~c.live
    let s1 := (s.flagNow c h).fork c [(nextPc c.p.pc, rest), (c.p.pc, c.live)] (if rest = 0 then c.live else rest)
    s1.modGroup c.gid fun g => g.setSt (lowLane c.live) st

def maskCount (lo : Bool) : Nat := if lo then 1 else 2

/-- WAITANY and WAITALL: error points of the producer group's engine faults (R243). -/
def waitTags (any : Bool) (h : Hints) (lo : Bool) (mask : Opnd) (s : State) : Out :=
  issueAt .engine h s [(1, mask, maskCount lo)] fun c t =>
    let m := c.tagMask (t.launchIx c.b) lo mask
    if c.b.maskBad m then .ok (t.denied c (deny 0x0A3)) else .ok (t.hold c h (.tags any m))

def execWaitany (h : Hints) (lo : Bool) (mask : Opnd) (s : State) : Out := waitTags true h lo mask s
def execWaitall (h : Hints) (lo : Bool) (mask : Opnd) (s : State) : Out := waitTags false h lo mask s

def execFfready (h : Hints) (lo : Bool) (d : BitVec 6) (mask : Opnd) (s : State) : Out :=
  issueAt .engine h s [(0, .s d, 1), (1, mask, maskCount lo)] fun c t =>
    let m := c.tagMask (t.launchIx c.b) lo mask
    if c.b.maskBad m then .ok (t.denied c (deny 0x0A3))
    else
      let i := ((maskBits m).find? fun i => (c.b.tag i).isDone).getD 64
      .ok (t.finishFixed c h 4 [.s d.toNat (BitVec.ofNat 32 i)])

def execCwaitlt (h : Hints) (k : BitVec 4) (thr : BitVec 12) (s : State) : Out :=
  issueAt .engine h s [] fun c t =>
    if c.b.nctr ≤ k.toNat then .ok (t.denied c (deny 0x0A4)) else .ok (t.hold c h (.ctr k.toNat thr.toNat))

/-- CTRRD's values (R247). -/
def Block.ctrWord (b : Block) (k sel : Nat) : W32 :=
  let set := fun i => match b.tag i with
    | .done err => i < b.ntag && (sel < 3 || err)
    | _ => false
  if sel = 0 then BitVec.ofNat 32 (b.ctr k) else maskOf fun l => set (32 * ((sel - 1) % 2) + l)

def execCtrrd (h : Hints) (d : BitVec 6) (k : BitVec 4) (sel : BitVec 4) (s : State) : Out :=
  issue h s [(0, .s d, 1)] fun c t =>
    if sel = 0 && c.b.nctr ≤ k.toNat then t.denied c (deny 0x0A4)
    else t.finishFixed c h 4 [.s d.toNat (c.b.ctrWord k.toNat sel.toNat)]

end Sys2Proof.Machine
end

