-- ==== Sys2Proof/Machine/Command.lean ====
section
/-! DEFINITION. Engine commands (R42): their issue with its checks and waits (R234, R253, R398), the accesses of the
engines (R176, R208), and their end (R233, R243, R245). -/

namespace Sys2Proof.Machine

/-! ## Permits (R398, R399) -/

/-- The units that a die's commands and granted requests hold. -/
def State.dieUse (s : State) (d : Nat) : Nat :=
  let sum := fun (qs : List EngCmd) => qs.foldl (fun (a : Nat) (q : EngCmd) => a + q.cost) 0
  let cores := s.cores.foldl (fun (a : Nat) (e : Nat × Core) =>
    if e.1 / 64 = d then a + sum e.2.copyQ + sum e.2.follow + sum e.2.matQ else a) 0
  let asked := (s.die d).permits.foldl (fun (a : Nat) (p : Permit) => if p.granted then a + p.cost else a) 0
  cores + sum (s.die d).collQ + asked

/-- The die's current limit (R400). -/
def Die.limit (d : Die) : Nat := min d.bud d.tlim

/-- A command's permit: one that was granted is taken up; with no request waiting, one that fits is granted at once. -/
def State.permit (s : State) (d gid cost : Nat) : Option State :=
  let mine := fun (p : Permit) => p.gid = gid && p.blk.isNone && p.cost = cost
  if (s.die d).permits.any fun p => mine p && p.granted then
    some (s.modDie d fun k => { k with permits := k.permits.filter fun (p : Permit) => !(mine p && p.granted) })
  else if ((s.die d).permits.all fun p => p.granted) && s.dieUse d + cost ≤ (s.die d).limit then some s
  else none

/-! ## Issue -/

/-- A command that has passed the checks of its issue. `ctr`: the counter it raises; `held`, `heldBars`: obligations that
it takes over (R273); `slots`: the slots it writes; `absent`: its slot run holds an absent slot (R416). -/
structure Plan where
  md : BitVec 6
  acq : Bool
  rel : Bool
  scope : Nat
  ctr : Option Nat
  bar : Option Nat
  held : List Nat
  heldBars : List Nat
  tag : Option Nat
  slots : List Nat
  absent : Bool
  cost : Nat
  body : EngBody
  deriving DecidableEq, Repr

/-- A plan that names nothing. -/
def Plan.init (md : BitVec 6) (cost : Nat) (body : EngBody) : Plan :=
  { md, acq := false, rel := false, scope := 0, ctr := none, bar := none, held := [], heldBars := [], tag := none,
    slots := [], absent := false, cost, body }

def EngBody.isCopy : EngBody → Bool
  | .copy .. => true
  | .tloadcb .. => true
  | _ => false

def EngBody.isColl : EngBody → Bool
  | .coll .. => true
  | _ => false

def EngBody.hasFollow : EngBody → Bool
  | .copy _ _ _ _ _ _ _ _ _ (some _) => true
  | _ => false

/-- The queue that takes a command has room (R234, R253). Collectives are counted by their own rule. -/
def Core.hasRoom (k : Core) (body : EngBody) : Bool :=
  let pairs := (k.copyQ.filter fun q => q.body.hasFollow).length + k.follow.length
  if body.isColl then true
  else if body.isCopy then k.copyQ.length < 32 && !(body.hasFollow && 16 ≤ pairs)
  else k.matQ.length < 32

/-- The commands of a partition in a die's collective queue. -/
def State.collCount (s : State) (die part : Nat) : Nat :=
  ((s.die die).collQ.filter fun q => match Tbl.find s.blocks q.blk with
    | some b => (s.vd b.vd).partition = part
    | none => false).length

/-- The queue for a command of a virtual device has room: a die's collective queue holds 16 of a partition (R334). -/
def State.roomFor (s : State) (core vd : Nat) (body : EngBody) : Bool :=
  if body.isColl then s.collCount (core / 64) (s.vd vd).partition < 16 else (s.core core).hasRoom body

/-- The communicator slot of a partition (R332). -/
def State.comm (s : State) (part ix : Nat) : Comm := Tbl.getD s.comms (64 * part + ix) .init

/-- The communicator counts a collective that it has accepted (R332). -/
def State.countColl (s : State) (vd : Nat) : EngBody → State
  | .coll _ _ _ _ _ quad _ =>
    { s with comms := Tbl.upd s.comms (64 * (s.vd vd).partition + (quad.getD 0 0).toNat / 2 ^ 26) fun k =>
        { k with seq := k.seq + 1 } }
  | _ => s

/-- A command enters its queue. -/
def State.enqueue (s : State) (core : Nat) (q : EngCmd) : State :=
  if q.body.isColl then s.modDie (core / 64) fun d => { d with collQ := d.collQ ++ [q] }
  else if q.body.isCopy then s.modCore core fun k => { k with copyQ := k.copyQ ++ [q] }
  else s.modCore core fun k => { k with matQ := k.matQ ++ [q] }

/-- A block's tag, counter, barrier and slots take note of a command at its issue (R229, R232, R233, R245). -/
def Block.take (b : Block) (p : Plan) : Block :=
  let b1 := match p.tag with
    | some i => { b with tags := Tbl.put b.tags i .busy }
    | none => b
  let b2 := match p.ctr with
    | some i => { b1 with ctrs := Tbl.put b1.ctrs i (b1.ctr i + 1) }
    | none => b1
  let b3 := match p.bar with
    | some n => { b2 with bars := Tbl.put b2.bars n { b2.barrier n with eng := (b2.barrier n).eng + 1 } }
    | none => b2
  p.slots.foldl (fun (b : Block) k =>
    let b' := if (b.ent k).lendable then b.takeBack k else b
    b'.setEnt k { b'.ent k with busy := (b'.ent k).busy + 1 }) b3

/-- The accesses of threads of a launch that are still outstanding. -/
def State.openOf (s : State) (launch : Nat) (ts : List W64) : List Nat :=
  (s.accesses.filter fun a => a.launch = launch && a.parts.any fun p => !p.done && (a.threads p).any ts.contains).map (·.id)

/-- The command of a plan. -/
def Plan.cmd (p : Plan) (c : Ctx) (after : List Nat) : EngCmd :=
  { blk := c.g.blk, gid := c.gid, pc := c.p.pc, ltid := c.g.lt (lowLane c.live), md := p.md, acq := p.acq, rel := p.rel,
    scope := p.scope, ctrs := p.ctr.toList ++ p.held, bars := p.bar.toList ++ p.heldBars, after := after, cost := p.cost,
    body := p.body }

/-- One engine arrival at a barrier (R245). -/
def State.engArrive (s : State) (blk n : Nat) : State :=
  (s.modBlock blk fun b =>
    { b with bars := Tbl.put b.bars n { b.barrier n with eng := (b.barrier n).eng - 1 } }).arrive blk n 1

/-- A command that harvest code directs at an absent slot completes when it is accepted (R416). -/
def State.acceptAbsent (s : State) (c : Ctx) (p : Plan) : State :=
  let s1 := s.modBlock c.g.blk fun b =>
    match p.tag with
    | some i => { b with tags := Tbl.put b.tags i (.done true) }
    | none => b
  let s2 := match p.bar with
    | some n => s1.arrive c.g.blk n 1
    | none => s1
  s2.wakeWaits c.g.blk

/-- The waits of a command and its acceptance (R234, R253): it comes behind the commands of its block that wait to enter their queues
again. -/
def State.accept (s : State) (c : Ctx) (h : Hints) (p : Plan) : Except Stall State :=
  let busy := match p.tag with
    | some i => c.b.tag i = .busy
    | none => false
  let high := match p.ctr with
    | some i => 255 ≤ c.b.ctr i
    | none => false
  if busy || high || !c.b.batch.isEmpty then .error .engineQueue
  else if p.slots.any c.b.away then .error (.revocation (c.b.backed p.slots))
  else if !s.roomFor c.g.core c.b.vd p.body then .error .engineQueue
  else if p.absent then
    let brk := fun (t : State) (kind : Nat) => t.breakEng c.gid (c.g.lt (lowLane c.live)) p.body.op kind
    .ok (brk (brk ((s.acceptAbsent c p).finishNow c h) 1) 2)
  else match s.permit (c.g.core / 64) c.gid p.cost with
    | none => .error (.permit (c.g.core / 64) p.cost)
    | some s1 =>
      let s2 := s1.modBlock c.g.blk fun b => b.take p
      let s3 := s2.modGroup c.gid fun g => { g with engOut := g.engOut + 1 }
      let s4 := (s3.enqueue c.g.core (p.cmd c (s3.openOf c.b.launch (c.g.ltids c.live)))).countColl c.b.vd p.body
      .ok ((s4.finishNow c h).breakEng c.gid (c.g.lt (lowLane c.live)) p.body.op 1)

/-- The group is its block's producer group (R42). -/
def Ctx.isProducer (c : Ctx) : Bool := c.g.declared && (ltidGnum c.g.narrow (c.g.lt 0)).toNat = c.b.prod

/-- The issue of an engine command: the checks of R42, then the command's own, then its waits. -/
def engIssue (h : Hints) (s : State) (ops : List (Nat × Opnd × Nat))
    (k : Ctx → State → W32 → Except Deny Plan) : Out :=
  issueAt .engine h s ops fun c t =>
    if c.live ≠ c.p.mask then .ok (t.denied c (deny 0x028))
    else if !c.isProducer then .ok (t.denied c (deny 0x029))
    else match k c t (t.launchIx c.b) with
      | .error e => .ok (t.denied c e)
      | .ok p => t.accept c h p

/-- A counter that a command may name (R233). -/
def ctrOk (b : Block) (on : Bool) (i : Nat) : Except Deny (Option Nat) :=
  if !on then .ok none else if b.nctr ≤ i then .error (deny 0x0A4) else .ok (some i)

/-- A barrier that a command may arrive at (R239). -/
def barOk (b : Block) (on : Bool) (n : Nat) : Except Deny (Option Nat) :=
  if !on then .ok none else if (b.barrier n).init then .ok (some n) else .error (deny 0x03B)

/-- A denial of R165: the entry and the reason. -/
def txDeny (tx reason : Nat) : Deny := ⟨0x0E0, reason, tx, 0, 0, false⟩

/-- The entry of a command, checked (R165). -/
def Block.txFor (b : Block) (tx : Nat) (need : TxNeed) : Except Deny (BitVec 512) :=
  match txReason (b.txEnt tx) (b.store tx) need with
  | some r => .error (txDeny tx r)
  | none => .ok (b.txEnt tx)

/-- The four words of a quad. -/
def Ctx.quad (c : Ctx) (pos n : Nat) : List W32 := (List.range 4).map fun i => c.s (pos + 16 * i) (n + i)

def quadAt (q : List W32) (i : Nat) : Nat := (q.getD i 0).toNat
def quadInt (q : List W32) (i : Nat) : Int := (q.getD i 0).toInt

/-! ## The end of a command -/

/-- Counters are lowered and barriers arrived at (R233, R245). -/
def State.discharge (s : State) (blk : Nat) (ctrs bars : List Nat) : State :=
  let s1 := s.modBlock blk fun b => ctrs.foldl (fun (b : Block) i => { b with ctrs := Tbl.put b.ctrs i (b.ctr i - 1) }) b
  (bars.foldl (fun (t : State) n => t.engArrive blk n) s1).wakeWaits blk

/-- A command of the group completes, stops or is cancelled (R243). -/
def State.engLeft (s : State) (gid : Nat) : State := s.modGroup gid fun g => { g with engOut := g.engOut - 1 }

/-- A command ends with its obligations discharged. -/
def State.endCmd (s : State) (q : EngCmd) : State := (s.engLeft q.gid).discharge q.blk q.ctrs q.bars

/-- A command completes: its obligations are discharged, and a breakpoint may stop its group (R395). -/
def State.doneCmd (s : State) (q : EngCmd) : State := (s.endCmd q).breakEng q.gid q.ltid q.body.op 2

/-- The path of the lowest lane. -/
def lowestPath (ps : List Path) : Option Path := (sortBy (fun x y => lowLane x.mask ≤ lowLane y.mask) ps).head?

/-- The group's path that waits for a command: with the lowest lane in CWAITLT on one of the command's own counters, or else in
WAITANY, WAITALL or CWAITLT. -/
def Group.waiting (g : Group) (ctrs : List Nat) : Option Path :=
  let own := g.paths.filter fun p => match p.st with
    | .ctr c _ => ctrs.contains c
    | _ => false
  (lowestPath own).orElse fun _ => lowestPath (g.paths.filter fun p => match p.st with
    | .tags _ _ => true
    | .ctr _ _ => true
    | _ => false)

/-- An engine fault: a producer path that is waiting leaves its wait and takes it there (R255); else it waits for the
group's next error point (R243). -/
def State.engFaultAt (s : State) (q : EngCmd) (pos code det info addr : Nat) : State :=
  match Tbl.find s.groups q.gid with
  | none => s
  | some g =>
    let e : LateFault := { thr := none, flag := none, tape := false,
                           fault := { FaultRec.at' (BitVec.ofNat 9 code) q.pc 0 0 with
                             pos := BitVec.ofNat 3 pos, det := BitVec.ofNat 16 det, info := BitVec.ofNat 32 info, addr := BitVec.ofNat 80 addr, lead := some q.ltid } }
    match g.waiting q.ctrs with
    | some p =>
      let word := s.wordAt g.core (s.vdOf q.gid) p.pc
      s.takeFault q.gid p.handler p.mask fun _ => e.at' p word
    | none => s.modGroup q.gid fun g => { g with errs := g.errs ++ [e] }

/-- An engine fault whose record names no operand. -/
def State.engFault (s : State) (q : EngCmd) (code det info addr : Nat) : State := s.engFaultAt q 0 code det info addr

/-! ## The engines' accesses -/

/-- What an access of an engine comes to: it is done, it waits for a page, or it stops its command. -/
inductive EngRes (α : Type) where
  | ok (a : α)
  | wait
  | stop (code addr : Nat)
  deriving DecidableEq, Repr

/-- The pages' parts of a run of bytes. -/
def pageRuns : Nat → Nat → Nat → List (Nat × Nat)
  | 0, _, _ => []
  | fuel + 1, ea, n =>
    if n = 0 then []
    else
      let m := min n (4096 - ea % 4096)
      (ea, m) :: pageRuns fuel ((ea + m) % 2 ^ 80) (n - m)

/-- A failed access: a missing page is asked for, unless its request failed (R176). -/
def State.engMiss {α : Type} (s : State) (b : Block) (err : EngErr) (ea : Nat) : EFail → State × EngRes α
  | .page code page => if err = .pageFail then (s, .stop code ea) else (s.askPage b.vd page b.onCore, .wait)
  | .bad code addr => (s, .stop code addr)

/-- The segments of a run of bytes, checked for an access of a kind. -/
def State.engSegs (s : State) (b : Block) (k : AKind) (err : EngErr) (salt : Nat) :
    List (Nat × Nat) → State × EngRes (List (Nat × Seg))
  | [] => (s, .ok [])
  | (ea, n) :: rest =>
    let r := s.engLook b k ea n salt
    match r.2 with
    | .error e => r.1.engMiss b err ea e
    | .ok segs =>
      match r.1.segsFail b.vd segs (k ≠ .rd) (engMem err) with
      | some why =>
        (r.1.poisonIf b.vd (k ≠ .rd) (engMem err) segs, .stop (engCode why) ea)
      | none =>
        let y := r.1.engSegs b k err (salt + 1) rest
        (y.1, match y.2 with
          | .ok gs => .ok (segs.map (fun g => (ea, g)) ++ gs)
          | .wait => .wait
          | .stop code addr => .stop code addr)

/-- The pages that bytes from `ea` on touch, at most. -/
def runFuel (n : Nat) : Nat := n / 4096 + 2

/-- In SLICE mode an engine's read of host memory that overlaps a withheld write forces a milestone (R357). -/
def State.forceRead (s : State) (vd : Nat) (segs : List Seg) : State :=
  if (s.vd vd).msmode = 2 && segs.any fun g => g.region = 1 && overlapsHeld (s.vd vd) g then s.milestone vd else s

/-- What the counters of the caches see of an engine's access (R390). -/
def State.countSegs (s : State) (vd : Nat) (segs : List Seg) : State :=
  if s.dies.all fun e => e.2.cnt.isEmpty then s
  else segs.foldl (fun (t : State) g => t.countSeg s.free vd none g) s

/-- An engine reads `n` bytes of any number of pages. -/
def State.engGet (s : State) (b : Block) (err : EngErr) (salt ea n : Nat) : State × EngRes (List Byte) :=
  let r := s.engSegs b .rd err salt (pageRuns (runFuel n) (ea % 2 ^ 80) n)
  match r.2 with
  | .ok gs =>
    let t := r.1.forceRead b.vd (gs.map (·.2))
    (t.countSegs b.vd (gs.map (·.2)), .ok (gs.flatMap fun g => t.readSeg b.vd 0 g.2))
  | .wait => (r.1, .wait)
  | .stop code addr => (r.1, .stop code addr)

/-- An engine writes bytes once every page of them has passed its checks. -/
def State.engPut (s : State) (b : Block) (err : EngErr) (salt ea : Nat) (bs : List Byte) : State × EngRes Unit :=
  let r := s.engSegs b .wr err salt (pageRuns (runFuel bs.length) (ea % 2 ^ 80) bs.length)
  match r.2 with
  | .ok gs => ((r.1.writeSegs b.vd (gs.map (·.2)) bs).countSegs b.vd (gs.map (·.2)), .ok ())
  | .wait => (r.1, .wait)
  | .stop code addr => (r.1, .stop code addr)

/-- UNCORR, POISON and NO_RESP of an engine (R177): memory errors, found by the access itself. -/
def isMemErr (code : Nat) : Bool := code = 0x067 || code = 0x06B || code = 0x073

/-- The reason of an engine's stop (R235, R255): READ_FAULT, WRITE_FAULT or MEM_ERROR, `first` being the number of
READ_FAULT and `mem` that of MEM_ERROR. -/
def stopReason (read mem : Nat) (write : Bool) (code : Nat) : Nat :=
  if isMemErr code then mem else if write then read + 1 else read

/-- A command's accesses of earlier issue have been performed (R208). -/
def State.cmdReady (s : State) (q : EngCmd) : Bool := s.accesses.all fun a => !q.after.contains a.id

end Sys2Proof.Machine
end

