-- ==== Sys2Proof/Machine/Table.lean ====
section
/-! DEFINITION. The tensor table: TDEF, TSET and TGET (R162 to R164), TLOADCB and the end of its copy (R165). -/

namespace Sys2Proof.Machine

/-- TDEF (R164): one load of 64 bytes for the group; its path stands at it until the image has been read. -/
def execTdef (h : Hints) (tx : BitVec 6) (a : BitVec 4) (b : Opnd) (imm : BitVec 12) (s : State) : Out :=
  memIssue h s [(2, b, 1)] false false fun c li =>
    let l := lowLane c.live
    (.tdef tx.toNat, [{ lane := l, ea := c.ea li a b false imm l, data := 0, aux := 0 }])

/-- The image that a TDEF has read. -/
def Access.image (a : Access) : BitVec 512 := BitVec.ofNat 512 (a.parts.foldl (fun x p => x + p.got) 0)

/-- The fault of a TDEF whose image has been read: code, check, entry, address; none where the image is applied (R164, R167). -/
def Access.imageFault (a : Access) (tx : Nat) : Option (Nat × Nat × Nat × Va) :=
  match a.parts.find? fun p => !p.ok with
  | some p => some (p.got, 0, 0, p.ea)
  | none => (TxEnt.badCheck a.image).map fun k => (0x0E1, k, tx, 0)

/-- A path that stands at the TDEF of these lanes. -/
def Path.reads (p : Path) (live : LaneMask) : Bool := p.st = .read && p.mask &&& live ≠ 0

/-- The path that stands at a TDEF goes on. -/
def Group.readDone (g : Group) (live : LaneMask) : Group :=
  { g with paths := g.paths.map fun (p : Path) => if p.reads live then { p with st := .ready, pc := nextPc p.pc } else p }

/-- THE END OF A TDEF: its image is applied, or its live lanes take their precise fault and the entry is unchanged; the other lanes
of its path go on (R162, R164). -/
def State.applyTdef (s : State) (a : Access) (tx : Nat) : State :=
  let s1 := { s with accesses := s.accesses.filter fun (q : Access) => q.id ≠ a.id }
  let s2 := (s1.modGroup a.gid fun g => g.flagDown a.flag).dropInval a.id
  match a.imageFault tx, (Tbl.find s2.groups a.gid).bind fun g => (g.paths.find? fun p => p.reads a.live).map fun p => (g, p) with
  | none, _ => (s2.modBlock a.blk fun b => b.applyTx tx a.image).modGroup a.gid fun g => g.readDone a.live
  | some _, none => s2
  | some (code, det, info, addr), some (g, p) =>
    let rec' : FaultRec :=
      { FaultRec.at' (BitVec.ofNat 9 code) a.pc (s.wordAt g.core a.vd a.pc) p.b14 with
        det := BitVec.ofNat 16 det, info := BitVec.ofNat 32 info, addr := addr }
    let rest := p.mask &&& ~~~a.live
    (s2.modGroup a.gid fun g => if rest = 0 then g else
        { g with paths := dropLanes g.paths rest ++ [{ p with mask := rest, st := .ready, pc := nextPc p.pc }]
                 cur := if has p.mask g.cur then lowLane rest else g.cur }).takeFault a.gid p.handler a.live fun _ => rec'

/-- The TDEFs of a core's schedulers from `lo` up to `hi` whose images have been read end, in ascending scheduler order (R162). -/
def State.applyTdefs (s : State) (core lo hi : Nat) : State :=
  let mine := s.accesses.filterMap fun a => match a.op, Tbl.find s.groups a.gid with
    | .tdef tx, some g =>
      if a.parts.all (·.done) && !a.replay && g.core = core && lo ≤ g.sched && g.sched < hi && s.onCore a.blk then some (g.sched, a, tx)
      else none
    | _, _ => none
  (sortBy (fun x y => x.1 ≤ y.1) mine).foldl (fun (t : State) e => t.applyTdef e.2.1 e.2.2) s

def execTdefInv (h : Hints) (tx : BitVec 6) (s : State) : Out :=
  issue h s [] fun c t => (t.modBlock c.g.blk fun b => b.applyTx tx.toNat 0).finishNow c h

/-- The entry with one field written; none where the value does not fit (R164). -/
def TxEnt.setFld (e : TxEnt) (f : TFld) (x : W32) (base : Nat) : Option TxEnt :=
  let dim := fun lo => if 1 ≤ x.toNat && x.toNat ≤ 2 ^ 20 then some (TxEnt.put e lo 20 (x.toNat - 1)) else none
  let addr := fun lo n k => if base % 2 ^ k = 0 then some (TxEnt.put e lo n (base / 2 ^ k)) else none
  match f with
  | .bits => some (TxEnt.put e 0 12 (x.toNat % 2 ^ 12))
  | .n0 => dim 12
  | .n1 => dim 32
  | .n2 => dim 52
  | .n3 => dim 72
  | .st1 => some (TxEnt.put e 92 32 x.toNat)
  | .st2 => some (TxEnt.put e 124 32 x.toNat)
  | .st3 => some (TxEnt.put e 156 32 x.toNat)
  | .tst => if x.toNat < 2 ^ 20 then some (TxEnt.put e 188 20 x.toNat) else none
  | .base => addr 208 80 0
  | .tbase => addr 288 73 7
  | .sbase => addr 361 76 4
  | .cbase => addr 437 75 5

/-- A field as TGET reads it (R164). -/
def TxEnt.getFld (e : TxEnt) (f : TFld) : Nat :=
  match f with
  | .bits => TxEnt.fld e 0 12
  | .n0 => TxEnt.n e 0
  | .n1 => TxEnt.n e 1
  | .n2 => TxEnt.n e 2
  | .n3 => TxEnt.n e 3
  | .st1 => TxEnt.fld e 92 32
  | .st2 => TxEnt.fld e 124 32
  | .st3 => TxEnt.fld e 156 32
  | .tst => TxEnt.tst e
  | .base => TxEnt.base e
  | .tbase => TxEnt.tbase e
  | .sbase => TxEnt.sbase e
  | .cbase => TxEnt.cbase e

/-- The base register that an operand names; its value. -/
def Ctx.baseOf (c : Ctx) (pos : Nat) : Opnd → Nat
  | .base n => (c.base pos n.toNat).toNat
  | _ => 0

def execTset (h : Hints) (tx : BitVec 6) (a : Opnd) (fld : TFld) (s : State) : Out :=
  issue h s [(1, a, 1)] fun c t =>
    let x := (c.src (t.launchIx c.b) 1 a).lane (lowLane c.live)
    let bad := fun (k : Nat) => t.denied c ⟨0x0E1, k, tx.toNat, 0, 0, false⟩
    match TxEnt.setFld (c.b.txEnt tx.toNat) fld x (c.baseOf 1 a) with
    | none => bad 9
    | some e => match TxEnt.badCheck e with
      | some k => bad k
      | none => (t.modBlock c.g.blk fun b => b.applyTx tx.toNat e).finishNow c h

def execTget (h : Hints) (d : Opnd) (tx : BitVec 6) (fld : TFld) (s : State) : Out :=
  issue h s [(0, d, 1)] fun c t =>
    let x := TxEnt.getFld (c.b.txEnt tx.toNat) fld
    t.finishV c h (match d with
      | .s n => [.s n.toNat (BitVec.ofNat 32 x)]
      | .base n => [.b n.toNat (BitVec.ofNat 80 x) c.p.mask]
      | _ => [])

/-- TLOADCB: an engine command; its copy waits among the core's copies. -/
def execTloadcb (h : Hints) (tx : BitVec 6) (k : BitVec 4) (scope : BitVec 4) (acq : Bool) (s : State) : Out :=
  engIssue h s [] fun c _ _ => do
    let e ← c.b.txFor tx.toNat ⟨[.cb4], false, false, false⟩
    let ctr ← ctrOk c.b true k.toNat
    return { Plan.init 0 1 (.tloadcb tx.toNat e) with acq := acq, scope := scope.toNat, ctr := ctr }

/-- A copy leaves the queue of its core. -/
def State.dropCopy (s : State) (core ix : Nat) : State :=
  s.modCore core fun k => { k with copyQ := k.copyQ.eraseIdx ix }

/-- TLOADCB_COMPLETE: the codebook is read and the store is present, or absent on a failure, whose code goes to the
producer's error point; the counter is lowered. -/
def execTloadcbComplete (core ix : Nat) (err : EngErr) (s : State) : Out :=
  .next (match (s.core core).copyQ[ix]? with
    | some q =>
      match q.body, Tbl.find s.blocks q.blk with
      | .tloadcb tx e, some b =>
        if !s.cmdReady q then s
        else
          let r := s.engGet b err 100 (TxEnt.cbase e) 32
          match r.2 with
          | .wait => { r.1 with free := s.free + 1 }
          | .ok bs =>
            ({ (r.1.dropCopy core ix) with free := s.free + 1 }.modBlock q.blk fun b =>
              Block.note { b with cb := Tbl.put b.cb tx bs } [.store tx]).doneCmd q
          | .stop code addr =>
            (({ (r.1.dropCopy core ix) with free := s.free + 1 }.modBlock q.blk fun b =>
              Block.note { b with cb := Tbl.drop b.cb tx } [.store tx]).engFault q code 0 tx addr).endCmd q
      | _, _ => s
    | none => s)

end Sys2Proof.Machine
end

