-- ==== Sys2Proof/Machine/Rows.lean ====
section
/-! DEFINITION. Windows of a tensor and their rows as the engines read and write them (R240, R274). -/

namespace Sys2Proof.Machine

/-- The first row, the first element and the other indices of a window (R240). -/
structure Window where
  i0 : Int
  i1 : Int
  i2 : Nat
  nr : Nat
  ne : Nat
  deriving DecidableEq, Repr

def windowOf (q : List W32) : Window :=
  ⟨quadInt q 0, quadInt q 1, quadAt q 2, quadAt q 3 / 2 ^ 12 % 2 ^ 12 + 1, quadAt q 3 % 2 ^ 12 + 1⟩

/-- Every element of the window lies within its extents. -/
def Window.inside (w : Window) (e : BitVec 512) : Bool :=
  0 ≤ w.i0 && w.i0 + w.ne ≤ TxEnt.n e 0 && 0 ≤ w.i1 && w.i1 + w.nr ≤ TxEnt.n e 1 && w.i2 < TxEnt.n e 2

/-- CB4 windows start and end on whole bytes (R240). -/
def Window.evenFor (w : Window) (e : BitVec 512) : Bool := TxEnt.half e ≠ 1 || (w.i0 % 2 = 0 && w.ne % 2 = 0)

/-- A row of a tensor: its first element, how many elements, its other indices. -/
structure Row where
  x0 : Int
  ne : Nat
  i1 : Int
  i2 : Int
  i3 : Nat
  deriving DecidableEq, Repr

/-- The elements of the row that lie within their extents, from the first to behind the last; none where none does. -/
def Row.range (r : Row) (e : BitVec 512) : Option (Nat × Nat) :=
  let lo := (-r.x0).toNat
  let hi := min (r.ne : Int) ((TxEnt.n e 0 : Int) - r.x0)
  if 0 ≤ r.i1 && r.i1 < TxEnt.n e 1 && 0 ≤ r.i2 && r.i2 < TxEnt.n e 2 && r.i3 < TxEnt.n e 3 && (lo : Int) < hi then
    some (lo, hi.toNat)
  else none

/-- Bytes of `n` elements (R240: rb). -/
def rowBytes (e : BitVec 512) (n : Nat) : Nat := (n * TxEnt.half e + 1) / 2

/-- The address of the row's element `k`. -/
def Row.addr (r : Row) (e : BitVec 512) (k : Nat) : Nat :=
  (TxEnt.addr e (r.x0 + k).toNat r.i1.toNat r.i2.toNat r.i3).toNat

/-- The last byte of a run of half-bytes keeps only its low half. -/
def lowHalf : List Byte → List Byte
  | [] => []
  | [b] => [b &&& 0x0F]
  | b :: bs => b :: lowHalf bs

/-- A row is read: the bytes of its elements, zero outside the extents. -/
def State.loadRow (s : State) (b : Block) (err : EngErr) (salt : Nat) (e : BitVec 512) (r : Row) :
    State × EngRes (List Byte) :=
  let rb := rowBytes e r.ne
  match r.range e with
  | none => (s, .ok (List.replicate rb 0))
  | some (lo, hi) =>
    let odd := (hi - lo) * TxEnt.half e % 2 = 1
    let front := lo * TxEnt.half e / 2
    let x := s.engGet b err salt (r.addr e lo) (rowBytes e (hi - lo))
    (x.1, match x.2 with
      | .ok bs =>
        let row := List.replicate front 0 ++ (if odd then lowHalf bs else bs)
        .ok (row ++ List.replicate (rb - row.length) 0)
      | .wait => .wait
      | .stop code addr => .stop code addr)

/-- The bytes of a row and the address they go to: elements outside the extents are left out, and the half of a byte that
belongs to no element of the row keeps its value. -/
def State.rowOut (s : State) (b : Block) (err : EngErr) (salt : Nat) (e : BitVec 512) (r : Row) (bs : List Byte) :
    State × EngRes (List (Nat × List Byte)) :=
  match r.range e with
  | none => (s, .ok [])
  | some (lo, hi) =>
    let n := rowBytes e (hi - lo)
    let out := (bs.drop (lo * TxEnt.half e / 2)).take n
    let a := r.addr e lo
    if (hi - lo) * TxEnt.half e % 2 = 0 then (s, .ok [(a, out)])
    else
      let x := s.engGet b err salt (a + n - 1) 1
      (x.1, match x.2 with
        | .ok old =>
          let last := ((out.getLast?).getD 0 &&& 0x0F) ||| ((old.headD 0) &&& 0xF0)
          .ok [(a, out.dropLast ++ [last])]
        | .wait => .wait
        | .stop code addr => .stop code addr)

/-- The segments of several runs, checked one after another. -/
def State.runSegs (s : State) (b : Block) (err : EngErr) : Nat → List (Nat × List Byte) →
    State × EngRes (List (List Seg × List Byte))
  | _, [] => (s, .ok [])
  | salt, (a, bs) :: rest =>
    let x := s.engSegs b .wr err salt (pageRuns (runFuel bs.length) (a % 2 ^ 80) bs.length)
    match x.2 with
    | .ok gs =>
      let y := x.1.runSegs b err (salt + 8) rest
      (y.1, match y.2 with
        | .ok more => .ok ((gs.map (·.2), bs) :: more)
        | .wait => .wait
        | .stop code addr => .stop code addr)
    | .wait => (x.1, .wait)
    | .stop code addr => (x.1, .stop code addr)

/-- Runs of bytes are written once all of them have passed their checks (R270). -/
def State.putAll (s : State) (b : Block) (err : EngErr) (salt : Nat) (runs : List (Nat × List Byte)) : State × EngRes Unit :=
  let x := s.runSegs b err salt runs
  match x.2 with
  | .ok gs => (gs.foldl (fun (t : State) g => t.writeSegs b.vd g.1 g.2) x.1, .ok ())
  | .wait => (x.1, .wait)
  | .stop code addr => (x.1, .stop code addr)

/-- A row is written. -/
def State.storeRow (s : State) (b : Block) (err : EngErr) (salt : Nat) (e : BitVec 512) (r : Row) (bs : List Byte) :
    State × EngRes Unit :=
  let x := s.rowOut b err salt e r bs
  match x.2 with
  | .ok runs => x.1.putAll b err (salt + 8) runs
  | .wait => (x.1, .wait)
  | .stop code addr => (x.1, .stop code addr)

end Sys2Proof.Machine
end

