-- ==== Sys2Proof/Machine/Matrix.lean ====
section
/-! DEFINITION. The matrix commands at their issue (R249 to R279): control words, runs and their checks, the slabs they
keep busy (R254); BATSTAT, MRD, MWR and MCHK. -/

namespace Sys2Proof.Machine

/-! ## The control word (R261) -/

def ctlBat (w : W32) : Nat := w.toNat / 2 ^ 29
def ctlDep (w : W32) : Nat := w.toNat / 2 ^ 27 % 4
def ctlPre (w : W32) : Nat := w.toNat / 2 ^ 25 % 4
def ctlPost (w : W32) : Nat := w.toNat / 2 ^ 24 % 2
def ctlFa (w : W32) : Nat := w.toNat / 2 ^ 20 % 16
def ctlFb (w : W32) : Nat := w.toNat / 2 ^ 16 % 16
def ctlCbx (w : W32) : Nat := w.toNat / 2 ^ 10 % 64
def ctlCe (w : W32) : Bool := w.getLsbD 9
def ctlCtr (w : W32) : Nat := w.toNat / 2 ^ 5 % 16
def ctlBe (w : W32) : Bool := w.getLsbD 4
def ctlBar (w : W32) : Nat := w.toNat % 16

/-- Fields that MMT and MMX share: the reserved `pre`, a counter or barrier index that is not enabled. -/
def ctlShared (w : W32) : Bool :=
  ctlPre w ≠ 3 && (ctlCe w || ctlCtr w = 0) && (ctlBe w || ctlBar w = 0)

def ctlRound (w : W32) (fa fb : Fmt) : Rounding := ⟨ctlPre w, ctlPost w, fa, fb⟩

/-- The permit of a product by the format of its operands (R398). -/
def productCost (fa : Fmt) : Nat := if fa = .fp64 || fa = .fp32 then 2 else if fa = .cb4 then 4 else 3

/-- Slabs of one C entry: a pair for FP64 (R250). -/
def slabsOf (fa : Fmt) : Nat := if fa = .fp64 then 2 else 1

/-- The C run of `n` entries with its checksum slabs lies within the demand (R264, R268). -/
def cRunOk (b : Block) (fa : Fmt) (ck : Bool) (c n : Nat) : Bool :=
  c + n * slabsOf fa + (if ck then (n + 7) / 8 else 0) ≤ b.nsl

/-- A tile or slab operand: a tile name, or a number read once (R265). -/
def Ctx.tl (c : Ctx) (li : W32) (pos : Nat) : Opnd → Nat
  | .tile n => n.toNat
  | o => ((c.src li pos o).lane (lowLane c.live)).toNat

/-! ## MMT (R268) -/

/-- The checks of an MMT whose operands have been read, in the order of R268. -/
def mmtPlan (b : Block) (md : BitVec 6) (m : Mmt) : Except Deny Plan :=
  let w := m.ctl
  match Fmt.ofCode (ctlFa w), Fmt.ofCode (ctlFb w) with
  | some fa, some fb =>
    let cb := fa = .cb4 || fb = .cb4
    if !ctlShared w || (!cb && ctlCbx w ≠ 0) then .error (denyAt 0x0EB 4)
    else do
      let ctr ← ctrOk b (ctlCe w) (ctlCtr w)
      let bar ← barOk b (ctlBe w) (ctlBar w)
      let within := fun (slot : Bool) (x : Nat) => x < if slot then b.nsp else b.nt
      let zero := ctlDep w = 0
      if !pairOk fa fb || (m.ck && fa = .fp64) then .error (denyAt 0x0EB 4)
      else if isIntFmt fa && !zero then .error (deny 0x0ED)
      else if !within m.sa m.a then .error (denyAt 0x0EC 2)
      else if !within m.sb m.b then .error (denyAt 0x0EC 3)
      else if (fa = .fp64 && m.c % 2 = 1) || b.nsl < m.c + slabsOf fa || (zero && !cRunOk b fa m.ck m.c 1) then .error (denyAt 0x0EC 1)
      else
        let _ ← if cb then b.txFor (ctlCbx w) ⟨[.cb4], true, false, false⟩ else pure 0
        let store := if cb then b.store (ctlCbx w) else none
        return { Plan.init md (productCost fa) (.mmt { m with cb := store }) with ctr := ctr, bar := bar }
  | _, _ => .error (denyAt 0x0EB 4)

/-- `md` of an MMT (R265). -/
def mmtMd (ck z sa sb : Bool) : BitVec 6 :=
  (BitVec.ofBool sb ++ BitVec.ofBool sa ++ BitVec.ofBool z ++ BitVec.ofBool ck).setWidth 6

def execMmt (h : Hints) (ck z sa sb : Bool) (d a b : Opnd) (ctl : BitVec 6) (s : State) : Out :=
  engIssue h s [(0, d, 1), (1, a, 1), (2, b, 1), (3, .s ctl, 1)] fun c _ li =>
    mmtPlan c.b (mmtMd ck z sa sb)
      { fol := false, buf := false, ck, z, sa, sb, c := c.tl li 0 d, a := c.tl li 1 a, b := c.tl li 2 b, ctl := c.s 3 ctl.toNat, cb := none }

/-! ## MMX (R269) -/

def mmxNbr (q : List W32) : Nat := quadAt q 1 / 2 ^ 26 + 1
def mmxIo (q : List W32) : Nat := quadAt q 1 % 2 ^ 20
def mmxNbc (q : List W32) : Nat := quadAt q 2 / 2 ^ 26 + 1
def mmxJo (q : List W32) : Nat := quadAt q 2 % 2 ^ 20
def mmxNk (q : List W32) : Nat := quadAt q 3 / 2 ^ 20 + 1
def mmxKo (q : List W32) : Nat := quadAt q 3 % 2 ^ 20

/-- The formats that MMX accepts, with the twin where its flag asks for it. -/
def mmxNeed (twin : Bool) : TxNeed := ⟨tileFmts, true, twin, false⟩

/-- The checks of an MMX over bound entries and codebook stores. -/
def mmxPlan (b : Block) (ck z ta tb : Bool) (c : Nat) (txA txB : Nat) (ea eb : BitVec 512)
    (cbA cbB : Option (List Byte)) (q : List W32) : Except Deny Plan :=
  let w := q.getD 0 0
  let scope := ctlFa w
  let acq := w.getLsbD 19
  let clean := ctlFb w % 8 = 0 && ctlCbx w = 0 && scope ≤ 10 && (acq || scope = 0) &&
    quadAt q 1 / 2 ^ 20 % 64 = 0 && quadAt q 2 / 2 ^ 20 % 64 = 0
  if !ctlShared w || !clean then .error (denyAt 0x0EB 4)
  else do
    let ctr ← ctrOk b (ctlCe w) (ctlCtr w)
    let bar ← barOk b (ctlBe w) (ctlBar w)
    match txReason ea cbA (mmxNeed ta), txReason eb cbB (mmxNeed tb) with
    | some r, _ => .error (txDeny txA r)
    | none, some r => .error (txDeny txB r)
    | none, none =>
      let fa := (TxEnt.fmt ea).getD .fp32
      let fb := (TxEnt.fmt eb).getD .fp32
      let zero := ctlDep w = 0
      if !pairOk fa fb then .error (denyAt 0x0EB 3)
      else if ck && fa = .fp64 then .error (denyAt 0x0EB 2)
      else if isIntFmt fa && !zero then .error (deny 0x0ED)
      else if (fa = .fp64 && c % 2 = 1) || b.nsl < c + slabsOf fa || (zero && !cRunOk b fa ck c (mmxNbr q * mmxNbc q)) then
        .error (denyAt 0x0EC 1)
      else
        let md : BitVec 6 := (BitVec.ofBool tb ++ BitVec.ofBool ta ++ BitVec.ofBool z ++ BitVec.ofBool ck).setWidth 6
        let body := EngBody.mmx ck z ta tb c ea eb cbA cbB q 0 0 0 none
        return { Plan.init md (productCost fa) body with ctr := ctr, bar := bar, acq := acq, scope := scope }

def execMmx (h : Hints) (ck z ta tb : Bool) (d : Opnd) (txA txB : BitVec 6) (quad : BitVec 6) (s : State) : Out :=
  engIssue h s [(0, d, 1), (3, .s quad, 4)] fun c _ li =>
    if c.b.prog.isSome then .error (deny 0x0EE)
    else mmxPlan c.b ck z ta tb (c.tl li 0 d) txA.toNat txB.toNat (c.b.txEnt txA.toNat) (c.b.txEnt txB.toNat)
      (c.b.store txA.toNat) (c.b.store txB.toNat) (c.quad 3 quad.toNat)

/-! ## MRESUME and MSAVE (R272, R273) -/

/-- The cost of the command in a progress image, by the format of its operands (R271, R398). -/
def imgCost (img : List Byte) : Option Nat :=
  let e : BitVec 512 := BitVec.ofNat 512 (leNat ((img.drop 64).take 64))
  if img.getD 2 0 >>> 4 = 1 || img.getD 2 0 >>> 4 = 2 then (TxEnt.fmt e).map productCost else none

/-- The cost that nothing determines, of an image that gives none or cannot be read: one of R398's. -/
def resumeCost (seed : Nat) : Nat := 2 + Config.freeNat seed 60 % 3

/-- The cost of a command resumed from memory: that of the request which the group has made for it already, if any (R11); else that of
the command in its image (R398). -/
def State.resumeAsk (s : State) (c : Ctx) (ea : Va) : Nat :=
  match (s.die (c.g.core / 64)).permits.find? fun (p : Permit) => p.gid = c.gid && p.blk.isNone && 2 ≤ p.cost && p.cost ≤ 4 with
  | some p => p.cost
  | none =>
    let img := match (s.engGet c.b .ok 100 ea.toNat 512).2 with
      | .ok bs => imgCost bs
      | _ => none
    img.getD (resumeCost c.seed)

/-- An address that must be 64-aligned (R266, R272, R273). -/
def aligned64 (ea : Va) : Except Deny Unit := if ea.toNat % 64 ≠ 0 then .error { deny 0x063 with addr := ea } else .ok ()

def execMresume (h : Hints) (ctr : Bool) (ctrIx : BitVec 4) (a : BitVec 4) (b : Opnd) (imm : BitVec 12) (s : State) : Out :=
  engIssue h s [(2, b, 1)] fun c t li => do
    let ea := c.ea li a b false imm (lowLane c.live)
    if c.b.prog.isSome then .error (deny 0x0EE)
    else
      aligned64 ea
      let k ← ctrOk c.b ctr ctrIx.toNat
      return { Plan.init (BitVec.ofNat 6 (if ctr then 2 + 4 * ctrIx.toNat else 0)) (t.resumeAsk c ea) (.mresume ea) with ctr := k }

/-- MRESUME.reg: the command in the progress register goes back to the tail of the block's order with its obligations;
the register is empty again. -/
def execMresumeReg (h : Hints) (ctr : Bool) (ctrIx : BitVec 4) (s : State) : Out :=
  issueAt .engine h s [] fun c t =>
    if c.live ≠ c.p.mask then .ok (t.denied c (deny 0x028))
    else if !c.isProducer then .ok (t.denied c (deny 0x029))
    else match c.b.prog, ctrOk c.b ctr ctrIx.toNat with
      | none, _ => .ok (t.denied c (deny 0x0F3))
      | some _, .error e => .ok (t.denied c e)
      | some st, .ok k =>
        let p : Plan := { Plan.init st.cmd.md st.cmd.cost st.cmd.body with
          acq := st.cmd.acq, rel := st.cmd.rel, scope := st.cmd.scope, ctr := k, held := st.cmd.ctrs, heldBars := st.cmd.bars }
        match t.accept c h p with
        | .error why => .error why
        | .ok u => .ok (u.modBlock c.g.blk fun b => { b with prog := none })

def execMsave (h : Hints) (rel ctr : Bool) (ctrIx : BitVec 4) (a : BitVec 4) (b : Opnd) (imm : BitVec 12) (s : State) : Out :=
  engIssue h s [(2, b, 1)] fun c _ li => do
    let ea := c.ea li a b false imm (lowLane c.live)
    aligned64 ea
    let k ← ctrOk c.b ctr ctrIx.toNat
    return { Plan.init 0 1 (.msave ea) with ctr := k, rel := rel }

/-! ## MLDT, MSTT and MZERO (R274, R275) -/

/-- Rounding modes by code; none for a reserved one. -/
def rmOf (n : Nat) : Option Rm := Rm.ofCode (BitVec.ofNat 3 n)

/-- The formats of a transfer's form (R274). -/
def xferFmts (store slab : Bool) : List Fmt :=
  if !slab then tileFmts
  else if store then [.fp32, .int32, .fp64, .bf16, .fp16, .e4m3, .e5m2] else [.fp32, .int32, .fp64]

/-- An MSTT `.slab` into a narrower format rounds (R274). -/
def xferRounds (f : Fmt) : Bool := f = .bf16 || f = .fp16 || f = .e4m3 || f = .e5m2

/-- The geometry of a transfer fails (R274). -/
def xferBad (slab z store : Bool) (e : BitVec 512) (q : List W32) : Bool :=
  let f := (TxEnt.fmt e).getD .fp32
  let w := windowOf q
  let rm := quadAt q 3 / 2 ^ 24 % 8
  let lim := if slab then 16 else Fmt.kb f
  quadAt q 3 / 2 ^ 27 ≠ 0 || (rmOf rm).isNone || (rm ≠ 0 && !(store && slab)) || 16 < w.nr || lim < w.ne ||
    !w.evenFor e || (!z && !w.inside e)

def xferIssue (store : Bool) (h : Hints) (m : XferMd) (d : Opnd) (tx : BitVec 6) (quad : BitVec 6) (s : State) : Out :=
  engIssue h s [(0, d, 1), (2, .s quad, 4)] fun c _ li => do
    let q := c.quad 2 quad.toNat
    let k := c.tl li 0 d
    let e ← c.b.txFor tx.toNat ⟨xferFmts store m.slab, false, false, store⟩
    let pair := m.slab && TxEnt.fmt e = some .fp64
    let top := if m.slab then c.b.nsl else c.b.nt
    if top < k + (if pair then 2 else 1) || (pair && k % 2 = 1) then .error (denyAt 0x0EC 1)
    else
      let ctr ← ctrOk c.b m.ctr m.ctrIx.toNat
      if xferBad m.slab m.z store e q then .error (deny 0x0FB)
      else
        let bar ← barOk c.b m.bar m.barIx.toNat
        return { Plan.init (CopyMd.md ⟨m.slab, m.acq, m.rel, m.bar, m.ctr, m.z, 0, 0, 0, 0⟩) 1
            (.xfer store m.slab m.z k tx.toNat e q 0) with
          ctr := ctr, bar := bar, acq := m.acq, rel := m.rel, scope := m.scope.toNat }

def execMldt (h : Hints) (m : XferMd) (d : Opnd) (tx : BitVec 6) (quad : BitVec 6) (s : State) : Out :=
  xferIssue false h m d tx quad s
def execMstt (h : Hints) (m : XferMd) (d : Opnd) (tx : BitVec 6) (quad : BitVec 6) (s : State) : Out :=
  xferIssue true h m d tx quad s

def execMzero (h : Hints) (ctr : Bool) (ctrIx : BitVec 4) (tile : Bool) (first count : Opnd) (s : State) : Out :=
  engIssue h s [(0, first, 1), (1, count, 1)] fun c _ li => do
    let f := c.tl li 0 first
    let n := c.tl li 1 count
    if n < 1 || (if tile then 64 else 512) < n then .error (denyAt 0x0EC 2)
    else if (if tile then c.b.nt else c.b.nsl) < f + n then .error (denyAt 0x0EC 1)
    else
      let k ← ctrOk c.b ctr ctrIx.toNat
      return { Plan.init 0 1 (.mzero tile f n) with ctr := k }

/-! ## BATLOAD and BATSTAT (R266, R267) -/

def execBatload (h : Hints) (acq ctr : Bool) (ctrIx : BitVec 4) (slot : Opnd) (a : BitVec 4) (b : Opnd) (imm : BitVec 12)
    (scope : BitVec 4) (s : State) : Out :=
  engIssue h s [(0, slot, 1), (2, b, 1)] fun c _ li => do
    let ea := c.ea li a b false imm (lowLane c.live)
    let k := c.tl li 0 slot
    if c.b.harvest then .error (deny 0x0EA)
    else if 7 < k then .error (denyAt 0x0EC 1)
    else
      aligned64 ea
      let ctr ← ctrOk c.b ctr ctrIx.toNat
      return { Plan.init 0 1 (.batload k ea) with ctr := ctr, acq := acq, scope := scope.toNat }

/-- A table slot at virtual-device reset (R256). -/
def Bat.init : Bat := { st := .empty, image := [], tid := 0, serial := 0 }

def State.bat (s : State) (core k : Nat) : Bat := Tbl.getD (s.core core).bat k .init
def State.setBat (s : State) (core k : Nat) (x : Bat) : State :=
  s.modCore core fun c => { c with bat := Tbl.put c.bat k x }

/-- BATSTAT's values of a slot (R267). -/
def Bat.word (x : Bat) (sel : Nat) : W32 :=
  let t := Table.of x.image
  BitVec.ofNat 32 (match x.st with
    | .empty => 0
    | .loading => if sel = 0 then 2 ^ 30 + x.serial else 0
    | .valid =>
      if sel = 0 then 2 ^ 31 + (if t.corr then 2 ^ 29 else 0) + (t.rank - 1) * 2 ^ 23 + (t.bm - 1) * 2 ^ 20 +
        (t.bk - 1) * 2 ^ 17 + (t.bn - 1) * 2 ^ 15 + x.serial
      else if sel = 1 then x.tid.toNat
      else t.growth (sel - 2))

def execBatstat (h : Hints) (d : BitVec 6) (slot : Opnd) (sel : BitVec 4) (s : State) : Out :=
  issue h s [(0, .s d, 1), (1, slot, 1)] fun c t =>
    let k := c.tl (t.launchIx c.b) 1 slot
    if 7 < k then t.denied c (denyAt 0x0EC 2)
    else
      let x := if 5 ≤ sel.toNat then c.b.sticky else (t.bat c.g.core k).word sel.toNat
      let t1 := if sel.toNat = 6 then t.modBlock c.g.blk fun b => { b with sticky := 0 } else t
      t1.finishV c h [.s d.toNat x]

/-! ## Busy slabs (R254) -/

/-- A range of slabs. -/
def inRun (lo n k : Nat) : Bool := lo ≤ k && k < lo + n

/-- The entries that an MMX writes once its table is bound, or at depth 0. -/
def mmxEntries (q : List W32) (tab : Option (List Byte)) : Option Nat :=
  let d := ctlDep (q.getD 0 0)
  let all := mmxNbr q * mmxNbc q
  if d = 0 then some all
  else tab.map fun img => let t := Table.of img; all * (t.bm ^ d * t.bn ^ d)

/-- Slabs with checksums from `c` on. -/
def cSlabs (fa : Fmt) (ck : Bool) (n : Nat) : Nat := n * slabsOf fa + if ck then (n + 7) / 8 else 0

/-- The command writes slab `k`; a command resumed from memory may write any until its image is read. -/
def EngBody.writesSlab (body : EngBody) (k : Nat) : Bool :=
  match body with
  | .mmt m =>
    let fa := (Fmt.ofCode (ctlFa m.ctl)).getD .fp32
    if ctlDep m.ctl = 0 then inRun m.c (cSlabs fa m.ck 1) k
    else inRun m.c (if fa = .fp64 then 128 else 72) k
  | .mmx ck _ _ _ c ea _ _ _ q _ _ _ tab =>
    let fa := (TxEnt.fmt ea).getD .fp32
    match mmxEntries q tab with
    | some n => inRun c (cSlabs fa ck n) k
    | none => inRun c ((if fa = .fp64 then 128 else 72) * mmxNbr q * mmxNbc q) k
  | .xfer store slab _ d _ ent _ _ => !store && slab && inRun d (if TxEnt.fmt ent = some .fp64 then 2 else 1) k
  | .mzero tile f n => !tile && inRun f n k
  | .mdrain _ keep _ _ _ q _ _ _ _ =>
    !keep && inRun (quadAt q 0 % 512) ((quadAt q 3 / 2 ^ 18 % 64 + 1) * (quadAt q 3 / 2 ^ 12 % 64 + 1)) k
  | .mresume _ => true
  | _ => false

/-- The command reads slab `k`. -/
def EngBody.readsSlab (body : EngBody) (k : Nat) : Bool :=
  match body with
  | .xfer store slab _ d _ ent _ _ => store && slab && inRun d (if TxEnt.fmt ent = some .fp64 then 2 else 1) k
  | .mdrain _ _ _ _ _ q _ _ _ _ =>
    inRun (quadAt q 0 % 512) ((quadAt q 3 / 2 ^ 18 % 64 + 1) * (quadAt q 3 / 2 ^ 12 % 64 + 1)) k
  | .mmt _ => body.writesSlab k
  | .mmx .. => body.writesSlab k
  | _ => false

/-- The matrix commands of a block that wait or run: in its core's queue, or waiting to enter it again. -/
def State.matCmds (s : State) (core blk : Nat) : List EngCmd :=
  ((s.core core).matQ.filter fun q => q.blk = blk) ++ ((Tbl.find s.blocks blk).map (·.batch)).getD []

def State.slabWriteBusy (s : State) (core blk k : Nat) : Bool := (s.matCmds core blk).any fun q => q.body.writesSlab k
def State.slabReadBusy (s : State) (core blk k : Nat) : Bool := (s.matCmds core blk).any fun q => q.body.readsSlab k

/-! ## MRD, MWR and MCHK (R276, R277) -/

/-- A word of a slab. -/
def Block.slabWord (b : Block) (k i : Nat) : W32 := BitVec.ofNat 32 (leNat (Memory.read b.slabs (1024 * k + 4 * i) 4))

/-- Words per move and the slab and q of MRD and MWR, checked. -/
def Ctx.slabPlace (c : Ctx) (li : W32) (pos : Nat) (slab q : Opnd) : Except Deny (Nat × Nat) :=
  let k := c.tl li pos slab
  let n := c.tl li (pos + 1) q
  if c.b.nsl ≤ k then .error (denyAt 0x0EC (pos + 1))
  else if 256 / c.g.width ≤ n then .error (denyAt 0x0EC (pos + 2))
  else .ok (k, n * c.g.width)

def execMrd (h : Hints) (d : BitVec 8) (slab q : Opnd) (s : State) : Out :=
  issueWait h s [(0, .v d, 1), (1, slab, 1), (2, q, 1)] fun c t =>
    match c.slabPlace (t.launchIx c.b) 1 slab q with
    | .error e => .ok (t.denied c e)
    | .ok (k, w) =>
      if t.slabWriteBusy c.g.core c.g.blk k then .error .engineQueue
      else
        let ws := dst32 c (.v d) (.g (lanes fun l => if l < c.g.width then c.b.slabWord k (w + l) else 0))
        t.roomed c ws (t.finishV c h ws)

def execMwr (h : Hints) (d slab q : Opnd) (s : State) : Out :=
  issueWait h s [(0, d, 1), (1, slab, 1), (2, q, 1)] fun c t =>
    match c.slabPlace (t.launchIx c.b) 1 slab q with
    | .error e => .ok (t.denied c e)
    | .ok (k, w) =>
      if t.slabWriteBusy c.g.core c.g.blk k || t.slabReadBusy c.g.core c.g.blk k then .error .engineQueue
      else
        let x := c.src (t.launchIx c.b) 0 d
        .ok ((t.modBlock c.g.blk fun b =>
          Block.note { b with slabs := (lanesOf c.live).foldl (fun (m : Memory) l =>
              Memory.write m (1024 * k + 4 * (w + l)) (leBytes 4 (x.lane l).toNat)) b.slabs } [.slab k]).finishNow c h)

/-- A difference of MCHK: the sum of 16 elements less their check, rounded once; or mod 2^32. -/
def chkDiff (i32 : Bool) (xs : List W32) (ck : W32) : W32 :=
  if i32 then xs.foldl (· + ·) 0 - ck
  else
    let v := fun x : W32 => DV.of (f32 x)
    let neg := match v ck with
      | .nan => DV.nan
      | .inf b => .inf (!b)
      | .fin b m e => .fin (!b) m e
    BitVec.ofNat 32 ((DV.sum (xs.map v ++ [neg])).bits ffF32)

/-- fail(δ) of R277. -/
def chkFails (i32 : Bool) (tol x : W32) : Bool :=
  if i32 then x ≠ 0
  else
    let a := f32 (x &&& 0x7FFFFFFF)
    !(EV.lt a (f32 tol) || EV.eq a (f32 tol))

def execMchk (h : Hints) (pos : BitVec 3) (i32 res : Bool) (d a k x : Opnd) (s : State) : Out :=
  issueWait h s [(0, d, if res then 1 else 2), (1, a, 1), (2, k, 1), (3, x, 1)] fun c t =>
    let li := t.launchIx c.b
    let cs := c.tl li 1 a
    let ks := c.tl li 2 k
    let tol := (c.srcF li 3 ffF32 x).lane (lowLane c.live)
    if c.b.nsl ≤ cs then .ok (t.denied c (denyAt 0x0EC 2))
    else if c.b.nsl ≤ ks then .ok (t.denied c (denyAt 0x0EC 3))
    else if t.slabWriteBusy c.g.core c.g.blk cs || t.slabWriteBusy c.g.core c.g.blk ks then .error .engineQueue
    else
      let n := 32 * pos.toNat
      let dr := fun i => chkDiff i32 ((List.range 16).map fun j => c.b.slabWord cs (16 * i + j)) (c.b.slabWord ks (n + i))
      let dc := fun j => chkDiff i32 ((List.range 16).map fun i => c.b.slabWord cs (16 * i + j)) (c.b.slabWord ks (n + 16 + j))
      let ws := if res then dst32 c d (.g (lanes fun l => if l < 16 then dr l else if l < c.g.width then dc (l - 16) else 0))
        else
          let map := fun f => maskOf fun i => i < 16 && chkFails i32 tol (f i)
          dst64 c d (.u (map dr), .u (map dc))
      t.roomed c ws (t.finishV c h ws)

/-! ## MDRAIN (R278) -/

/-- The entries of an MDRAIN, checked; the second moments of `.adamw` are the entry after the moments. -/
def mdrainPlan (b : Block) (adamw acq rel ctr keep : Bool) (txW txM : Nat) (ew em ev : BitVec 512) (q : List W32)
    (bp : Va) : Except Deny Plan :=
  let moment := fun (e : BitVec 512) => TxEnt.n e 0 = TxEnt.n ew 0 && TxEnt.n e 1 = TxEnt.n ew 1
  let need : TxNeed := ⟨[.fp32], false, false, true⟩
  match txReason ew none ⟨[.fp32, .bf16], false, true, true⟩, txReason em none need, txReason ev none need with
  | some r, _, _ => .error (txDeny txW r)
  | none, some r, _ => .error (txDeny txM r)
  | none, none, some r => if adamw then .error (txDeny (txM + 1) r) else mdrainRest moment need
  | none, none, none => mdrainRest moment need
where
  /-- The rest of the checks: the extents, the quad, the slab run, the counter. -/
  mdrainRest (moment : BitVec 512 → Bool) (_need : TxNeed) : Except Deny Plan :=
    let scope := quadAt q 3 / 16 % 16
    let k := quadAt q 3 / 256 % 16
    let n := (quadAt q 3 / 2 ^ 18 % 64 + 1) * (quadAt q 3 / 2 ^ 12 % 64 + 1)
    let clean := quadAt q 0 / 512 = 0 && quadAt q 3 / 2 ^ 24 = 0 && quadAt q 3 % 16 = 0 && scope ≤ 10 &&
      (acq || rel || scope = 0) && (ctr || k = 0)
    if !moment em || (adamw && !moment ev) then .error (denyAt 0x0EB 2)
    else if !clean then .error (denyAt 0x0EB 3)
    else do
      let c ← ctrOk b ctr k
      if b.nsl < quadAt q 0 + n then .error (denyAt 0x0EC 3)
      else
        let md := BitVec.ofBool keep ++ BitVec.ofBool ctr ++ BitVec.ofBool rel ++ BitVec.ofBool acq ++ (0 : BitVec 1) ++
          BitVec.ofBool adamw
        let cost := productCost ((TxEnt.fmt ew).getD .fp32)
        return { Plan.init md cost (.mdrain adamw keep ew em (if adamw then ev else 0) q bp none 0 0) with
          ctr := c, acq := acq, rel := rel, scope := scope }

def execMdrain (h : Hints) (adamw acq rel ctr keep : Bool) (txW txM : BitVec 6) (quad : BitVec 6) (bP : BitVec 4)
    (s : State) : Out :=
  engIssue h s [(2, .s quad, 4)] fun c _ _ =>
    if c.b.prog.isSome then .error (deny 0x0EE)
    else if adamw && txM.toNat = 63 then .error (denyAt 0x0EB 2)
    else if (c.base 3 bP.toNat).toNat % 64 ≠ 0 then .error { deny 0x063 with addr := c.base 3 bP.toNat }
    else mdrainPlan c.b adamw acq rel ctr keep txW.toNat txM.toNat (c.b.txEnt txW.toNat) (c.b.txEnt txM.toNat)
      (c.b.txEnt (txM.toNat + 1)) (c.quad 2 quad.toNat) (c.base 3 bP.toNat)

end Sys2Proof.Machine
end

