-- ==== Sys2Proof/Machine/Copy.lean ====
section
/-! DEFINITION. Copies (R239 to R245): COPY, COPYW and COPYM at their issue, their execution row by row, and the
follow-on commands of COPYM on their way to the matrix queue (R242). -/

namespace Sys2Proof.Machine

/-- cmd of the copy-engine codes (R235). -/
def CopyKind.num : CopyKind → Nat
  | .copy => 0
  | .copyw => 1
  | .copym => 2

/-- The rows that a copy moves. -/
def copyRows (k : CopyKind) (q : List W32) : Nat :=
  match k with
  | .copyw => quadAt q 3 / 2 ^ 12 % 2 ^ 12 + 1
  | _ => (windowOf q).nr

/-- Elements per row. -/
def copyElems (q : List W32) : Nat := quadAt q 3 % 2 ^ 12 + 1

/-- Row `r` of a copy (R240, R241). -/
def copyRow (k : CopyKind) (q : List W32) (r : Nat) : Row :=
  match k with
  | .copyw =>
    { x0 := quadInt q 0, ne := copyElems q, i1 := quadInt q 1 + r * (quadAt q 3 / 2 ^ 24 % 16 + 1 : Nat)
      i2 := (BitVec.ofNat 16 (quadAt q 2)).toInt, i3 := quadAt q 2 / 2 ^ 16 }
  | _ => { x0 := quadInt q 0, ne := copyElems q, i1 := quadInt q 1 + r, i2 := quadAt q 2, i3 := 0 }

/-- Bytes from one row of the slots to the next. -/
def copyPitch (e : BitVec 512) (q : List W32) : Nat := (rowBytes e (copyElems q) + 15) / 16 * 16

/-- span of R240 and R241. -/
def copySpan (k : CopyKind) (e : BitVec 512) (q : List W32) : Nat := copyRows k q * copyPitch e q

/-- The slots of a copy's run. -/
def copyRun (k : CopyKind) (e : BitVec 512) (q : List W32) (slot : Nat) : List Nat :=
  (List.range ((copySpan k e q + 1023) / 1024)).map (slot + ·)

/-- The geometry fails (R240, R241). -/
def copyBad (k : CopyKind) (z : Bool) (e : BitVec 512) (q : List W32) : Bool :=
  16384 < copySpan k e q || (match k with
    | .copyw => quadAt q 3 / 2 ^ 28 ≠ 0 || TxEnt.ndim e < 2
    | _ => quadAt q 3 / 2 ^ 24 ≠ 0 || !(windowOf q).evenFor e || (!z && !(windowOf q).inside e))

/-- FINFO of a copy's fault: rdone, the tag and tx (R243). -/
def copyInfo (tx tag row : Nat) : Nat := row % 2 ^ 16 + tag * 2 ^ 16 + tx * 2 ^ 24

/-- The follow-on word of a COPYM (R242), its registers read. -/
def Ctx.follow (c : Ctx) (li : W32) (xq : List W32) : Except Deny Mmt :=
  let w : BitVec 96 := xq.getD 2 0 ++ xq.getD 1 0 ++ xq.getD 0 0
  let r := Raw.ofWord w
  let bad := fun (code pos : Nat) => (.error { denyAt code pos with followOn := true } : Except Deny Mmt)
  if r.op ≠ 0x307 || r.g ≠ 0x0F || r.dist ≠ 0 || r.wait ≠ 0 || r.set ≠ 15 || r.yld ≠ 0 then bad 0x0C3 0
  else match decode w with
    | .error e => bad e.code.toNat e.pos.toNat
    | .ok (.mmt _ ck z sa sb d a b ctl) =>
      match demandFail c.b [(0, d, 1), (1, a, 1), (2, b, 1), (3, .s ctl, 1)] with
      | some pos => bad (0x024 + pos) (pos + 1)
      | none => .ok { fol := true, buf := true, ck, z, sa, sb, c := c.tl li 4 d, a := c.tl li 5 a, b := c.tl li 6 b,
                      ctl := c.s 7 ctl.toNat, cb := none }
    | .ok _ => bad 0x0C3 0

/-- What the words of a copy say beside its geometry. -/
structure CopyCtl where
  md : BitVec 6
  st : Bool
  acq : Bool
  rel : Bool
  z : Bool
  tag : Nat
  scope : Nat
  ctr : Bool
  ctrIx : Nat
  bar : Bool
  barIx : Nat
  deriving DecidableEq, Repr

/-- The checks of R239 behind those of R42, in their order; `fol` is the follow-on's. -/
def Ctx.copyPlan (c : Ctx) (li : W32) (k : CopyKind) (m : CopyCtl) (slot : Opnd) (tx quad : Nat) (bad : Bool)
    (fol : Except Deny (Option Mmt)) : Except Deny Plan := do
  let q := c.quad 2 quad
  match c.same li 0 slot with
  | none => .error (deny 0x02A)
  | some d =>
    let e ← c.b.txFor tx ⟨if k = .copy then allFmts else plainFmts, false, false, m.st⟩
    let run := copyRun k e q d
    if c.b.nsp < d + run.length then .error (deny 0x0A0)
    else if c.b.ntag ≤ m.tag then .error (deny 0x0A3)
    else
      let ctr ← ctrOk c.b m.ctr m.ctrIx
      if bad || copyBad k m.z e q then .error (deny (0x0C0 + k.num))
      else
        let bar ← barOk c.b m.bar m.barIx
        let f ← fol
        let absent := c.b.harvest && run.any fun i => (c.b.ent i).absent
        return { Plan.init m.md 1 (.copy k m.st m.z d tx e q m.tag 0 f) with
          acq := m.acq, rel := m.rel, scope := m.scope, ctr := ctr, bar := bar, tag := some m.tag
          slots := if m.st || absent then [] else run, absent := absent }

def CopyMd.ctl (m : CopyMd) : CopyCtl :=
  { md := m.md, st := m.st, acq := m.acq, rel := m.rel, z := m.z, tag := m.tag.toNat, scope := m.scope.toNat, ctr := m.ctr
    ctrIx := m.ctrIx.toNat, bar := m.bar, barIx := m.barIx.toNat }

def execCopy (h : Hints) (m : CopyMd) (slot : Opnd) (tx : BitVec 6) (quad : BitVec 6) (s : State) : Out :=
  engIssue h s [(0, slot, 1), (2, .s quad, 4)] fun c _ li =>
    c.copyPlan li .copy (CopyMd.ctl m) slot tx.toNat quad.toNat false (.ok none)

def execCopyw (h : Hints) (m : CopyMd) (slot : Opnd) (tx : BitVec 6) (quad : BitVec 6) (s : State) : Out :=
  engIssue h s [(0, slot, 1), (2, .s quad, 4)] fun c _ li =>
    c.copyPlan li .copyw (CopyMd.ctl m) slot tx.toNat quad.toNat false (.ok none)

/-- COPYM: its control stands in the fourth word of the quad in `x`. -/
def execCopym (h : Hints) (acq rel z : Bool) (slot : Opnd) (tx : BitVec 6) (quad xquad : BitVec 6) (s : State) : Out :=
  engIssue h s [(0, slot, 1), (2, .s quad, 4), (3, .s xquad, 4)] fun c _ li =>
    let xq := c.quad 3 xquad.toNat
    let ctl := quadAt xq 3
    let scope := ctl / 64 % 16
    let bad := ctl / 2 ^ 10 ≠ 0 || 10 < scope || (!acq && !rel && scope ≠ 0)
    let m : CopyCtl := { md := CopyMd.md ⟨false, acq, rel, false, false, z, 0, 0, 0, 0⟩, st := false, acq, rel, z
                         tag := ctl % 64, scope, ctr := false, ctrIx := 0, bar := false, barIx := 0 }
    c.copyPlan li .copym m slot tx.toNat quad.toNat bad ((c.follow li xq).map some)

/-! ## Execution -/

/-- The tag of a copy is done, its slots are no longer busy with it (R229, R232). -/
def State.freeCopy (s : State) (q : EngCmd) (err : Bool) : State :=
  match q.body with
  | .copy k st _ slot _ e quad tag _ _ =>
    s.modBlock q.blk fun b =>
      let b1 := { b with tags := Tbl.put b.tags tag (.done err) }
      if st then b1
      else (copyRun k e quad slot).foldl (fun (b : Block) i => b.setEnt i { b.ent i with busy := (b.ent i).busy - 1 }) b1
  | _ => s

/-- The head of the follow-on buffer passes to the matrix queue as an MMT issued at that moment: it waits for its counter
and a queue entry, and a failed check ends it with FOLLOW_ON_BAD (R242). -/
def State.drainFollow (s : State) (core : Nat) : State :=
  match (s.core core).follow with
  | [] => s
  | q :: rest =>
    let s1 := s.modCore core fun k => { k with follow := rest }
    match q.body, Tbl.find s.blocks q.blk with
    | .mmt m, some b =>
      match mmtPlan b q.md { m with buf := false } with
      | .error e => (s1.engFaultAt q e.pos 0x0C3 e.code e.info 0).endCmd q
      | .ok p =>
        let high := match p.ctr with
          | some i => 255 ≤ b.ctr i
          | none => false
        if high || 32 ≤ (s.core core).matQ.length then s
        else
          (s1.modBlock q.blk fun b => b.take p).enqueue core
            { q with body := p.body, ctrs := p.ctr.toList, bars := p.bar.toList }
    | _, _ => s1

/-- A copy that leaves the engine is counted, with the bytes of the rows it has moved (R390). -/
def State.countCopy (s : State) (core : Nat) (q : EngCmd) : State :=
  match q.body with
  | .copy _ _ _ _ _ e quad _ row _ =>
    let vd := s.vdOf q.gid
    (s.countCore core 0x28 (some vd) 1).countCore core 0x29 (some vd) (row * rowBytes e (copyElems quad) / 128)
  | _ => s

/-- A copy has moved its last row: tag, counter, barrier; a follow-on enters its buffer (R242). -/
def State.copyDone (s : State) (core ix : Nat) (q : EngCmd) : State :=
  let s1 := ((s.countCopy core q).dropCopy core ix).freeCopy q false
  match q.body with
  | .copy _ _ _ _ _ _ _ _ _ (some m) =>
    let f := { q with ctrs := [], bars := [], after := [], md := mmtMd m.ck m.z m.sa m.sb, body := .mmt m }
    ((s1.modCore core fun k => { k with follow := k.follow ++ [f] }).discharge q.blk q.ctrs q.bars).drainFollow core
  | _ => s1.doneCmd q

/-- A copy stops or is cancelled: its tag is done with the error bit (R243, R244). -/
def State.copyStop (s : State) (core ix : Nat) (q : EngCmd) : State :=
  (((s.countCopy core q).dropCopy core ix).freeCopy q true).endCmd q

/-- The bytes of a run that a free choice picks are written, each where its page takes it. -/
def State.partPut (s : State) (b : Block) (seed salt a : Nat) : List (Nat × Byte) → State
  | [] => s
  | (i, x) :: more =>
    let s1 := if Config.partWrite seed (65536 * salt + i) then (s.engPut b .pageFail (1008 + 16 * salt) (a + i) [x]).1 else s
    s1.partPut b seed salt a more

/-- The rows that a stopped store may have written in part (R243): each byte of them is the new one or the old one. -/
def State.partRows (s : State) (b : Block) (e : BitVec 512) (k : CopyKind) (quad : List W32) (slot : Nat) :
    List Nat → State
  | [] => s
  | r :: rs =>
    let row := copyRow k quad r
    let bs := s.slotBytes b (1024 * slot + r * copyPitch e quad) (rowBytes e row.ne)
    let x := s.rowOut b .pageFail (1000 + 16 * r) e row bs
    let s1 := match x.2 with
      | .ok [(a, out)] => x.1.partPut b s.free r a ((List.range out.length).zip out)
      | _ => s
    s1.partRows b e k quad slot rs

/-- Rows of a copy, up to a number of them; the outcome of the row that could not be moved, if one could not. -/
def State.moveRows (s : State) (b : Block) (blk : Nat) (k : CopyKind) (st : Bool) (e : BitVec 512) (quad : List W32)
    (slot : Nat) : Nat → Nat → State × Nat × EngRes Unit
  | 0, r => (s, r, .ok ())
  | n + 1, r =>
    if copyRows k quad ≤ r then (s, r, .ok ())
    else
      let at' := 1024 * slot + r * copyPitch e quad
      let row := copyRow k quad r
      if st then
        let x := s.storeRow b .ok (200 + 16 * n) e row (s.slotBytes b at' (rowBytes e row.ne))
        match x.2 with
        | .ok _ => x.1.moveRows b blk k st e quad slot n (r + 1)
        | y => (x.1, r, y)
      else
        let x := s.loadRow b .ok (200 + 16 * n) e row
        match x.2 with
        | .ok bs =>
          let pad := bs ++ List.replicate (copyPitch e quad - bs.length) 0
          (x.1.modBlock blk fun b => { b with slots := Memory.write b.slots at' pad }).moveRows b blk k st e quad slot n (r + 1)
        | .wait => (x.1, r, .wait)
        | .stop code addr => (x.1, r, .stop code addr)

/-- The row that meets an error of the memory system, or a failed page request. -/
def State.failRow (s : State) (b : Block) (st : Bool) (e : BitVec 512) (row : Row) (bs : List Byte) (err : EngErr) :
    State × EngRes Unit :=
  if st then s.storeRow b err 100 e row bs
  else
    let x := s.loadRow b err 100 e row
    (x.1, match x.2 with
      | .ok _ => .ok ()
      | .wait => .wait
      | .stop code addr => .stop code addr)

/-- COPY_EXECUTE: a queued copy moves up to `rows` rows, and the row after them meets `err`. It completes with its last
row; a row that fails stops it (R243); a missing page is waited for. -/
def execCopyExecute (core ix : Nat) (rows : Nat) (err : EngErr) (s : State) : Out :=
  .next (match (s.core core).copyQ[ix]? with
    | some q =>
      match q.body, Tbl.find s.blocks q.blk with
      | .copy k st z slot tx e quad tag row fol, some b =>
        if !s.cmdReady q then s
        else
          let m := s.moveRows b q.blk k st e quad slot rows row
          let s1 := { m.1 with free := s.free + 1 }
          let q' := { q with body := .copy k st z slot tx e quad tag m.2.1 fol }
          let s2 := s1.modCore core fun c => { c with copyQ := c.copyQ.set ix q' }
          if copyRows k quad ≤ m.2.1 then s2.copyDone core ix q'
          else
            let last := copyRow k quad m.2.1
            let bytes := s2.slotBytes b (1024 * slot + m.2.1 * copyPitch e quad) (rowBytes e last.ne)
            let r : State × EngRes Unit := match m.2.2 with
              | .stop _ _ => (s2, m.2.2)
              | _ => if err = .ok then (s2, m.2.2) else s2.failRow b st e last bytes err
            match r.2 with
            | .stop code addr =>
              let s3 := if st then
                  r.1.partRows b e k quad slot ((List.range (copyRows k quad)).filter fun i => m.2.1 ≤ i)
                else r.1
              let why := 0x0C0 + 4 * stopReason 1 3 st code + k.num
              (s3.engFault q' why code (copyInfo tx tag m.2.1) addr).copyStop core ix q'
            | _ => r.1
      | _, _ => s
    | none => s)

end Sys2Proof.Machine
end

