-- ==== Sys2Proof/Machine/MatrixStep.lean ====
section
/-! DEFINITION. The matrix engine at work (R253, R270): the choice among blocks, one step of each command, stops and the
progress register, and the loading of bilinear tables (R256, R266). -/

namespace Sys2Proof.Machine

/-! ## The queue -/

/-- The first command of a block in its order. -/
def State.matHead (s : State) (core blk : Nat) : Option EngCmd := (s.core core).matQ.find? fun q => q.blk = blk

/-- An MMX that runs with a table slot bound: the first command of another block (R256). -/
def State.slotInUse (s : State) (core blk slot : Nat) : Bool :=
  (((s.core core).matQ.map (·.blk)).eraseDups.filter fun k => k ≠ blk).any fun k => match s.matHead core k with
    | some q => match q.body with
      | .mmx _ _ _ _ _ _ _ _ _ quad _ _ _ tab => tab.isSome && ctlDep (quad.getD 0 0) ≠ 0 && ctlBat (quad.getD 0 0) = slot
      | _ => false
    | none => false

/-- A block's first command is a BATLOAD that waits for the commands which use its slot (R256). -/
def State.batWaits (s : State) (core blk : Nat) : Bool :=
  match s.matHead core blk with
  | some q => match q.body with
    | .batload slot _ => (Tbl.getD (s.core core).bat slot .init).st ≠ .loading && s.slotInUse core blk slot
    | _ => false
  | none => false

/-- The blocks of a class that have a command which may run in a core's matrix queue. -/
def State.matBlocks (s : State) (core : Nat) (hv : Bool) : List Nat :=
  ((s.core core).matQ.map (·.blk)).eraseDups.filter fun k =>
    match Tbl.find s.blocks k with
    | some b => b.harvest = hv && !s.batWaits core k
    | none => false

/-- The block whose turn it is: owner blocks before harvest blocks, in rotation (R253). -/
def State.matPick (s : State) (core : Nat) : Option Nat :=
  let owners := s.matBlocks core false
  let ks := sortBy (fun x y => x ≤ y) (if owners.isEmpty then s.matBlocks core true else owners)
  match ks.find? fun k => (s.core core).rot < k with
  | some k => some k
  | none => ks.head?

/-- The first command of a block replaced by a list of commands. -/
def replaceHead (blk : Nat) (new : List EngCmd) : List EngCmd → List EngCmd
  | [] => []
  | q :: qs => if q.blk = blk then new ++ qs else q :: replaceHead blk new qs

def State.setHead (s : State) (core : Nat) (q : EngCmd) : State :=
  s.modCore core fun k => { k with matQ := replaceHead q.blk [q] k.matQ }

def State.dropHead (s : State) (core blk : Nat) : State :=
  s.modCore core fun k => { k with matQ := replaceHead blk [] k.matQ }

/-- The head command of a block ends. -/
def State.matEnd (s : State) (core : Nat) (q : EngCmd) : State := ((s.dropHead core q.blk).doneCmd q).drainFollow core

/-- A command that has failed ends with an asynchronous fault, whose record names an operand position or none (0); a
follow-on's is FOLLOW_ON_BAD (R242). -/
def State.matFailAt (s : State) (core : Nat) (q : EngCmd) (pos code det info addr : Nat) : State :=
  let fol := match q.body with
    | .mmt m => m.fol
    | _ => false
  (if fol then s.engFaultAt q pos 0x0C3 code info addr else s.engFaultAt q pos code det info addr).matEnd core q

/-- The same, with no operand named. -/
def State.matFail (s : State) (core : Nat) (q : EngCmd) (code det info addr : Nat) : State :=
  s.matFailAt core q 0 code det info addr

/-- A long command stops: it leaves the queue for the progress register, or is cancelled with PROG_LOST when the register
is occupied (R270). -/
def State.stopLong (s : State) (core : Nat) (q : EngCmd) (code ucode info addr : Nat) : State :=
  let held := ((Tbl.find s.blocks q.blk).map (·.prog.isSome)).getD false
  if held then s.matFail core q 0x0EF ucode info addr
  else
    let st : Stopped := { cmd := q, code := BitVec.ofNat 9 code, ucode := BitVec.ofNat 9 ucode, addr := BitVec.ofNat 80 addr }
    (((s.dropHead core q.blk).modBlock q.blk fun b => { b with prog := some st }).engFault q code ucode info addr |>.engLeft
      q.gid).drainFollow core

/-! ## The product of one step -/

/-- The byte of a C entry's element. -/
def cAddr (fa : Fmt) (slab i j : Nat) : Nat := 1024 * slab + if fa = .fp64 then 128 * i + 8 * j else 64 * i + 4 * j

def accBytes (fa : Fmt) : Nat := if fa = .fp64 then 8 else 4

/-- The products of one step: the accumulators of the C entries from slab `c` on, old to new, and the flags. -/
structure Step where
  r : Rounding
  dep : Nat
  tab : Table
  kb : Nat
  as : Array Brick
  bs : Array Brick

/-- The C entries of a step. -/
def Step.entries (t : Step) : Nat :=
  if t.dep = 0 then 1 else if t.tab.corr then t.tab.bm else t.tab.bm ^ t.dep * t.tab.bn ^ t.dep

/-- The pairs of bricks whose classical products sum to C entry `e` (R262, R264). -/
def Step.pairs (t : Step) (e : Nat) : List (Brick × Brick) :=
  let a := fun i => t.as.getD i #[]
  let b := fun i => t.bs.getD i #[]
  if t.dep = 0 then [(a 0, b 0)]
  else if t.tab.corr then (List.range t.tab.bk).map fun i => (a (e + i), b i)
  else
    let kd := t.tab.bk ^ t.dep
    let nd := t.tab.bn ^ t.dep
    (List.range kd).map fun i => (a (e / nd * kd + i), b (i * nd + e % nd))

/-- The values that the accumulators of the entries take on, at depth 1 and above (R284, R288). -/
def Step.values (t : Step) : Array (Array DV) × Flags :=
  if t.dep = 0 then (#[], 0)
  else if t.tab.corr then corr t.r t.tab t.kb t.as t.bs
  else bil t.r t.tab t.kb t.dep t.as t.bs

/-- The accumulators of entry `e` after the step. -/
def Step.entry (t : Step) (vals : Array (Array DV)) (old : Nat → Nat) (e : Nat) : List Nat × Flags :=
  let f := t.r.fa
  (List.range 256).foldl (fun (acc : List Nat × Flags) q =>
    let x := if t.dep = 0 then
        (mac f (old q) (fun k => (t.as.getD 0 #[]).at' t.kb (q / 16) k) (fun k => (t.bs.getD 0 #[]).at' t.kb (q % 16) k) t.kb, 0)
      else accumulate t.r (old q) ((vals.getD e #[]).getD q .zero)
    (acc.1 ++ [x.1], acc.2 ||| x.2)) ([], 0)

/-- The slabs after a step: C entries from slab `c`, at run positions from `pos`, with checksum slabs from `ckAt` when there
are any; `zero`: the entries and their checks start from zero. -/
def Step.apply (t : Step) (m : Memory) (c pos : Nat) (ckAt : Option Nat) (zero : Bool) : Memory × Flags :=
  let f := t.r.fa
  let n := accBytes f
  let vals := t.values
  (List.range t.entries).foldl (fun (acc : Memory × Flags) e =>
    let slab := c + e * slabsOf f
    let old := fun q => if zero then 0 else leNat (Memory.read m (cAddr f slab (q / 16) (q % 16)) n)
    let x := t.entry vals.1 old e
    let m1 := Memory.write acc.1 (1024 * slab) (x.1.flatMap fun v => leBytes n v)
    let m2 := match ckAt with
      | none => m1
      | some k =>
        let at' := 1024 * (k + (pos + e) / 8) + 128 * ((pos + e) % 8)
        let ps := t.pairs e
        let word := fun i =>
          let was := if zero then 0 else leNat (Memory.read m (at' + 4 * i) 4)
          checkWord f was (checkSum t.kb ps (16 ≤ i) (i % 16))
        Memory.write m1 at' ((List.range 32).flatMap fun i => leBytes 4 (word i))
    (m2, acc.2 ||| x.2)) (m, vals.2)

/-- The slabs that a step writes: its C entries and their checks. -/
def Step.slabs (t : Step) (c pos : Nat) (ckAt : Option Nat) : List Nat :=
  (List.range (t.entries * slabsOf t.r.fa)).map (c + ·) ++
    ckAt.toList.flatMap fun k => (List.range t.entries).map fun e => k + (pos + e) / 8

/-- The slabs after a step, which has written `ks` of them; its flags are ORed into the block's flag word (R263). -/
def State.afterStep (s : State) (blk : Nat) (ks : List Nat) (m : Memory) (fl : Flags) : State :=
  s.modBlock blk fun b => Block.note { b with slabs := m, sticky := b.sticky ||| fl } (ks.map .slab)

/-- The entries of the A, B and C runs of a table at a depth (R262). -/
def Table.runs (t : Table) (d : Nat) : Nat × Nat × Nat :=
  if d = 0 then (1, 1, 1)
  else if t.corr then (t.bm + t.bk - 1, t.bk, t.bm)
  else (t.bm ^ d * t.bk ^ d, t.bk ^ d * t.bn ^ d, t.bm ^ d * t.bn ^ d)

/-- The binding of a table by a command (R262): its image, or the code, det and info of the fault. -/
def State.bindTable (s : State) (core : Nat) (w : W32) (op : Nat) (mmx : Bool) : Except (Nat × Nat × Nat) (List Byte) :=
  if ctlDep w = 0 then .ok []
  else
    let x := s.bat core (ctlBat w)
    let t := Table.of x.image
    let (ra, rb, rc) := t.runs (ctlDep w)
    if x.st ≠ .valid then .error (0x0E9, op, ctlBat w)
    else if (t.corr && (mmx || ctlDep w ≠ 1)) || 64 < ra || 64 < rb || 64 < rc then .error (0x0ED, 0, 0)
    else .ok x.image

/-! ## MMT (R268) -/

/-- The bytes of an operand entry: a tile, or a slot. -/
def State.operand (s : State) (b : Block) (slot : Bool) (k : Nat) : List Byte :=
  if slot then s.slotBytes b (1024 * k) 1024 else Memory.read b.tiles (1024 * k) 1024

/-- Slabs zeroed. -/
def zeroSlabs (m : Memory) (first n : Nat) : Memory := Memory.clear m (1024 * first) (1024 * n)

/-- The brick times of one brick at a depth (R251). -/
def Table.brickTimes (t : Table) (d : Nat) : Nat := if d = 0 then 1 else t.rank ^ d

/-- A step of the engine is counted, with its brick times (R251, R390). -/
def State.countStep (s : State) (core vd : Nat) (t : Table) (d : Nat) : State :=
  (s.countCore core 0x2A (some vd) 1).countCore core 0x2B (some vd) (t.brickTimes d)

/-- An MMT runs as one step, or fails at its binding. -/
def State.runMmt (s : State) (core : Nat) (q : EngCmd) (b : Block) (m : Mmt) : State :=
  let w := m.ctl
  let fa := (Fmt.ofCode (ctlFa w)).getD .fp32
  let fb := (Fmt.ofCode (ctlFb w)).getD .fp32
  match s.bindTable core w 0x307 false with
  | .error (code, det, info) => s.matFail core q code det info 0
  | .ok img =>
    let t := Table.of img
    let (ra, rb, rc) := t.runs (ctlDep w)
    let top := fun (slot : Bool) => if slot then b.nsp else b.nt
    if top m.sa < m.a + ra then s.matFailAt core q 2 0x0EC 0 0 0
    else if top m.sb < m.b + rb then s.matFailAt core q 3 0x0EC 0 0 0
    else if !cRunOk b fa m.ck m.c rc then s.matFailAt core q 1 0x0EC 0 0 0
    else
      let cb := m.cb.getD []
      let bricks := fun (slot : Bool) (f : Fmt) k n =>
        ((List.range n).map fun i => tileBrick f cb (s.operand b slot (k + i))).toArray
      let step : Step := ⟨ctlRound w fa fb, ctlDep w, t, Fmt.kb fa, bricks m.sa fa m.a ra, bricks m.sb fb m.b rb⟩
      let ckAt := if m.ck then some (m.c + rc * slabsOf fa) else none
      let from' := if m.z then zeroSlabs b.slabs m.c (cSlabs fa m.ck rc) else b.slabs
      let r := step.apply from' m.c 0 ckAt m.z
      let ks := if m.z then (List.range (cSlabs fa m.ck rc)).map (m.c + ·) else step.slabs m.c 0 ckAt
      ((s.afterStep q.blk ks r.1 r.2).countStep core b.vd t (ctlDep w)).matEnd core q

/-! ## MMX (R269) -/

/-- The values of a run of K of one operand row, as val() gives them, integers as they are (R157); outside the extents zero. -/
def State.kRun (s : State) (b : Block) (err : EngErr) (salt : Nat) (e : BitVec 512) (cb : List Byte) (twin : Bool)
    (row k0 n : Nat) : State × EngRes (List DV) :=
  let f := (TxEnt.fmt e).getD .fp32
  let half := TxEnt.half e
  let nk := if twin then TxEnt.n e 1 else TxEnt.n e 0
  let nr := if twin then TxEnt.n e 0 else TxEnt.n e 1
  let cnt := min n (nk - k0)
  if nr ≤ row || cnt = 0 then (s, .ok (List.replicate n .zero))
  else
    let at' := (if twin then TxEnt.taddr e row k0 0 0 else TxEnt.addr e k0 row 0 0).toNat
    let skip := k0 * half % 2
    let x := s.engGet b err salt at' ((skip + cnt * half + 1) / 2)
    match x.2 with
    | .ok bs =>
      let vals := (List.range cnt).map fun i => Fmt.val f cb (Fmt.elem f bs.toArray (skip + i))
      let perK := twin && TxEnt.skind e = 2
      match TxEnt.scaleAddr e (if twin then k0 else row) 0 0 with
      | none => (x.1, .ok (vals ++ List.replicate (n - cnt) .zero))
      | some sa =>
        let y := x.1.engGet b err (salt + 8) sa (if perK then 4 * cnt else 4)
        (y.1, match y.2 with
          | .ok ws =>
            let scale := fun i => if isIntFmt f then DV.fin false 1 0
              else DV.of (ffF32.decode (Fmt.elem .fp32 ws.toArray (if perK then i else 0)))
            .ok ((List.range cnt).map (fun i => (vals.getD i .zero).mul (scale i)) ++ List.replicate (n - cnt) .zero)
          | .wait => .wait
          | .stop code addr => .stop code addr)
    | .wait => (x.1, .wait)
    | .stop code addr => (x.1, .stop code addr)

/-- The words of the last checksum slab that no C entry of `n` uses, zeroed; the checksum slabs start at `first` (R264). -/
def zeroSpare (m : Memory) (first n : Nat) : Memory :=
  if n % 8 = 0 then m else Memory.clear m (1024 * (first + n / 8) + 128 * (n % 8)) (1024 - 128 * (n % 8))

/-- Consecutive rows of an operand. -/
def State.kRows (s : State) (b : Block) (err : EngErr) (salt : Nat) (e : BitVec 512) (cb : List Byte) (twin : Bool)
    (k0 n : Nat) : Nat → Nat → State × EngRes (List (List DV))
  | 0, _ => (s, .ok [])
  | m + 1, row =>
    let x := s.kRun b err salt e cb twin row k0 n
    match x.2 with
    | .ok vs =>
      let y := x.1.kRows b err (salt + 16) e cb twin k0 n m (row + 1)
      (y.1, match y.2 with
        | .ok more => .ok (vs :: more)
        | .wait => .wait
        | .stop code addr => .stop code addr)
    | .wait => (x.1, .wait)
    | .stop code addr => (x.1, .stop code addr)

/-- The bricks of an operand's rows: `rows` groups of 16, each of `deep` bricks along K; `byK`: bricks run along the rows
first (B's order, R262). -/
def bricksOf (kb rows deep : Nat) (byK : Bool) (vals : List (List DV)) : Array Brick :=
  let a := (vals.map List.toArray).toArray
  let brick := fun i k => ((List.range 16).flatMap fun r => (List.range kb).map fun x =>
    (a.getD (16 * i + r) #[]).getD (kb * k + x) .zero).toArray
  (if byK then (List.range deep).flatMap fun k => (List.range rows).map fun i => brick i k
    else (List.range rows).flatMap fun i => (List.range deep).map fun k => brick i k).toArray

/-- FINFO of an MMX's stop: its counters. -/
def mmxInfo (ib jb k : Nat) : Nat := ib + jb * 2 ^ 6 + k * 2 ^ 12

/-- The counters behind a step; none behind the last. -/
def mmxNext (q : List W32) (ib jb k : Nat) : Option (Nat × Nat × Nat) :=
  if k + 1 < mmxNk q then some (ib, jb, k + 1)
  else if jb + 1 < mmxNbc q then some (ib, jb + 1, 0)
  else if ib + 1 < mmxNbr q then some (ib + 1, 0, 0)
  else none

/-- One step of an MMX: its table is bound at its start (R256, R262). -/
def State.runMmx (s : State) (core : Nat) (q : EngCmd) (b : Block) (err : EngErr) : State :=
  match q.body with
  | .mmx ck z ta tb c ea eb cbA cbB quad ib jb k tab =>
    let w := quad.getD 0 0
    let fa := (TxEnt.fmt ea).getD .fp32
    let fb := (TxEnt.fmt eb).getD .fp32
    let bound : Except (Nat × Nat × Nat) (List Byte) := match tab with
      | some img => .ok img
      | none => s.bindTable core w 0x308 true
    match bound with
    | .error (code, det, info) => s.matFail core q code det info 0
    | .ok img =>
      let t := Table.of img
      let d := ctlDep w
      let (_, _, per) := t.runs d
      let all := mmxNbr quad * mmxNbc quad * per
      if !cRunOk b fa ck c all then s.matFailAt core q 1 0x0EC 0 0 0
      else
        let md := if d = 0 then 1 else t.bm ^ d
        let kd := if d = 0 then 1 else t.bk ^ d
        let nd := if d = 0 then 1 else t.bn ^ d
        let kb := Fmt.kb fa
        let k0 := mmxKo quad + k * kb * kd
        let x := s.kRows b err 100 ea (cbA.getD []) ta k0 (kb * kd) (16 * md) (mmxIo quad + 16 * md * ib)
        let keep : EngBody := .mmx ck z ta tb c ea eb cbA cbB quad ib jb k (some img)
        let q' := { q with body := keep }
        let stop := fun (u : State) code addr =>
          u.stopLong core q' (0x0F0 + stopReason 0 2 false code) code (mmxInfo ib jb k) addr
        match x.2 with
        | .wait => x.1.setHead core q'
        | .stop code addr => stop x.1 code addr
        | .ok ra =>
          let y := x.1.kRows b err 20000 eb (cbB.getD []) tb k0 (kb * kd) (16 * nd) (mmxJo quad + 16 * nd * jb)
          match y.2 with
          | .wait => y.1.setHead core q'
          | .stop code addr => stop y.1 code addr
          | .ok rb =>
            let pos := (ib * mmxNbc quad + jb) * per
            let step : Step := ⟨ctlRound w fa fb, d, t, kb, bricksOf kb md kd false ra, bricksOf kb nd kd true rb⟩
            let ckAt := if ck then some (c + all * slabsOf fa) else none
            let clear := z && k = 0 && ck && pos + per = all
            let from' := if clear then zeroSpare b.slabs (c + all * slabsOf fa) all else b.slabs
            let r := step.apply from' (c + pos * slabsOf fa) pos ckAt (z && k = 0)
            let ks := step.slabs (c + pos * slabsOf fa) pos ckAt
            let s1 := (y.1.afterStep q.blk ks r.1 r.2).countStep core b.vd t d
            match mmxNext quad ib jb k with
            | none => s1.matEnd core q'
            | some (i, j, n) =>
              s1.setHead core { q with body := .mmx ck z ta tb c ea eb cbA cbB quad i j n (some img) }
  | _ => s

/-! ## Transfers (R274) -/

/-- The place and length of a row of a tile, a slab or a pair of slabs. -/
def xferPlace (slab : Bool) (e : BitVec 512) (d row : Nat) : Nat × Nat :=
  if slab && TxEnt.fmt e = some .fp64 then (1024 * d + 128 * row, 128) else (1024 * d + 64 * row, 64)

/-- The bytes that MSTT writes for a row (R274): raw, or each word rounded to the entry's format. -/
def xferOut (slab : Bool) (e : BitVec 512) (quad : List W32) (bytes : List Byte) : List Byte :=
  let f := (TxEnt.fmt e).getD .fp32
  let n := (windowOf quad).ne
  if slab && xferRounds f then
    let rm := (rmOf (quadAt quad 3 / 2 ^ 24 % 8)).getD .rne
    let g := (Fmt.ff f).getD ffF32
    (List.range n).flatMap fun i =>
      leBytes (Fmt.halfBytes f / 2) (roundFmt g rm (ffF32.decode (Fmt.elem .fp32 bytes.toArray i)))
  else bytes.take (rowBytes e n)

/-- One row of a transfer; with its last row an MLDT zeroes the rows that it does not load. -/
def State.runXfer (s : State) (core : Nat) (q : EngCmd) (b : Block) (err : EngErr) : State :=
  match q.body with
  | .xfer store slab z d tx e quad row =>
    let w := windowOf quad
    let r : Row := { x0 := w.i0, ne := w.ne, i1 := w.i1 + row, i2 := w.i2, i3 := 0 }
    let (at', len) := xferPlace slab e d row
    let home := if slab then b.slabs else b.tiles
    let put := fun (u : State) (m : Memory) (n : Nat) =>
      let ks := (List.range ((at' + n - 1) / 1024 - at' / 1024 + 1)).map (at' / 1024 + ·)
      u.modBlock q.blk fun b =>
        if slab then Block.note { b with slabs := m } (ks.map .slab) else Block.note { b with tiles := m } (ks.map .tile)
    let x : State × EngRes State := if store then
        let y := s.storeRow b err 100 e r (xferOut slab e quad (Memory.read home at' len))
        (y.1, match y.2 with
          | .ok _ => .ok y.1
          | .wait => .wait
          | .stop code addr => .stop code addr)
      else
        let y := s.loadRow b err 100 e r
        (y.1, match y.2 with
          | .ok bs =>
            let m1 := Memory.write home at' (bs ++ List.replicate (len - bs.length) 0)
            .ok (if row + 1 = w.nr then put y.1 (Memory.clear m1 (at' + len) (len * (15 - row))) (len * (16 - row)) else put y.1 m1 len)
          | .wait => .wait
          | .stop code addr => .stop code addr)
    match x.2 with
    | .wait => x.1
    | .stop code addr => x.1.matFail core q (0x0F8 + stopReason 0 2 store code) code row addr
    | .ok u =>
      if row + 1 = w.nr then u.matEnd core q
      else u.setHead core { q with body := .xfer store slab z d tx e quad (row + 1) }
  | _ => s

/-! ## MDRAIN (R278, R279) -/

/-- A word of the parameter record. -/
def prmWord (prm : List Byte) (i : Nat) : W32 := BitVec.ofNat 32 (leNat ((prm.drop (4 * i)).take 4))

def fAdd32 (x y : W32) : W32 := rneF32 (EV.add .rne (f32 x) (f32 y))
def fSub32 (x y : W32) : W32 := rneF32 (EV.add .rne (f32 x) (f32 y).neg)
def fMul32 (x y : W32) : W32 := rneF32 ((f32 x).mul (f32 y))
def fDiv32 (x y : W32) : W32 := rneF32 ((f32 x).div (f32 y))
def fSqrt32 (x : W32) : W32 := rneF32 (f32 x).sqrt
def fMa32 (x y z : W32) : W32 := rneF32 (EV.add .rne ((f32 x).mul (f32 y)) (f32 z))
def fNeg32 (x : W32) : W32 := x ^^^ 0x80000000

def isZero32 (x : W32) : Bool := x.toNat % 2 ^ 31 = 0

/-- κ of R279. -/
def kappa (prm : List Byte) : W32 :=
  let tau := prmWord prm 6
  let s2 := prmWord prm 7
  if isZero32 tau || isZero32 s2 then 0x3F800000
  else BitVec.ofNat 32 (fminmax ffF32 false 0x3F800000 (fDiv32 tau (fSqrt32 s2)).toNat)

/-- The update of one element: the weight as FP32 and the moments, new (R279). -/
def drainElem (adamw : Bool) (prm : List Byte) (grad w m v : W32) : W32 × W32 × W32 :=
  let p := prmWord prm
  let g := fMul32 (fMul32 grad (p 5)) (kappa prm)
  let one : W32 := 0x3F800000
  if adamw then
    let m' := fMa32 (p 1) m (fMul32 (fSub32 one (p 1)) g)
    let v' := fMa32 (p 2) v (fMul32 (fSub32 one (p 2)) (fMul32 g g))
    let u := fMa32 (p 4) w (fDiv32 (fMul32 m' (p 8)) (fAdd32 (fSqrt32 (fMul32 v' (p 9))) (p 3)))
    (fMa32 (fNeg32 (p 0)) u w, m', v')
  else
    let m' := fMa32 (p 1) m g
    let u := fMa32 (p 4) w m'
    (fMa32 (fNeg32 (p 0)) u w, m', v)

/-- The squared norm makes the command write nothing (R278). -/
def drainSkips (prm : List Byte) : Bool :=
  match f32 (prmWord prm 7) with
  | .nan => true
  | .inf _ => true
  | .fin neg n _ => neg && n ≠ 0

/-- Words of FP32 bytes. -/
def fpWord (bs : List Byte) (i : Nat) : W32 := BitVec.ofNat 32 (Fmt.elem .fp32 bs.toArray i)

/-- The three row reads of MDRAIN: weights, moments, second moments. -/
def State.drainReads (s : State) (b : Block) (err : EngErr) (adamw : Bool) (ew em ev : BitVec 512) (r : Row) :
    State × EngRes (List Byte × List Byte × List Byte) :=
  let x := s.loadRow b err 100 ew r
  match x.2 with
  | .ok ws =>
    let y := x.1.loadRow b err 120 em r
    match y.2 with
    | .ok ms =>
      if !adamw then (y.1, .ok (ws, ms, []))
      else
        let z := y.1.loadRow b err 140 ev r
        (z.1, match z.2 with
          | .ok vs => .ok (ws, ms, vs)
          | .wait => .wait
          | .stop code addr => .stop code addr)
    | .wait => (y.1, .wait)
    | .stop code addr => (y.1, .stop code addr)
  | .wait => (x.1, .wait)
  | .stop code addr => (x.1, .stop code addr)

/-- The step behind the step at a slab position and row: the slab is zeroed behind its last row unless `.keep`. -/
def State.drainNext (s : State) (core : Nat) (q : EngCmd) (keep : Bool) (slab total pos row : Nat)
    (body : Nat → Nat → EngBody) : State :=
  if row < 15 then s.setHead core { q with body := body pos (row + 1) }
  else
    let s1 := if keep then s else s.modBlock q.blk fun b => Block.note { b with slabs := zeroSlabs b.slabs slab 1 } [.slab slab]
    if pos + 1 < total then s1.setHead core { q with body := body (pos + 1) 0 } else s1.matEnd core q

/-- One row of an MDRAIN, or the reading of its parameter record. -/
def State.runDrain (s : State) (core : Nat) (q : EngCmd) (b : Block) (err : EngErr) : State :=
  match q.body with
  | .mdrain adamw keep ew em ev quad bp prm pos row =>
    let stop := fun (u : State) (write : Bool) code addr =>
      u.stopLong core q (0x0F4 + stopReason 0 2 write code) code (pos + row * 2 ^ 16) addr
    match prm with
    | none =>
      let x := s.engGet b err 100 bp.toNat 64
      match x.2 with
      | .wait => x.1
      | .stop code addr => stop x.1 false code addr
      | .ok bs =>
        if (bs.drop 40).any fun y => y ≠ 0 then x.1.matFail core q 0x0F7 0 0 bp.toNat
        else if drainSkips bs then
          (x.1.modBlock q.blk fun b => { b with sticky := b.sticky ||| 16 }).matEnd core q
        else x.1.setHead core { q with body := .mdrain adamw keep ew em ev quad bp (some bs) pos row }
    | some rec' =>
      let nbc := quadAt quad 3 / 2 ^ 12 % 64 + 1
      let total := (quadAt quad 3 / 2 ^ 18 % 64 + 1) * nbc
      let slab := quadAt quad 0 % 512 + pos
      let r : Row := { x0 := ((quadAt quad 2 + 16 * (pos % nbc) : Nat) : Int), ne := 16
                       i1 := ((quadAt quad 1 + 16 * (pos / nbc) + row : Nat) : Int), i2 := 0, i3 := 0 }
      let body := fun p i => EngBody.mdrain adamw keep ew em ev quad bp (some rec') p i
      match r.range ew with
      | none => s.drainNext core q keep slab total pos row body
      | some (_, n) =>
        let x := s.drainReads b err adamw ew em ev r
        match x.2 with
        | .wait => x.1
        | .stop code addr => stop x.1 false code addr
        | .ok (ws, ms, vs) =>
          let f := (TxEnt.fmt ew).getD .fp32
          let size := Fmt.halfBytes f / 2
          let w32 := fun (i : Nat) => if f = .bf16 then BitVec.ofNat 32 (Fmt.elem .bf16 ws.toArray i * 2 ^ 16) else fpWord ws i
          let new := fun (i : Nat) => drainElem adamw rec' (b.slabWord slab (16 * row + i)) (w32 i) (fpWord ms i) (fpWord vs i)
          let wBytes := fun (i : Nat) => leBytes size (roundFmt ((Fmt.ff f).getD ffF32) .rne (f32 (new i).1))
          let i0 := fun (i : Nat) => (r.x0 + i).toNat
          let twins := (List.range n).map fun i => ((TxEnt.taddr ew (i0 i) r.i1.toNat 0 0).toNat, wBytes i)
          let words := fun (sel : W32 × W32 × W32 → W32) => (List.range n).flatMap fun i => leBytes 4 (sel (new i)).toNat
          let runs := [(r.addr ew 0, (List.range n).flatMap wBytes), (r.addr em 0, words fun t => t.2.1)] ++
            (if adamw then [(r.addr ev 0, words fun t => t.2.2)] else []) ++ twins
          let y := x.1.putAll b err 200 runs
          match y.2 with
          | .wait => y.1
          | .stop code addr => stop y.1 true code addr
          | .ok _ => y.1.drainNext core q keep slab total pos row body
  | _ => s

/-! ## MSAVE and MRESUME (R271 to R273) -/

/-- A dword as bytes. -/
def dword (x : Nat) : List Byte := leBytes 4 x

/-- Two codebook stores as bytes; zero when absent. -/
def cbkBytes (a b : Option (List Byte)) : List Byte := (a.getD (List.replicate 32 0)) ++ (b.getD (List.replicate 32 0))

/-- The progress image (R271). -/
def progImage (p : Option Stopped) (held : Bool) : List Byte :=
  match p with
  | none => dword (2 ^ 24) ++ List.replicate 508 0
  | some st =>
    let head := fun (kind : Nat) => dword (2 ^ 24 + kind * 2 ^ 20 + if held then 2 ^ 16 else 0)
    let mid := dword (st.code.toNat + st.ucode.toNat * 2 ^ 16) ++ dword st.cmd.md.toNat ++ leBytes 16 st.addr.toNat
    match st.cmd.body with
    | .mmx _ _ _ _ c ea eb cbA cbB quad ib jb k tab =>
      head 1 ++ dword ib ++ dword jb ++ dword k ++ mid ++ dword c ++ quad.flatMap (fun x => dword x.toNat) ++
        (((tab.getD []).drop 8).take 4 ++ List.replicate (if 12 ≤ (tab.getD []).length then 0 else 4) 0) ++
        leBytes 64 ea.toNat ++ leBytes 64 eb.toNat ++ List.replicate 64 0 ++ cbkBytes cbA cbB ++ List.replicate 192 0
    | .mdrain _ _ ew em ev quad _ prm pos row =>
      head 2 ++ dword pos ++ dword row ++ dword 0 ++ mid ++ dword 0 ++ quad.flatMap (fun x => dword x.toNat) ++ dword 0 ++
        leBytes 64 ew.toNat ++ leBytes 64 em.toNat ++ leBytes 64 ev.toNat ++ List.replicate 64 0 ++
        (prm.getD (List.replicate 64 0)) ++ List.replicate 128 0
    | _ => head 0 ++ List.replicate 508 0

/-- MSAVE at its turn: the image is written, the register is empty; with `.rel` the saved command's obligations are
discharged. -/
def State.runSave (s : State) (core : Nat) (q : EngCmd) (b : Block) (err : EngErr) (ea : Va) : State :=
  let x := s.engPut b err 100 ea.toNat (progImage b.prog !q.rel)
  match x.2 with
  | .wait => x.1
  | .stop code addr => x.1.matFail core q (0x0FC + stopReason 0 2 true code) code 0 addr
  | .ok _ =>
    let s1 := x.1.modBlock q.blk fun b => { b with prog := none }
    let s2 := match b.prog with
      | some st => if q.rel then s1.discharge q.blk st.cmd.ctrs st.cmd.bars else s1
      | none => s1
    s2.matEnd core q

/-- A 32-bit word of an image. -/
def imgWord (img : List Byte) (i : Nat) : Nat := leNat ((img.drop i).take 4)

def imgEnt (img : List Byte) (k : Nat) : BitVec 512 := BitVec.ofNat 512 (leNat ((img.drop (64 + 64 * k)).take 64))

/-- A codebook store of an image, for an entry that needs one. -/
def imgCb (img : List Byte) (k : Nat) (e : BitVec 512) : Option (List Byte) :=
  if TxEnt.fmtCode e = 10 then some ((img.drop (256 + 32 * k)).take 32) else none

/-- What MRESUME makes of an image: nothing to do, a command with the counter and barrier of its own control, or the code
of its refusal (R273). -/
inductive Resumed where
  | none
  | cmd (body : EngBody) (md : BitVec 6) (cost : Nat) (ctr bar : Option Nat)
  | bad (code : Nat)
  deriving DecidableEq, Repr

/-- The reserved bytes of an image are zero (R271). -/
def imgClean (img : List Byte) (kind : Nat) : Bool :=
  let z := fun lo n => ((img.drop lo).take n).all fun x => x = 0
  imgWord img 0 % 2 ^ 16 = 0 && imgWord img 0 / 2 ^ 17 % 8 = 0 && imgWord img 16 % 2 ^ 16 < 2 ^ 9 &&
    imgWord img 16 / 2 ^ 16 < 2 ^ 9 && imgWord img 20 < 64 && z 34 6 && z 384 128 &&
    (if kind = 1 then z 192 64 && z 320 64 else if kind = 2 then z 12 4 && z 40 4 && z 60 4 && z 256 64 else true)

/-- The MMX of an image (R273). -/
def State.resumeMmx (s : State) (core : Nat) (b : Block) (img : List Byte) : Resumed :=
  let md := imgWord img 20
  let f := fun i => md / 2 ^ i % 2 = 1
  let ea := imgEnt img 0
  let eb := imgEnt img 1
  let quad := (List.range 4).map fun i => BitVec.ofNat 32 (imgWord img (44 + 4 * i))
  let w := quad.getD 0 0
  let (ib, jb, k) := (imgWord img 4, imgWord img 8, imgWord img 12)
  let x := s.bat core (ctlBat w)
  let slotOk := ctlDep w = 0 || (x.st = .valid && x.tid.toNat = imgWord img 60)
  match TxEnt.badCheck ea, TxEnt.badCheck eb,
      mmxPlan b (f 0) (f 1) (f 2) (f 3) (imgWord img 40) 0 0 ea eb (imgCb img 0 ea) (imgCb img 1 eb) quad with
  | none, none, .ok p =>
    if md < 16 && ib < mmxNbr quad && jb < mmxNbc quad && k < mmxNk quad && slotOk then
      .cmd (.mmx (f 0) (f 1) (f 2) (f 3) (imgWord img 40) ea eb (imgCb img 0 ea) (imgCb img 1 eb) quad ib jb k
        (if ctlDep w = 0 then none else some x.image)) (BitVec.ofNat 6 md) p.cost p.ctr p.bar
    else .bad 0x0F3
  | _, _, _ => .bad 0x0F3

/-- The MDRAIN of an image (R273). -/
def resumeDrain (b : Block) (img : List Byte) : Resumed :=
  let md := imgWord img 20
  let f := fun i => md / 2 ^ i % 2 = 1
  let ew := imgEnt img 0
  let em := imgEnt img 1
  let ev := imgEnt img 2
  let quad := (List.range 4).map fun i => BitVec.ofNat 32 (imgWord img (44 + 4 * i))
  let prm := (img.drop 320).take 64
  let (pos, row) := (imgWord img 4, imgWord img 8)
  let total := (quadAt quad 3 / 2 ^ 18 % 64 + 1) * (quadAt quad 3 / 2 ^ 12 % 64 + 1)
  match TxEnt.badCheck ew, TxEnt.badCheck em, TxEnt.badCheck ev,
      mdrainPlan b (f 0) (f 2) (f 3) (f 4) (f 5) 0 0 ew em ev quad 0 with
  | none, none, none, .ok p =>
    if !f 1 && pos < total && row < 16 && (prm.drop 40).all (fun x => x = 0) && (f 0 || ev = 0) then
      .cmd (.mdrain (f 0) (f 5) ew em ev quad 0 (some prm) pos row) (BitVec.ofNat 6 md) p.cost p.ctr none
    else .bad 0x0F7
  | _, _, _, _ => .bad 0x0F7

def State.resumeOf (s : State) (core : Nat) (b : Block) (img : List Byte) : Resumed :=
  let kind := imgWord img 0 / 2 ^ 20 % 16
  let ok := imgWord img 0 / 2 ^ 24 = 1 && imgClean img kind
  match kind with
  | 0 => if ok then .none else .bad 0x0F3
  | 1 => if ok then s.resumeMmx core b img else .bad 0x0F3
  | 2 => if ok then resumeDrain b img else .bad 0x0F7
  | _ => .bad 0x0F3

/-- What the binding of its table finds wrong with a resumed MMX (R262). -/
def State.bindAgain (s : State) (core : Nat) : EngBody → Option (Nat × Nat × Nat)
  | .mmx _ _ _ _ _ _ _ _ _ quad _ _ _ _ => match s.bindTable core (quad.getD 0 0) 0x308 true with
    | .error e => some e
    | .ok _ => none
  | _ => none

/-- MRESUME at its turn: the command of the image continues in its place; with `held` the saved command's obligations
are discharged at its end as well. -/
def State.runResume (s : State) (core : Nat) (q : EngCmd) (b : Block) (err : EngErr) (ea : Va) : State :=
  let x := s.engGet b err 100 ea.toNat 512
  match x.2 with
  | .wait => x.1
  | .stop code addr => x.1.matFail core q (0x0F0 + stopReason 0 2 false code) code 0 addr
  | .ok img => match x.1.resumeOf core b img with
    | .none => x.1.matEnd core q
    | .bad code => x.1.matFail core q code 0 0 ea.toNat
    | .cmd body md cost ctr bar =>
      let held := imgWord img 0 / 2 ^ 16 % 2 = 1
      let q' := { q with body := body, md := md, cost := cost, ctrs := q.ctrs ++ if held then ctr.toList else []
                         bars := q.bars ++ if held then bar.toList else [] }
      match x.1.bindAgain core body with
      | some (code, det, info) => (x.1.setHead core q').matFail core q' code det info 0
      | none => x.1.setHead core q'

/-! ## The events -/

/-- One step of a command, whatever it is; a table load has an event of its own. -/
def State.matStep (s : State) (core : Nat) (q : EngCmd) (b : Block) (err : EngErr) : State :=
  match q.body with
  | .mmt m => s.runMmt core q b m
  | .mmx .. => s.runMmx core q b err
  | .xfer .. => s.runXfer core q b err
  | .mdrain .. => s.runDrain core q b err
  | .msave ea => s.runSave core q b err ea
  | .mresume ea => s.runResume core q b err ea
  | .mzero tile f n =>
    (s.modBlock q.blk fun b =>
      if tile then Block.note { b with tiles := zeroSlabs b.tiles f n } ((List.range n).map fun i => .tile (f + i))
      else Block.note { b with slabs := zeroSlabs b.slabs f n } ((List.range n).map fun i => .slab (f + i))).matEnd core q
  | _ => s

/-- The engine turns to a block: the rotation goes on behind it. -/
def State.turnTo (s : State) (core blk : Nat) : State :=
  { (s.modCore core fun k => { k with rot := blk }) with free := s.free + 1 }

/-- MATRIX_STEP: the block whose turn it is has its first command perform one step. -/
def execMatrixStep (core blk : Nat) (err : EngErr) (s : State) : Out :=
  .next (match s.matPick core, s.matHead core blk, Tbl.find s.blocks blk with
    | some k, some q, some b =>
      if k ≠ blk then s
      else if !s.cmdReady q then s.turnTo core blk
      else ((s.turnTo core blk).matStep core q b err).drainFollow core
    | _, _, _ => s)

/-- BATLOAD_EXECUTE: the table load whose turn it is starts, and its slot is LOADING; then it reads the image, verifies it
and installs it, or leaves the slot EMPTY (R256, R266). -/
def execBatloadExecute (core : Nat) (err : EngErr) (s : State) : Out :=
  .next (match s.matPick core with
    | none => s
    | some blk => match s.matHead core blk, Tbl.find s.blocks blk with
      | some q, some b => match q.body with
        | .batload slot ea =>
          let s0 := s.turnTo core blk
          let x := s.bat core slot
          let gone : Bat := { x with st := .empty, image := [], tid := 0 }
          if !s.cmdReady q || (x.st ≠ .loading && s.slotInUse core blk slot) then s0
          else if x.st ≠ .loading then s0.setBat core slot { gone with st := .loading }
          else
            let r := s0.engGet b err 100 ea.toNat 1552
            match r.2 with
            | .wait => r.1
            | .stop code addr => (r.1.setBat core slot gone).matFail core q (0x0FC + stopReason 0 2 false code) code 0 addr
            | .ok img => match tableBad img with
              | some (k, i) => (r.1.setBat core slot gone).matFail core q 0x0E8 k i slot
              | none =>
                (r.1.setBat core slot { st := .valid, image := img, tid := BitVec.ofNat 32 (imgWord img 8)
                                        serial := (x.serial + 1) % 2 ^ 15 }).matEnd core q
        | _ => s
      | _, _ => s)

end Sys2Proof.Machine
end

