-- ==== Sys2Proof/Machine/Coll.lean ====
section
/-! DEFINITION. Collectives (R332 to R337): COLL at its issue, the canonical tree, the completion with its record, and the
dropping of a rank. -/

namespace Sys2Proof.Machine

/-! ## The canonical tree (R333) -/

/-- tree() over a list of leaves; `fuel` bounds its depth. -/
def treeFold {α : Type} (f : α → α → α) : Nat → List α → Option α
  | _, [] => none
  | _, [x] => some x
  | 0, x :: _ => some x
  | fuel + 1, xs =>
    let mid := 2 ^ Nat.log2 (xs.length - 1)
    match treeFold f fuel (xs.take mid), treeFold f fuel (xs.drop mid) with
    | some a, some b => some (f a b)
    | some a, none => some a
    | none, b => b

/-- The tree over the ranks of a communicator, of which there are at most 8,192. -/
def tree {α : Type} (f : α → α → α) (d : α) (xs : List α) : α := (treeFold f 14 xs).getD d

/-- A NaN of a format is its canonical NaN (R153). -/
def canonical (f : FF) (x : Nat) : Nat := roundFmt f .rne (f.decode x)

/-- A reduction of one element over the ranks, by format and `rop` (0 sum, 1 max, 2 min). -/
def reduceElem (f : Fmt) (rop : Nat) (xs : List Nat) : Nat :=
  match f with
  | .bf16 =>
    if rop = 0 then
      roundFmt ffBF16 .rne (f32 (tree fAdd32 0 (xs.map fun x => BitVec.ofNat 32 (x * 2 ^ 16))))
    else canonical ffBF16 (tree (fminmax ffBF16 (rop = 1)) 0 xs)
  | .int32 =>
    let ws := xs.map fun x => (BitVec.ofNat 32 x : W32)
    (if rop = 0 then tree (fun (a b : W32) => a + b) 0 ws
      else if rop = 1 then tree (fun (a b : W32) => if a.toInt < b.toInt then b else a) 0 ws
      else tree (fun (a b : W32) => if b.toInt < a.toInt then b else a) 0 ws).toNat
  | _ =>
    canonical ffF32 (if rop = 0 then (tree fAdd32 0 (xs.map fun x => (BitVec.ofNat 32 x : W32))).toNat
      else tree (fminmax ffF32 (rop = 1)) 0 xs)

/-! ## Issue (R334) -/

def collNum : CollKind → Nat
  | .ar => 0
  | .rs => 1
  | .ag => 2
  | .bc => 3
  | .bar => 4

/-- The kinds that reduce. -/
def collReduces : CollKind → Bool
  | .ar => true
  | .rs => true
  | _ => false

def collComm (q : List W32) : Nat := quadAt q 0 / 2 ^ 26
def collRop (q : List W32) : Nat := quadAt q 0 / 2 ^ 24 % 4
def collScope (q : List W32) : Nat := quadAt q 0 / 2 ^ 20 % 16
def collCe (q : List W32) : Bool := quadAt q 0 / 2 ^ 19 % 2 = 1
def collCtr (q : List W32) : Nat := quadAt q 0 / 2 ^ 15 % 16
def collCnt (q : List W32) : Nat := quadAt q 1

/-- The elements that a kind asks of its source and its destination. -/
def collExtents (k : CollKind) (cnt n : Nat) : Nat × Nat :=
  match k with
  | .ar => (cnt, cnt)
  | .rs => (cnt * n, cnt)
  | .ag => (cnt, cnt * n)
  | .bc => (cnt, cnt)
  | .bar => (0, 0)

/-- COLL_DESC (R334). -/
def collBad (k : CollKind) (norm acq rel : Bool) (ed ea : BitVec 512) (q : List W32) (n : Nat) : Bool :=
  let ext := collExtents k (collCnt q) n
  let f := (TxEnt.fmt ea).getD .fp32
  collRop q = 3 || 10 < collScope q || (!acq && !rel && collScope q ≠ 0) || (!collCe q && collCtr q ≠ 0) ||
    quadAt q 0 % 2 ^ 15 ≠ 0 || quadAt q 3 ≠ 0 || (norm && (k ≠ .rs || collRop q ≠ 0)) ||
    (if k = .bc then n ≤ quadAt q 2 else quadAt q 2 ≠ 0) ||
    (if k = .bar then collCnt q ≠ 0
      else collCnt q < 1 || 2 ^ 20 < collCnt q || TxEnt.ndim ea ≠ 1 || TxEnt.ndim ed ≠ 1 || TxEnt.skind ea ≠ 0 ||
        TxEnt.fmt ea ≠ TxEnt.fmt ed || (collReduces k && !([Fmt.fp32, .bf16, .int32].contains f)) ||
        TxEnt.n ea 0 < ext.1 || TxEnt.n ed 0 < ext.2)

/-- `md` of a COLL. -/
def collMd (k : CollKind) (norm acq rel : Bool) : BitVec 6 :=
  BitVec.ofNat 6 (collNum k + (if norm then 8 else 0) + (if acq then 16 else 0) + (if rel then 32 else 0))

/-- The checks of a COLL behind those of R42. -/
def collPlan (s : State) (b : Block) (k : CollKind) (norm acq rel : Bool) (d a : Nat) (q : List W32) (dst : Va) :
    Except Deny Plan := do
  let part := (s.vd b.vd).partition
  let cm := s.comm part (collComm q)
  let ed ← if k = .bar then pure 0 else b.txFor d ⟨plainFmts, false, false, true⟩
  let ea ← if k = .bar then pure 0 else b.txFor a ⟨plainFmts, false, false, false⟩
  let ctr ← ctrOk b (collCe q) (collCtr q)
  if (s.vd b.vd).sliced then .error ⟨0x170, 0, 0, 0, 0, false⟩
  else if b.harvest then .error ⟨0x170, 1, 0, 0, 0, false⟩
  else if !cm.valid then .error ⟨0x170, 2, 0, 0, 0, false⟩
  else if collBad k norm acq rel ed ea q cm.nr then .error (deny 0x171)
  else
    return { Plan.init (collMd k norm acq rel) 2 (.coll k norm cm.broken ed ea q dst) with
      acq := acq, rel := rel, scope := collScope q, ctr := ctr }

def execColl (h : Hints) (k : CollKind) (norm acq rel : Bool) (d a : BitVec 6) (quad : BitVec 6) (bP : BitVec 4)
    (s : State) : Out :=
  engIssue h s [(2, .s quad, 4)] fun c t _ =>
    collPlan t c.b k norm acq rel d.toNat a.toNat (c.quad 2 quad.toNat) (c.base 3 bP.toNat)

/-! ## Completion (R335 to R337) -/

/-- The chunks of a collective: 4,096 destination elements each; one for each source rank of an all-gather. -/
def collChunks (k : CollKind) (cnt n : Nat) : Nat :=
  match k with
  | .bar => 0
  | .ag => n
  | _ => (cnt + 4095) / 4096

/-- The destination elements of a chunk: the first and how many. -/
def collSpan (k : CollKind) (cnt c : Nat) : Nat × Nat :=
  if k = .ag then (c * cnt, cnt) else (c * 4096, min 4096 (cnt - c * 4096))

/-- Bytes of one element. -/
def elemBytes (f : Fmt) : Nat := Fmt.halfBytes f / 2

/-- Element `e` of what another rank contributed: a word, or two words low half first. -/
def otherElem (f : Fmt) (ws : List W32) (e : Nat) : Nat :=
  if elemBytes f = 8 then (ws.getD (2 * e) 0).toNat + (ws.getD (2 * e + 1) 0).toNat * 2 ^ 32
  else (ws.getD e 0).toNat % 256 ^ elemBytes f

/-- The value of destination element `e` on this rank (R334). `own`: this rank's source elements; `others`: for each rank the
elements that it contributes to this rank. -/
def collElem (k : CollKind) (f : Fmt) (q : List W32) (n me : Nat) (own : Nat → Nat) (others : List (List W32)) (e : Nat) : Nat :=
  let cnt := collCnt q
  let of := fun r i => if r = me then own i else otherElem f (others.getD r []) i
  match k with
  | .ar => reduceElem f (collRop q) ((List.range n).map fun r => of r e)
  | .rs => reduceElem f (collRop q) ((List.range n).map fun r => if r = me then own (me * cnt + e) else of r e)
  | .ag => of (e / cnt) (e % cnt)
  | .bc => of (quadAt q 2) e
  | .bar => 0

/-- The value of a result, as R337 widens it to FP32. -/
def widened (f : Fmt) (y : Nat) : EV :=
  match f with
  | .int32 => EV.ofInt (BitVec.ofNat 32 y).toInt
  | .bf16 => f32 (BitVec.ofNat 32 (y * 2 ^ 16))
  | _ => f32 (BitVec.ofNat 32 y)

/-- A value that FP32 holds exactly. -/
def inF32 (v : EV) : Bool := v.isNan || EV.eq (ffF32.decode (roundFmt ffF32 .rne v)) v

/-- `part` of R337: the sum of squares of this rank's results; the manual does not say how an INT32 value that FP32 does not hold
is widened. -/
def normPart (f : Fmt) (seed : Nat) (ys : List Nat) : W32 :=
  if !ys.all fun y => inF32 (widened f y) then Config.freeWord seed 60 0
  else ys.foldl (fun (acc : W32) y => fAdd32 acc (rneF32 ((widened f y).mul (widened f y)))) 0

/-- s2 of R337. `others`: the part that each other rank appends to its elements. -/
def collNorm (f : Fmt) (cnt n me seed : Nat) (ys : List Nat) (others : List (List W32)) : W32 :=
  tree fAdd32 0 ((List.range n).map fun r => if r = me then normPart f seed ys else (others.getD r []).getD cnt 0)

/-- The completion record (R335); more than 256 chunks find no place in `nch` and `vmap`. -/
def collRecord (st : Nat) (k : CollKind) (nch : Nat) (frank : Nat) (nsq : W32) (good : List Nat) (seed : Nat) : List Byte :=
  let wide := 256 < nch
  let free := fun (i : Nat) => Config.freeByte seed (61000 + i)
  leBytes 1 st ++ leBytes 1 (collNum k) ++ (if wide then [free 0, free 1] else leBytes 2 nch) ++ leBytes 4 frank ++
    leBytes 4 nsq.toNat ++ leBytes 4 good.length ++
    (if wide then (List.range 32).map fun i => free (2 + i)
      else leBytes 32 (bitsBelow (fun c => good.contains c) 256)) ++ List.replicate 16 0

/-- The segments of the record. -/
def State.recordSegs (s : State) (b : Block) (err : EngErr) (dst : Va) : State × EngRes (List (Nat × Seg)) :=
  s.engSegs b .wr err 3000 (pageRuns 2 dst.toNat 64)

/-- The record waits for its page. -/
def State.recordWaits (s : State) (b : Block) (err : EngErr) (dst : Va) : Option State :=
  let x := s.recordSegs b err dst
  if dst.toNat % 64 ≠ 0 then none
  else match x.2 with
    | .wait => some x.1
    | _ => none

/-- The record is written: 64-byte aligned, in region 0 (R335). -/
def State.putRecord (s : State) (b : Block) (err : EngErr) (dst : Va) (bs : List Byte) : State × EngRes Unit :=
  if dst.toNat % 64 ≠ 0 then (s, .stop 0x063 dst.toNat)
  else
    let x := s.recordSegs b .ok dst
    match x.2 with
    | .ok gs => if gs.all fun g => g.2.region = 0 then x.1.engPut b err 3000 dst.toNat bs else (x.1, .stop 0x077 dst.toNat)
    | .wait => x.1.engPut b err 3000 dst.toNat bs
    | .stop code addr => (x.1, .stop code addr)

/-- The collective leaves its queue and lowers its counter. -/
def State.collEnd (s : State) (die ix : Nat) (q : EngCmd) : State :=
  (s.modDie die fun d => { d with collQ := d.collQ.eraseIdx ix }).doneCmd q

/-- The record of a collective that ends with a status, then its end. `why`: the failed access that ended it; a record
that cannot be written is a COLL_MEM too. -/
def State.collFinish (s : State) (die ix : Nat) (q : EngCmd) (b : Block) (err : EngErr) (why : Option (Nat × Nat)) (dst : Va)
    (bs : List Byte) : State :=
  let x := s.putRecord b err dst bs
  match x.2, why with
  | .wait, _ => x.1
  | _, some (code, addr) => (x.1.engFault q 0x172 code 0 addr).collEnd die ix q
  | .stop code addr, none => (x.1.engFault q 0x172 code 0 addr).collEnd die ix q
  | .ok _, none => x.1.collEnd die ix q

/-- The chunks written one after another; the first that fails, or that must wait for a page, ends them: the chunks written and how
they ended. -/
def State.putChunks (s : State) (b : Block) (err : EngErr) : List (Nat × Nat × List Byte) → State × List Nat × EngRes Unit
  | [] => (s, [], .ok ())
  | (c, a, bs) :: rest =>
    let x := s.engPut b err (4000 + 16 * c) a bs
    match x.2 with
    | .ok _ =>
      let y := x.1.putChunks b err rest
      (y.1, c :: y.2.1, y.2.2)
    | .wait => (x.1, [], .wait)
    | .stop code addr => (x.1, [], .stop code addr)

/-- COLL_COMPLETE: the collective `ix` of a die ends. `others`: what each rank contributed to this one; `agree`: the matched
collectives agree in kind, count, format and operation; `done`: the chunks whose trees have finished, which counts only
after a drop; `err` meets the source read (0), the destination writes (1) or the record write (2). -/
def execCollComplete (die ix : Nat) (others : List (List W32)) (agree : Bool) (done : List Bool) (errAt : Nat)
    (err : EngErr) (s : State) : Out :=
  .next (match (s.die die).collQ[ix]? with
    | none => s
    | some q =>
      match q.body, Tbl.find s.blocks q.blk with
      | .coll k norm broken ed ea quad dst, some b =>
        if !s.cmdReady q then s
        else
          let part := (s.vd b.vd).partition
          let cm := s.comm part (collComm quad)
          let cnt := collCnt quad
          let n := cm.nr
          let f := (TxEnt.fmt ea).getD .fp32
          let size := elemBytes f
          let nch := collChunks k cnt n
          let at' := fun (i : Nat) => if errAt = i then err else EngErr.ok
          let nan : W32 := if norm then 0x7FC00000 else 0
          let frank := cm.dropped.foldl min 0xFFFFFFFF
          let s0 := { s with free := s.free + 1 }
          let rec' := fun st frank nsq good => collRecord st k nch frank nsq good s.free
          if broken then s0.collFinish die ix q b (at' 2) none dst (rec' 1 frank nan [])
          else if !agree then s0.collFinish die ix q b (at' 2) none dst (rec' 2 frank nan [])
          else
            let reads := (collExtents k cnt n).1 * size
            let skip := k = .bar || (k = .bc && quadAt quad 2 ≠ cm.me)
            let local' := fun (u : State) (good : List Nat) (code addr : Nat) =>
              u.collFinish die ix q b (at' 2) (some (code, addr)) dst (rec' 3 frank nan good)
            let x : State × EngRes (List Byte) :=
              if skip then (s0, .ok []) else s0.engGet b (at' 0) 100 (TxEnt.base ea) reads
            match x.2 with
            | .wait => x.1
            | .stop code addr => local' x.1 [] code addr
            | .ok bytes =>
              let arr := bytes.toArray
              let own := fun i => Fmt.elem f arr i
              let whole := cm.dropped.isEmpty
              let chunks := (List.range nch).filter fun c => whole || done.getD c false
              let val := collElem k f quad n cm.me own others
              let runs := chunks.map fun c =>
                let (e, m) := collSpan k cnt c
                (c, TxEnt.base ed + e * size, (List.range m).flatMap fun i => leBytes size (val (e + i)))
              let look := x.1.runSegs b (at' 1) 4000 (runs.map fun r => (r.2.1, r.2.2))
              match look.2, look.1.recordWaits b (at' 2) dst with
              | .wait, _ => look.1
              | _, some u => u
              | _, none =>
                let w := look.1.putChunks b (at' 1) runs
                match w.2.2 with
                | .wait => w.1
                | .stop code addr => local' w.1 w.2.1 code addr
                | .ok _ =>
                  let nsq := if !norm then 0
                    else if whole then collNorm f cnt n cm.me s.free ((List.range cnt).map val) others
                    else nan
                  w.1.collFinish die ix q b (at' 2) none dst (rec' (if whole then 0 else 1) frank nsq w.2.1)
      | _, _ => s)

/-! ## Drops (R336, R338) -/

/-- The virtual devices of spatial partitions, or of one partition, are told of a fabric event by vector 3. -/
def State.fabricEvent (s : State) (part : Option Nat) : State :=
  s.vds.foldl (fun (t : State) (e : Nat × VDev) =>
    if e.2.run && !e.2.sliced && (match part with
      | some p => e.2.partition = p
      | none => true) then t.raise (.plain (some e.1) 3 0 0) else t) s

/-- A rank of a communicator is dropped, and the communicator is broken. -/
def Comm.without (cm : Comm) (rank : Nat) : Comm := { cm with broken := true, dropped := cm.dropped ++ [rank] }

/-- A rank that a communicator may drop: another one of a valid communicator, not dropped yet. -/
def Comm.mayDrop (cm : Comm) (rank : Nat) : Bool := cm.valid && rank < cm.nr && rank ≠ cm.me && !cm.dropped.contains rank

/-- The links that are up, as a mask. -/
def State.upLinks (s : State) : Nat := (List.range 24).foldl (fun a k => if (Tbl.getD s.links k .init).up then a + 2 ^ k else a) 0

/-- The ranks that no remaining route reaches are dropped from every collective (R329). -/
def State.dropUnreached (s : State) : State :=
  let up := s.upLinks
  s.comms.foldl (fun (t : State) (e : Nat × Comm) =>
    let gone := (List.range e.2.nr).filter fun r => e.2.mayDrop r && !Config.routeExists up (e.2.routes.getD r 0)
    if gone.isEmpty then t else { t with comms := Tbl.put t.comms e.1 (gone.foldl Comm.without e.2) }) s

/-- RANK_DROP: another rank of a valid communicator is dropped, the communicator is broken, system software is told. -/
def execRankDrop (part comm rank : Nat) (s : State) : Out :=
  let cm := s.comm part comm
  .next (if cm.mayDrop rank then
      { s with comms := Tbl.put s.comms (64 * part + comm) (cm.without rank) }.fabricEvent (some part)
    else s)

end Sys2Proof.Machine
end

