-- ==== Sys2Proof/Machine/Traps.lean ====
section
/-! DEFINITION. TRAP, RTH, SYS, RDSP and WRSP (R347 to R352), entry of the handler, and the completion of V
results. -/

namespace Sys2Proof.Machine

/-! ## TRAP and RTH (R348, R349) -/

/-- TRAP n: every live lane is parked with SWTRAP n. -/
def execTrap (h : Hints) (n : BitVec 5) (s : State) : Out :=
  issue h s [] fun c t =>
    if c.p.handler then t.handlerFault c else t.faultLive c (BitVec.ofNat 9 (0x040 + n.toNat)) 0 0 0 0

/-- The live lanes leave the handler; the others go on in it. -/
def State.rth (s : State) (c : Ctx) (h : Hints) (w : Leave) : State :=
  if !c.p.handler then s.faultLive c 0x123 0 0 0 0
  else ((s.flagNow c h).advance c c.live).leaveHandler c.gid c.live w

def execRthSkip (h : Hints) (s : State) : Out := issue h s [] fun c t => t.rth c h .skip
def execRthRetry (h : Hints) (s : State) : Out := issue h s [] fun c t => t.rth c h .retry

/-- RTH.to: a handler path whose target is no code address takes HANDLER_FAULT (R345). -/
def execRthTo (h : Hints) (bA : BitVec 4) (s : State) : Out :=
  issue h s [] fun c t =>
    let a := c.base 1 bA.toNat
    if c.p.handler && !isCode a then t.handlerFault c else t.rth c h (.at a)

/-- A page that a path's fetch waits for is being asked for. -/
def State.fetchWaits (s : State) (gid lane : Nat) : Bool :=
  s.waits.any fun w => match w with
    | .fetch _ _ g l => g = gid && l = lane
    | .lanes .. => false

/-- A path cannot issue: it waits, it sleeps, or it is parked for the page of its fetch (R343). -/
def State.standing (s : State) (gid : Nat) (p : Path) : Bool :=
  match p.st with
  | .ready => false
  | .read => false
  | .fetch => s.fetchWaits gid (lowLane p.mask)
  | _ => true

/-- The group's oldest entry set reaches entry because no path of the group can issue (R343, case 1). -/
def State.converged (s : State) (gid : Nat) : Bool :=
  match Tbl.find s.groups gid with
  | some g => !g.entries.isEmpty && g.handler.isNone && g.halt.isNone && g.held.isNone && g.paths.all (s.standing gid)
  | none => false

/-- The groups of a SPAWN whose status has not been written are not ready (R107). -/
def State.waking (s : State) (gid : Nat) : Bool := s.results.any fun r => r.wakes.contains gid

/-- The group may issue as far as its virtual device, its block and its own halt go (R345, R366). -/
def State.mayIssue (s : State) (gid : Nat) (g : Group) : Bool :=
  match Tbl.find s.blocks g.blk with
  | some b => (s.vd b.vd).runs && b.loc = .core g.core && g.halt.isNone && !s.waking gid
  | none => false

/-- A scheduler of the core has had its issue turn in this cycle: no revocation and no end of a slice comes any more in it (R115,
R362). -/
def State.issuing (s : State) (core : Nat) : Bool := (s.core core).obs.any fun (e : Nat × SchedObs) => e.2.issued = s.cycle + 1

/-- A group may go on to another path or into its handler before the cycle is over: it may issue, and nothing that takes precedence
can still come (R362). -/
def State.mayEnter (s : State) (gid : Nat) : Bool :=
  match Tbl.find s.groups gid with
  | some g => s.mayIssue gid g && s.issuing g.core
  | none => false

/-- HANDLER_ENTRY: at the convergence point. -/
def execHandlerEntry (grp : Nat) (s : State) : Out :=
  .next (if s.mayEnter grp && s.converged grp then s.enterHandler grp else s)

/-! ## Completion of V results (R44, R47) -/

/-- A result that has come in is written and its flag counts one operation less. -/
def State.complete (s : State) (k : Nat) (r : Pending) (writes : List RegWrite) : State :=
  let s1 := { s with results := s.results.eraseIdx k, free := s.free + 1 }
  match Tbl.find s1.groups r.gid with
  | none => s1
  | some g => s1.wrote r.gid g ((writes.foldl (fun (g : Group) w => g.writeLate r.gid s.free w) g).flagDown (some r.flag))

/-- RESULT_WRITEBACK: a V result is written. -/
def execResultWriteback (k : Nat) (s : State) : Out :=
  .next (match s.results[k]? with
    | some r => if r.service then s else s.complete k r r.writes
    | none => s)

/-! ## SYS (R350) -/

/-- The requests in the service ring that have no reply yet. -/
def State.ringUsed (s : State) (vd : Nat) : Nat :=
  (s.results.filter fun r => r.service && r.req.isEmpty && s.grpIn vd r.gid).length

/-- The address of the next entry of the service ring. -/
def VDev.ringAddr (v : VDev) : Nat := v.cfg 32 10 + 32 * (v.svHead % v.cfg 86 2)

/-- Bytes for the host, written at once: no milestone withholds or undoes them. -/
def State.putNow (vd : Nat) : List Seg → List Byte → State → State
  | [], _, s => s
  | g :: gs, bs, s =>
    State.putNow vd gs (bs.drop g.len) (match g with
      | .phys pa n key _ => if region pa = 2 then s.writePhys vd none key pa (bs.take n) else s.outerWrite (some vd) (some key) pa (bs.take n)
      | .slot _ _ => s
      | .none _ => s)

/-- A request is written to the next entry of the service ring and the service interrupt is raised, neither of them withheld; the
answer is the underlying code of a failed write. -/
def State.putRequest (s : State) (vd : Nat) (bs : List Byte) : State × Option Nat :=
  let r := s.engLook (devBlock vd) .wr (s.vd vd).ringAddr bs.length 3
  match r.2 with
  | .error e => (r.1, some e.code)
  | .ok segs => match r.1.segsFail vd segs true .ok with
    | some why => (r.1.poisonIf vd true .ok segs, some (engCode why))
    | none =>
      (((r.1.putNow vd segs bs).modVd vd fun v => { v with svHead := v.svHead + 1 }).raise (.plain (some vd) 1 0 0), none)

/-- The ring could not be written or read: SYS_RING waits for the error point of the threads concerned, and the result is
undefined (R341). -/
def State.ringLost (s : State) (r : Pending) (code : Nat) : State :=
  let addr := BitVec.ofNat 80 r.at'
  let f := { FaultRec.at' 0x141 r.pc 0 0 with det := BitVec.ofNat 16 code, addr := addr }
  let s1 := s.modGroup r.gid fun g =>
    { g with errs := g.errs ++ r.who.map fun t => { thr := some t, flag := some r.flag, tape := false, fault := f } }
  { s1 with results := s1.results.map (fun (q : Pending) =>
      if q = r then { q with service := false, req := [], writes := q.writes.map (RegWrite.undef s.free 42) } else q)
            free := s.free + 1 }

/-- The request of a SYS. -/
def sysRequest (vd svc : Nat) (launch : W32) (ltid : W64) (pc : Va) (arg : W32) : List Byte :=
  leBytes 2 vd ++ leBytes 2 svc ++ leBytes 4 launch.toNat ++ leBytes 8 ltid.toNat ++ leBytes 10 pc.toNat ++
    [0, 0] ++ leBytes 4 arg.toNat

/-- SYS once its milestone is committed. -/
def sysIssue (h : Hints) (d : BitVec 6) (arg : Opnd) (svc : BitVec 12) (s : State) : Out :=
  issue h s [(0, .s d, 1), (1, arg, 1)] fun c t =>
    let vd := c.b.vd
    if (t.vd vd).cfg 84 2 ≤ svc.toNat then t.faultLive c 0x140 0 0 svc.toNat 0
    else
      let bs := sysRequest vd svc.toNat (t.launchIx c.b) (c.g.lt (lowLane c.live)) c.p.pc
        (c.scalar (t.launchIx c.b) 1 arg)
      let f := h.set.toNat
      let full := (t.vd vd).cfg 86 2 ≤ t.ringUsed vd
      let pend : Pending := { gid := c.gid, writes := [.s d.toNat 0], flag := f, service := true,
                              req := if full then bs else [], at' := (t.vd vd).ringAddr, pc := c.p.pc, who := c.g.ltids c.live, wakes := [] }
      let s1 := t.modGroup c.gid fun g => (g.flagUp (some f)).awaitV [.s d.toNat] []
      let s2 := State.advance { s1 with results := s1.results ++ [pend] } c 0
      if full then s2
      else
        let w := s2.putRequest vd bs
        match w.2 with
        | none => w.1
        | some code => w.1.ringLost pend code

/-- SYS (R350): in SLICE mode it first forces a milestone. -/
def execSys (h : Hints) (d : BitVec 6) (arg : Opnd) (svc : BitVec 12) (s : State) : Out :=
  match s.begin h .plain with
  | some (some c, t) =>
    if c.live ≠ 0 && (t.vd c.b.vd).msmode = 2 then sysIssue h d arg svc (s.forceMilestone c.b.vd) else sysIssue h d arg svc s
  | _ => sysIssue h d arg svc s

/-- The first request that waits for an entry of a virtual device's ring. -/
def State.nextRequest (s : State) (vd : Nat) : Option Pending :=
  s.results.find? fun r => r.service && !r.req.isEmpty && s.grpIn vd r.gid

/-- An entry of the ring is free again: the first request that waits takes it. -/
def State.ringFreed (s : State) (vd : Nat) : State :=
  match s.nextRequest vd with
  | none => s
  | some q =>
    let q' := { q with req := [], at' := (s.vd vd).ringAddr }
    let w := { s with results := s.results.map fun (x : Pending) => if x = q then q' else x }.putRequest vd q.req
    match w.2 with
    | none => w.1
    | some code => w.1.ringLost q' code

/-- SYS_REPLY: system software writes the reply to the ring, and the device reads it there for sD; a request that waited takes
the entry. -/
def execSysReply (k : Nat) (reply : W32) (s : State) : Out :=
  .next (match s.results[k]? with
    | none => s
    | some r =>
      if !r.service || !r.req.isEmpty then s
      else
        let vd := s.vdOf r.gid
        let x := s.devRead vd r.at' 4
        match x.2 with
        | .error code => (x.1.ringLost r code).ringFreed vd
        | .ok _ => (x.1.complete k r (r.writes.map fun w => match w with
            | .s n _ => .s n reply
            | w => w)).ringFreed vd)

/-! ## Special registers (R351, R352) -/

/-- The bytes of a group's part at its current shapes (R353). -/
def Group.ctxBytes (g : Group) (gid nv : Nat) : Nat :=
  1024 + 16 * ((nv + 63) / 64) + (g.useBytes gid nv + 15) / 16 * 16

/-- The bytes of a block's context at its current shapes (R353). -/
def State.blockBytes (s : State) (blk : Nat) (b : Block) : Nat :=
  8192 + (b.nt + b.nsl) * 1024 +
    s.groups.foldl (fun a e => if e.2.blk = blk then a + e.2.ctxBytes e.1 b.nv else a) 0

/-- FCAUSE (R352). -/
def FaultRec.cause (f : FaultRec) : W32 :=
  BitVec.ofNat 32 (f.det.toNat * 2 ^ 16 + f.pos.toNat * 2 ^ 9 + f.code.toNat)

/-- A field of the fault record of lane `l`, in a handler path; zero outside one, and in lanes outside the entry
mask. -/
def Ctx.recField (c : Ctx) (f : FaultRec → W32) (l : Nat) : W32 :=
  match c.p.handler, c.g.handler with
  | true, some hd => if has hd.entry l then ((Tbl.find c.g.faults l).map f).getD 0 else 0
  | _, _ => 0

/-- The fault record that the group-wide fault registers read: that of the lowest live lane of the entry mask. -/
def Ctx.frame (c : Ctx) : Option FaultRec :=
  match c.p.handler, c.g.handler with
  | true, some hd => Tbl.find c.g.faults (lowLane (if c.live &&& hd.entry = 0 then hd.entry else c.live &&& hd.entry))
  | _, _ => none

/-- The counts of R13, in the order of R352. -/
def countWord (k : Nat) : W32 := BitVec.ofNat 32 ([384, 11, 8, 256, 1024, 64, 8, 16, 256].getD k 0)

/-- What RDSP reads: one value for each lane, a base, or a value for the group. -/
inductive SpVal where
  | lanes (f : Nat → W32)
  | base (x : Va)
  | word (x : W32)

def State.readSp (s : State) (c : Ctx) (sr : SpReg) : SpVal :=
  let part := fun (x : Va) (k : Nat) => (x >>> (32 * k)).setWidth 32
  let word := fun (k : Nat) => SpVal.word ((c.frame.map fun (f : FaultRec) => (f.word >>> (32 * k)).setWidth 32).getD 0)
  match sr with
  | .fcause => .lanes (c.recField FaultRec.cause)
  | .finfo => .lanes (c.recField (·.info))
  | .faddr0 => .lanes (c.recField fun f => part f.addr 0)
  | .faddr1 => .lanes (c.recField fun f => part f.addr 1)
  | .faddr2 => .lanes (c.recField fun f => part f.addr 2)
  | .fpc => .base ((c.frame.map (·.pc)).getD 0)
  | .forig => .base ((c.frame.map (·.orig)).getD 0)
  | .fword0 => word 0
  | .fword1 => word 1
  | .fword2 => word 2
  | .hmask => .word (if c.p.handler then (c.g.handler.map (·.entry)).getD 0 else 0)
  | .gctx => .word (BitVec.ofNat 32 (c.g.ctxBytes c.gid c.b.nv))
  | .bctx => .word (BitVec.ofNat 32 (s.blockBytes c.g.blk c.b))
  | .msseq => .word (s.vd c.b.vd).msseq
  | .msreq => .word 0
  | .msmode => .word (BitVec.ofNat 32 (s.vd c.b.vd).msmode)
  | .hscr0 => .word (Tbl.getD c.g.hscr 0 0)
  | .hscr1 => .word (Tbl.getD c.g.hscr 1 0)
  | .hscr2 => .word (Tbl.getD c.g.hscr 2 0)
  | .hscr3 => .word (Tbl.getD c.g.hscr 3 0)
  | .cyclo => .word (BitVec.ofNat 32 s.cycle)
  | .cychi => .word (BitVec.ofNat 32 (s.cycle / 2 ^ 32))
  | .cnt k => .word (countWord k.val)

/-- The write of RDSP: a full G write or a merge for a register read by lanes, once for the group otherwise. -/
def spWrites (c : Ctx) (d : Opnd) (v : SpVal) : List RegWrite :=
  match d, v with
  | .v n, .lanes f => [.v n.toNat c.live (.g (lanes f)) (c.live = c.g.full)]
  | .base n, .base x => [.b n.toNat x c.p.mask]
  | .s n, .word x => [.s n.toNat x]
  | _, _ => []

def execRdsp (h : Hints) (d : Opnd) (sr : SpReg) (s : State) : Out :=
  issueWait h s [(0, d, 1)] fun c t =>
    let ws := spWrites c d (t.readSp c sr)
    t.roomed c ws (t.finishV c h ws)

/-- The scratch word that a special register is. -/
def scratchIx : SpReg → Option Nat
  | .hscr0 => some 0
  | .hscr1 => some 1
  | .hscr2 => some 2
  | .hscr3 => some 3
  | _ => none

/-- A write of a scratch word; a write of MSREQ has had its effect before (R351). -/
def wrspIssue (h : Hints) (a : Opnd) (sr : SpReg) (s : State) : Out :=
  issue h s [(1, a, 1)] fun c t =>
    let x := c.scalar (t.launchIx c.b) 1 a
    let t1 := match scratchIx sr with
      | some k => t.modGroup c.gid fun g => { g with hscr := Tbl.put g.hscr k x }
      | none => t
    t1.finishNow c h

/-- WRSP (R351): a scratch word; a non-zero write of MSREQ forces a milestone before it issues (R357). -/
def execWrsp (h : Hints) (a : Opnd) (sr : SpReg) (s : State) : Out :=
  match s.begin h .plain with
  | some (some c, t) =>
    if sr = SpReg.msreq && c.live ≠ 0 && c.scalar (t.launchIx c.b) 1 a ≠ 0 && (t.vd c.b.vd).msmode ≠ 0 then
      wrspIssue h a sr (s.milestone c.b.vd)
    else wrspIssue h a sr s
  | _ => wrspIssue h a sr s

end Sys2Proof.Machine
end

