-- ==== Sys2Proof/Machine/Image.lean ====
section
/-! DEFINITION. Context images (R128, R316, R353): their bytes, the areas of a virtual device that they are written to and read from
(R322, R355, R359, R360). -/

namespace Sys2Proof.Machine

/-! ## The bytes of an image (R128, R353) -/

/-- Bytes padded with zeros to a multiple of 16. -/
def pad16 (bs : List Byte) : List Byte := bs ++ List.replicate ((16 - bs.length % 16) % 16) 0

/-- Bytes padded with zeros to a length. -/
def padTo (n : Nat) (bs : List Byte) : List Byte := bs ++ List.replicate (n - bs.length) 0

/-- The payload of a register: u; base and stride; or the 32 lanes. -/
def VReg.payload : VReg → List Byte
  | .u x => leBytes 4 x.toNat
  | .a base stride => leBytes 4 base.toNat ++ leBytes 4 stride.toNat
  | .g w => w.toList.flatMap fun x => leBytes 4 x.toNat

/-- The shape bitmap of registers, two bits each from bit 0 on. -/
def shapeBits (rs : List VReg) : Nat := rs.foldr (fun r acc => r.tag + 4 * acc) 0

/-- The vector area of a group (R128). -/
def Group.vectorArea (g : Group) (gid nv : Nat) : List Byte :=
  let rs := (List.range nv).map fun n => g.vreg gid n
  pad16 (leBytes ((nv + 3) / 4) (shapeBits rs)) ++ pad16 (rs.flatMap VReg.payload)

/-- A record that is private to the device. -/
def privateRecord (seed salt n : Nat) : List Byte := (List.range n).map fun i => Config.freeByte seed (2048 * salt + i)

/-- A group's part of an image (R353). -/
def Group.part (g : Group) (seed gid nv ns : Nat) : List Byte :=
  let preds := ((List.range 15).flatMap fun n => leBytes 4 (g.preg gid n).toNat) ++ List.replicate 4 0
  let rejoins := (List.range 8).flatMap fun k => leBytes 4 (Tbl.getD g.j k 0).toNat
  let bases := (List.range 16).flatMap fun n => leBytes 16 (if n = 14 then 0 else (g.breg gid n).toNat)
  let uniform := (List.range ns).flatMap fun n => leBytes 4 (g.sreg gid n).toNat
  privateRecord seed (gid + 1) 416 ++ preds ++ rejoins ++ bases ++ padTo 256 uniform ++ g.vectorArea gid nv

/-- The groups of a block in the order of their parts: declared groups, then spawn sets by serial, each by `gnum`. -/
def State.partsOf (s : State) (blk : Nat) : List (Nat × Group) :=
  sortBy (fun x y => (x.2.lt 0).toNat ≤ (y.2.lt 0).toNat) (s.groups.filter fun e => e.2.blk = blk)

/-- The header of an image (R353). -/
def imageHeader (kind : Nat) (b : Block) (launch : W32) (parts size : Nat) : List Byte :=
  padTo 64 (leBytes 4 0x58435437 ++ leBytes 2 1 ++ leBytes 1 kind ++ [0] ++ leBytes 8 b.idx.toNat ++ leBytes 4 launch.toNat ++
    leBytes 2 b.vd ++ leBytes 2 parts ++ leBytes 4 size ++ leBytes 2 b.nv ++ leBytes 1 b.ns ++ leBytes 1 b.nt ++ leBytes 2 b.nsl)

/-- The image of a block as it stands (R353). -/
def State.blockImage (s : State) (blk : Nat) (b : Block) : List Byte :=
  let gs := s.partsOf blk
  let kind := if gs.any fun e => e.2.halt.isSome then 2 else if b.harvest then 1 else 0
  let table := (List.range 64).flatMap fun i => leBytes 64 (Tbl.getD b.tx i 0).toNat
  let stores := (List.range 64).flatMap fun i => Tbl.getD b.cb i (List.replicate 32 0)
  let held : Bool := b.prog.any fun p => !(p.cmd.ctrs.isEmpty && p.cmd.bars.isEmpty)
  imageHeader kind b (s.launchIx b) gs.length (s.blockBytes blk b) ++ table ++ stores ++ progImage b.prog held ++
    privateRecord s.free 0 1472 ++ Memory.read b.tiles 0 (1024 * b.nt) ++ Memory.read b.slabs 0 (1024 * b.nsl) ++
    gs.flatMap fun e => e.2.part s.free e.1 b.nv b.ns

/-! ## The areas (R355) -/

/-- The segments of a run of one of the device's own areas: translation, key slot, memory errors. `hbm`: the area must map to region
0 (the undo log and a harvest save area, R322, R355); `ok`: the memory system answers the access; else its first page meets an
uncorrectable error. -/
def State.areaSegs (s : State) (vd : Nat) (k : AKind) (ea n : Nat) (hbm : Bool) (ok : Bool := true) :
    State × Except (Nat × Nat) (List Seg) :=
  let r := s.engSegs (devBlock vd) k .pageFail 3 (pageRuns (runFuel n) (ea % 2 ^ 80) n)
  (r.1, match r.2 with
    | .ok gs => match gs.find? fun g => hbm && g.2.region ≠ 0 with
      | some g => .error (0x077, g.1)
      | none => if ok || gs.isEmpty then .ok (gs.map (·.2)) else .error (engCode 1, ea)
    | .stop code addr => .error (code, addr)
    | .wait => .error (0, ea))

/-- The device's own bytes in segments of an area: what goes to region 1 is no effect of the work and is not withheld. -/
def State.putOwn (s : State) (vd : Nat) : List Seg → List Byte → State
  | [], _ => s
  | g :: gs, bs => State.putOwn (match g with
      | .phys pa n _ _ => if g.region = 1 then { s with mem := Memory.write s.mem pa (bs.take n) } else s.writeSeg vd 0 none g (bs.take n)
      | .slot _ _ => s
      | .none _ => s) vd gs (bs.drop g.len)

/-- Bytes of an area are written, once every page of them has passed its checks; else the underlying code and its address. -/
def State.areaPut (s : State) (vd ea : Nat) (bs : List Byte) (hbm : Bool) (ok : Bool := true) : State × Option (Nat × Nat) :=
  let r := s.areaSegs vd .wr ea bs.length hbm ok
  match r.2 with
  | .ok gs => (r.1.putOwn vd gs bs, none)
  | .error e => (r.1, some e)

/-- Bytes of an area are read. -/
def State.areaGet (s : State) (vd ea n : Nat) (hbm : Bool) (ok : Bool := true) : State × Except (Nat × Nat) (List Byte) :=
  let r := s.areaSegs vd .rd ea n hbm ok
  (r.1, match r.2 with
    | .ok gs => .ok (gs.flatMap fun g => r.1.readSeg vd 0 g)
    | .error e => .error e)

/-! ## An image in memory -/

/-- `n` bytes of an image from an offset on. -/
def imgAt (img : List Byte) (off n : Nat) : List Byte := (img.drop off).take n

def imgNat (img : List Byte) (off n : Nat) : Nat := leNat (imgAt img off n)

/-- The registers of a vector area, from the shape bits and the payload on; a register of the fourth code is GENERAL (R128). -/
def readVector : Nat → Nat → List Byte → List VReg
  | 0, _, _ => []
  | n + 1, bits, bs =>
    let r := match bits % 4 with
      | 0 => (VReg.u (BitVec.ofNat 32 (imgNat bs 0 4)), 4)
      | 1 => (VReg.a (BitVec.ofNat 32 (imgNat bs 0 4)) (BitVec.ofNat 32 (imgNat bs 4 4)), 8)
      | _ => (VReg.g (lanes fun l => BitVec.ofNat 32 (imgNat bs (4 * l) 4)), 128)
    r.1 :: readVector n (bits / 4) (bs.drop r.2)

/-- A table with the values of a range of keys. -/
def tblFrom {α : Type} (t : Tbl α) (keys : List Nat) (f : Nat → α) : Tbl α := keys.foldl (fun t k => Tbl.put t k (f k)) t

/-- A group as its part of an image gives it (R128, R353). The group record is the device's own: what it holds the group keeps. -/
def Group.restore (g : Group) (nv ns : Nat) (img : List Byte) : Group :=
  let shapes := (nv + 3) / 4
  let vs := readVector nv (imgNat img 1024 shapes) (img.drop (1024 + (shapes + 15) / 16 * 16))
  { g with
    p := tblFrom g.p (List.range 15) fun k => BitVec.ofNat 32 (imgNat img (416 + 4 * k) 4)
    j := tblFrom g.j (List.range 8) fun k => BitVec.ofNat 32 (imgNat img (480 + 4 * k) 4)
    b := tblFrom g.b ((List.range 16).filter fun k => k ≠ 14) fun k => BitVec.ofNat 80 (imgNat img (512 + 16 * k) 10)
    s := tblFrom g.s (List.range ns) fun k => BitVec.ofNat 32 (imgNat img (768 + 4 * k) 4)
    v := vs.zipIdx.foldl (fun t x => Tbl.put t x.2 (x.1.trim g.narrow)) g.v }

/-- The progress register as an image gives it (R271); one that R273 refuses leaves the register as it was. -/
def State.restoreProg (s : State) (b : Block) (img : List Byte) : Option Stopped :=
  match s.resumeOf b.home b img with
  | .none => none
  | .bad _ => b.prog
  | .cmd body md _ _ _ => b.prog.map fun p =>
      { p with cmd := { p.cmd with body := body, md := md }, code := BitVec.ofNat 9 (imgWord img 16)
               ucode := BitVec.ofNat 9 (imgWord img 16 / 2 ^ 16), addr := BitVec.ofNat 80 (imgNat img 24 10) }

/-- A block with its groups as an image gives them (R353): tensor table, codebook stores, progress image, tiles, slabs and the
registers of the groups. The block record and the group records are the device's own. -/
def State.restoreImage (s : State) (blk : Nat) (b : Block) (img : List Byte) : State :=
  let tiles := 8192
  let slabs := tiles + 1024 * b.nt
  let s1 := s.modBlock blk fun b => { b with
    tx := tblFrom b.tx (List.range 64) fun k => BitVec.ofNat 512 (imgNat img (64 + 64 * k) 64)
    cb := tblFrom b.cb (List.range 64) fun k => imgAt img (4160 + 32 * k) 32
    prog := s.restoreProg b (imgAt img 6208 512)
    tiles := Memory.write b.tiles 0 (imgAt img tiles (1024 * b.nt))
    slabs := Memory.write b.slabs 0 (imgAt img slabs (1024 * b.nsl)) }
  ((s.partsOf blk).foldl (fun (x : State × Nat) (e : Nat × Group) =>
    (x.1.modGroup e.1 fun g => g.restore b.nv b.ns (img.drop x.2), x.2 + 1024 + (e.2.vectorArea e.1 b.nv).length))
    (s1, slabs + 1024 * b.nsl)).1

/-- The image of a block is written to an address. -/
def State.putImage (s : State) (blk ea : Nat) (hbm : Bool) (ok : Bool := true) : State × Option (Nat × Nat) :=
  match Tbl.find s.blocks blk with
  | none => (s, none)
  | some b =>
    let bs := s.blockImage blk b
    let w := { s with free := s.free + 1 }.areaPut b.vd ea bs hbm ok
    (w.1.modBlock blk fun b => { b with image := bs, imageAt := ea }, w.2)

/-- The image of a block is read back: its header must be the one that was written (R353), and what it holds is restored. -/
def State.getImage (s : State) (blk : Nat) (hbm : Bool) (ok : Bool := true) : State × Option (Nat × Nat) :=
  match Tbl.find s.blocks blk with
  | none => (s, none)
  | some b =>
    let r := s.areaGet b.vd b.imageAt b.image.length hbm ok
    let s1 := { r.1 with free := r.1.free + 1 }.modBlock blk fun b => { b with image := [] }
    match r.2 with
    | .ok bs =>
      if bs.take 64 ≠ b.image.take 64 then (s1, some (0, b.imageAt))
      else (if bs = b.image then s1 else s1.restoreImage blk b bs, none)
    | .error e => (s1, some e)

/-- The end of the images that a launch has in memory: the next one stands there. -/
def State.imagesEnd (s : State) (launch start : Nat) : Nat :=
  s.blocks.foldl (fun a e => if e.2.launch = launch && e.2.loc = .memory then max a (e.2.imageAt + e.2.image.length) else a) start

end Sys2Proof.Machine
end

