-- ==== Sys2Proof/Machine/Harvest.lean ====
section
/-! DEFINITION. Harvest contexts: revocation, parking, moves and resumption (R315 to R325), commands that enter their queues
again (R399), and slices (R359, R360). -/

namespace Sys2Proof.Machine

/-! ## Commands that enter their queues again (R399) -/

/-- A block's waiting commands ask for their permits in their order. -/
def State.askAgain (s : State) (blk : Nat) : State :=
  match Tbl.find s.blocks blk with
  | none => s
  | some b =>
    b.batch.foldl (fun (t : State) (q : EngCmd) => t.modDie (b.home / 64) fun d =>
      { d with permits := d.permits ++ [{ gid := q.gid, blk := some blk, cost := q.cost, granted := false }] }) s

/-- A block's requests for permits are no longer made. -/
def State.dropAsks (s : State) (blk : Nat) : State :=
  { s with dies := s.dies.map fun (e : Nat × Die) =>
      (e.1, { e.2 with permits := e.2.permits.filter fun (p : Permit) => p.blk ≠ some blk }) }

/-- A command goes back to the queue or the buffer that it came from. -/
def State.requeue (s : State) (core : Nat) (q : EngCmd) : State :=
  match q.body with
  | .mmt m => if m.buf then s.modCore core fun k => { k with follow := k.follow ++ [q] } else s.enqueue core q
  | _ => s.enqueue core q

/-- The first waiting command of a block enters its queue with a permit that has been granted, once there is room. -/
def State.reenter (s : State) (die : Nat) (p : Permit) : State :=
  match p.blk with
  | none => s
  | some blk =>
    match Tbl.find s.blocks blk with
    | none => s
    | some b =>
      match b.batch with
      | [] => s
      | q :: rest =>
        let core := b.home
        if b.loc ≠ .core core || !p.granted || q.cost ≠ p.cost || !s.roomFor core b.vd q.body then s
        else
          let s1 := s.modDie die fun d => { d with permits := d.permits.erase p }
          ((s1.modBlock blk fun b => { b with batch := rest }).requeue core q).drainFollow core

/-- Every granted request of a die whose command can enter its queue. -/
def State.reenterAll (s : State) (die : Nat) : State :=
  (s.die die).permits.foldl (fun (t : State) p => t.reenter die p) s

/-- PERMIT_GRANT: the oldest request that is not granted yet is, when it fits the die's limit (R398). -/
def grantFirst (use limit : Nat) : List Permit → List Permit
  | [] => []
  | p :: ps =>
    if p.granted then p :: grantFirst use limit ps
    else if use + p.cost ≤ limit then { p with granted := true } :: ps
    else p :: ps

def execPermitGrant (die : Nat) (s : State) : Out :=
  .next ((s.modDie die fun d => { d with permits := grantFirst (s.dieUse die) d.limit d.permits }).reenterAll die)

/-! ## Revocation (R320, R321) -/

/-- The copies of a block are cancelled at a row boundary (R244). -/
def State.cancelCopies (core blk : Nat) : Nat → State → State
  | 0, s => s
  | fuel + 1, s =>
    let qs := (s.core core).copyQ
    match qs.findIdx? fun q => q.blk = blk && (match q.body with
      | .copy .. => true
      | _ => false) with
    | none => s
    | some ix => match qs[ix]? with
      | some q => State.cancelCopies core blk fuel (s.copyStop core ix q)
      | none => s

/-- The other commands of a block leave the engines and wait with it, in their order, before those that have not entered again
since it was parked before; of these, copies are cancelled too (R166, R244, R280). -/
def State.parkCommands (s : State) (core blk : Nat) : State :=
  let k := s.core core
  let mine := fun (qs : List EngCmd) => qs.filter fun q => q.blk = blk
  let rest := fun (qs : List EngCmd) => qs.filter fun q => q.blk ≠ blk
  let isCopy := fun (q : EngCmd) => match q.body with
    | .copy .. => true
    | _ => false
  let old := ((Tbl.find s.blocks blk).map (·.batch)).getD []
  let s1 := (s.dropAsks blk).modCore core fun k => { k with copyQ := rest k.copyQ, matQ := rest k.matQ, follow := rest k.follow }
  let s2 := s1.modBlock blk fun b =>
    { b with batch := mine k.copyQ ++ mine k.matQ ++ mine k.follow ++ b.batch.filter fun q => !isCopy q }
  (old.filter isCopy).foldl (fun (t : State) q => (t.freeCopy q true).endCmd q) s2

/-- A group stands still: fixed-latency results are written, flags whose time runs out clear, the rest of its fill line is on its
way (R150, R313, R321). -/
def State.stillGroup (s : State) (core blk gid : Nat) : State :=
  match Tbl.find s.groups gid with
  | none => s
  | some g =>
    let vd := s.vdOf gid
    let lines := g.track.rest.map fun l =>
      ({ vd := vd, blk := blk, gid := gid, seg := l.1, off := l.2.1, bytes := l.2.2, shared := false, flag := none, ended := false } : TapeLine)
    let s1 := ((s.dropPermits gid).modCore core fun k => { k with tape := k.tape ++ lines }).calm gid
    s1.modGroup gid fun g =>
      let g1 := g.flagDue.foldl (fun (g : Group) e => g.flagDown (some e.1)) g
      { g1 with flagDue := [], stall := none, why := none, readySince := none, yielded := false, track := { g1.track with fill := [] } }.turnClock s.cycle

/-- Results that need nothing from outside are written: all but those of SYS (R350). -/
def State.writeResults (s : State) (blk : Nat) : State :=
  let mine := fun (r : Pending) => !r.service && (match Tbl.find s.groups r.gid with
    | some g => g.blk = blk
    | none => false)
  (s.results.filter mine).foldl (fun (t : State) r =>
    match t.results.findIdx? fun x => x = r with
    | some k => t.complete k r r.writes
    | none => t) s

/-- Every slot of a harvest block is absent, and what owners lent to it is theirs again, zeroed (R231). -/
def State.returnSlots (s : State) (blk : Nat) : State :=
  let s1 := { s with blocks := s.blocks.map fun (e : Nat × Block) =>
    (e.1, (List.range e.2.nsp).foldl (fun (b : Block) k =>
      match (b.ent k).lentTo with
      | some (x, _) => if x = blk then b.takeBack k else b
      | none => b) e.2) }
  s1.modBlock blk fun b => Block.note { b with tagTab := [], slots := [] } ((List.range b.nsp).map LogItem.tag)

/-- The bins and the tape lines of a block leave its core with it (R106, R313, R321). -/
def State.packBlock (s : State) (core blk : Nat) : State :=
  let k := s.core core
  (s.modCore core fun k => { k with
    bins := k.bins.filter fun (b : Bin) => b.blk ≠ blk, tape := k.tape.filter fun (l : TapeLine) => l.blk ≠ blk }).modBlock blk
    fun b => { b with
      bins := k.bins.filter fun (x : Bin) => x.blk = blk
      lines := (k.tape.filter fun (l : TapeLine) => l.blk = blk).map fun l => { l with shared := false } }

/-- The reservations of a block's threads are cleared (R186, R197). -/
def State.dropResv (s : State) (blk : Nat) : State :=
  { s with groups := s.groups.map fun (e : Nat × Group) => if e.2.blk = blk then (e.1, { e.2 with resv := [] }) else e }

/-- THE REVOCATION of a harvest block on a core (R321): issue stops, copies are cancelled, other commands wait with the block,
what was sent is performed, loads are marked for replay, reservations are cleared, lent slots go back, and the block stands in the
lay-by with its bins. -/
def State.revoke (s : State) (core blk : Nat) (why : ParkWhy) : State :=
  match Tbl.find s.blocks blk with
  | none => s
  | some b =>
    if !b.harvest || b.loc ≠ .core core then s
    else
      let gids := (s.groups.filter fun e => e.2.blk = blk).map (·.1)
      let s1 := (State.cancelCopies core blk 33 s).parkCommands core blk
      let s2 := gids.foldl (fun (t : State) g => t.stillGroup core blk g) s1
      let s3 := (State.flushLines core blk (s2.core core).tape.length 0 s2).packBlock core blk
      let s4 := ((State.performSent (fun a => a.blk = blk) s3.openParts s3).writeResults blk).dropResv blk
      let ids := (s4.accesses.filter fun a => a.blk = blk).map (·.id)
      let s5 := { s4 with accesses := s4.accesses.map fun (a : Access) => if a.blk = blk then { a with replay := true } else a }
      let s6 := (ids.foldl (fun (t : State) i => t.dropInval i) s5).returnSlots blk
      let n := (s6.vd b.vd).parkSeq
      let s7 := s6.modBlock blk fun b =>
        { b with loc := .layby core, parks := b.parks + 1, parked := true, parkAt := n, parkWhy := why }
      let s8 := (s7.modVd b.vd fun v => { v with parkSeq := n + 1 }).modCore core fun k => { k with revs := (k.revs + 1) % 256 }
      (s8.countCore core 0x21 (some b.vd) 1).countCore core 0x22 (some b.vd) 1

def State.revokeAll (s : State) (core : Nat) (why : ParkWhy) : State :=
  (s.contexts core).foldl (fun (t : State) b => t.revoke core b why) s

/-- A context is the latest admitted of those that hold what an instruction waits for on a core (R320). -/
def State.wanted (s : State) (core blk : Nat) : Bool :=
  s.groups.any fun e => e.2.core = core && (match e.2.stall with
    | some (.revocation (b :: _)) => b = blk
    | _ => false) && s.onCore e.2.blk

/-- REVOCATION: an owner's instruction waits for what a context holds (R320). -/
def execRevocation (core : Nat) (blk : Nat) (s : State) : Out :=
  .next (if s.wanted core blk then s.revoke core blk .need else s)

/-! ## Ended contexts (R324) -/

/-- A block's groups, bins, commands and accesses are gone. -/
def State.discardBlock (s : State) (blk : Nat) : State :=
  let live := fun (gid : Nat) => match Tbl.find s.groups gid with
    | some g => g.blk ≠ blk
    | none => true
  let out := fun (qs : List EngCmd) => qs.filter fun q => q.blk ≠ blk
  let s1 := ((s.groups.filter fun e => e.2.blk = blk).foldl (fun (t : State) e => t.dropPermits e.1) s).dropAsks blk
  let s2 := { s1 with
    groups := s1.groups.filter fun (e : Nat × Group) => e.2.blk ≠ blk
    accesses := s1.accesses.filter fun (a : Access) => a.blk ≠ blk
    results := s1.results.filter fun (r : Pending) => live r.gid
    waits := s1.waits.filter fun (w : PageWait) => s.waitBlk w ≠ blk
    cores := s1.cores.map fun (e : Nat × Core) => (e.1, { e.2 with
      copyQ := out e.2.copyQ, follow := out e.2.follow, matQ := out e.2.matQ
      bins := e.2.bins.filter fun (b : Bin) => b.blk ≠ blk, tape := e.2.tape.filter fun (l : TapeLine) => l.blk ≠ blk })
    dies := s1.dies.map fun (e : Nat × Die) => (e.1, { e.2 with collQ := out e.2.collQ }) }
  let gone := (s.accesses.filter fun a => a.blk = blk).map (·.id)
  (gone.foldl (fun (t : State) i => t.dropInval i) s2).returnSlots blk

/-- The save area that a launch record names (R369). -/
def Launch.saveArea (l : Launch) : Nat := leNat ((l.raw.drop 128).take 10)

/-- A context whose image is lost ends: its launch's record names the block, system software is told, with the underlying code and
its address (R324). -/
def State.loseContext (s : State) (blk : Nat) (code : BitVec 9) (under addr : Nat) : State :=
  match Tbl.find s.blocks blk with
  | none => s
  | some b =>
    let s1 := (s.discardBlock blk).retireBlock blk
    (s1.modLaunch b.launch fun l => { l with stop := some (11, code), lost := l.lost ++ [(b.idx.toNat, 1)] }).raiseVd
      b.vd { Irq.plain (some b.vd) 2 code (BitVec.ofNat 80 addr) with under := BitVec.ofNat 9 under }

/-! ## Admission and resumption (R318, R323) -/

/-- One slot for each scheduler of a list, in order, none twice; none where a scheduler has not enough. -/
def State.takeSlots (s : State) (core lo n : Nat) : List Nat → List (Nat × Nat) → Option (List (Nat × Nat))
  | [], got => some got
  | k :: ks, got =>
    match (s.openSlots core k lo n).find? fun x => !got.contains (k, x) with
    | some x => s.takeSlots core lo n ks (got ++ [(k, x)])
    | none => none

/-- What the blocks on a core hold of a resource. -/
def State.heldOn (s : State) (core : Nat) (f : Block → Nat) : Nat :=
  s.blocks.foldl (fun a e => if e.2.loc = .core core then a + f e.2 else a) 0

/-- An owner launch of the virtual device is resident on the core, or on its cluster (R318). -/
def State.ownerNear (s : State) (vd core owner : Nat) (cluster : Bool) : Bool :=
  s.blocks.any fun e => e.2.vd = vd && !e.2.harvest && (match Tbl.find s.launches e.2.launch with
    | some l => l.index.toNat = owner
    | none => false) && (match e.2.loc with
    | .core n => n = core || (cluster && n / 8 = core / 8)
    | _ => false)

/-- The core lies in a cluster that is lent to the partition of a virtual device of a spatial kind, and not under reclaim (R326). -/
def State.lentTo (s : State) (vd core : Nat) : Bool :=
  match Tbl.find s.lends (core / 8) with
  | some l => l.effect && !l.reclaim && l.borrower = (s.vd vd).partition && !(s.vd vd).sliced
  | none => false

/-- The core belongs to the partition of a virtual device for harvest: guaranteed, its own margin that is not lent, or margin
lent to it (R326). -/
def State.harvestCore (s : State) (vd core : Nat) : Bool :=
  (s.die (core / 64)).live && (match Tbl.find s.lends (core / 8) with
    | some _ => s.lentTo vd core
    | none => s.coreIn vd core)

/-- A harvest block may stand on a core beside the owner launch that it serves: that launch is resident on the core, or on its
cluster where the record says so; on a lent cluster, where no owner block stands, anywhere (R318, R326). -/
def State.beside (s : State) (vd core owner : Nat) (cluster : Bool) : Bool :=
  if s.lentTo vd core then (List.range 256).any fun c => s.ownerNear vd c owner false
  else s.ownerNear vd core owner cluster

/-- Room on a core for a harvest context: banks, tiles, slabs, tags, register bytes (R317, R318). -/
def State.harvestRoom (s : State) (core banks nt nsl ntag use : Nat) : Bool :=
  banks ≤ s.freeBanks core && s.heldOn core (·.nt) + nt ≤ 64 && s.heldOn core (·.nsl) + nsl ≤ 512 &&
    s.heldOn core (·.ntag) + ntag ≤ 64 &&
    s.harvestUse core + use ≤ s.unreserved core + s.lendable core ((s.core core).keep * 128)

/-- The owner launch that a launch record names, and whether its cluster will do (R318, R369). -/
def Launch.owner (l : Launch) : Nat := leNat ((l.raw.drop 76).take 4)
def Launch.anyCore (l : Launch) : Bool := leNat ((l.raw.drop 2).take 1) / 2 % 2 = 1

/-- A parked context can resume on a core: the slots that it gets there (R323). -/
def State.resumeSlots (s : State) (blk core : Nat) : Option (List (Nat × Nat)) :=
  match Tbl.find s.blocks blk with
  | none => none
  | some b =>
    let near := match Tbl.find s.launches b.launch with
      | some l => s.beside b.vd core l.owner l.anyCore
      | none => false
    let use := s.groups.foldl (fun a e => if e.2.blk = blk then a + e.2.useBytes e.1 b.nv else a) 0
    let banks := if b.loc = .layby core then 0 else b.banks
    let bins := (s.core core).bins.length + b.bins.length
    if b.harvest && (b.loc = .layby core || b.loc = .memory) && near && s.harvestCore b.vd core && (s.vd b.vd).runs && bins ≤ 64 &&
        s.harvestRoom core banks b.nt b.nsl b.ntag use then
      s.takeSlots core 20 4 (b.held.map (·.1)) []
    else none

/-- The groups of a block stand on a core, in its new slots. -/
def State.placeGroups (s : State) (blk core : Nat) (old new : List (Nat × Nat)) : State :=
  { s with groups := s.groups.map fun (e : Nat × Group) =>
      if e.2.blk ≠ blk then e
      else
        let new' := ((old.zip new).find? fun x => x.1 = (e.2.sched, e.2.slot)).map (·.2)
        let at' := new'.getD (e.2.sched, e.2.slot)
        (e.1, { e.2 with core := core, sched := at'.1, slot := at'.2 }.turnClock s.cycle) }

/-- The bins and the tape lines of a block stand on a core again. -/
def State.unpackBlock (s : State) (blk core : Nat) : State :=
  match Tbl.find s.blocks blk with
  | none => s
  | some b =>
    (s.modCore core fun k => { k with bins := k.bins ++ b.bins, tape := k.tape ++ b.lines }).modBlock blk
      fun b => { b with bins := [], lines := [] }

/-- A parked context comes back on a core: its groups stand there again, its loads are made again, its commands ask for their
permits, its slots are bound (R323, R354, R399, R415). -/
def State.resume (s : State) (blk core : Nat) (new : List (Nat × Nat)) : State :=
  match Tbl.find s.blocks blk with
  | none => s
  | some b =>
    let s1 := (s.unpackBlock blk core).placeGroups blk core b.held new
    let s2 := s1.modBlock blk fun b =>
      { b with loc := .core core, home := core, held := new, moved := b.moved || b.home ≠ core, came := s.nextId }
    let s3 := { s2 with nextId := s.nextId + 1, free := s.free + 1 }
    let s4 := (s3.reissueAll (fun a => a.blk = blk) none).retryWaits fun w => s.waitBlk w = blk
    (s4.askAgain blk).bindSlots core

/-- CONTEXT_RESUME: a parked context resumes where it is admitted, unless an older one could resume there; an image that cannot
be read back from memory ends it (R323, R324). -/
def execContextResume (blk core : Nat) (restored : Bool) (s : State) : Out :=
  .next (match s.resumeSlots blk core, Tbl.find s.blocks blk with
    | some new, some b =>
      let older := s.blocks.any fun e => e.2.vd = b.vd && e.2.harvest && e.2.parkAt < b.parkAt && e.1 ≠ blk &&
        (s.resumeSlots e.1 core).isSome
      if older then s
      else if b.loc = .memory then
        let r := s.getImage blk true restored
        match r.2 with
        | none => r.1.resume blk core new
        | some e => r.1.loseContext blk 0x121 e.1 e.2
      else s.resume blk core new
    | _, _ => s)

/-! ## Moves (R322) -/

/-- A context whose move is asked for is revoked first (R320). -/
def State.moveOut (s : State) (blk : Nat) : State :=
  match Tbl.find s.blocks blk with
  | some b => match b.loc with
    | .core n => s.revoke n blk .move
    | _ => s
  | none => s

/-- CONTEXT_MOVE_CORE: an image goes to another core of the partition that has the banks, the slots, the tiles and the
slabs. -/
def execContextMoveCore (blk core : Nat) (s0 : State) : Out :=
  let s := s0.moveOut blk
  .next (match Tbl.find s.blocks blk with
    | some b =>
      let here : Bool := match b.loc with
        | .layby n => n ≠ core
        | _ => false
      let b' := { b with parts := b.held.length }
      if here && b.harvest && s.harvestCore b.vd core && s.harvestRoom core b'.banks b.nt b.nsl b.ntag 0 &&
          (s.takeSlots core 20 4 (b.held.map (·.1)) []).isSome then
        s.modBlock blk fun b => { b with loc := .layby core, parts := b.held.length }
      else s
    | none => s)

/-- An image leaves the lay-by for the save area of its launch, behind those that stand there; a failed write ends the context
(R322, R324). -/
def State.saveContext (s : State) (blk : Nat) (ok : Bool) : State :=
  match Tbl.find s.blocks blk with
  | some b => match b.loc with
    | .layby _ =>
      let start := ((Tbl.find s.launches b.launch).map Launch.saveArea).getD 0
      let r := s.putImage blk (s.imagesEnd b.launch start) true ok
      match r.2 with
      | none => r.1.modBlock blk fun b => { b with loc := .memory, parts := b.held.length }
      | some e => r.1.loseContext blk 0x120 e.1 e.2
    | _ => s
  | none => s

/-- CONTEXT_MOVE_MEMORY. -/
def execContextMoveMemory (blk : Nat) (saved : Bool) (s : State) : Out := .next ((s.moveOut blk).saveContext blk saved)

/-- HVCFG_WRITE (R325): `xrev` and `keep`; the other bits stay zero. -/
def execHvcfgWrite (core : Nat) (w : W32) (s : State) : Out :=
  .next (s.modCore core fun k => { k with xrev := w.getLsbD 8, keep := w.toNat % 16 })

/-! ## Borrowed margin (R326) -/

/-- A core is scrubbed. -/
def Core.scrub (k : Core) : Core := { k with copyQ := [], follow := [], matQ := [], bat := [], bins := [], tape := [] }

/-- The cores of a cluster. -/
def clusterCores (c : Nat) : List Nat := (List.range 8).map fun i => 8 * c + i

/-- A lent cluster is the lender's again; its LEND bit clears (R378). -/
def State.endLend (s : State) (c : Nat) : State :=
  let s1 := { s with lends := Tbl.drop s.lends c }
  { s1 with parts := s1.parts.map fun (e : Nat × Partition) =>
      (e.1, { e.2 with lend := e.2.lend &&& ~~~(BitVec.ofNat 32 (2 ^ c)) }) }

/-- MARGIN_RECLAIM: a cluster under reclaim is revoked, its images are saved, its cores are scrubbed, and it is returned. -/
def execMarginReclaim (cluster : Nat) (saved : Bool) (s : State) : Out :=
  .next (match Tbl.find s.lends cluster with
    | some l =>
      if !l.reclaim then s
      else
        let cs := clusterCores cluster
        let s1 := cs.foldl (fun (t : State) c => t.revokeAll c .reclaim) s
        let parked := (s1.blocks.filter fun e => match e.2.loc with
          | .layby n => n / 8 = cluster
          | _ => false).map (·.1)
        let s2 := parked.foldl (fun (t : State) b => t.saveContext b saved) s1
        (cs.foldl (fun (t : State) c => t.modCore c Core.scrub) s2).endLend cluster
    | none => s)

/-! ## Slices (R359 to R361) -/

/-- The blocks of a virtual device leave their cores, with their bins, their tape lines and the time of their groups. -/
def State.leaveCores (s : State) (vd : Nat) : State :=
  let s1 := s.blocks.foldl (fun (t : State) e => match e.2.loc with
    | .core n => if e.2.vd = vd then t.packBlock n e.1 else t
    | _ => t) s
  { s1 with
    groups := s1.groups.map fun (e : Nat × Group) =>
      if s.blkIn vd e.2.blk && s.standsOn e.2.blk then (e.1, e.2.turnClock s.cycle) else e
    blocks := s1.blocks.map fun (e : Nat × Block) =>
      if e.2.vd = vd then (e.1, { e.2 with loc := match e.2.loc with
        | .core n => .slice false n
        | .layby n => .slice true n
        | l => l }) else e }

/-- The images of blocks are written one behind the other; the first failure ends it. -/
def State.putImages (s : State) (ok : Bool) : List Nat → Nat → State × Option (Nat × Nat)
  | [], _ => (s, none)
  | k :: ks, ea =>
    let r := s.putImage k ea false ok
    match r.2 with
    | none => r.1.putImages ok ks (ea + ((Tbl.find r.1.blocks k).map (·.image.length)).getD 0)
    | some e => (r.1, some e)

/-- The images of blocks are read back; the first failure ends it. -/
def State.getImages (s : State) (ok : Bool) : List Nat → State × Option (Nat × Nat)
  | [] => (s, none)
  | k :: ks =>
    let r := s.getImage k false ok
    match r.2 with
    | none => r.1.getImages ok ks
    | some e => (r.1, some e)

/-- The blocks of a virtual device whose images its save area takes: those on a core or in a lay-by. -/
def State.sliceBlocks (s : State) (vd : Nat) : List Nat :=
  (s.blocks.filter fun e => e.2.vd = vd && e.2.loc ≠ .memory).map (·.1)

/-- A virtual device's blocks are written to its context save area (R359); the device's own writes make no entry in its log. -/
def State.saveImages (s : State) (vd : Nat) (ok : Bool) : State × Option (Nat × Nat) :=
  let r := s.putImages ok (s.sliceBlocks vd) (s.vd vd).csave.toNat
  ((r.1.leaveCores vd).modVd vd fun v => { v with log := [] }, r.2)

/-- The blocks of a virtual device come back to their cores, with the table slots of its milestone. -/
def State.loadImages (s : State) (vd : Nat) : State :=
  let bats : Tbl Bat → Nat → Tbl Bat := fun old c =>
    if s.coreIn vd c then (((s.vd vd).snap.bind fun p => Tbl.find p.cores c).map (·.bat)).getD [] else old
  let s1 := { s with
    blocks := s.blocks.map fun (e : Nat × Block) =>
      if e.2.vd = vd then (e.1, { e.2 with loc := match e.2.loc with
        | .slice false n => .core n
        | .slice true n => .layby n
        | l => l }) else e
    cores := s.cores.map fun (e : Nat × Core) => (e.1, { e.2 with bat := bats e.2.bat e.1 }) }
  let s2 := { s1 with
    groups := s1.groups.map fun (e : Nat × Group) =>
      if s.blkIn vd e.2.blk && s1.standsOn e.2.blk then (e.1, e.2.turnClock s.cycle) else e }
  s2.blocks.foldl (fun (t : State) e => match e.2.loc with
    | .core n => if e.2.vd = vd then t.unpackBlock e.1 n else t
    | _ => t) s2

/-- SLICE_END: a time-sliced virtual device in its slice is rolled back to its milestone and its images are
saved; a failed image write halts it with CTX_SAVE (R359). -/
def execSliceEnd (vd : Nat) (saved : Bool) (s : State) : Out :=
  let v := s.vd vd
  .next (if v.runs && v.sliced then
      let r := (s.rollback vd).saveImages vd saved
      let s1 := r.1.modVd vd fun v => { v with sched := false }
      match r.2 with
      | none => s1
      | some e => s1.haltUnder vd 0x125 e.1 (BitVec.ofNat 80 e.2)
    else s)

/-- ROLLBACK_REQUEST: in RECOVER mode the virtual device is rolled back, its images are written and it is halted
(R361). -/
def execRollbackRequest (vd : Nat) (saved : Bool) (s : State) : Out :=
  let v := s.vd vd
  .next (if v.runs && v.msmode = 1 then
      let r := (s.rollback vd).saveImages vd saved
      match r.2 with
      | none => r.1.modVd vd fun v => { v with halt := true }
      | some e => r.1.haltUnder vd 0x125 e.1 (BitVec.ofNat 80 e.2)
    else s)

/-- The slice of a time-sliced virtual device may start: no other one of its partition is in its slice, and it is the next of those
that are started and not halted, in the order of their numbers (R365). -/
def State.slicesNext (s : State) (vd : Nat) : Bool :=
  let v := s.vd vd
  let last := (s.part v.partition).turn
  let dist := fun (k : Nat) => (k + 255 - last) % 256
  v.sliced && s.vds.all fun e => e.1 = vd || !e.2.sliced || e.2.partition ≠ v.partition || !e.2.run || e.2.halt ||
    (!e.2.sched && dist vd < dist e.1)

/-- SLICE_START: the images are read back, recorded commands ask for their permits, recorded loads are made again and the
groups issue; a failed read, or a header that is not the one that was written, halts the virtual device with CTX_RESTORE (R360). -/
def execSliceStart (vd : Nat) (restored : Bool) (s : State) : Out :=
  let v := s.vd vd
  .next (if v.run && !v.halt && !v.sched && s.slicesNext vd then
      let r := s.getImages restored (s.sliceBlocks vd)
      match r.2 with
      | some e => r.1.haltUnder vd 0x126 e.1 (BitVec.ofNat 80 e.2)
      | none =>
        let s1 := ((r.1.loadImages vd).modVd vd fun v => { v with sched := true, msAt := s.cycle }).modPart v.partition fun p =>
          { p with turn := vd }
        let s2 := (s1.blocks.filter fun e => e.2.vd = vd && (match e.2.loc with
          | .core _ => true
          | _ => false)).foldl (fun (t : State) e => t.askAgain e.1) s1
        (s2.reissueAll (fun a => a.vd = vd) none).retryWaits fun w =>
          s2.blkIn vd (s2.waitBlk w) && s2.onCore (s2.waitBlk w)
    else s)

end Sys2Proof.Machine
end

