-- ==== Sys2Proof/Machine/Launch.lean ====
section
/-! DEFINITION. Launch queues and their records (R367 to R372, R14 to R16), and the end of launches (R375, R376, R382). -/

namespace Sys2Proof.Machine

/-! ## Doorbells and queue registers (R367, R368) -/

def Queue.entries (q : Queue) : Nat := 16 * 2 ^ q.lsz

def VDev.queue (v : VDev) (q : Nat) : Queue := Tbl.getD v.queues q .init

def State.modQueue (s : State) (vd q : Nat) (f : Queue → Queue) : State :=
  s.modVd vd fun v => { v with queues := Tbl.put v.queues q (f (v.queue q)) }

/-- Queue `q` of virtual device `vd` exists (R364). -/
def hasQueue (vd q : Nat) : Bool := vd < 256 && q < 64

/-- The records from the head on that a doorbell names. -/
def Queue.named (x : Queue) (t : W32) : Nat := (t - x.head).toNat

/-- DOORBELL: a tail within the entries makes its records ready, any other sets `bad`. A tail that names fewer records than an
earlier one takes none of them back. -/
def execDoorbell (vd q : Nat) (t : W32) (s : State) : Out :=
  let x := (s.vd vd).queue q
  .next (if !hasQueue vd q || !x.en then s
    else if x.named t ≤ x.entries then
      { s with nextId := s.nextId + 1 }.modQueue vd q fun x =>
        { x with tail := if x.named x.tail ≤ x.named t then t else x.tail, bells := x.bells ++ [(t, s.nextId)] }
    else s.modQueue vd q fun x => { x with bad := true })

/-- A write of QCFG. -/
def Queue.writeCfg (x : Queue) (w : W32) : Queue :=
  let lsz := w.toNat % 16
  if x.en then
    let y := { x with bad := x.bad && !w.getLsbD 30, rdf := x.rdf && !w.getLsbD 29,
                       stuck := x.stuck && !w.getLsbD 29 }
    if w.getLsbD 31 then y else { y with en := false, head := 0, tail := 0, bells := [], stuck := false }
  else if 8 < lsz then x
  else { x with en := w.getLsbD 31, bad := x.bad && !w.getLsbD 30, rdf := x.rdf && !w.getLsbD 29, lsz := lsz }

/-- QCFG_WRITE. -/
def execQcfgWrite (vd q : Nat) (w : W32) (s : State) : Out :=
  .next (if hasQueue vd q then s.modQueue vd q fun x => x.writeCfg w else s)

/-! ## The launch record (R369) -/

/-- The level descriptors that a record declares, L of them. -/
def recLvl (raw : List Byte) (lo n : Nat) : List W32 :=
  (List.range (min n 8)).map fun i => BitVec.ofNat 32 (recFld raw (lo + 4 * i) 4)

def lvlDom (d : W32) : Nat := d.toNat / 2 ^ 28 % 8
def lvlScope (d : W32) : Nat := d.toNat / 2 ^ 24 % 16
def lvlExt (d : W32) : Nat := d.toNat % 2 ^ 24

/-- Check 1 of R370; `hv`: the record or the kernel makes it a harvest launch. -/
def recBad (raw : List Byte) (hv : Bool) : Bool :=
  let lvl := recFld raw 3 1
  let top := (recLvl raw 32 lvl).getLast?
  let peer := (top.map lvlDom).getD 0 = 6
  recFld raw 0 1 ≠ 1 || 2 < recFld raw 1 1 || 8 ≤ recFld raw 2 1 || 512 ≤ recFld raw 4 2 ||
    (64 ≤ recFld raw 28 1 && recFld raw 28 1 ≠ 255) || 64 < recFld raw 29 1 + recFld raw 30 1 || !recZero raw 31 1 ||
    !recZero raw (32 + 4 * min lvl 8) (32 - 4 * min lvl 8) || !recZero raw 74 2 || !recZero raw 148 4 || !recZero raw 192 64 ||
    (!hv && !(recZero raw 76 4 && recZero raw 128 10)) || (!peer && !recZero raw 80 8)

/-- A level of a valid hierarchy (R15); `below`: the domain of the level below, `prod`: the extents of levels 3 on as far as
this one. -/
def lvlBad (narrow : Bool) (L i : Nat) (d : W32) (below prod : Nat) : Bool :=
  if i = 0 then d ≠ 0x00000001
  else if i = 1 then d ≠ (if narrow then 0x11000010 else 0x11000020)
  else if i = 2 then d.getLsbD 31 || lvlDom d ≠ 2 || lvlScope d ≠ 2 || lvlExt d < 1 || 64 < lvlExt d
  else
    let dom := lvlDom d
    let sc := lvlScope d
    d.getLsbD 31 || dom < 3 || 6 < dom || (3 < i && dom < below) || (dom = 6 && i + 1 ≠ L) || lvlExt d < 1 || 2 ^ 32 < prod ||
      !((dom = 3 && sc = 4) || (dom = 4 && sc = 5) || (dom = 5 && (sc = 6 || sc = 7)) || (dom = 6 && (sc = 9 || sc = 10)))

/-- The first level that breaks R15 or disagrees with the kernel record, which declare L and K levels: check 3 of R370. -/
def hierFail (narrow : Bool) (L K : Nat) (ls ks : List W32) : Option Nat :=
  let bad := fun i =>
    let d := ls.getD i 0
    let k := ks.getD i 0
    let prod := (List.range (i - 2)).foldl (fun a j => a * lvlExt (ls.getD (3 + j) 0)) 1
    i < ls.length && i < ks.length &&
      (lvlBad narrow L i d (lvlDom (ls.getD (i - 1) 0)) prod || (lvlExt k ≠ 0 && lvlExt k ≠ lvlExt d))
  match (List.range 8).find? bad with
  | some i => some i
  | none => if L = K && 2 ≤ L && L ≤ 8 then none else some (min L K)

/-- The kernel at an entry (R72, R85). -/
def VDev.kernelAt (v : VDev) (entry : Va) : Option (Nat × Obj × Kernel) :=
  (v.kernels.find? fun e => e.1 = entry).bind fun e =>
    (Tbl.find v.objs e.2.1).bind fun o => (o.kernels[e.2.2]?).map fun k => (e.2.1, o, k)

/-- A demand: the launch record's where bit `b` of `ovr` is set, else the kernel record's (R369). -/
def demand (raw ker : List Byte) (b lo n klo kn : Nat) : Nat :=
  if recBit raw 4 2 b then recFld raw lo n else recFld ker klo kn

/-- The argument bytes of a launch. -/
def argBytes (raw ker : List Byte) : Nat := demand raw ker 7 26 2 52 4

/-- The launch that a record and its kernel make. -/
def mkLaunch (vd q : Nat) (index : W32) (raw : List Byte) (bell : Nat) (k : Option (Nat × Obj × Kernel)) : Launch :=
  let ker := (k.map fun x => x.2.2.raw).getD []
  let hv := recBit raw 2 1 0 || recBit ker 7 1 0
  let lvl := recLvl raw 32 (recFld raw 3 1)
  let top := lvl.getLast?.getD 0
  let peer := lvlDom top = 6
  let first := if peer then recFld raw 80 4 else 0
  let count := if lvl.length ≤ 3 then 1 else if peer then recFld raw 84 4 else lvlExt top
  { vd := vd, q := q, index := index, raw := raw, fail := none, cls := if hv then 3 else recFld raw 1 1, hv := hv,
    narrow := (k.map fun x => x.2.1.narrow).getD false, img := (k.map fun x => x.2.1.base).getD 0,
    entry := (k.map fun x => x.2.2.entry).getD (BitVec.ofNat 80 (recFld raw 16 10)), entries := (k.map fun x => x.2.2.entries).getD [], lvl := lvl,
    nv := demand raw ker 0 64 2 40 2, ns := demand raw ker 1 66 1 42 1, nt := demand raw ker 2 67 1 43 1,
    nsl := demand raw ker 3 68 2 44 2, nsp := demand raw ker 4 70 2 46 2, ntag := demand raw ker 5 72 1 48 1,
    nctr := demand raw ker 6 73 1 49 1, prod := demand raw ker 8 6 2 5 1, obj := (k.map fun x => x.1).getD 0, tx := [],
    bell := bell, depsMet := (List.range 4).map fun i => !recBit raw (152 + 8 * i) 4 31, started := false, ended := false,
    first := first, next := first, limit := first + count, resident := 0, home := none, leader := none, mirror := none,
    handLog := [], mirrorLog := [], units := [], lost := [], dieLost := false, stop := none }

/-- The declared groups of a block. -/
def Launch.ngr (l : Launch) : Nat := if l.lvl.length ≤ 2 then 1 else lvlExt (l.lvl.getD 2 0)

/-- The blocks of one top-level unit. -/
def Launch.unitBlocks (l : Launch) : Nat :=
  (List.range (l.lvl.length - 4)).foldl (fun a j => a * lvlExt (l.lvl.getD (3 + j) 0)) 1

/-- A context's banks at admission (R316, R317). -/
def Launch.banks (l : Launch) : Nat :=
  (8192 + (l.nt + l.nsl) * 1024 + l.ngr * (1024 + l.nv * 128 + 16 * ((l.nv + 63) / 64)) + 1023) / 1024

/-- Check 4 of R370: a demand out of range (R63), no such producer group, a block larger than a core. -/
def Launch.unfit (l : Launch) (args : Nat) : Bool :=
  256 < l.nv || 64 < l.ns || 64 < l.nt || 512 < l.nsl || 384 < l.nsp || 64 < l.ntag || 16 < l.nctr || 4096 < args ||
    l.ngr ≤ l.prod || (if l.hv then 16 < l.ngr || 128 < l.banks || 524288 < l.ngr * l.nv * 4 else 524288 < l.ngr * l.nv * 128)

/-! ## How many blocks and units fit (R16, R17) -/

/-- The slots of scheduler `k` that a block of a launch takes. -/
def Launch.slotsOn (l : Launch) (k : Nat) : Nat := ((List.range l.ngr).filter fun g => g % 4 = k).length

/-- How often a need goes into what there is; `cap` where nothing is needed. -/
def timesIn (cap have' need : Nat) : Nat := if need = 0 then cap else min cap (have' / need)

/-- The blocks of a launch that an empty core holds. -/
def Launch.perCore (l : Launch) : Nat :=
  let slots := if l.hv then 4 else 16
  let regs := if l.hv then 4 else 128
  let n0 := (List.range 4).foldl (fun a k => timesIn a slots (l.slotsOn k)) 16
  let n1 := timesIn (timesIn n0 64 l.nt) 512 l.nsl
  let n2 := timesIn (timesIn n1 64 l.ntag) 524288 (l.ngr * l.nv * regs)
  if l.hv then timesIn n2 128 l.banks else timesIn n2 384 l.nsp

/-- The instance of a domain that a core lies in. -/
def domOf (dom core : Nat) : Nat := if dom = 2 then core else if dom = 3 then core / 8 else if dom = 4 then core / 64 else 0

/-- The counts of units by instance, each instance named by one of its cores, gathered by the instances of a wider domain. -/
def gatherCounts (dom : Nat) (ns : List (Nat × Nat)) : List (Nat × Nat) :=
  ns.foldl (fun (acc : List (Nat × Nat)) e =>
    if acc.any fun a => domOf dom a.1 = domOf dom e.1 then
      acc.map fun a => if domOf dom a.1 = domOf dom e.1 then (a.1, a.2 + e.2) else a
    else acc ++ [e]) []

/-- The units of each gang level from 2 up that fit at once, from the blocks that fit on each core; the last entry is for the
top-level units. -/
def Launch.unitCounts (l : Launch) (blocks : List (Nat × Nat)) : List (List (Nat × Nat)) :=
  (List.range (l.lvl.length - 4)).foldl (fun (acc : List (List (Nat × Nat))) j =>
    let d := l.lvl.getD (3 + j) 0
    acc ++ [(gatherCounts (lvlDom d) (acc.getLast?.getD [])).map fun e => (e.1, e.2 / lvlExt d)]) [blocks]

/-- The cores of the package. -/
def allCores : List Nat := List.range 256

/-- A core on which the partition's owner blocks of a launch may always be placed (R17, R374, R377). -/
def State.guaranteed (s : State) (l : Launch) (c : Nat) : Bool :=
  let p := s.part (s.vd l.vd).partition
  p.gmask.getLsbD (c / 8) && (l.hv || l.cls = 0 || p.xres ≤ c % 8)

/-- The first gang level of which no unit can ever fit: check 5 of R370. -/
def State.gangUnfit (s : State) (l : Launch) : Option Nat :=
  let blocks := (allCores.filter fun c => s.guaranteed l c).map fun c => (c, l.perCore)
  if l.lvl.length < 4 then none
  else ((l.unitCounts blocks).findIdx? fun ns => ns.all fun e => e.2 = 0).map (· + 2)

/-! ## Acceptance (R370) -/

/-- The last block of a launch has retired (R25): it only waits for its completion record. -/
def Launch.retired (l : Launch) : Bool :=
  l.fail.isNone && l.started && (l.next = l.limit || l.dieLost) && l.units.isEmpty && l.resident = 0

/-- The owner launch of a harvest record is there: unretired, not harvest, of the same virtual device. -/
def State.ownerOk (s : State) (vd : Nat) (raw : List Byte) : Bool :=
  s.launches.any fun e => e.2.vd = vd && !e.2.hv && !e.2.ended && !e.2.retired && e.2.fail.isNone &&
    e.2.index.toNat = recFld raw 76 4

/-- The image that names the argument block (R369). -/
def argImage (raw ker : List Byte) : BitVec 512 :=
  let e : BitVec 512 := 0
  let e1 := TxEnt.put (TxEnt.put e 0 1 1) 1 4 (Fmt.code .uint8)
  TxEnt.put (TxEnt.put e1 12 20 (argBytes raw ker - 1)) 208 80 (recFld raw 88 10)

/-- The preload images as they are read: none where one cannot be read or fails R160. -/
def State.preload (s : State) (vd : Nat) (raw : List Byte) : Nat → Nat → State × Option (Tbl (BitVec 512))
  | 0, _ => (s, some [])
  | n + 1, i =>
    let r := s.devRead vd ((recFld raw 108 10 + 64 * i) % 2 ^ 80) 64
    match r.2 with
    | .error _ => (r.1, none)
    | .ok bs =>
      let img : BitVec 512 := BitVec.ofNat 512 (leNat bs)
      if (TxEnt.badCheck img).isSome then (r.1, none)
      else
        let y := r.1.preload vd raw n (i + 1)
        (y.1, y.2.map fun t => (recFld raw 30 1 + i, img) :: t)

/-- The images of a launch: the preload, then the argument image: check 7 of R370. -/
def State.images (s : State) (vd : Nat) (raw ker : List Byte) (preOk : Bool) : State × Option (Tbl (BitVec 512)) :=
  let r := s.preload vd raw (recFld raw 29 1) 0
  let arg := argImage raw ker
  let named := recFld raw 28 1 ≠ 255 && 0 < argBytes raw ker
  (r.1, if !preOk && 0 < recFld raw 29 1 then none
    else if named then
      if (TxEnt.badCheck arg).isSome then none else r.2.map fun t => Tbl.put t (recFld raw 28 1) arg
    else r.2)

/-- Checks 1 to 6 of R370: the status and the failing level. -/
def State.recordFail (s : State) (vd : Nat) (raw : List Byte) (k : Option (Nat × Obj × Kernel)) (l : Launch) :
    Option (Nat × Nat) :=
  if recBad raw l.hv then some (4, 0)
  else match k with
    | none => some (5, 0)
    | some (_, o, ker) =>
      match hierFail o.narrow (recFld raw 3 1) (recFld ker.raw 4 1) l.lvl (recLvl ker.raw 8 (recFld ker.raw 4 1)) with
      | some i => some (1, i)
      | none =>
        if l.unfit (argBytes raw ker.raw) then some (6, 0)
        else match s.gangUnfit l with
          | some i => some (2, i)
          | none => if l.hv && (!s.ownerOk vd raw || recFld raw 128 10 = 0) then some (7, 0) else none

/-- LAUNCH_ACCEPT: the record at the head of a queue is read and checked, takes the next launch index and binds its kernel; a
record that cannot be read sets `rdf` (R368). -/
def execLaunchAccept (vd q : Nat) (readOk preOk : Bool) (s : State) : Out :=
  let v := s.vd vd
  let x := v.queue q
  .next (if !v.runs || !x.en || x.stuck || x.head = x.tail then s
    else
      let r := s.devRead vd ((x.base.toNat + 256 * (x.head.toNat % x.entries)) % 2 ^ 80) 256
      match (if readOk then r.2 else .error 0) with
      | .error _ => (r.1.modQueue vd q fun y => { y with rdf := true, stuck := true }).raiseVd vd (.plain (some vd) 2 0x146 0)
      | .ok raw =>
        let k := v.kernelAt (BitVec.ofNat 80 (recFld raw 16 10))
        let bell := ((x.bells.find? fun b => 0 < x.named b.1).map (·.2)).getD s.nextId
        let l := mkLaunch vd q v.nextLaunch raw bell k
        let ker := (k.map fun y => y.2.2.raw).getD []
        let fail := r.1.recordFail vd raw k l
        let im : State × Option (Tbl (BitVec 512)) := match fail with
          | some _ => (r.1, some [])
          | none => r.1.images vd raw ker preOk
        let l' := { l with fail := if im.2.isNone then some (8, 0) else fail, tx := im.2.getD [] }
        let head := x.head + 1
        let s1 := im.1.modVd vd fun v => { v with
          nextLaunch := v.nextLaunch + 1
          queues := Tbl.put v.queues q { x with head := head, bells := x.bells.filter fun (b : W32 × Nat) => b.1 ≠ head } }
        { s1 with launches := s1.launches ++ [(s1.nextId, l')], nextId := s1.nextId + 1 })

/-! ## Dependences and start (R371, R372) -/

/-- The bytes of an event word. -/
def VDev.eventWord (v : VDev) (ix : Nat) : Nat := (v.cfg 16 10 + 4 * ix) % 2 ^ 80

def VDev.nev (v : VDev) : Nat := v.cfg 80 4

/-- A launch ends with EVENT_FAULT. -/
def Launch.eventFault (l : Launch) : Launch := { l with ended := true, stop := some (12, 0x144) }

/-- The word of a dependence as the dispatcher reads it: signals of the virtual device's own that are still withheld are in it
(R203). -/
def State.readSignal (s : State) (vd : Nat) (segs : List Seg) : Nat :=
  leNat (segs.flatMap fun g => match g with
    | .phys pa n key _ => if Machine.region pa = 0 then s.ownBytes vd pa n (s.hbmByte key) else s.readSeg vd 0 g
    | .slot _ _ => []
    | .none _ => [])

/-- One unmet dependence is read. -/
def State.pollOne (s : State) (key : Nat) (l : Launch) (readOk : Bool) (i : Nat) : State :=
  let v := s.vd l.vd
  let ix := recFld l.raw (152 + 8 * i) 4 % 2 ^ 31
  if l.depsMet.getD i true then s
  else if v.nev ≤ ix then s.modLaunch key Launch.eventFault
  else
    let r := s.stepSegs l.vd ⟨4, 0, .rd, .load, false, [0, 1]⟩ (v.eventWord ix) readOk
    match r.2 with
    | .error _ => r.1.modLaunch key Launch.eventFault
    | .ok segs =>
      if (BitVec.ofNat 32 (r.1.readSignal l.vd segs) - BitVec.ofNat 32 (recFld l.raw (156 + 8 * i) 4)).toNat < 2 ^ 31 then
        r.1.modLaunch key fun l => { l with depsMet := l.depsMet.set i true }
      else r.1

/-- The unmet dependences of a launch are read. -/
def State.poll (s : State) (key : Nat) (readOk : Bool) : State :=
  match Tbl.find s.launches key with
  | some l =>
    if (s.vd l.vd).runs && !l.ended then (List.range 4).foldl (fun (t : State) i => t.pollOne key l readOk i) s else s
  | none => s

/-- DEPENDENCE_POLL. -/
def execDependencePoll (vd launch : Nat) (readOk : Bool) (s : State) : Out :=
  .next (match Tbl.find s.launches launch with
    | some l => if l.vd = vd then s.poll launch readOk else s
    | none => s)

/-- The dependences of every launch of a virtual device are read again. -/
def State.pollAll (s : State) (vd : Nat) : State :=
  (s.launches.filter fun e => e.2.vd = vd).foldl (fun (t : State) e => t.poll e.1 true) s

/-- EVPOKE: the host asks for the dependences to be read again. -/
def execEvpoke (vd : Nat) (s : State) : Out := .next (s.pollAll vd)

/-- The launch may start, or end if it failed: its dependences are met, and every earlier record of its queue has started or
ended (R370, R372). -/
def State.mayStart (s : State) (key : Nat) (l : Launch) : Bool :=
  l.depsMet.all (fun d => d) &&
    s.launches.all fun e => !(e.2.vd = l.vd && e.2.q = l.q && e.1 < key) || e.2.started || e.2.ended

/-! ## What waits to be placed (R373) -/

/-- The launch's blocks are handed out in batches (R28). -/
def Launch.spans (l : Launch) : Bool := 4 ≤ l.lvl.length && 5 ≤ lvlDom (l.lvl.getLast?.getD 0)

/-- A launch has a unit waiting (R373). -/
def State.waiting (s : State) (key : Nat) (l : Launch) : Bool :=
  l.fail.isNone && !l.ended && (l.started || s.mayStart key l) &&
    (!l.units.isEmpty || (l.next < l.limit && !l.dieLost))

/-- The counts of R373: a class that has nothing waiting starts anew. -/
def State.settleServed (s : State) (vd : Nat) : State :=
  let some' := fun (cls : Nat) => s.launches.any fun e => e.2.vd = vd && e.2.cls = cls && s.waiting e.1 e.2
  s.modVd vd fun v => { v with served := v.served.filter fun (e : Nat × Nat) => some' e.1 }

/-! ## The end of a launch (R375, R376) -/

/-- The launch has ended, and its completion record may be written. -/
def State.launchOver (s : State) (key : Nat) (l : Launch) : Bool :=
  if l.ended then l.resident = 0
  else if l.fail.isSome then s.mayStart key l
  else (l.next = l.limit || l.dieLost) && l.units.isEmpty && l.resident = 0 && (l.started || s.mayStart key l)

/-- The status of a launch, the failing level and the code (R375). -/
def Launch.status (l : Launch) : Nat × Nat × Nat :=
  match l.stop, l.fail with
  | some (st, code), _ => (st, 0, code.toNat)
  | none, some (st, lvl) => (st, if st = 1 || st = 2 then lvl else 0, 0)
  | none, none => (if l.lost.isEmpty && !l.dieLost then 0 else 3, 0, 0)

/-- The completion record (R375). -/
def Launch.record (l : Launch) : List Byte :=
  let st := l.status
  let five := (List.range 5).flatMap fun i => match l.lost[i]? with
    | some r => leBytes 4 r.1 ++ leBytes 4 r.2
    | none => List.replicate 8 0
  leBytes 1 st.1 ++ leBytes 1 st.2.1 ++ leBytes 1 (min 5 l.lost.length) ++ leBytes 1 (if 5 < l.lost.length then 1 else 0) ++
    leBytes 4 l.index.toNat ++ leBytes 8 (recFld l.raw 8 8) ++ leBytes 2 st.2.2 ++ List.replicate 6 0 ++ five

/-- The record's step: done, withheld in SLICE mode (R358), or failed. -/
def State.stepRecord (s : State) (vd : Nat) (ea : Nat) (bs : List Byte) (ok : Bool) : State × Option Nat :=
  let r := s.stepSegs vd ⟨64, 0, .wr, .store, false, [0, 1]⟩ ea ok
  match r.2 with
  | .error code => (r.1, some code)
  | .ok segs =>
    if (s.vd vd).msmode = 2 then
      let held := segs.foldl (fun (x : List Effect × List Byte) g => match g with
        | .phys pa n key _ => (x.1 ++ [.bytes pa key (x.2.take n)], x.2.drop n)
        | _ => x) ([], bs)
      (r.1.modVd vd fun v => { v with withheld := v.withheld ++ held.1 }, none)
    else (r.1.writeSegs vd segs bs, none)

/-- The signal's step. -/
def State.stepSignal (s : State) (l : Launch) (ok : Bool) : State × Option Nat :=
  let v := s.vd l.vd
  let ix := recFld l.raw 184 4 % 2 ^ 31
  let inc := recFld l.raw 188 4
  if !recBit l.raw 184 4 31 then (s, none)
  else if v.nev ≤ ix then (s, some 0x144)
  else
    let r := s.stepSegs l.vd ⟨4, 4, .atomic, .atomic, false, [0, 1]⟩ (v.eventWord ix) ok
    match r.2 with
    | .error code => (r.1, some code)
    | .ok segs =>
      if v.msmode = 2 then
        let held := segs.flatMap fun g => match g with
          | .phys pa _ key _ => [Effect.add pa key (BitVec.ofNat 32 inc)]
          | _ => []
        (r.1.modVd l.vd fun v => { v with withheld := v.withheld ++ held }, none)
      else
        let old := leNat (segs.flatMap fun g => r.1.readSeg l.vd 0 g)
        (r.1.writeSegs l.vd segs (leBytes 4 (old + inc)), none)

/-- CMPLF and CMPLS take a failure (R376). -/
def VDev.cmplFail (v : VDev) (index : W32) (rec' sig : Option Nat) : VDev :=
  { v with
    cmplf := index, cmplv := true, cmplRec := rec'.isSome, cmplSig := sig.isSome
    cmplLost := if v.cmplv then min 255 (v.cmplLost + 1) else v.cmplLost
    cmplCode := BitVec.ofNat 9 ((rec'.orElse fun _ => sig).getD 0) }

/-- The ranges that a launch has lost stay readable (R375). -/
def State.keepLost (s : State) (l : Launch) : State :=
  if l.lost.isEmpty then s else s.modVd l.vd fun v => { v with handOut := Tbl.put v.handOut l.index.toNat l.lost }

/-- THE COMPLETION OF A LAUNCH: its writes are performed, then its record, its signal and its interrupt (R375); failed steps are
reported (R376). The launch is gone, but a rollback brings it back. -/
def State.complete' (s : State) (key : Nat) (recOk sigOk : Bool) : State :=
  match Tbl.find s.launches key with
  | none => s
  | some l =>
    let s1 := State.performSent (fun a => a.launch = key) s.openParts s
    let w := s1.stepRecord l.vd (recFld l.raw 98 10) l.record recOk
    let g := w.1.stepSignal l sigOk
    let s2 := if recBit l.raw 2 1 2 then g.1.raiseVd l.vd (.plain (some l.vd) 0 0 0) else g.1
    let s3 := if w.2.isSome || g.2.isSome then
        (s2.modVd l.vd fun v => v.cmplFail l.index w.2 g.2).raiseVd l.vd (.plain (some l.vd) 2 0x145 0)
      else s2
    let kept := if (s3.vd l.vd).msmode = 0 then s3 else s3.modVd l.vd fun v => { v with gone := v.gone ++ [(key, l)] }
    let s4 := { kept.keepLost l with launches := Tbl.drop s3.launches key, free := s3.free + 1 }
    if recBit l.raw 184 4 31 then s4.pollAll l.vd else s4

/-- LAUNCH_COMPLETE: a launch that has ended is completed. -/
def execLaunchComplete (vd launch : Nat) (recOk sigOk : Bool) (s : State) : Out :=
  .next (match Tbl.find s.launches launch with
    | some l => if l.vd = vd && (s.vd vd).runs && s.launchOver launch l then s.complete' launch recOk sigOk else s
    | none => s)

/-! ## Abort (R382) -/

/-- The halt code of a halted group of a launch. -/
def State.haltCode (s : State) (key : Nat) : Option (BitVec 9) :=
  s.groups.findSome? fun e => match Tbl.find s.blocks e.2.blk with
    | some b => if b.launch = key then e.2.halt else none
    | none => none

/-- A milestone's image no longer holds what a launch had in it. -/
def Snapshot.forget (p : Snapshot) (key : Nat) (l : Launch) : Snapshot :=
  let gone := fun (blk : Nat) => match Tbl.find p.blocks blk with
    | some b => b.launch = key
    | none => false
  let dead := fun (gid : Nat) => match Tbl.find p.groups gid with
    | some g => gone g.blk
    | none => false
  let cut := fun (qs : List EngCmd) => qs.filter fun q => !gone q.blk
  { p with
    launches := (Tbl.drop p.launches key) ++ (if (Tbl.find p.launches key).isSome then [(key, l)] else [])
    blocks := p.blocks.filter fun (e : Nat × Block) => e.2.launch ≠ key
    groups := p.groups.filter fun (e : Nat × Group) => !gone e.2.blk
    results := p.results.filter fun (r : Pending) => !dead r.gid
    waits := p.waits.filter fun (w : PageWait) => match w with
      | .fetch _ _ gid _ => !dead gid
      | .lanes _ a _ _ _ _ _ => a.launch ≠ key
    accesses := p.accesses.filter fun (a : Access) => a.launch ≠ key
    cores := p.cores.map fun (e : Nat × CoreSnap) => (e.1, { e.2 with
      copyQ := cut e.2.copyQ, follow := cut e.2.follow, matQ := cut e.2.matQ
      bins := e.2.bins.filter fun (b : Bin) => !gone b.blk, tape := e.2.tape.filter fun (t : TapeLine) => !gone t.blk })
    collQ := p.collQ.map fun (e : Nat × List EngCmd) => (e.1, cut e.2) }

/-- A launch is ended from outside: its sent stores are performed, its blocks are discarded, and it waits for its completion. -/
def State.endLaunch (s : State) (key : Nat) (code : BitVec 9) : State :=
  match Tbl.find s.launches key with
  | none => s
  | some l =>
    let stop : Nat × BitVec 9 := match s.haltCode key with
      | some c => (9, c)
      | none => (10, code)
    let s1 := State.performSent (fun a => a.launch = key) s.openParts s
    let s2 := (s1.blocks.filter fun e => e.2.launch = key).foldl
      (fun (t : State) e => (t.discardBlock e.1).retireBlock e.1) s1
    let s3 := s2.modLaunch key fun l => { l with ended := true, stop := some stop, units := [], next := l.limit, resident := 0 }
    let l' := (Tbl.find s3.launches key).getD l
    (s3.modVd l.vd fun v => { v with snap := v.snap.map fun p => p.forget key l' }).settleServed l.vd

/-- ABORT: system software ends one launch, named by its index. -/
def execAbort (vd launch : Nat) (s : State) : Out :=
  .next (match s.launches.find? fun e => e.2.vd = vd && e.2.index.toNat = launch && !e.2.ended with
    | some e => s.endLaunch e.1 0x142
    | none => s)

end Sys2Proof.Machine
end

