-- ==== Sys2Proof/Machine/Place.lean ====
section
/-! DEFINITION. The dispatcher: which launch is served (R373), where its blocks stand (R17, R88, R318, R374), batches of a launch
that spans dies (R28, R29), and lost dies (R30). -/

namespace Sys2Proof.Machine

/-! ## Room on a core (R88, R318) -/

/-- The free slots of scheduler `k` in which blocks of a launch stand. -/
def State.slotsFor (s : State) (l : Launch) (core k : Nat) : Nat :=
  if l.hv then (s.openSlots core k 20 4).length else (s.openSlots core k 0 16).length

/-- What the blocks on a core hold of a resource, those of harvest launches among them or not. -/
def State.heldBy (s : State) (core : Nat) (all : Bool) (f : Block → Nat) : Nat :=
  s.heldOn core fun b => if all || !b.harvest then f b else 0

/-- Physical slots that harvest blocks still hold after their owners have retired (R231). -/
def State.orphanSlots (s : State) (core : Nat) : Nat :=
  s.heldOn core (fun b => if b.harvest then ((List.range b.nsp).filter fun k => !(b.ent k).absent).length else 0) -
    s.heldOn core fun b => if b.harvest then 0 else ((List.range b.nsp).filter fun k => (b.ent k).lentTo.isSome).length

/-- The blocks of an owner launch that a core has room for; `all`: beside the harvest contexts that stand there, otherwise as if
they were gone. -/
def State.ownerRoom (s : State) (l : Launch) (core : Nat) (all : Bool) : Nat :=
  let left := fun (cap : Nat) (f : Block → Nat) => cap - s.heldBy core all f
  let free := s.unreserved core
  let regs := if all then min free (free + s.lendable core 0 - s.harvestUse core) else free
  let n0 := (List.range 4).foldl (fun a k => timesIn a (s.slotsFor l core k) (l.slotsOn k)) 16
  let n1 := timesIn (timesIn n0 (left 64 (·.nt)) l.nt) (left 512 (·.nsl)) l.nsl
  let n2 := timesIn (timesIn n1 (left 64 (·.ntag)) l.ntag) regs (l.ngr * l.nv * 128)
  timesIn n2 (384 - s.heldBy core false (·.nsp) - (if all then s.orphanSlots core else 0)) l.nsp

/-- The blocks of a harvest launch that a core can take in at once (R318). -/
def State.admitRoom (s : State) (l : Launch) (core : Nat) : Nat :=
  let left := fun (cap : Nat) (f : Block → Nat) => cap - s.heldBy core true f
  let regs := s.unreserved core + s.lendable core ((s.core core).keep * 128) - s.harvestUse core
  let n0 := (List.range 4).foldl (fun a k => timesIn a (s.slotsFor l core k) (l.slotsOn k)) 16
  let n1 := timesIn (timesIn n0 (left 64 (·.nt)) l.nt) (left 512 (·.nsl)) l.nsl
  let n2 := timesIn (timesIn n1 (left 64 (·.ntag)) l.ntag) regs (l.ngr * l.nv * 4)
  timesIn n2 (s.freeBanks core) l.banks

/-- The cores on which blocks of a launch may be placed now: for an owner launch guaranteed clusters and the partition's own
margin that is not lent (R17, R374, R378); for a harvest launch those of R318 and R326, but a gang unit of it stands on guaranteed
clusters alone (R17). -/
def State.mayHost (s : State) (l : Launch) (c : Nat) : Bool :=
  let p := s.part (s.vd l.vd).partition
  (s.die (c / 64)).live && (match l.home with
    | some h => domOf (lvlDom (l.lvl.getLast?.getD 0)) c = h
    | none => true) &&
    if l.hv then s.harvestCore l.vd c && (l.lvl.length < 4 || p.gmask.getLsbD (c / 8)) && s.beside l.vd c l.owner l.anyCore
    else s.guaranteed l c || (p.mmask.getLsbD (c / 8) && (Tbl.find s.lends (c / 8)).isNone)

/-- The blocks of a launch that a core takes now. -/
def State.blockRoom (s : State) (l : Launch) (c : Nat) : Nat :=
  if s.mayHost l c then (if l.hv then s.admitRoom l c else s.ownerRoom l c false) else 0

/-- The top-level units that fit now on the cores that `sel` picks. -/
def State.unitsNow (s : State) (l : Launch) (sel : Nat → Bool) : Nat :=
  let blocks := (allCores.filter sel).map fun c => (c, s.blockRoom l c)
  ((l.unitCounts blocks).getLast?.getD []).foldl (fun a e => a + e.2) 0

/-- The domain of a top-level unit. -/
def Launch.unitDom (l : Launch) : Nat := if l.lvl.length < 5 then 2 else lvlDom (l.lvl.getD (l.lvl.length - 2) 0)

/-- The cores of a die, or all where a unit spans dies. -/
def Launch.onDie (l : Launch) (d c : Nat) : Bool := 5 ≤ l.unitDom || c / 64 = d

/-- The next top-level unit of a launch and the die that places it (R17, R29): none where nothing is waiting. -/
def Launch.nextUnit (l : Launch) (d : Nat) : Option Nat :=
  if l.spans then (l.units.find? fun u => u.1 = d).map fun u => u.2.1
  else if l.next < l.limit then some l.next else none

/-- A launch has a unit waiting that fits now. -/
def State.placeable (s : State) (key : Nat) (l : Launch) : Bool :=
  s.waiting key l &&
    if l.spans then l.units.any fun u => 0 < s.unitsNow l (l.onDie u.1)
    else 0 < s.unitsNow l fun _ => true

/-! ## The choice among launches (R373) -/

/-- The classes: Express, Standard, Bulk, Harvest. -/
def VDev.weight (v : VDev) (cls : Nat) : Nat := v.cfg (95 + cls) 1

/-- A class comes before another by (c + 1) / w; ties go to the lower number. -/
def VDev.before (v : VDev) (a b : Nat) : Bool :=
  let x := (Tbl.getD v.served a 0 + 1) * v.weight b
  let y := (Tbl.getD v.served b 0 + 1) * v.weight a
  x < y || (x = y && a < b)

/-- A launch is served before another: Express by doorbell, else by class, then by the queue rotation, then by age. -/
def VDev.serves (v : VDev) (a b : Nat × Launch) : Bool :=
  let turn := fun (l : Launch) => (l.q + 63 - Tbl.getD v.rot l.cls 63) % 64
  if a.2.cls = 0 || b.2.cls = 0 then
    if a.2.cls = b.2.cls then a.2.bell < b.2.bell || (a.2.bell = b.2.bell && a.1 < b.1) else a.2.cls = 0
  else if a.2.cls ≠ b.2.cls then v.before a.2.cls b.2.cls
  else turn a.2 < turn b.2 || (turn a.2 = turn b.2 && a.1 < b.1)

/-- A launch stands in the order of R373: it has a unit waiting, which a harvest launch has only where it is admitted (R318). -/
def State.contends (s : State) (key : Nat) (l : Launch) : Bool := s.waiting key l && (!l.hv || s.placeable key l)

/-- The launch is the one that the dispatcher serves now: its unit fits, and no other launch comes before it, be it that the other
waits for capacity. -/
def State.isServed (s : State) (key : Nat) (l : Launch) : Bool :=
  s.placeable key l && s.launches.all fun e =>
    e.1 = key || e.2.vd ≠ l.vd || !s.contends e.1 e.2 || !(s.vd l.vd).serves e (key, l)

/-! ## Placing a unit (R17, R19, R20, R88, R161, R227) -/

/-- The blocks of each gang unit lie in one instance of its level's domain. -/
def Launch.gangOk (l : Launch) (cores : List Nat) : Bool :=
  (List.range (l.lvl.length - 4)).all fun j =>
    let size := (List.range (j + 1)).foldl (fun a k => a * lvlExt (l.lvl.getD (3 + k) 0)) 1
    let dom := lvlDom (l.lvl.getD (3 + j) 0)
    cores.zipIdx.all fun x => domOf dom x.1 = domOf dom (cores.getD (x.2 / size * size) 0)

/-- What storage holds that the dispatcher has just bound: bytes that nothing determines. -/
def freeBytes (seed n : Nat) : Memory :=
  (List.range n).filterMap fun i => if Config.freeByte seed i = 0 then none else some (i, Config.freeByte seed i)

/-- A declared group of a block (R19, R70, R116). -/
def Launch.group (l : Launch) (blk core : Nat) (idx : W32) (at' : Nat × Nat) (g gid now : Nat) : Group :=
  let w := if l.narrow then 16 else 32
  let full : LaneMask := if l.narrow then 0xFFFF else 0xFFFFFFFF
  let ltid : Vector W64 32 := Vector.ofFn fun i =>
    if i.val < w then BitVec.ofNat 64 (idx.toNat * 2 ^ 32 + g * w + i.val) else 0
  Group.fresh blk core at'.1 at'.2 l.narrow l.img ltid full (Path.fresh l.entry full (Config.creationBase gid 14)) now

/-- Barrier 0 at block start (R110). -/
def Barrier.first (n : Nat) : Barrier := { init := true, count := n, arrived := 0, phase := false, eng := 0 }

/-- A block as it becomes resident. -/
def Launch.block (l : Launch) (key core seed id : Nat) (idx : W32) (held : List (Nat × Nat)) : Block :=
  { launch := key, vd := l.vd, idx := idx, loc := .core core, harvest := l.hv, narrow := l.narrow, ngr := l.ngr, held := held,
    nv := l.nv, ns := l.ns, nt := l.nt, nsl := l.nsl, nsp := l.nsp, ntag := l.ntag, nctr := l.nctr, prod := l.prod,
    img := l.img, entry := l.entry, entries := l.entries, lvl := l.lvl, hand := BitVec.ofNat 80 (recFld l.raw 138 10),
    pool := BitVec.ofNat 80 (recFld l.raw 118 10), tiles := freeBytes seed (1024 * l.nt),
    slabs := [], slots := if l.hv then [] else freeBytes (seed + 2) (1024 * l.nsp),
    tagTab := [], tags := [], ctrs := [], bars := [(0, Barrier.first (l.ngr * if l.narrow then 16 else 32))], tx := l.tx,
    cb := [], prog := none, sticky := 0, serials := 0, parks := 0, moved := false, parked := false, parkAt := 0,
    parkWhy := .never, home := core, admitted := id, came := id, batch := [], bins := [], lines := [], parts := l.ngr, image := [], imageAt := 0,
    noted := [] }

/-- One block of a unit stands on a core; none where it does not fit. -/
def State.placeBlock (s : State) (key : Nat) (l : Launch) (core idx : Nat) : Option State :=
  if s.blockRoom l core = 0 then none
  else
    match s.takeSlots core (if l.hv then 20 else 0) (if l.hv then 4 else 16) ((List.range l.ngr).map (· % 4)) [] with
    | none => none
    | some held =>
      let id := s.nextId
      let ix : W32 := BitVec.ofNat 32 idx
      let gs := held.zipIdx.map fun (x : (Nat × Nat) × Nat) =>
        (id + 1 + x.2, l.group id core ix x.1 x.2 (id + 1 + x.2) s.cycle)
      some { s with blocks := s.blocks ++ [(id, l.block key core s.free id ix held)], groups := s.groups ++ gs,
                    nextId := id + 1 + l.ngr, free := s.free + 3 }

/-- The blocks of a unit, in order. -/
def State.placeAll (key : Nat) (l : Launch) : List (Nat × Nat) → State → Option State
  | [], s => some s
  | (core, idx) :: rest, s => (s.placeBlock key l core idx).bind fun t => State.placeAll key l rest t

/-- A harvest context holds a physical slot of its own: one that no owner on its core lends to it any more (R231, R320). -/
def State.holdsSlot (s : State) (core blk : Nat) (b : Block) : Bool :=
  (List.range b.nsp).any fun k => !(b.ent k).absent && !(s.blocks.any fun e => !e.2.harvest && e.2.loc = .core core &&
    (List.range e.2.nsp).any fun j => (e.2.ent j).lentTo = some (blk, k))

/-- A harvest context holds something that an owner block lacks on a core: vector capacity, tiles, slabs, tags or physical slots
(R320). -/
def State.holdsNeed (s : State) (l : Launch) (core blk : Nat) : Bool :=
  match Tbl.find s.blocks blk with
  | none => false
  | some b =>
    let short := fun (cap : Nat) (f : Block → Nat) (need : Nat) => cap < s.heldBy core true f + need
    let free := s.unreserved core
    let slots := s.heldBy core false (·.nsp) + s.orphanSlots core
    (min free (free + s.lendable core 0 - s.harvestUse core) < l.ngr * l.nv * 128 && (s.byteHolders core).contains blk) ||
      (short 64 (·.nt) l.nt && 0 < b.nt) || (short 512 (·.nsl) l.nsl && 0 < b.nsl) || (short 64 (·.ntag) l.ntag && 0 < b.ntag) ||
      (384 < slots + l.nsp && s.holdsSlot core blk b)

/-- Harvest contexts that hold what an owner block needs on a core are revoked, the latest admitted first, until it has room
(R320); all of them where an Express block is dispatched to a core with `xrev` (R325). -/
def State.makeRoom (s : State) (l : Launch) (core : Nat) : State :=
  if l.hv then s
  else if l.cls = 0 && (s.core core).xrev then s.revokeAll core .express
  else (s.contexts core).foldl (fun (t : State) b =>
    if 0 < t.ownerRoom l core true || !t.holdsNeed l core b then t else t.revoke core b .need) s

/-- Room is made for each block of an owner unit before any of them stands. -/
def State.placeOwner (key : Nat) (l : Launch) : List (Nat × Nat) → State → Option State
  | [], s => some s
  | (core, idx) :: rest, s =>
    ((s.makeRoom l core).placeBlock key l core idx).bind fun t => State.placeOwner key l rest t

/-- A batch's unit has been made resident. -/
def takeUnit (d : Nat) : List (Nat × Nat × Nat) → List (Nat × Nat × Nat)
  | [] => []
  | (x, first, n) :: rest =>
    if x = d then (if n ≤ 1 then rest else (x, first + 1, n - 1) :: rest) else (x, first, n) :: takeUnit d rest

/-- The launch after a unit of it has become resident. -/
def Launch.placed (l : Launch) (d core : Nat) : Launch :=
  { l with
    started := true
    resident := l.resident + l.unitBlocks
    next := if l.spans then l.next else l.next + 1
    units := if l.spans then takeUnit d l.units else l.units
    home := if l.spans || l.lvl.length < 4 then l.home else some (domOf (lvlDom (l.lvl.getLast?.getD 0)) core) }

/-- THE DISPATCH of the next top-level unit of a launch on given cores, one for each of its blocks. -/
def State.dispatch (s : State) (vd key : Nat) (hv : Bool) (cores : List Nat) : State :=
  match Tbl.find s.launches key with
  | none => s
  | some l =>
    let d := cores.headD 0 / 64
    let s1 := s.settleServed vd
    match l.nextUnit d with
    | none => s
    | some u =>
      if l.vd ≠ vd || l.hv ≠ hv || !(s.vd vd).runs || cores.length ≠ l.unitBlocks || !l.gangOk cores ||
          !(cores.all fun c => c < 256 && l.onDie d c) || !s1.isServed key l then s
      else
        let work := cores.zipIdx.map fun x => (x.1, u * l.unitBlocks + x.2)
        let l1 := l.placed d (cores.headD 0)
        match (if hv then State.placeAll key l1 work s1 else State.placeOwner key l1 work s1) with
        | none => s
        | some t =>
          let t1 := (t.modLaunch key fun x => { l1 with lost := x.lost, stop := x.stop }).modVd vd fun v => { v with
            served := if l.cls = 0 then v.served else Tbl.put v.served l.cls (Tbl.getD v.served l.cls 0 + l.unitBlocks)
            rot := Tbl.put v.rot l.cls l.q }
          let t2 := t1.settleServed vd
          if hv then cores.foldl (fun (x : State) c => x.bindSlots c) t2 else t2

/-- BLOCK_DISPATCH: the next top-level unit of an owner launch becomes resident. -/
def execBlockDispatch (vd launch : Nat) (cores : List Nat) (s : State) : Out := .next (s.dispatch vd launch false cores)

/-- HARVEST_ADMIT: the next top-level unit of a harvest launch is admitted (R318), and slots lent to it are bound (R415). -/
def execHarvestAdmit (vd launch : Nat) (cores : List Nat) (s : State) : Out := .next (s.dispatch vd launch true cores)

/-! ## Launches that span dies (R28 to R31) -/

/-- A die that can lead: live, with a cluster of the partition. -/
def State.canLead (s : State) (vd d : Nat) : Bool :=
  let p := s.part (s.vd vd).partition
  (s.die d).live && (List.range 8).any fun c => p.gmask.getLsbD (8 * d + c) || p.mmask.getLsbD (8 * d + c)

/-- The next live die after a die, other than it. -/
def State.nextDie (s : State) (d : Nat) : Option Nat :=
  ([1, 2, 3].map fun k => (d + k) % 4).find? fun x => (s.die x).live

/-- LEADER_ELECTION: at the start of a launch that spans dies (R28). -/
def State.elect (s : State) (l : Launch) : Launch :=
  if l.leader.isSome then l
  else match (List.range 4).find? fun d => s.canLead l.vd d with
    | some d => { l with leader := some d, mirror := s.nextDie d }
    | none => l

/-- BATCH_REQUEST: a die that has made its batch resident asks for `n` units and is granted them, once both logs hold the
entry (R29). -/
def execBatchRequest (vd launch die n : Nat) (s : State) : Out :=
  .next (match Tbl.find s.launches launch with
    | none => s
    | some l0 =>
      let l := s.elect l0
      if l.vd ≠ vd || !l.spans || l.fail.isSome || l.ended || l.dieLost || !(s.vd vd).runs || !(l.started || s.mayStart launch l) ||
          4 ≤ die || !(s.die die).live || !(l.leader.any fun d => (s.die d).live) || !(l.mirror.all fun d => (s.die d).live) || l.units.any (fun u => u.1 = die) || n < 1 || 16 < n ||
          l.limit < l.next + n || s.unitsNow l (l.onDie die) < n || (l.mirror.isNone && l.leader ≠ some die) then s
      else
        let e := (die, l.next, n)
        s.modLaunch launch fun _ => { l with
          next := l.next + n, units := l.units ++ [e], handLog := l.handLog ++ [e]
          mirrorLog := if l.mirror.isSome then l.handLog ++ [e] else [] })

/-- The ranges that a lost die was granted. -/
def rangesOf (d : Nat) (log : List (Nat × Nat × Nat)) : List (Nat × Nat) := (log.filter fun e => e.1 = d).map (·.2)

/-- The highest index in a log, plus one. -/
def logEnd (first : Nat) (log : List (Nat × Nat × Nat)) : Nat := log.foldl (fun a e => max a (e.2.1 + e.2.2)) first

/-- What was granted to a lost die is lost (R30). -/
def Launch.lostDie (l : Launch) (d : Nat) : Launch :=
  { l with lost := l.lost ++ rangesOf d l.handLog, units := l.units.filter fun (u : Nat × Nat × Nat) => u.1 ≠ d }

/-- No copy of the hand-out log survives: no further index is granted (R30). -/
def Launch.endGrants (l : Launch) : Launch :=
  { l with
    leader := none, mirror := none, dieLost := true
    lost := l.lost ++ if l.next < l.limit then [(l.next, l.limit - l.next)] else [] }

/-- The leader and the mirror of a launch that spans dies once losses have been detected: a live mirror leads where the leader is
lost, and another mirror takes a full copy of the log where the mirror is lost (R30). -/
def State.lostLeader (s : State) (l : Launch) : Launch :=
  let alive := fun (d : Nat) => (s.die d).live
  match l.leader with
  | none => l
  | some x =>
    if alive x then
      if l.mirror.all alive then l
      else match s.nextDie x with
        | some m => { l with mirror := some m, mirrorLog := l.handLog }
        | none => { l with mirror := none, mirrorLog := [] }
    else match l.mirror.filter alive with
      | none => l.endGrants
      | some m =>
        let next := s.nextDie m
        { l with leader := some m, mirror := next, handLog := l.mirrorLog, next := logEnd l.first l.mirrorLog
                 mirrorLog := if next.isSome then l.mirrorLog else [] }

/-- A block lies on a die. -/
def Block.onDie (b : Block) (d : Nat) : Bool :=
  match b.loc with
  | .core n => n / 64 = d
  | .layby n => n / 64 = d
  | .slice _ n => n / 64 = d
  | .memory => false

/-- The die that a launch is confined to, once one of its units stands there. -/
def Launch.homeDie (l : Launch) : Option Nat :=
  l.home.map fun h => if lvlDom (l.lvl.getLast?.getD 0) = 3 then h / 8 else h

/-- A launch confined to a die that is lost: its units are lost with the dispatcher that hands them out. -/
def State.lostConfined (s : State) (d key : Nat) (l : Launch) : Launch :=
  let there := match l.homeDie with
    | some h => h = d
    | none => s.blocks.any fun e => e.2.launch = key && e.2.onDie d
  if l.started && !l.ended && !l.retired && l.fail.isNone && there then
    { l with dieLost := true, next := l.limit, lost := l.lost ++ [(l.first, l.limit - l.first)] }
  else l

/-- DIE_LOSS: what was granted to the die is lost, the work on it is gone, and system software is told (R30, R338); the elections
that the loss asks for come with the end of the cycle, so that dies that are lost in one cycle are lost together. -/
def execDieLoss (die : Nat) (s : State) : Out :=
  .next (if 4 ≤ die || !(s.die die).live then s
    else
      let s1 := s.modDie die fun d => { d with live := false }
      let s2 := { s1 with launches := s1.launches.map fun (e : Nat × Launch) =>
        (e.1, if e.2.spans then e.2.lostDie die else s1.lostConfined die e.1 e.2) }
      let s3 := (s2.blocks.filter fun e => e.2.onDie die).foldl
        (fun (t : State) e => (t.discardBlock e.1).retireBlock e.1) s2
      (s3.vds.foldl (fun (t : State) e => t.settleServed e.1) s3).fabricEvent none)

/-- The elections of a cycle in which dies have been lost (R30). -/
def State.electAgain (s : State) : State :=
  if s.dies.all fun e => e.2.live then s
  else { s with launches := s.launches.map fun (e : Nat × Launch) => (e.1, s.lostLeader e.2) }

end Sys2Proof.Machine
end

