-- ==== Sys2Proof/Machine/Device.lean ====
section
/-! DEFINITION. Starting and resetting virtual devices (R365, R366, R382), key slots (R381), partitions (R377 to R379), Tollhouse
sessions (R380). -/

namespace Sys2Proof.Machine

/-! ## Key slots (R179, R381) -/

/-- An access in flight uses a key slot. -/
def State.keyUsed (s : State) (slot : Nat) : Bool :=
  s.accesses.any fun a => a.parts.any fun p => !p.done && (match p.seg with
    | .phys _ _ k _ => k = slot
    | _ => false)

/-- A key slot is released and its key zeroised: what was written under it is no slot's data any more. -/
def State.dropKey (s : State) (slot : Nat) : State :=
  let off := fun (g : LogLine) => if g.slot = some slot then { g with slot := none } else g
  { s with
    keys := Tbl.drop s.keys slot
    lineSlot := s.lineSlot.filter fun (e : Nat × Nat) => e.2 ≠ slot
    vds := s.vds.map fun (e : Nat × VDev) => (e.1, { e.2 with log := e.2.log.map off }) }

/-- KEY_RELEASE: once every access that used the slot has been performed. -/
def execKeyRelease (slot : Nat) (s : State) : Out :=
  .next (if (Tbl.find s.keys slot).isSome && !s.keyUsed slot then s.dropKey slot else s)

/-! ## Tollhouse sessions (R380, R381) -/

/-- The number of an SPDM request among those of R380. -/
def SpdmReq.num : SpdmReq → Nat
  | .getVersion => 0
  | .getCapabilities => 1
  | .negotiateAlgorithms => 2
  | .getDigests => 3
  | .getCertificate => 4
  | .challenge => 5
  | .getMeasurements => 6
  | .keyExchange => 7
  | .finish => 8
  | .endSession => 9

/-- What measurement block 4 measures: the record of a partition with configuration blocks of virtual devices. -/
def State.block4 (s : State) (part : Nat) (configs : List Byte) : List Byte :=
  let p := s.part part
  leBytes 4 p.gmask.toNat ++ leBytes 4 p.mmask.toNat ++ leBytes 4 p.lend.toNat ++
    leBytes 4 (p.xres * 256 + if p.arec then 1 else 0) ++ leBytes 4 p.share ++ configs

/-- The configuration blocks of a partition's virtual devices that have been written, in the order of their numbers. -/
def State.configsOf (s : State) (part : Nat) : List Byte :=
  (List.range 256).flatMap fun k =>
    let v := s.vd k
    if v.partition = part && v.config.any (fun x => x ≠ 0) then v.config else []

/-- The measurement blocks that a request on a function returns. -/
def State.measures (s : State) (fn : Nat) : List Byte :=
  let fw := [1, 2, 3].flatMap fun k => Config.tollhouseBytes 16 k
  if fn = 0 then
    fw ++ (List.range 32).flatMap fun p => Config.tollhouseBytes 17 (leNat (s.block4 p (s.configsOf p)))
  else
    let v := s.vd (fn - 1)
    fw ++ Config.tollhouseBytes 17 (leNat (s.block4 v.partition v.config)) ++
      Config.tollhouseBytes 18 (leNat (v.ranges.flatMap fun e => e.2.root)) ++
      Config.tollhouseBytes 19 (leNat ((v.signKeys.flatMap fun e => leBytes 8 e.1 ++ e.2) ++ v.translators.flatten))

/-- SPDM_REQUEST: the Tollhouse answers a request on PF 0 or on a VF. FINISH opens a session on the function after
a KEY_EXCHANGE, END_SESSION ends it. -/
def execSpdmRequest (fn : Nat) (r : SpdmReq) (s : State) : Out :=
  .next (if 256 < fn then s
    else
      let ans := match r with
        | .getMeasurements => s.measures fn
        | r => Config.tollhouseBytes (SpdmReq.num r) s.free
      let s1 := { s with hostData := ans, free := s.free + 1 }
      if fn = 0 then s1
      else match r with
        | .keyExchange => s1.modVd (fn - 1) fun v => { v with exchanged := true }
        | .finish => s1.modVd (fn - 1) fun v => { v with session := v.session || v.exchanged, exchanged := false }
        | .endSession => s1.modVd (fn - 1) fun v => { v with session := false, exchanged := false }
        | _ => s1)

/-- KEY_INSTALL: within a session of the virtual device a free slot takes a fresh or wrapped key and its number is returned, or
a signing key is held for it (R75), or the measurement of a translator is listed for it (R83). -/
def execKeyInstall (vd : Nat) (k : KeyKind) (s : State) : Out :=
  .next (if 256 ≤ vd || !(s.vd vd).session then s
    else match k with
      | .signing id => { s with free := s.free + 1 }.modVd vd fun v =>
          { v with signKeys := v.signKeys.filter (fun (e : Nat × List Byte) => e.1 ≠ id) ++
                     [(id, Config.tollhouseBytes 20 s.free)] }
      | .translator m => s.modVd vd fun v => { v with translators := v.translators.filter (fun x => x ≠ m) ++ [m] }
      | .xts =>
        let open' := (List.range 1024).filter fun n => (Tbl.find s.keys n).isNone
        match open'[Config.freeNat s.free 60 % open'.length]? with
        | some n => { s with keys := Tbl.put s.keys n { vd := vd, key := Config.freshKey s.free }, hostData := leBytes 2 n,
                             free := s.free + 1 }
        | none => s)

/-! ## Start (R365, R366) -/

/-- The upper bytes of a 16-byte address field are zero. -/
def addrOk (v : VDev) (off : Nat) : Bool := v.cfg (off + 10) 6 = 0

/-- The offset of the first field of a configuration block that breaks its range. -/
def VDev.badField (v : VDev) : Option Nat :=
  if !addrOk v 0 || v.ptroot % 65536 ≠ 0 then some 0
  else if !addrOk v 16 then some 16
  else if !addrOk v 32 then some 32
  else if !addrOk v 48 then some 48
  else if !addrOk v 64 then some 64
  else if 2 ^ 20 < v.cfg 80 4 then some 80
  else if 4096 < v.cfg 84 2 then some 84
  else if v.cfg 86 2 < 16 || 4096 < v.cfg 86 2 then some 86
  else if 2 < v.cfg 88 1 then some 88
  else if v.cfg 89 1 < 1 || 64 < v.cfg 89 1 then some 89
  else if v.cfg 90 2 < 25 || 400 < v.cfg 90 2 then some 90
  else if 31 < v.cfg 92 1 then some 92
  else if 1 < v.cfg 93 1 || (v.cfg 93 1 = 1 && v.msmode ≠ 2) then some 93
  else if v.cfg 94 1 < 1 || 64 < v.cfg 94 1 then some 94
  else if 16 < v.cfg 95 1 then some 95
  else if v.cfg 96 1 = 0 then some 96
  else if v.cfg 97 1 = 0 then some 97
  else if v.cfg 98 1 = 0 then some 98
  else if 1 < v.cfg 99 1 then some 99
  else if (v.config.drop 100).any fun b => b ≠ 0 then some 100
  else none

/-- The partition holds another started virtual device that may not share it: it holds one spatial device, or time-sliced
ones (R365). -/
def State.partTaken (s : State) (vd : Nat) : Bool :=
  s.vds.any fun e => e.1 ≠ vd && e.2.run && e.2.partition = (s.vd vd).partition && (!e.2.sliced || !(s.vd vd).sliced)

/-- VD_START: a stopped virtual device starts, or the start is refused. -/
def execVdStart (vd : Nat) (s : State) : Out :=
  let v := s.vd vd
  .next (if 256 ≤ vd || v.run then s
    else match (match v.badField with
        | some f => some f
        | none => if s.partTaken vd then some 92 else none) with
      | some f => s.modVd vd fun v => { v with refused := true, bad := f }
      | none => s.modVd vd fun v => { v with
          run := true, halt := false, sched := !v.sliced, refused := false, snap := none, log := [], msAt := s.cycle, gone := []
          noted := [] })

/-! ## Reset (R382) -/

/-- Every unretired launch of a virtual device ends and is completed, the earliest accepted first. -/
def State.endAll (s : State) (vd : Nat) : State :=
  (s.launches.filter fun e => e.2.vd = vd).foldl (fun (t : State) e =>
    (if e.2.ended then t else t.endLaunch e.1 0x143).complete' e.1 true true) s

/-- What is left of a virtual device on the cores that it runs on: its table slots are empty, HVCFG is at reset. -/
def State.clearCores (s : State) (vd : Nat) : State :=
  let here := (s.vd vd).sched
  { s with cores := s.cores.map fun (e : Nat × Core) =>
      if s.coreIn vd e.1 then
        (e.1, { e.2 with bat := if here then [] else e.2.bat, xrev := true, keep := 0
                         tape := e.2.tape.filter fun (l : TapeLine) => l.vd ≠ vd })
      else e }

/-- THE RESET of a virtual device: its groups and commands are discarded, its sent stores performed, its launches completed, what
was withheld released, its queues, launch index, cells and key slots cleared; it is stopped. -/
def State.resetVd (s : State) (vd : Nat) : State :=
  let s1 := (s.modVd vd fun v => { v with snap := none }).endAll vd
  let s2 := State.performSent (fun a => a.vd = vd) s1.openParts s1
  let s3 := { s2 with accesses := s2.accesses.filter fun (a : Access) => a.vd ≠ vd }
  let s4 := ((s3.vd vd).withheld.foldl State.release s3).clearCores vd
  let s5 := { s4 with dies := s4.dies.map fun (e : Nat × Die) =>
    (e.1, { e.2 with cells := e.2.cells.filter fun (c : AccCell) => c.vd ≠ vd }) }
  let mine := (s5.keys.filter fun e => e.2.vd = vd).map (·.1)
  (mine.foldl (fun (t : State) k => t.dropKey k) s5).modVd vd fun v => { v with
    run := false, halt := false, sched := false, nextLaunch := 0, withheld := [], log := [], msDue := false, msseq := 0, gone := []
    noted := []
    queues := v.queues.map fun (e : Nat × Queue) => (e.1, { e.2 with en := false, head := 0, tail := 0, bells := [], stuck := false }) }

/-- VD_RESET. -/
def execVdReset (vd : Nat) (s : State) : Out := .next (if 256 ≤ vd then s else s.resetVd vd)

/-! ## Partition records (R377, R379) -/

/-- Every virtual device of a partition is stopped. -/
def State.partStopped (s : State) (p : Nat) : Bool := s.vds.all fun e => !e.2.run || e.2.partition ≠ p

/-- PARTITION_MASK_WRITE: GMASK or MMASK of a stopped partition; refused where a cluster would belong twice. -/
def execPartitionMaskWrite (p : Nat) (margin : Bool) (w : W32) (s : State) : Out :=
  let own := s.part p
  let rest := if margin then own.gmask else own.mmask
  let others := s.parts.foldl (fun (a : W32) (e : Nat × Partition) =>
    if e.1 = p then a else a ||| e.2.gmask ||| e.2.mmask) rest
  .next (if 32 ≤ p || !s.partStopped p || others &&& w ≠ 0 then s
    else s.modPart p fun x => if margin then { x with mmask := w } else { x with gmask := w })

/-- PSHARE_WRITE: refused where the sum over the partitions would exceed 256. -/
def execPshareWrite (p : Nat) (w : W32) (s : State) : Out :=
  let others := s.parts.foldl (fun (a : Nat) (e : Nat × Partition) => if e.1 = p then a else a + e.2.share) 0
  .next (if 32 ≤ p || 256 < others + w.toNat % 256 then s else s.modPart p fun x => { x with share := w.toNat % 256 })

/-! ## Lending (R378) -/

/-- The partition whose margin a cluster is. -/
def State.lender (s : State) (c : Nat) : Option Nat := (s.parts.find? fun e => e.2.mmask.getLsbD c).map (·.1)

/-- A block of a partition stands on a cluster, on a core or in a lay-by. -/
def State.blockNear (s : State) (p c : Nat) : Bool :=
  s.blocks.any fun e => (s.vd e.2.vd).partition = p && (match e.2.loc with
    | .core n => n / 8 = c
    | .layby n => n / 8 = c
    | .slice _ n => n / 8 = c
    | .memory => false)

/-- A lend takes effect once no block of the lender remains on the cluster; LEND shows it. -/
def State.settleLend (s : State) (c : Nat) : State :=
  match Tbl.find s.lends c, s.lender c with
  | some l, some p =>
    if l.effect || s.blockNear p c then s
    else { s with lends := Tbl.put s.lends c { l with effect := true } }.modPart p fun x =>
      { x with lend := x.lend ||| BitVec.ofNat 32 (2 ^ c) }
  | _, _ => s

def State.settleLends (s : State) : State := (s.lends.map (·.1)).foldl (fun (t : State) c => t.settleLend c) s

/-- Reclaim begins; a lend that has not taken effect is over at once. -/
def State.beginReclaim (s : State) (c : Nat) : State :=
  match Tbl.find s.lends c with
  | some l => if l.effect then { s with lends := Tbl.put s.lends c { l with reclaim := true } } else s.endLend c
  | none => s

/-- A write of LENDTO: the number stays to be read. -/
def State.noteLendto (s : State) (cluster : Nat) (w : W32) : State :=
  if cluster < 32 then { s with lendto := Tbl.put s.lendto cluster (w.toNat % 32) } else s

/-- LENDTO_LEND: a write of `go` with the number of another partition lends a margin cluster; with the lender's own it begins
the reclaim. -/
def execLendtoLend (cluster : Nat) (w : W32) (s0 : State) : Out :=
  let s := s0.noteLendto cluster w
  .next (match s.lender cluster with
    | none => s
    | some p =>
      if 32 ≤ cluster || !w.getLsbD 31 then s
      else if w.toNat % 32 = p then s.beginReclaim cluster
      else if (Tbl.find s.lends cluster).isSome then s
      else { s with lends := Tbl.put s.lends cluster { borrower := w.toNat % 32, effect := false, reclaim := false } }.settleLend
        cluster)

/-- LENDTO_RECLAIM: a write of `go` with the lender's own number begins the reclaim of a cluster. -/
def execLendtoReclaim (cluster : Nat) (s : State) : Out :=
  .next (match s.lender cluster with
    | some p => if cluster < 32 then (s.noteLendto cluster (BitVec.ofNat 32 (2 ^ 31 + p))).beginReclaim cluster else s
    | none => s)

/-- An Express unit of a partition waits, and it fits nowhere. -/
def State.expressWaits (s : State) (p : Nat) : Bool :=
  s.launches.any fun e => e.2.cls = 0 && !e.2.hv && (s.vd e.2.vd).partition = p && (s.vd e.2.vd).runs && s.waiting e.1 e.2 &&
    !s.placeable e.1 e.2

/-- Under `arec` a partition takes lent margin back for an Express unit that does not fit elsewhere: one cluster after the other,
the lowest first (R377, R378). -/
def State.claimMargin (s : State) (p : Nat) : State :=
  let lent := (s.lends.filter fun e => s.lender e.1 = some p).map fun e => (e.1, e.2.reclaim)
  if (s.part p).arec && !(lent.any fun e => e.2) && s.expressWaits p then
    match (lent.map (·.1)).min? with
    | some c => s.beginReclaim c
    | none => s
  else s

def State.claimMargins (s : State) : State := (s.parts.map (·.1)).foldl (fun (t : State) p => t.claimMargin p) s

/-- What the classes of every virtual device have been served holds only while one waits (R373). -/
def State.settleAll (s : State) : State := (s.vds.map (·.1)).foldl (fun (t : State) v => t.settleServed v) s

end Sys2Proof.Machine
end

