-- ==== Sys2Proof/Machine/Sha3.lean ====
section
/-! DEFINITION. SHA3-256 (FIPS 202), which R73 names, over bytes. -/

namespace Sys2Proof.Machine

/-- The 25 lanes of Keccak-f[1600], lane (x, y) at 5 y + x. -/
abbrev Keccak := List W64

def klane (a : Keccak) (x y : Nat) : W64 := a.getD (5 * (y % 5) + x % 5) 0

/-- The offsets of rho, walked from lane (1, 0): the `t`-th lane reached is turned by (t + 1)(t + 2)/2 bits. Each entry is a
lane's number and its offset. -/
def rhoWalk : Nat → Nat → Nat → Nat → List (Nat × Nat)
  | 0, _, _, _ => []
  | fuel + 1, t, x, y => (5 * y + x, (t + 1) * (t + 2) / 2 % 64) :: rhoWalk fuel (t + 1) y ((2 * x + 3 * y) % 5)

/-- The offset of the lane that a number names; lane (0, 0) is not turned. -/
def rhoOf (table : List (Nat × Nat)) (i : Nat) : Nat := (Tbl.find table i).getD 0

/-- The register of eight bits behind the round constants takes one step. -/
def lfsrStep (r : Nat) : Nat := if r < 128 then 2 * r else (2 * r) ^^^ 0x171

/-- A round constant from the register: the lowest bit before step j gives bit 2^j − 1, for j from 0 to 6. -/
def iotaWord : Nat → Nat → Nat → W64 × Nat
  | 0, _, r => (0, r)
  | fuel + 1, j, r =>
    let rest := iotaWord fuel (j + 1) (lfsrStep r)
    (rest.1 ||| (if r % 2 = 1 then BitVec.twoPow 64 (2 ^ j - 1) else 0), rest.2)

/-- The constants of the rounds, one after another. -/
def iotaWords : Nat → Nat → List W64
  | 0, _ => []
  | fuel + 1, r => let w := iotaWord 7 0 r; w.1 :: iotaWords fuel w.2

/-- The column parities of a state. -/
def parity (a : Keccak) (x : Nat) : W64 := (List.range 5).foldl (fun (w : W64) y => w ^^^ klane a x y) 0

/-- Theta: every lane takes the parities of its neighbour columns. -/
def theta (a : Keccak) : Keccak :=
  let mix := (List.range 5).map fun x => parity a (x + 4) ^^^ (parity a (x + 1)).rotateLeft 1
  a.mapIdx fun i w => w ^^^ mix.getD (i % 5) 0

/-- Rho and pi: lane (x, y) is turned and stands at (y, 2x + 3y); read here from the place it reaches. -/
def rhoPi (table : List (Nat × Nat)) (a : Keccak) : Keccak :=
  (List.range 25).map fun i =>
    let src := 5 * (i % 5) + (i % 5 + 3 * (i / 5)) % 5
    (a.getD src 0).rotateLeft (rhoOf table src)

/-- Chi, within each row. -/
def chi (a : Keccak) : Keccak :=
  a.mapIdx fun i w => w ^^^ (~~~(klane a (i % 5 + 1) (i / 5)) &&& klane a (i % 5 + 2) (i / 5))

/-- One round; iota changes lane (0, 0) alone. -/
def keccakRound (table : List (Nat × Nat)) (a : Keccak) (rc : W64) : Keccak :=
  (chi (rhoPi table (theta a))).modify 0 (rc ^^^ ·)

def keccakF (a : Keccak) : Keccak := (iotaWords 24 1).foldl (keccakRound (rhoWalk 24 0 1 0)) a

/-- Eight bytes as a lane. -/
def laneOfBytes (bs : List Byte) : W64 := bs.foldr (fun b (x : W64) => x <<< 8 ||| b.setWidth 64) 0

/-- A block of 136 bytes is absorbed. -/
def absorb (a : Keccak) (bs : List Byte) : Keccak :=
  keccakF ((List.range 25).map fun i => a.getD i 0 ^^^ (if i < 17 then laneOfBytes ((bs.drop (8 * i)).take 8) else 0))

/-- Whole blocks are absorbed; `fuel` bounds them. -/
def absorbAll : Nat → Keccak → List Byte → Keccak
  | 0, a, _ => a
  | fuel + 1, a, bs => absorbAll fuel (absorb a (bs.take 136)) (bs.drop 136)

/-- The message padded to whole blocks. -/
def sha3Pad (m : List Byte) : List Byte :=
  let n := 136 - m.length % 136
  if n = 1 then m ++ [0x86] else m ++ [0x06] ++ List.replicate (n - 2) 0 ++ [0x80]

/-- The SHA3-256 digest of a message. -/
def sha3 (m : List Byte) : List Byte :=
  let p := sha3Pad m
  let a := absorbAll (p.length / 136) (List.replicate 25 0) p
  (List.range 32).map fun i => (klane a (i / 8) 0 >>> (8 * (i % 8))).setWidth 8

/-- leaf(i) of R73. -/
def chunkLeaf (chunk : List Byte) : List Byte := sha3 ((0 : Byte) :: chunk)

/-- One level of the tree: pairs left to right, an odd last node moves up unchanged (R73). -/
def pairUp : List (List Byte) → List (List Byte)
  | x :: y :: rest => sha3 ((1 : Byte) :: x ++ y) :: pairUp rest
  | xs => xs

/-- The top node of a list of nodes; `fuel` bounds the levels. -/
def topNode : Nat → List (List Byte) → List Byte
  | 0, xs => xs.headD []
  | fuel + 1, xs => match xs with
    | [x] => x
    | xs => topNode fuel (pairUp xs)

/-- The root of R73 over the leaves. -/
def treeRoot (leaves : List (List Byte)) : List Byte :=
  let n := (List.range 8).map fun i => BitVec.ofNat 8 (leaves.length / 256 ^ i)
  sha3 ((2 : Byte) :: n ++ topNode leaves.length leaves)

end Sys2Proof.Machine
end

