-- ==== Sys2Proof/Machine/Fetch.lean ====
section
/-! DEFINITION. Instruction fetch and the check of chunks (R76 to R78, R84, R179); the path timer (R93, R294, R343). -/

namespace Sys2Proof.Machine

/-- A fetch fault that is precise at the path's PC. -/
def State.fetchFault (s : State) (gid : Nat) (p : Path) (code : Nat) : State :=
  s.takeFault gid p.handler p.mask fun _ => { FaultRec.at' (BitVec.ofNat 9 code) p.pc 0 p.b14 with addr := p.pc }

/-- The path of a lane takes a state. -/
def State.setPathSt (s : State) (gid lane : Nat) (st : PathSt) : State := s.modGroup gid fun g => g.setSt lane st

/-- A path waits for a page with its fetch (R84). -/
def State.fetchMiss (s : State) (vd gid lane page core : Nat) : State :=
  let s1 := s.setPathSt gid lane .fetch
  let s2 := if s1.fetchWaits gid lane then s1 else { s1 with waits := s1.waits ++ [.fetch vd page gid lane] }
  s2.askPage vd page core

/-- The verified chunk from which a core fetches a virtual device's slot: it lies in a registered range (R76, R77). -/
def State.fetchable (s : State) (core vd : Nat) (pc : Va) : Option Memory :=
  if ((s.vd vd).rangeAt pc).isSome then (s.core core).chunk vd pc else none

/-- One path fetches its next slot: it may, it is faulted, it waits for its page, or for the check of its chunk. -/
def State.fetchPath (s : State) (gid lane : Nat) : State :=
  match Tbl.find s.groups gid with
  | none => s
  | some g =>
    match pathAt g.paths lane, Tbl.find s.blocks g.blk with
    | some p, some b =>
      let chunk := p.pc.toNat / 4096
      if (p.st ≠ .ready && p.st ≠ .fetch) || b.loc ≠ .core g.core then s
      else if (s.fetchable g.core b.vd p.pc).isSome then (if p.st = .fetch then s.setPathSt gid lane .ready else s)
      else if ((s.vd b.vd).rangeAt p.pc).isNone then s.fetchFault gid p 0x09F
      else
        let t := s.translate b.vd p.pc.toNat 0 .fetch
        let s1 := { s.cacheEntries b.vd t.2 with free := s.free + 1 }
        match t.1 with
        | .notPresent _ => s1.fetchMiss b.vd gid lane chunk g.core
        | .bad code => if code = 0x096 then s1.fetchMiss b.vd gid lane chunk g.core else s1.fetchFault gid p code
        | .ok pa _ key =>
          if region pa = 0 && !s1.keyOk b.vd key then s1.fetchFault gid p 0x099
          else
            let s2 := s1.setPathSt gid lane .fetch
            if (s2.core g.core).checking.contains (b.vd, chunk) then s2
            else s2.modCore g.core fun k => { k with checking := k.checking ++ [(b.vd, chunk)] }
    | _, _ => s

/-- The path of a lane has something to fetch. -/
def State.mustFetch (s : State) (gid : Nat) (g : Group) (p : Path) : Bool :=
  match Tbl.find s.blocks g.blk with
  | some b =>
    let ver := (s.fetchable g.core b.vd p.pc).isSome
    let lane := lowLane p.mask
    (p.st = .ready && p.stop.isNone && !ver) ||
      (p.st = .fetch && !s.fetchWaits gid lane &&
        (ver || !(s.core g.core).checking.contains (b.vd, p.pc.toNat / 4096)))
  | none => false

/-- INSTRUCTION_FETCH: the paths of a group that have no verified chunk, or that fetch again. -/
def execInstructionFetch (grp : Nat) (s : State) : Out :=
  .next (match Tbl.find s.groups grp with
    | none => s
    | some g =>
      if !s.grpIn (s.vdOf grp) grp || !(s.vd (s.vdOf grp)).runs || g.halt.isSome then s
      else (g.paths.filter fun p => s.mustFetch grp g p).foldl (fun (t : State) p => t.fetchPath grp (lowLane p.mask)) s)

/-- The paths on a core that wait for the check of a chunk. -/
def State.checkWaiters (s : State) (core vd chunk : Nat) : List (Nat × Path) :=
  s.groups.flatMap fun (e : Nat × Group) =>
    if e.2.core = core && s.blkIn vd e.2.blk then
      (e.2.paths.filter fun p => p.st = .fetch && p.pc.toNat / 4096 = chunk && !s.fetchWaits e.1 (lowLane p.mask)).map
        fun p => (e.1, p)
    else []

/-- The leaf that is registered for a chunk. -/
def State.leafOf (s : State) (vd chunk : Nat) : State × Option (List Byte) :=
  match (s.vd vd).rangeAt (BitVec.ofNat 80 (4096 * chunk)) with
  | none => (s, none)
  | some (_, r) =>
    let x := s.devRead vd ((r.leaves.toNat + 32 * (chunk - r.base.toNat / 4096)) % 2 ^ 80) 32
    (x.1, match x.2 with
      | .ok bs => some bs
      | .error _ => none)

/-- A check has failed: every path that waits for the chunk takes CHUNK_HASH, whose record carries the chunk's address and
the computed leaf, its first bytes in FINFO and FCAUSE `det`. -/
def State.hashFault (s : State) (core vd chunk : Nat) (leaf : List Byte) : State :=
  (s.checkWaiters core vd chunk).foldl (fun (t : State) (w : Nat × Path) =>
    t.takeFault w.1 w.2.handler w.2.mask fun _ =>
      { FaultRec.at' 0x09E w.2.pc 0 w.2.b14 with
        addr := BitVec.ofNat 80 (4096 * chunk), info := BitVec.ofNat 32 (leNat (leaf.take 4))
        det := BitVec.ofNat 16 (leNat ((leaf.drop 4).take 2)), more := .leaf leaf }) s

/-- Every path that waits for a chunk takes a precise fetch fault. -/
def State.checkFault (s : State) (core vd chunk code : Nat) : State :=
  (s.checkWaiters core vd chunk).foldl (fun (t : State) (w : Nat × Path) => t.fetchFault w.1 w.2 code) s

/-- The chunk is verified in the core, and its waiting paths fetch from it (R77). -/
def State.verified (s : State) (core vd chunk : Nat) (bs : List Byte) : State :=
  let s1 := s.modCore core fun k => { k with verified := k.verified ++ [(vd, chunk, Memory.write [] 0 bs)] }
  (s1.checkWaiters core vd chunk).foldl (fun (t : State) w => t.setPathSt w.1 (lowLane w.2.mask) .ready) s1

/-- CHUNK_VERIFY: a check ends: the chunk as read through its translation is compared with its registered leaf. A key slot that is
not the device's by then faults as at the fetch (R84); a chunk that memory fails to deliver reads as undefined bytes, which do not
pass. -/
def execChunkVerify (core vd chunk : Nat) (s : State) : Out :=
  .next (if !(s.core core).checking.contains (vd, chunk) then s
    else
      let s1 := s.modCore core fun k => { k with checking := k.checking.erase (vd, chunk) }
      let t := s1.translate vd (4096 * chunk) 0 .fetch
      match t.1 with
      | .ok pa ord key =>
        if region pa = 0 && !s1.keyOk vd key then s1.checkFault core vd chunk 0x099
        else
          let lost := (s1.segFail vd (.phys pa 4096 key ord) false .ok).isSome
          let bs := if lost then (List.range 4096).map fun i => Config.freeByte s.free i else s1.readPhys vd key pa 4096
          let leaf := chunkLeaf bs
          let r := { s1 with free := s1.free + 1 }.leafOf vd chunk
          if !lost && r.2 = some leaf then r.1.verified core vd chunk bs else r.1.hashFault core vd chunk leaf
      | _ => s1)

/-! ## The path timer (R93, R294, R343) -/

/-- The lowest lane of the current path. -/
def Group.curLow (g : Group) : Nat := ((pathAt g.paths g.cur).map fun p => lowLane p.mask).getD g.cur

/-- The place of a lane in the rotation that starts behind the current path. -/
def Group.turn (g : Group) (x : Nat) : Nat := if g.curLow < x then x else x + 32

/-- The other ready paths of a group in rotation, by their lowest lanes. -/
def Group.rotation (g : Group) : List Nat :=
  let ls := (g.paths.filter fun p => p.couldIssue && lowLane p.mask ≠ g.curLow).map fun p => lowLane p.mask
  sortBy (fun x y => g.turn x ≤ g.turn y) ls

/-- The timer of the group has reached zero, and nothing puts the switch off. -/
def Group.expired (g : Group) (now : Nat) : Bool :=
  g.since + 512 ≤ now && !g.track.locked && match pathAt g.paths g.cur with
    | some p => !((lanesOf p.mask).any fun l => (Tbl.find g.resv l).isSome) || 64 ≤ p.defer
    | none => true

/-- The oldest entry set comes next in rotation, as a path of its lowest lane, also where no other path is ready (R343,
case 2). -/
def Group.entryNext (g : Group) : Bool :=
  match g.queue, g.handler, g.halt, g.held with
  | m :: _, none, none, none => g.rotation.all fun x => g.turn (lowLane m) < g.turn x
  | _, _, _, _ => false

/-- A path becomes the current one: its timer starts, and what held back the former one is no reason of its (R91, R93). -/
def Group.switchTo (g : Group) (lane now : Nat) : Group :=
  { g with cur := lane, since := now, rotate := false, stall := none, readySince := none, why := none }

/-- The next path in rotation becomes current; an entry set that is next enters the handler. -/
def State.rotatePath (s : State) (gid : Nat) (g : Group) : State :=
  if g.entryNext then s.enterHandler gid
  else match g.rotation with
    | x :: _ => s.modGroup gid fun g => g.switchTo x s.cycle
    | [] => s.modGroup gid fun g => { g with rotate := false }

/-- FAIRNESS_TIMER_EXPIRY: the timer of a group's current path has expired. -/
def execFairnessTimerExpiry (grp : Nat) (s : State) : Out :=
  .next (match Tbl.find s.groups grp with
    | some g => if s.mayEnter grp && g.expired s.cycle then s.rotatePath grp g else s
    | none => s)

end Sys2Proof.Machine
end

