-- ==== Sys2Proof/Machine/Loader.lean ====
section
/-! DEFINITION. The host loader: native and fat objects (R65 to R68, R71, R80, R81), the hash tree and its signature (R73 to R75),
code ranges (R76), unloads, swaps and retirements (R72, R85, R86). -/

namespace Sys2Proof.Machine

/-! ## The tables of an object (R65 to R67) -/

/-- A section of a file. -/
structure Sect where
  name : Nat
  kind : Nat
  ioff : Nat
  size : Nat
  foff : Nat
  deriving DecidableEq, Repr

/-- A symbol of a file. -/
structure Symb where
  name : Nat
  sec : Nat
  kind : Nat
  bind : Nat
  val : Nat
  size : Nat
  deriving DecidableEq, Repr

/-- A relocation of a file. -/
structure Relo where
  poff : Nat
  psec : Nat
  type : Nat
  sym : Nat
  add : Int
  deriving DecidableEq, Repr

/-- The `i`-th record of a table. -/
def tabRec (file : List Byte) (off size i : Nat) : List Byte := (file.drop (off + size * i)).take size

def sections (file : List Byte) : List Sect :=
  (List.range (recFld file 32 2)).map fun i =>
    let r := tabRec file (recFld file 48 4) 32 i
    ⟨recFld r 0 4, recFld r 4 1, recFld r 8 8, recFld r 16 8, recFld r 24 8⟩

def symbols (file : List Byte) : List Symb :=
  (List.range (recFld file 36 4)).map fun i =>
    let r := tabRec file (recFld file 52 4) 24 i
    ⟨recFld r 0 4, recFld r 4 2, recFld r 6 1, recFld r 7 1, recFld r 8 8, recFld r 16 4⟩

def relocs (file : List Byte) : List Relo :=
  (List.range (recFld file 40 4)).map fun i =>
    let r := tabRec file (recFld file 56 4) 24 i
    ⟨recFld r 0 4, recFld r 4 2, recFld r 6 1, recFld r 8 4, (BitVec.ofNat 64 (recFld r 16 8)).toInt⟩

def kernelRecs (file : List Byte) : List (List Byte) :=
  (List.range (recFld file 34 2)).map fun i => tabRec file (recFld file 60 4) 64 i

/-- A string of the string table. -/
def strAt (file : List Byte) (off : Nat) : List Byte := (file.drop (recFld file 44 4 + off)).takeWhile fun b => b ≠ 0

/-- The name that a section or symbol has. -/
def isNamed (file : List Byte) (off : Nat) (s : List Byte) : Bool := strAt file off = s

/-- The bytes of ".chash". -/
def chashName : List Byte := [0x2E, 0x63, 0x68, 0x61, 0x73, 0x68]

/-- LOAD_BAD_HEADER: a wrong magic, version or link flag, or a table outside the file. -/
def headerBad (file : List Byte) : Bool :=
  let n := file.length
  let out := fun (off size cnt : Nat) => n < off + size * cnt
  n < 64 || recFld file 0 4 ≠ 0x37464F42 || recFld file 4 2 ≠ 1 || 1 < recFld file 6 1 || recFld file 7 1 ≠ 1 ||
    !recZero file 18 6 || recFld file 24 8 % 4096 ≠ 0 || n < recFld file 44 4 || out (recFld file 48 4) 32 (recFld file 32 2) ||
    out (recFld file 52 4) 24 (recFld file 36 4) || out (recFld file 56 4) 24 (recFld file 40 4) ||
    out (recFld file 60 4) 64 (recFld file 34 2)

/-! ## The hash tree (R73 to R75) -/

/-- The bytes of a section in the file; a bss section has none. -/
def Sect.bytes (x : Sect) (file : List Byte) : List Byte :=
  if x.kind = 3 then List.replicate x.size 0 else (file.drop x.foff).take x.size

/-- The image before its relocations. -/
def imageOf (file : List Byte) : List Byte :=
  let size := recFld file 24 8
  (sections file).foldl (fun (im : List Byte) x =>
    (im.take x.ioff ++ x.bytes file ++ im.drop (x.ioff + x.size)).take size) (List.replicate size 0)

/-- The `.chash` section. -/
def chashOf (file : List Byte) : Option Sect :=
  (sections file).find? fun x => x.kind = 1 && isNamed file x.name chashName

/-- The numbers of the image's chunks that hold text, in address order (R49, R73). -/
def textChunks (file : List Byte) : List Nat :=
  (List.range ((recFld file 24 8 + 4095) / 4096)).filter fun i => (sections file).any fun x =>
    x.kind = 0 && 0 < x.size && x.ioff < 4096 * (i + 1) && 4096 * i < x.ioff + x.size

/-- The leaves of the text as the file holds it. -/
def textLeaves (file : List Byte) : List (List Byte) :=
  let im := imageOf file
  (textChunks file).map fun i => chunkLeaf ((im.drop (4096 * i)).take 4096)

/-- The checks of R75: none where the image passes, else the status. `policy`: the signed-code policy holds and is not met by a
Vypen member. The chunk count and the place of the first chunk that `.chash` states are those of the file's text. -/
def treeFail (keys : List (Nat × List Byte)) (policy : Bool) (file : List Byte) : Option Nat :=
  match chashOf file with
  | none => some 0x0B
  | some x =>
    let h := x.bytes file
    let n := (textChunks file).length
    let leaves := textLeaves file
    let root := (h.drop 16).take 32
    let told := (List.range n).map fun i => (h.drop (2496 + 32 * i)).take 32
    let keyid := recFld h 48 8
    if n = 0 || recFld h 0 8 ≠ n || recFld h 8 8 ≠ 4096 * (textChunks file).headD 0 || leaves ≠ told || treeRoot leaves ≠ root then
      some 0x0B
    else if keyid ≠ 0 then
      match keys.find? fun k => k.1 = keyid with
      | some k => if Config.mldsaVerify k.2 ((3 : Byte) :: root) ((h.drop 56).take 2420) then none else some 0x0A
      | none => some 0x0A
    else if policy then some 0x0A else none

/-! ## Selection (R80, R81, R83) -/

/-- A member of a fat object that R81 may select: the step that takes it, its bytes. -/
structure Member where
  step : Nat
  bytes : List Byte
  deriving DecidableEq, Repr

def members (file : List Byte) : List Member :=
  (List.range (recFld file 6 1)).filterMap fun j =>
    let r := tabRec file 16 32 j
    let bytes := (file.drop (recFld r 8 8)).take (recFld r 16 8)
    let kind := recFld r 0 1
    if kind = 0 && recFld r 1 1 = 7 then some ⟨1, bytes⟩
    else if kind = 0 && recFld r 1 1 = 5 && recBit r 2 1 0 then some ⟨2, bytes⟩
    else if kind = 1 then some ⟨3, bytes⟩
    else none

/-- LOAD_BAD_HEADER for a fat object. -/
def fatBad (file : List Byte) : Bool :=
  let n := recFld file 6 1
  file.length < 16 + 32 * n || recFld file 4 2 ≠ 1 || n < 1 || 8 < n ||
    (List.range n).any fun j =>
      let r := tabRec file 16 32 j
      file.length < recFld r 8 8 + recFld r 16 8

/-- A translated image is a native image of the W7 without a signature of its own (R83). -/
def translationBad (file : List Byte) : Bool :=
  headerBad file || recFld file 6 1 ≠ 0 || (match chashOf file with
    | some x => recFld (x.bytes file) 48 8 ≠ 0
    | none => true)

/-- The native image that a member comes to: itself, or its translation. -/
def Member.image (m : Member) (r : LoadReq) : List Byte := if m.step = 3 then Config.translate r.translator m.bytes else m.bytes

/-- Why a member is passed over: a native one by R75; a Vypen one by what the signed-code policy asks of it and of its translator,
or by R75 on its translation (R81, R83). -/
def Member.fail (m : Member) (v : VDev) (r : LoadReq) : Option Nat :=
  let policy := v.cfg 99 1 % 2 = 1
  if m.step = 3 then
    if policy && !(Config.vypenSigned v.signKeys m.bytes && v.translators.contains r.translator) then some 0x0A
    else if translationBad (m.image r) then some 0x0B
    else treeFail v.signKeys false (m.image r)
  else treeFail v.signKeys policy m.bytes

/-- The image that is loaded, and whether it runs in narrow mode: of a fat object the first eligible member that is not passed
over, in the order of R81; a bare native object by its own target; or the status of the load. -/
def selectImage (v : VDev) (r : LoadReq) : Except Nat (List Byte × Bool) :=
  if recFld r.file 0 4 = 0x46464F42 then
    if fatBad r.file then .error 1
    else
      let ms := members r.file
      let order := (ms.filter fun m => m.step = 1) ++ (ms.filter fun m => m.step = 2) ++ ms.filter fun m => m.step = 3
      match order.find? fun m => (m.fail v r).isNone with
      | some m => .ok (m.image r, m.step = 2)
      | none => .error (match order.getLast? with
        | some m => (m.fail v r).getD 9
        | none => 9)
  else if headerBad r.file then .error 1
  else match treeFail v.signKeys (v.cfg 99 1 % 2 = 1) r.file with
    | some st => .error st
    | none => .ok (r.file, recFld r.file 6 1 = 1)

/-! ## The base (R71) -/

/-- The entry that the page table holds for a level of an address, as software reads it. -/
def State.tableEntry (s : State) (t va lvl : Nat) : W64 :=
  BitVec.ofNat 64 (leNat (Memory.read s.mem (t + 8 * lvlIndex va lvl) 8))

/-- The physical address of the leaf entry for a page, and the number of the page table's first missing level. -/
def State.findLeaf (s : State) (va : Nat) : List Nat → Nat → Option W64
  | [], _ => none
  | lvl :: rest, t =>
    let e := s.tableEntry t va lvl
    if !pteBit e 0 then none else if pteBit e 3 then some e else s.findLeaf va rest (ptePfn e * 4096)

/-- The page table of a virtual device holds a valid leaf for an address. -/
def State.mapped (s : State) (vd va : Nat) : Option W64 :=
  s.findLeaf va [0, 1, 2, 3, 4, 5] ((s.vd vd).ptroot % 2 ^ 52)

/-- A range is free (R71). -/
def State.rangeFree (s : State) (vd base size : Nat) : Bool :=
  base % 4096 = 0 && base + size ≤ 2 ^ 80 &&
    (s.vd vd).objs.all (fun e => base + size ≤ e.2.base.toNat || e.2.base.toNat + e.2.size ≤ base) &&
    (List.range (size / 4096)).all fun i => (s.mapped vd (base + 4096 * i)).isNone

/-- The entries of a table, and the bytes of address that one of them covers (R172). -/
def lvlCount (lvl : Nat) : Nat := if lvl = 0 then 2 ^ 13 else 2 ^ 11
def lvlSpan (lvl : Nat) : Nat := 2 ^ lvlShift lvl

/-- The addresses behind the leaves of a page table: `va` is the part of the address that led to the table. -/
def State.leafEnds (s : State) : List Nat → Nat → Nat → List Nat
  | [], _, _ => []
  | lvl :: rest, t, va =>
    (List.range (lvlCount lvl)).flatMap fun ix =>
      let a := va + ix * lvlSpan lvl
      let e := s.tableEntry t a lvl
      if !pteBit e 0 then []
      else if pteBit e 3 then [a + lvlSpan lvl]
      else s.leafEnds rest (ptePfn e * 4096) a

/-- Where a free range may begin at the lowest: at 0, behind an object, behind a leaf. A range that is free anywhere can be moved
down to one of these. -/
def State.rangeStarts (s : State) (vd : Nat) : List Nat :=
  0 :: (s.vd vd).objs.map (fun e => e.2.base.toNat + e.2.size) ++ s.leafEnds [0, 1, 2, 3, 4, 5] ((s.vd vd).ptroot % 2 ^ 52) 0

/-- The base of an image, or the status of a refusal (R71). Of the free ranges system software takes the one it names, where that is
free. -/
def State.takeBase (s : State) (r : LoadReq) (file : List Byte) : Except Nat Nat :=
  let size := recFld file 24 8
  let pbase := recFld file 8 10
  match r.reqBase with
  | some b => if s.rangeFree r.vd b.toNat size then .ok b.toNat else .error 2
  | none =>
    if pbase ≠ 0 && s.rangeFree r.vd pbase size then .ok pbase
    else match (r.freeBase.toList.map (·.toNat) ++ s.rangeStarts r.vd).find? fun b => s.rangeFree r.vd b size with
      | some b => .ok b
      | none => .error 3

/-! ## Relocation (R68, R71) -/

/-- What a symbol comes to: its address, the base of the image that defines it, and the object where it is another's. -/
structure SymVal where
  addr : Nat
  base : Nat
  obj : Option Nat
  deriving DecidableEq, Repr

/-- A global symbol of the loaded objects of a virtual device. -/
def VDev.findSym (v : VDev) (name : List Byte) : Option SymVal :=
  v.objs.findSome? fun e => (e.2.syms.find? fun x => x.1 = name).map fun x => ⟨x.2.toNat, e.2.base.toNat, some e.1⟩

/-- The value of a symbol of an image at a base. -/
def symVal (v : VDev) (file : List Byte) (base : Nat) (x : Symb) : Option SymVal :=
  if x.sec = 0xFFFE then v.findSym (strAt file x.name)
  else if x.sec = 0xFFFF then some ⟨x.val, base, none⟩
  else ((sections file)[x.sec]?).map fun y => ⟨base + y.ioff + x.val, base, none⟩

/-- The bytes of a relocation's place. -/
def placeSize (type : Nat) : Nat := if type = 6 then 16 else if type = 7 then 32 else 4

/-- The section of a relocation's place, if it holds the place and is no text. -/
def Relo.sect (x : Relo) (file : List Byte) : Option Sect :=
  ((sections file)[x.psec]?).bind fun y => if y.kind ≠ 0 && x.poff + placeSize x.type ≤ y.size then some y else none

/-- The bytes that a relocation writes at an image offset; none where the value overflows. -/
def Relo.value (x : Relo) (y : Sect) (base : Nat) (v : SymVal) : Option (Nat × List Byte) :=
  let at' := y.ioff + x.poff
  let sa : Int := (v.addr : Int) + x.add
  if x.type = 8 then
    let d := sa - ((base + at' : Nat) : Int)
    if d < -2147483648 || 2147483647 < d then none else some (at', leBytes 4 (d % 4294967296).toNat)
  else if sa < 0 || (2 ^ 80 : Int) ≤ sa then none
  else
    let low := leBytes 10 sa.toNat ++ List.replicate 6 0
    some (at', if x.type = 6 then low else low ++ leBytes 10 v.base ++ List.replicate 6 0)

/-- The first relocation that `bad` finds wrong. -/
def firstBad (rs : List Relo) (bad : Relo → Bool) : Option Nat := rs.findIdx? bad

/-- The relocations of an image, as bytes at image offsets; or the status and the index of the record at fault. -/
def applyRelocs (v : VDev) (file : List Byte) (base : Nat) : Except (Nat × Nat) (List (Nat × List Byte)) :=
  let rs := relocs file
  let syms := symbols file
  let val := fun (x : Relo) => (syms[x.sym]?).bind fun y => symVal v file base y
  let out := fun (x : Relo) => (x.sect file).bind fun y => (val x).bind fun z => x.value y base z
  match firstBad rs fun x => x.type < 6 || 8 < x.type with
  | some i => .error (4, i)
  | none => match firstBad rs fun x => (x.sect file).isNone with
    | some i => .error (5, i)
    | none => match firstBad rs fun x => (val x).isNone with
      | some i => .error (6, i)
      | none => match firstBad rs fun x => (out x).isNone with
        | some i => .error (7, i)
        | none => .ok (rs.filterMap out)

/-! ## Mapping (R71) -/

/-- An entry of a page table is written. -/
def State.putEntry (s : State) (t va lvl : Nat) (e : Nat) : State :=
  { s with mem := Memory.write s.mem (t + 8 * lvlIndex va lvl) (leBytes 8 e) }

/-- A leaf is written for a page; tables that are missing are taken from a list. -/
def State.putLeaf (va leaf : Nat) : List Nat → Nat → List Nat → State → Option (State × List Nat)
  | [], _, _, _ => none
  | [lvl], t, tabs, s => some (s.putEntry t va lvl leaf, tabs)
  | lvl :: rest, t, tabs, s =>
    let e := s.tableEntry t va lvl
    if pteBit e 0 then (if pteBit e 3 then none else State.putLeaf va leaf rest (ptePfn e * 4096) tabs s)
    else match tabs with
      | [] => none
      | p :: more => State.putLeaf va leaf rest (p * 4096) more (s.putEntry t va lvl (p * 4096 + 1))

/-- The permissions of a page of an image: those of the sections that lie on it, none where none does. -/
def pagePerm (file : List Byte) (i : Nat) : Nat :=
  let on := fun (x : Sect) => 0 < x.size && x.ioff < 4096 * (i + 1) && 4096 * i < x.ioff + x.size
  let any' := fun (f : Nat → Bool) => (sections file).any fun x => on x && f x.kind
  (if any' fun _ => true then 16 else 0) + (if any' fun k => k = 2 || k = 3 then 32 else 0) +
    if any' fun k => k = 0 then 64 else 0

/-- The pages of an image are mapped and written, frame by frame; none where system software has given too few. -/
def State.mapPages (r : LoadReq) (file image : List Byte) (base : Nat) : List Nat → List Nat → List Nat → State → Option State
  | [], _, _, s => some s
  | i :: rest, frames, tabs, s =>
    let perm := pagePerm file i
    if perm = 0 then State.mapPages r file image base rest frames tabs s
    else match frames with
      | [] => none
      | f :: fs =>
        match State.putLeaf (base + 4096 * i) (r.keySlot * 2 ^ 52 + f * 4096 + perm + 8 + 1) [0, 1, 2, 3, 4, 5]
            ((s.vd r.vd).ptroot % 2 ^ 52) tabs s with
        | none => none
        | some (s1, tabs') =>
          let bytes := (image.drop (4096 * i)).take 4096
          State.mapPages r file image base rest fs tabs' (s1.writeHbm none none r.keySlot (f * 4096) bytes)

/-- A loader call returns its status, with an index. -/
def State.answer (s : State) (status ix : Nat) : State := { s with hostData := leBytes 4 status ++ leBytes 4 ix }

/-! ## What a loaded object is (R66, R71, R76) -/

/-- The SPAWN entries of a kernel: the entry symbols of its text, in order of their indices. -/
def spawnEntries (file : List Byte) (base eoff : Nat) : List Va :=
  let ks := (kernelRecs file).map fun k => recFld k 56 8
  let next := (ks.filter fun x => eoff < x).foldl min (2 ^ 64)
  let place := fun (x : Symb) => (((sections file)[x.sec]?).map (·.ioff)).getD 0 + x.val
  let mine := (symbols file).filter fun x => x.kind = 4 && eoff ≤ place x && place x < next
  (List.range mine.length).filterMap fun i =>
    (mine.find? fun x => x.size = i + 1).map fun x => BitVec.ofNat 80 (base + place x)

/-- The symbol that a record names, by its index. -/
def symName (file : List Byte) (i : Nat) : List Byte := (((symbols file)[i]?).map fun x => strAt file x.name).getD []

/-- The GOT entry that a relocation of an image fills: its symbol is another object's, or one of the object `self`. -/
def gotEntry (v : VDev) (file : List Byte) (base self : Nat) (x : Relo) : Option GotEnt :=
  if x.type ≠ 7 then none
  else match (symbols file)[x.sym]?, (sections file)[x.psec]? with
    | some y, some z => (symVal v file base y).map fun val =>
      { name := strAt file y.name
        obj := val.obj.getD self
        own := val.obj.isNone && y.bind ≠ 1
        place := BitVec.ofNat 80 (base + z.ioff + x.poff), add := x.add }
    | _, _ => none

/-- The object `self` that a file makes at a base. -/
def mkObj (v : VDev) (file : List Byte) (narrow : Bool) (base self : Nat) : Obj :=
  let syms := symbols file
  let val := fun (x : Symb) => symVal v file base x
  { base := BitVec.ofNat 80 base, size := recFld file 24 8, narrow := narrow
    kernels := (kernelRecs file).map fun k =>
      { entry := BitVec.ofNat 80 (base + recFld k 56 8), name := symName file (recFld k 0 4), raw := k, entries := spawnEntries file base (recFld k 56 8) }
    syms := (syms.filter fun x => x.bind = 1 && x.sec ≠ 0xFFFE).filterMap fun x =>
      (val x).map fun y => (strAt file x.name, BitVec.ofNat 80 y.addr)
    locals := (syms.filter fun x => x.bind ≠ 1 && x.sec ≠ 0xFFFE).filterMap fun x =>
      (val x).map fun y => (strAt file x.name, BitVec.ofNat 80 y.addr)
    refs := ((relocs file).filterMap fun x => ((syms[x.sym]?).bind val).bind fun y => y.obj).eraseDups
    gotSyms := (relocs file).filterMap (gotEntry v file base self) }

/-- The code range of an image. -/
def mkRange (file : List Byte) (base obj : Nat) : Option CodeRange :=
  (chashOf file).map fun x =>
    let h := x.bytes file
    { base := BitVec.ofNat 80 (base + recFld h 8 8), chunks := recFld h 0 8
      leaves := BitVec.ofNat 80 (base + x.ioff + 2496), obj := obj, root := (h.drop 16).take 32 }

/-- Bytes put into an image. -/
def patch (image : List Byte) (p : Nat × List Byte) : List Byte :=
  image.take p.1 ++ p.2 ++ image.drop (p.1 + p.2.length)

/-- The image is mapped, its range registered, its symbols and kernels made visible. -/
def State.install (s : State) (r : LoadReq) (file : List Byte) (narrow : Bool) (base : Nat) (rel : List (Nat × List Byte)) : Option State :=
  let v := s.vd r.vd
  let image := rel.foldl patch (imageOf file)
  (State.mapPages r file image base (List.range (recFld file 24 8 / 4096)) r.frames r.tables s).bind fun s1 =>
    let id := s1.nextId
    ((List.range 64).find? fun i => (Tbl.find v.ranges i).isNone).bind fun ix =>
      (mkRange file base id).map fun range =>
        let o := mkObj v file narrow base id
        ({ s1 with nextId := id + 1 }.modVd r.vd fun v => { v with
          objs := v.objs ++ [(id, o)], ranges := v.ranges ++ [(ix, range)]
          kernels := v.kernels ++ o.kernels.zipIdx.map fun (x : Kernel × Nat) => (x.1.entry, id, x.2) }).answer 0 0

/-- LOADER_LOAD: an object is loaded whole, or a status is returned and nothing is changed (R71). -/
def execLoaderLoad (r : LoadReq) (s : State) : Out :=
  let v := s.vd r.vd
  .next (match selectImage v r with
    | .error st => s.answer st 0
    | .ok (file, narrow) =>
      if headerBad file then s.answer 1 0
      else match s.takeBase r file with
        | .error st => s.answer st 0
        | .ok base => match applyRelocs v file base with
          | .error e => s.answer e.1 e.2
          | .ok rel =>
            if 64 ≤ v.ranges.length then s.answer 3 0
            else (s.install r file narrow base rel).getD s)

/-! ## Unload, swap, retire (R72, R85, R86) -/

/-- The leaf of a page is no longer valid. -/
def State.clearLeaf (va : Nat) : List Nat → Nat → State → State
  | [], _, s => s
  | lvl :: rest, t, s =>
    let e := s.tableEntry t va lvl
    if !pteBit e 0 then s else if pteBit e 3 then s.putEntry t va lvl 0 else State.clearLeaf va rest (ptePfn e * 4096) s

/-- An object is no longer loaded: its leaves, its range, its symbols and its kernels are gone. -/
def State.removeObj (s : State) (vd obj : Nat) (o : Obj) : State :=
  let s1 := (List.range (o.size / 4096)).foldl (fun (t : State) i =>
    State.clearLeaf (o.base.toNat + 4096 * i) [0, 1, 2, 3, 4, 5] ((t.vd vd).ptroot % 2 ^ 52) t) s
  (s1.modVd vd fun v => { v with
    objs := Tbl.drop v.objs obj, ranges := v.ranges.filter fun (e : Nat × CodeRange) => e.2.obj ≠ obj
    kernels := v.kernels.filter fun (e : Va × Nat × Nat) => e.2.1 ≠ obj }).answer 0 0

/-- LOADER_UNLOAD: refused with LOAD_IN_USE while a loaded object holds a relocation against a symbol of the object (R72). -/
def execLoaderUnload (vd obj : Nat) (s : State) : Out :=
  .next (match Tbl.find (s.vd vd).objs obj with
    | none => s
    | some o => if (s.vd vd).objs.any fun e => e.1 ≠ obj && e.2.refs.contains obj then s.answer 8 0 else s.removeObj vd obj o)

/-- The kernel of an object that a name is the symbol of (R66). -/
def Obj.kernelNamed (o : Obj) (name : List Byte) : Option Nat := o.kernels.findIdx? fun k => k.name = name

/-- The kernel table of a virtual device after a switch: entries of the old object's kernels lead to the new object's kernels of
the same symbols. -/
def VDev.swapKernels (v : VDev) (old new : Nat) (o n : Obj) : List (Va × Nat × Nat) :=
  v.kernels.map fun e =>
    if e.2.1 ≠ old then e
    else match (o.kernels[e.2.2]?).bind fun k => n.kernelNamed k.name with
      | some ix => (e.1, new, ix)
      | none => e

/-- The address of a symbol that an object defines; `own`: one that other objects need not see comes first. -/
def Obj.symAt (o : Obj) (own : Bool) (name : List Byte) : Option Va :=
  (((if own then o.locals else []) ++ o.syms).find? fun x => x.1 = name).map (·.2)

/-- A GOT entry that names a symbol of the old object, with what it holds after a switch: S + A and the new base (R68, R85). -/
def GotEnt.swap (g : GotEnt) (old : Nat) (n : Obj) : Option (Va × Va) :=
  if g.obj ≠ old then none
  else (n.symAt g.own g.name).map fun a => (g.place, BitVec.ofInt 80 (a.toNat + g.add))

/-- A GOT entry is rewritten. -/
def State.writeGot (s : State) (vd : Nat) (place target base : Va) : State :=
  match s.mapped vd place.toNat with
  | some e =>
    let pa := ptePfn e * 4096 + place.toNat % 4096
    s.writeHbm none none (pteKey e) pa
      (leBytes 10 target.toNat ++ List.replicate 6 0 ++ leBytes 10 base.toNat ++ List.replicate 6 0)
  | none => s

/-- An object after a switch: the entries that were rewritten name the new object's symbols. -/
def Obj.afterSwap (e : Obj) (old new : Nat) (n : Obj) : Obj :=
  let got := e.gotSyms.map fun (g : GotEnt) => if (g.swap old n).isSome then { g with obj := new } else g
  let hit := e.gotSyms.any fun (g : GotEnt) => (g.swap old n).isSome
  { e with gotSyms := got, refs := if hit && !e.refs.contains new then e.refs ++ [new] else e.refs }

/-- CODE_SWAP: the single switch to a replacement that has been loaded: the kernel table and every GOT entry that names a symbol
of the replaced object (R85). What the replacement does not define keeps its old entry. -/
def execCodeSwap (vd old new : Nat) (s : State) : Out :=
  let v := s.vd vd
  .next (match Tbl.find v.objs old, Tbl.find v.objs new with
    | some o, some n =>
      let gots := v.objs.flatMap fun (e : Nat × Obj) => e.2.gotSyms.filterMap fun (g : GotEnt) => g.swap old n
      let s1 := gots.foldl (fun (t : State) g => t.writeGot vd g.1 g.2 n.base) s
      s1.modVd vd fun v => { v with
        kernels := v.swapKernels old new o n
        objs := v.objs.map fun (e : Nat × Obj) => (e.1, e.2.afterSwap old new n) }
    | _, _ => s)

/-- The launch has bound a kernel entry, and has neither retired nor been ended: one that failed a later check of R370 stays
unretired until its completion record is due (R85, R86). -/
def Launch.bound (l : Launch) : Bool :=
  !l.retired && !l.ended && !(l.fail.any fun f => f.1 = 4 || f.1 = 5)

/-- The unretired launches whose kernel entry lies in an object's code range (R86). -/
def State.useCount (s : State) (vd obj : Nat) : Nat :=
  (s.launches.filter fun e => e.2.vd = vd && e.2.bound && (match (s.vd vd).rangeAt e.2.entry with
    | some (_, r) => r.obj = obj
    | none => false)).length

/-- IMAGE_RETIRE: old text is retired when no launch counts in its range, else LOAD_IN_USE. -/
def execImageRetire (vd obj : Nat) (s : State) : Out :=
  .next (match Tbl.find (s.vd vd).objs obj with
    | none => s
    | some o => if 0 < s.useCount vd obj then s.answer 8 0 else s.removeObj vd obj o)

end Sys2Proof.Machine
end

