-- ==== Sys2Proof/Machine/Power.lean ====
section
/-! DEFINITION. The governor's registers and temperature (R400), power and bring-up (R401, R402), and the Causeway links (R329,
R330). -/

namespace Sys2Proof.Machine

/-! ## The governor (R400) -/

/-- GOVCFG_WRITE: refused whole where `thot` or `bud` is out of range. -/
def execGovcfgWrite (die : Nat) (w : W32) (s : State) : Out :=
  let thot := w.toNat / 2 ^ 16 % 1024
  let bud := w.toNat % 1024
  .next (if 4 ≤ die || thot < 60 || 100 < thot || bud < 16 then s
    else s.modDie die fun d => { d with thot := thot, bud := bud })

/-- The thermal limit after a millisecond at a temperature. -/
def Die.adjust (d : Die) (tmp : Nat) : Die :=
  { d with tmp := tmp
           tlim := if d.thot ≤ tmp then (if 16 < d.tlim then max 16 (d.tlim - 16) else d.tlim)
             else if tmp + 5 < d.thot then min 1023 (d.tlim + 16) else d.tlim }

/-- THERMAL_ADJUST: each millisecond, at what the hottest sensor reads. -/
def execThermalAdjust (die tmp : Nat) (s : State) : Out :=
  .next (if 4 ≤ die || 128 ≤ tmp then s else s.modDie die fun d => d.adjust tmp)

/-! ## Power (R401, R402) -/

/-- The state of a device that has lost its power or is brought up: nothing is retained. Host memory, the other packages, and
what the host has been told are not the device's. -/
def State.blank (s : State) (powered : Bool) (mailbox : Option Nat) : State :=
  { State.reset with
    powered := powered, mailbox := mailbox, agenda := s.agenda, free := s.free, nextId := s.nextId
    mem := s.mem.filter fun c => region c.1 = 1
    peer := s.peer, hostData := s.hostData, irqs := s.irqs }

/-- THERMAL_TRIP: at 110 °C every virtual device is told and reset, and the compute dies lose their power; the functions still
answer. -/
def execThermalTrip (die : Nat) (s : State) : Out :=
  .next (if 4 ≤ die || (s.die die).tmp < 110 then s
    else
      let s1 := (List.range 256).foldl (fun (t : State) v => t.raise (.plain (some v) 2 0 0)) s
      let s2 := (s1.vds.map (·.1)).foldl (fun (t : State) v => t.resetVd v) s1
      { s2.blank false none with dies := [(die, { Die.init with trip := true })] })

/-- POWER_LOSS: the loss of module power. -/
def execPowerLoss (s : State) : Out := .next (s.blank false none)

/-- The compute dies alone have lost their power: the register of a die that has tripped is there (R400). -/
def State.standby (s : State) : Bool := !s.powered && s.mailbox.isNone && !s.dies.isEmpty

/-- A bring-up that stops at a step: what the steps from it on would have cleared stays, memory and key slots (2), the storage of the
dies (3), the links (4), and the mailbox holds the number. -/
def State.stopAtStep (s : State) (k : Nat) : State :=
  let t := s.blank false (some k)
  let t1 := if 2 < k then t else { t with mem := s.mem, lineSlot := s.lineSlot, poison := s.poison, latent := s.latent, keys := s.keys }
  let t2 := if 3 < k then t1 else
    { t1 with dies := s.dies, cores := s.cores, launches := s.launches, blocks := s.blocks, groups := s.groups, accesses := s.accesses,
              invals := s.invals, results := s.results, waits := s.waits }
  if 4 < k then t2 else { t2 with links := s.links }

/-- BRING_UP: after power-on or a PF 0 function-level reset; a failing step stops it. -/
def execBringUp (failAt : Option Nat) (s : State) : Out :=
  .next (match failAt with
    | some k => if 1 ≤ k && k ≤ 5 then s.stopAtStep k else s
    | none => s.blank true none)

/-! ## Causeway links (R329, R330) -/

/-- The links of a package. -/
def isLink (k : Nat) : Bool := k < 24

/-- FLIT_RECEIVE: a flit whose CRC holds ends a series of replays and of missing heartbeats; another is replayed. -/
def execFlitReceive (link : Nat) (crcOk : Bool) (s : State) : Out :=
  .next (if !isLink link || !(s.link link).up then s
    else
      let s1 := s.modLink link fun l => if crcOk then { l with missed := 0, replays := 0 } else { l with replays := l.replays + 1 }
      s1.countDie (link / 6) 0x85 none 1)

/-- HEARTBEAT_TIMER: a microsecond has passed: an idle link sends a heartbeat, and one more may be missing. -/
def execHeartbeatTimer (link : Nat) (s : State) : Out :=
  .next (if !isLink link || !(s.link link).up then s
    else (s.modLink link fun l => { l with missed := l.missed + 1 }).countDie (link / 6) 0x84 none 1)

/-- A link is lost: 4 heartbeats in a row are missing, or a flit has failed and its 16 replays too. -/
def Link.isLost (l : Link) : Bool := 5 ≤ l.missed || 17 ≤ l.replays

/-- LINK_LOSS: the link is declared lost, ranks that no remaining route reaches are dropped, and system software is told (R336,
R338). -/
def execLinkLoss (link : Nat) (s : State) : Out :=
  let l := s.link link
  .next (if isLink link && l.up && l.isLost then (s.modLink link fun l => { l with up := false }).dropUnreached.fabricEvent none else s)

/-- LINK_SHARE_WRITE: a partition's share of a link; refused where the sum of `min` would exceed 64. -/
def execLinkShareWrite (link part : Nat) (w : W32) (s : State) : Out :=
  let new : W32 := w &&& 0x7F
  let others := (s.link link).shares.foldl (fun (a : Nat) (e : Nat × W32) => if e.1 = part then a else a + e.2.toNat % 64) 0
  .next (if !isLink link || 32 ≤ part || 64 < others + new.toNat % 64 then s
    else s.modLink link fun l => { l with shares := Tbl.put l.shares part new })

end Sys2Proof.Machine
end

