-- ==== Sys2Proof/Machine/Ready.lean ====
section
/-! DEFINITION. When a group is ready (R90), the path that it issues from (R93), and why it is not (R389). -/

namespace Sys2Proof.Machine

/-! ## The next instruction -/

/-- The word at a path's PC, where the group's core may fetch it (R76, R77). -/
def State.nextWord (s : State) (gid : Nat) (g : Group) (p : Path) : Option (BitVec 96) :=
  (s.fetchable g.core (s.vdOf gid) p.pc).map fun m => chunkWord m p.pc

/-- The path that a group issues from. -/
def Group.current (g : Group) : Option Path := pathAt g.paths g.cur

/-- The timing fields let the word issue (R43, R46). -/
def Group.timed (g : Group) (w : BitVec 96) (now : Nat) : Bool :=
  let h := (Raw.ofWord w).hints
  g.distMet h now && g.waitMet h && g.setFree h

/-- A group is ready as far as R90 goes without the structural resources, which its issue itself finds taken or free. -/
def State.ready (s : State) (gid : Nat) (g : Group) : Bool :=
  s.mayIssue gid g && match g.current with
    | none => false
    | some p => p.couldIssue && match s.nextWord gid g p with
      | none => false
      | some w => g.timed w s.cycle

/-! ## The current path (R93) -/

/-- The ready path that follows a current path that cannot issue: the next in rotation, but while the track is in REC or REV the
one that holds the lowest lane, and none while the current path sleeps (R93, R294). -/
def Group.nextPath (g : Group) : Option Nat :=
  if !g.track.locked then g.rotation.head?
  else match g.current.map fun (p : Path) => p.st with
    | some (.sleep _) => none
    | _ => (sortBy (fun x y => x ≤ y) g.rotation).head?

/-- The current path cannot issue, or it has yielded: the next ready path in rotation becomes current, unless an entry set
comes next in it (R93, R109, R343). -/
def State.settlePath (s : State) (gid : Nat) : State :=
  match Tbl.find s.groups gid with
  | none => s
  | some g =>
    if g.halt.isSome then s
    else
      let stuck := match g.current with
        | some p => !p.couldIssue
        | none => true
      if g.rotate then s.rotatePath gid g
      else if stuck then match g.nextPath with
        | some x => s.modGroup gid fun g => g.switchTo x s.cycle
        | none => s
      else s

/-! ## Reasons (R389) -/

/-- The reason that a stall stands for, with its flag. -/
def Stall.reason : Stall → Nat × Nat
  | .dist => (2, 0)
  | .waitFlag f => (3, f)
  | .setBusy f => (4, f)
  | .fetch => (5, 0)
  | .translation => (6, 0)
  | .page _ _ => (6, 0)
  | .memoryQueue => (7, 0)
  | .engineQueue => (8, 0)
  | .permit _ _ => (9, 0)
  | .revocation _ => (10, 0)
  | .capacity => (10, 0)
  | .tape => (11, 0)
  | .barrier => (12, 0)
  | .gather => (13, 0)
  | .bins _ => (14, 0)
  | .engineWait => (15, 0)
  | .sleep => (16, 0)
  | .parked => (17, 0)
  | .stopped => (18, 0)

/-- The reason of the timing fields, with its flag: DIST, WAIT_FLAG or SET_BUSY. -/
def Group.timeReason (g : Group) (w : BitVec 96) (now : Nat) : Option (Nat × Nat) :=
  let h := (Raw.ofWord w).hints
  if !g.distMet h now then some (2, 0)
  else match (List.range 12).find? fun f => h.wait.getLsbD f && g.flagPending f with
    | some f => some (3, f)
    | none => if !g.setFree h then some (4, h.set.toNat) else none

/-- Why a group with a current path did not issue, apart from its issue of this cycle: reason and flag. -/
def State.pathReason (s : State) (gid : Nat) (g : Group) (p : Path) : Nat × Nat :=
  let early := match p.st with
    | .sleep _ => some 16
    | .tags _ _ => some 15
    | .ctr _ _ => some 15
    | .join _ => some 13
    | .bar _ => some 12
    | .bins _ => some 14
    | .fetch => some (if s.fetchWaits gid (lowLane p.mask) then 17 else 5)
    | .read => some 6
    | .ready => none
  match early with
  | some r => (r, 0)
  | none => match s.nextWord gid g p with
    | none => (5, 0)
    | some w =>
      let why := (g.why.map Stall.reason).getD (1, 0)
      if why.1 = 6 then why else (g.timeReason w s.cycle).getD why

/-- The reason of a resident group in this cycle (R389), with the flag of reasons 3 and 4. -/
def State.reason (s : State) (gid : Nat) (g : Group) : Nat × Nat :=
  if g.lastIssue = some s.cycle then (0, 0)
  else
    let held := match g.current with
      | some p => p.stop.isSome
      | none => g.held.isSome || (!g.paths.isEmpty && g.paths.all fun p => p.stop.isSome)
    if g.halt.isSome || (s.vd (s.vdOf gid)).halt || held then (18, 0)
    else if s.waking gid then (17, 0)
    else match g.current with
      | none => (17, 0)
      | some p => s.pathReason gid g p

/-- The groups that stand in the slots of a core's scheduler, by rising slot. -/
def State.residents (s : State) (core sched : Nat) : List (Nat × Group) :=
  sortBy (fun x y => x.2.slot ≤ y.2.slot) (s.groups.filter fun e =>
    e.2.core = core && e.2.sched = sched && (match Tbl.find s.blocks e.2.blk with
      | some b => b.loc = .core core
      | none => false))

end Sys2Proof.Machine
end

