-- ==== Sys2Proof/Machine/Sample.lean ====
section
/-! DEFINITION. Stall samples (R388, R389) and tagged-instruction records (R387). -/

namespace Sys2Proof.Machine

def Core.sched (k : Core) (n : Nat) : SchedObs := Tbl.getD k.obs n .init

def State.modSched (s : State) (core n : Nat) (f : SchedObs → SchedObs) : State :=
  s.modCore core fun k => { k with obs := Tbl.put k.obs n (f (k.sched n)) }

/-! ## Records of a path (R388) -/

/-- The active lanes and the PC that a sample of a group shows: those of the issue of this cycle, of its current path, or of
its parked lanes. -/
def State.shown (s : State) (gid : Nat) (g : Group) : LaneMask × Va :=
  let o := (s.core g.core).sched g.sched
  let now := if o.issued = s.cycle + 1 then o.last.find? fun i => i.gid = gid else none
  match now with
  | some i => (i.mask, i.pc)
  | none => s.stands gid g

/-- Bytes [31:4] of a SAMPLE record for lanes of a group. -/
def State.sampleTail (s : State) (g : Group) (m : LaneMask) (pc : Va) : List Byte :=
  let e := (g.named m).headD (0, 0)
  leBytes 4 (s.launchOf g).toNat ++ leBytes 8 e.1.toNat ++ leBytes 4 e.2.toNat ++ leBytes 10 pc.toNat ++
    leBytes 1 g.core ++ leBytes 1 g.place

/-- The first word of a SAMPLE record. -/
def sampleHead (vd : Nat) (hv : Bool) (r : Nat × Nat) : List Byte :=
  leBytes 4 (5 * 2 ^ 28 + r.1 * 2 ^ 23 + r.2 * 2 ^ 19 + (if hv then 2 ^ 18 else 0) + vd % 256 * 2 ^ 8)

/-- A sample of a group is written. -/
def State.sampleGroup (s : State) (vd gid : Nat) (g : Group) : State :=
  let hv := ((Tbl.find s.blocks g.blk).map (·.harvest)).getD false
  let x := s.shown gid g
  s.ringRecord vd true (sampleHead vd hv (s.reason gid g) ++ s.sampleTail g x.1 x.2 ++ s.contBytes vd g x.1)

/-- The virtual device whose groups a scheduler holds. -/
def State.schedVd (s : State) (core sched : Nat) : Option Nat := (s.residents core sched).head?.map fun e => s.vdOf e.1

/-- The sample period of a virtual device on a scheduler, in core cycles; none where it takes no samples. -/
def VDev.period (v : VDev) (sched : Nat) : Option Nat :=
  let per := v.sample.cfg.toNat % 65536
  if ringBit v.sample.cfg 31 && ringBit v.sample.cfg (24 + sched) && per ≠ 0 then some (max 16 per) else none

/-- The target of the next sample: the first resident slot behind the one sampled last. -/
def State.sampleTarget (s : State) (core sched : Nat) : Option (Nat × Group) :=
  let rs := s.residents core sched
  match rs.find? fun e => ((s.core core).sched sched).lastSlot < e.2.slot with
  | some e => some e
  | none => rs.head?

/-- A sample is taken on a scheduler, and its clock restarts. -/
def State.takeSample (s : State) (core sched vd : Nat) : State :=
  let s1 := s.modSched core sched fun o => { o with clock := s.cycle }
  match s.sampleTarget core sched with
  | none => s1
  | some (gid, g) => (s1.sampleGroup vd gid g).modSched core sched fun o => { o with lastSlot := g.slot }

/-- A sample is due on a scheduler: whole periods have passed since its clock started. -/
def State.sampleDue (s : State) (core sched : Nat) : State :=
  match s.schedVd core sched with
  | none => s
  | some vd => match (s.vd vd).period sched with
    | none => s
    | some per =>
      let past := s.cycle - ((s.core core).sched sched).clock
      if 0 < past && past % per = 0 && sched < 4 then s.takeSample core sched vd else s

/-- STALL_SAMPLE: a sample is taken where one is due. -/
def execStallSample (core sched : Nat) (s : State) : Out := .next (s.sampleDue core sched)

/-- A launch issues its first instruction on a scheduler: with launch sync, its clock and its rotation restart, and a sample is
taken. -/
def State.syncSample (s : State) (core sched vd launch : Nat) : State :=
  if ((s.core core).sched sched).seen.contains launch then s
  else
    let s1 := s.modSched core sched fun o => { o with seen := o.seen ++ [launch] }
    if ringBit (s.vd vd).sample.cfg 29 && ((s.vd vd).period sched).isSome then
      (s1.modSched core sched fun o => { o with lastSlot := 31 }).takeSample core sched vd
    else s1

/-! ## Tagged instructions (R387) -/

/-- The distance to the next tagged issue: one of the N numbers from N on, N = 2^(tgi + 6). -/
def tagDistance (core sched draw tgi : Nat) : Nat := 2 ^ (tgi + 6) + Config.tagDraw core sched draw % 2 ^ (tgi + 6)

/-- The word is of category N and names no flag: its record has no write-back stage. -/
def noWriteback (w : BitVec 96) : Bool :=
  let r := Raw.ofWord w
  let k := (r.op.extractLsb' 7 3).toNat
  r.set = 15 && !isCatV r.op.toNat && (k = 0 || 4 ≤ k) && !([0x281, 0x284, 0x28A, 0x28C].contains r.op.toNat)

/-- An issue counts toward the next tagged one, which is skipped while one is in flight. -/
def State.countTag (s : State) (core sched vd : Nat) (t : Tagged) : State :=
  let cfg := (s.vd vd).sample.cfg
  if !ringBit cfg 28 then s
  else
    let o := (s.core core).sched sched
    let tgi := cfg.toNat / 2 ^ 16 % 16
    let left := if o.left = 0 then tagDistance core sched o.draws tgi else o.left
    let draws := if o.left = 0 then o.draws + 1 else o.draws
    if 1 < left then s.modSched core sched fun o => { o with left := left - 1, draws := draws }
    else s.modSched core sched fun o =>
      { o with left := tagDistance core sched draws tgi, draws := draws + 1
               tagged := if o.tagged.isSome then o.tagged else some t }

/-- A stage count of a record. -/
def stage (n : Nat) : List Byte := leBytes 2 (min 65535 n)

/-- The bytes of a TAGGED record with its continuations: its code, and its stages; `past`: the cycles from its issue to what has cut
it off, past which the stages read zero. -/
def Tagged.record (t : Tagged) (code : BitVec 9) (fet rdy opc exe wbk lvl : Nat) (past : Option Nat) : List Byte :=
  let upTo := fun (n before : Nat) => match past with
    | some e => min n (e - before)
    | none => n
  let a := upTo opc 0
  let b := upTo exe a
  let c := if t.noWb then 0 else upTo wbk (a + b)
  leBytes 4 (4 * 2 ^ 28 + t.vd % 256 * 2 ^ 20 + (if t.mem then lvl % 8 else 0) * 2 ^ 17 + (if past.isSome then 2 ^ 16 else 0) + code.toNat) ++
    t.bytes ++ stage fet ++ stage rdy ++ stage a ++ stage b ++ stage c ++
    List.replicate 6 0 ++ leBytes 8 t.time ++ List.replicate 8 0 ++ t.conts

/-- The last register write of a tagged instruction, and the clearing of its flag, are past. -/
def State.tagOver (s : State) (t : Tagged) : Bool :=
  t.till ≤ s.cycle && match Tbl.find s.groups t.gid with
    | some g => t.flag = 15 || !g.flagPending t.flag
    | none => true

/-- A revocation, the end of a slice, a debug stop or the end of its group has interrupted a tagged instruction. -/
def State.tagCut (s : State) (t : Tagged) : Bool :=
  match Tbl.find s.groups t.gid with
  | some g => g.halt.isSome || g.paths.any (fun p => p.stop.isSome) || (match Tbl.find s.blocks g.blk with
      | some b => b.loc ≠ .core g.core
      | none => true)
  | none => true

/-- The cause code that a tagged instruction has raised in a live lane: at its issue, or since, in the lanes that it has parked or
that an error of it waits for. -/
def State.tagCode (s : State) (t : Tagged) : BitVec 9 :=
  if t.code ≠ 0 then t.code
  else match Tbl.find s.groups t.gid with
    | none => 0
    | some g =>
      let parked := g.faults.findSome? fun (e : Nat × FaultRec) => if e.2.orig = t.pc && t.who.contains (g.lt e.1) then some e.2.code else none
      let late := g.errs.findSome? fun (e : LateFault) =>
        if e.fault.orig = t.pc && (e.thr.all fun x => t.who.contains x) then some e.fault.code else none
      (parked.orElse fun _ => late).getD 0

/-- The record of the tagged instruction of a scheduler is written, with these stage counts. -/
def State.writeTag (s : State) (core sched : Nat) (t : Tagged) (fet rdy opc exe wbk lvl : Nat) : State :=
  let past := if s.tagOver t then none else some (s.cycle - t.time)
  (s.modSched core sched fun o => { o with tagged := none }).ringRecord t.vd true
    (t.record (s.tagCode t) fet rdy opc exe wbk lvl past)

/-- A tagged instruction that has reached its write-back, or has been cut off before it, leaves its record before the cycle is over,
with counts that nothing fixes. -/
def State.endTag (s : State) (core sched : Nat) : State :=
  match ((s.core core).sched sched).tagged with
  | none => s
  | some t =>
    if s.tagOver t || s.tagCut t then
      let n := fun k => Config.freeNat s.free k
      { (s.writeTag core sched t (n 81) (n 82) (n 83) (n 84) (n 85) (n 86)) with free := s.free + 1 }
    else s

/-- TAGGED_RECORD: the tagged instruction of a scheduler reaches its write-back, or is cut off before it. -/
def execTaggedRecord (core sched fet rdy opc exe wbk lvl : Nat) (cut : Bool) (s : State) : Out :=
  .next (match ((s.core core).sched sched).tagged with
    | none => s
    | some t =>
      if !(if cut then s.tagCut t && !s.tagOver t else s.tagOver t) then s
      else s.writeTag core sched t fet rdy opc exe wbk lvl)

end Sys2Proof.Machine
end

