-- ==== Sys2Proof/Machine/Regs.lean ====
section
/-! DEFINITION. Writes of host and system software to the registers that no other event writes, field by field as their maps
give them (R2, R3, R365, R367, R376, R377, R383, R390, R395, R400; R331 and R332 for the tables). -/

namespace Sys2Proof.Machine

/-- The 32-bit word that a write carries. -/
def regWord (val : RegVal) : W32 := BitVec.ofNat 32 (leNat (val.take 4))

/-- A base of three words with one of them replaced; bits above 80 are not there. -/
def setPart (old : Va) (k : Fin 3) (w : W32) : Va :=
  let keep := old.toNat - old.toNat / 2 ^ (32 * k.val) % 2 ^ 32 * 2 ^ (32 * k.val)
  BitVec.ofNat 80 (keep + w.toNat * 2 ^ (32 * k.val))

/-- A register whose RW fields are the bits of `rw` and whose W1C bits are those of `w1c`; other bits stay (R2, R3). -/
def regMerge (old w rw w1c : W32) : W32 := (old &&& ~~~rw &&& ~~~(w &&& w1c)) ||| (w &&& rw)

/-- TCFG and SCFG (R383). -/
def Ring.writeCfg (r : Ring) (sample : Bool) (w : W32) : Ring :=
  { r with cfg := regMerge r.cfg w (if sample then 0xBFFFFFFF else 0x80F00000) 0x40000000 }

/-- A breakpoint unit at reset. -/
def BpUnit.init : BpUnit := { bpa := 0, bpf := 0, bpl := 0, bpb := 0, bpt := 0 }

def VDev.modBp (v : VDev) (u : Nat) (f : BpUnit → BpUnit) : VDev :=
  if u < 8 then { v with bps := Tbl.put v.bps u (f (Tbl.getD v.bps u .init)) } else v

/-- A selector of an event counter (R390). -/
def writeSel (t : Tbl EvCnt) (k : Nat) (w : W32) : Tbl EvCnt :=
  let old := Tbl.getD t k ⟨0, 0⟩
  Tbl.put t k { old with sel := regMerge old.sel w 0xA000FFFF 0x40000000 }

/-- CMPLS: `v` is cleared by a one, and with it `lost` (R376). -/
def VDev.clearCmpl (v : VDev) (w : W32) : VDev := if ringBit w 31 then { v with cmplv := false, cmplLost := 0 } else v

/-- PCFG of a partition (R377). -/
def Partition.writeCfg (p : Partition) (w : W32) : Partition :=
  let x := w.toNat / 256 % 16
  if 8 < x then p else { p with xres := x, arec := ringBit w 0 }

/-- Bytes of a configuration block, written while the virtual device is stopped (R365). -/
def VDev.writeConfig (v : VDev) (off : Nat) (bs : List Byte) : VDev :=
  if v.run then v
  else { v with config := (List.range 256).map fun i =>
    if off ≤ i && i < off + bs.length then bs.getD (i - off) 0 else v.config.getD i 0 }

/-- Numbers of two bytes each. -/
def halves : Nat → List Byte → List Nat
  | 0, _ => []
  | n + 1, bs => leNat (bs.take 2) :: halves n (bs.drop 2)

/-- A communicator slot as system software writes it: `valid`, `nr`, `me`, `sil` and the routes; a value outside its range
leaves the slot as it is (R332). -/
def commOf (old : Comm) (bs : List Byte) : Comm :=
  let nr := leNat ((bs.drop 1).take 2)
  let me := leNat ((bs.drop 3).take 2)
  let sil := leNat ((bs.drop 5).take 2)
  if nr < 1 || 8192 < nr || sil < 1 || 1000 < sil || nr ≤ me then old
  else { valid := leNat (bs.take 1) % 2 = 1, nr := nr, me := me, routes := halves nr (bs.drop 7), sil := sil,
         broken := false, dropped := [], seq := 0 }

/-- A register of a virtual device's function or of its tables. -/
def VDev.writeReg (v : VDev) (r : RegName) (val : RegVal) : VDev :=
  let w := regWord val
  match r with
  | .qbase _ q k => if q < 64 then
      { v with queues := Tbl.put v.queues q { v.queue q with base := setPart (v.queue q).base k w } } else v
  | .tbase _ k => { v with trace := { v.trace with base := setPart v.trace.base k w } }
  | .tcfg _ => { v with trace := v.trace.writeCfg false w }
  | .sbase _ k => { v with sample := { v.sample with base := setPart v.sample.base k w } }
  | .scfg _ => { v with sample := v.sample.writeCfg true w }
  | .dcfg _ => { v with dcfg := ringBit w 31 }
  | .dbase _ k => { v with dbase := setPart v.dbase k w }
  | .bpa _ u k => v.modBp u fun b => { b with bpa := setPart b.bpa k w }
  | .bpf _ u => v.modBp u fun b => { b with bpf := w &&& 0xFF800000 }
  | .bpl _ u => v.modBp u fun b => { b with bpl := w }
  | .bpb _ u => v.modBp u fun b => { b with bpb := w }
  | .bpt _ u => v.modBp u fun b => { b with bpt := w }
  | .cmpls _ => v.clearCmpl w
  | .vdConfig _ off => v.writeConfig off val
  | .aperture _ ix => if ix < 256 && !v.sliced && leNat ((val.drop 1).take 2) ≤ 8191 then { v with aperture := Tbl.put v.aperture ix val } else v
  | .pcfg _ | .govstat _ | .evselCore _ _ | .evselDie _ _ | .commSlot _ _ | .readOnly _ => v

/-- The virtual device that a register belongs to. -/
def RegName.owner : RegName → Option Nat
  | .qbase vd _ _ | .tbase vd _ | .tcfg vd | .sbase vd _ | .scfg vd | .dcfg vd | .dbase vd _ | .bpa vd _ _ | .bpf vd _
  | .bpl vd _ | .bpb vd _ | .bpt vd _ | .cmpls vd | .vdConfig vd _ | .aperture vd _ => some vd
  | .pcfg _ | .govstat _ | .evselCore _ _ | .evselDie _ _ | .commSlot _ _ | .readOnly _ => none

/-- The virtual device whose function holds a register (R364). -/
def RegName.function (r : RegName) : Option Nat :=
  match r with
  | .vdConfig _ _ | .aperture _ _ => none
  | r => RegName.owner r

/-- REGISTER_WRITE. -/
def execRegisterWrite (r : RegName) (val : RegVal) (s : State) : Out :=
  let w := regWord val
  .next (match RegName.owner r with
    | some vd => if vd < 256 then s.modVd vd fun v => v.writeReg r val else s
    | none => match r with
      | .pcfg p => if p < 32 && s.partStopped p then s.modPart p fun x => x.writeCfg w else s
      | .govstat die => if die < 4 then s.modDie die fun d => { d with trip := d.trip && !ringBit w 31 } else s
      | .evselCore c k => if c < 256 && k < 8 then s.modCore c fun x => { x with cnt := writeSel x.cnt k w } else s
      | .evselDie d k => if d < 4 && k < 16 then s.modDie d fun x => { x with cnt := writeSel x.cnt k w } else s
      | .commSlot p ix =>
        if p < 32 && ix < 64 then { s with comms := Tbl.put s.comms (64 * p + ix) (commOf (s.comm p ix) val) } else s
      | _ => s)

end Sys2Proof.Machine
end

