-- ==== Sys2Proof/Machine/Dispatch.lean ====
section
/-! DEFINITION. Dispatch: each constructor of Instr to its meaning. -/

namespace Sys2Proof.Machine

open Sys2Proof

/-- The meaning of an instruction or an event at a state. -/
def exec (i : Instr) (s : State) : Host.Outcome State Fault Refusal :=
  match i with
  | .nop h x => Sys2Proof.Machine.execNop h x s
  | .bra h disp => Sys2Proof.Machine.execBra h disp s
  | .brx h bN => Sys2Proof.Machine.execBrx h bN s
  | .brxIx h off bN => Sys2Proof.Machine.execBrxIx h off bN s
  | .call h bD disp => Sys2Proof.Machine.execCall h bD disp s
  | .callx h bD bN => Sys2Proof.Machine.execCallx h bD bN s
  | .callxIx h bD off bN => Sys2Proof.Machine.execCallxIx h bD off bN s
  | .ret h bN => Sys2Proof.Machine.execRet h bN s
  | .exit h => Sys2Proof.Machine.execExit h s
  | .join h jk => Sys2Proof.Machine.execJoin h jk s
  | .waitj h jk => Sys2Proof.Machine.execWaitj h jk s
  | .reform h idx => Sys2Proof.Machine.execReform h idx s
  | .binDraw core bin => Sys2Proof.Machine.execBinDraw core bin s
  | .spawn h d entry count nargs => Sys2Proof.Machine.execSpawn h d entry count nargs s
  | .yield h n => Sys2Proof.Machine.execYield h n s
  | .yieldWake grp path => Sys2Proof.Machine.execYieldWake grp path s
  | .fairnessTimerExpiry grp => Sys2Proof.Machine.execFairnessTimerExpiry grp s
  | .bar h n => Sys2Proof.Machine.execBar h n s
  | .bararv h n => Sys2Proof.Machine.execBararv h n s
  | .barinit h n cnt => Sys2Proof.Machine.execBarinit h n cnt s
  | .barinitA h cnt n => Sys2Proof.Machine.execBarinitA h cnt n s
  | .hvq h d sel => Sys2Proof.Machine.execHvq h d sel s
  | .trap h n => Sys2Proof.Machine.execTrap h n s
  | .rthSkip h => Sys2Proof.Machine.execRthSkip h s
  | .rthRetry h => Sys2Proof.Machine.execRthRetry h s
  | .rthTo h bA => Sys2Proof.Machine.execRthTo h bA s
  | .sys h d arg svc => Sys2Proof.Machine.execSys h d arg svc s
  | .sysReply k reply => Sys2Proof.Machine.execSysReply k reply s
  | .rdsp h d sr => Sys2Proof.Machine.execRdsp h d sr s
  | .wrsp h a sr => Sys2Proof.Machine.execWrsp h a sr s
  | .bkpt h id => Sys2Proof.Machine.execBkpt h id s
  | .mark h id => Sys2Proof.Machine.execMark h id s
  | .iadd h ty sat d a b imm => Sys2Proof.Machine.execIadd h ty sat d a b imm s
  | .isub h ty sat d a b imm => Sys2Proof.Machine.execIsub h ty sat d a b imm s
  | .iaddc h cy d a b x => Sys2Proof.Machine.execIaddc h cy d a b x s
  | .imul h ty d a b imm => Sys2Proof.Machine.execImul h ty d a b imm s
  | .imulhi h ty d a b imm => Sys2Proof.Machine.execImulhi h ty d a b imm s
  | .imad h ty d a b x => Sys2Proof.Machine.execImad h ty d a b x s
  | .imadw h sgn d a b x => Sys2Proof.Machine.execImadw h sgn d a b x s
  | .imin h ty d a b imm => Sys2Proof.Machine.execImin h ty d a b imm s
  | .imax h ty d a b imm => Sys2Proof.Machine.execImax h ty d a b imm s
  | .iabs h w64 sat d a => Sys2Proof.Machine.execIabs h w64 sat d a s
  | .ineg h w64 sat d a => Sys2Proof.Machine.execIneg h w64 sat d a s
  | .and h w64 d a b imm => Sys2Proof.Machine.execAnd h w64 d a b imm s
  | .or h w64 d a b imm => Sys2Proof.Machine.execOr h w64 d a b imm s
  | .xor h w64 d a b imm => Sys2Proof.Machine.execXor h w64 d a b imm s
  | .andn h w64 d a b imm => Sys2Proof.Machine.execAndn h w64 d a b imm s
  | .not h w64 d a => Sys2Proof.Machine.execNot h w64 d a s
  | .shl h w64 d a b imm => Sys2Proof.Machine.execShl h w64 d a b imm s
  | .shr h w64 d a b imm => Sys2Proof.Machine.execShr h w64 d a b imm s
  | .sar h w64 d a b imm => Sys2Proof.Machine.execSar h w64 d a b imm s
  | .rot h w64 d a b imm => Sys2Proof.Machine.execRot h w64 d a b imm s
  | .popc h w64 d a => Sys2Proof.Machine.execPopc h w64 d a s
  | .clz h w64 d a => Sys2Proof.Machine.execClz h w64 d a s
  | .ctz h w64 d a => Sys2Proof.Machine.execCtz h w64 d a s
  | .brev h w64 d a => Sys2Proof.Machine.execBrev h w64 d a s
  | .bfx h ty d a b imm => Sys2Proof.Machine.execBfx h ty d a b imm s
  | .bfi h w64 d a b x => Sys2Proof.Machine.execBfi h w64 d a b x s
  | .icmp h ty cc d a b imm => Sys2Proof.Machine.execIcmp h ty cc d a b imm s
  | .isel h w64 d a b p => Sys2Proof.Machine.execIsel h w64 d a b p s
  | .fadd h ty rm d a b => Sys2Proof.Machine.execFadd h ty rm d a b s
  | .fsub h ty rm d a b => Sys2Proof.Machine.execFsub h ty rm d a b s
  | .fmul h ty rm d a b => Sys2Proof.Machine.execFmul h ty rm d a b s
  | .ffma h ty rm d a b x => Sys2Proof.Machine.execFfma h ty rm d a b x s
  | .fdiv h ty rm d a b => Sys2Proof.Machine.execFdiv h ty rm d a b s
  | .fmin h ty d a b => Sys2Proof.Machine.execFmin h ty d a b s
  | .fmax h ty d a b => Sys2Proof.Machine.execFmax h ty d a b s
  | .fcmp h ty cc d a b => Sys2Proof.Machine.execFcmp h ty cc d a b s
  | .fsel h ty d a b p => Sys2Proof.Machine.execFsel h ty d a b p s
  | .fclass h ty d a => Sys2Proof.Machine.execFclass h ty d a s
  | .fscale h ty rm d a b => Sys2Proof.Machine.execFscale h ty rm d a b s
  | .fsqrt h ty rm d a => Sys2Proof.Machine.execFsqrt h ty rm d a s
  | .frcp h ty rm d a => Sys2Proof.Machine.execFrcp h ty rm d a s
  | .frsq h ty rm d a => Sys2Proof.Machine.execFrsq h ty rm d a s
  | .fexp2 h ty rm d a => Sys2Proof.Machine.execFexp2 h ty rm d a s
  | .flog2 h ty rm d a => Sys2Proof.Machine.execFlog2 h ty rm d a s
  | .fsin h ty rm d a => Sys2Proof.Machine.execFsin h ty rm d a s
  | .fcos h ty rm d a => Sys2Proof.Machine.execFcos h ty rm d a s
  | .fdot2 h ty rm d a b x => Sys2Proof.Machine.execFdot2 h ty rm d a b x s
  | .hfma2 h ty rm d a b x => Sys2Proof.Machine.execHfma2 h ty rm d a b x s
  | .mov h w64 d a => Sys2Proof.Machine.execMov h w64 d a s
  | .movi h d imm => Sys2Proof.Machine.execMovi h d imm s
  | .movhi h d imm => Sys2Proof.Machine.execMovhi h d imm s
  | .cvt h rm sat dst frm d a => Sys2Proof.Machine.execCvt h rm sat dst frm d a s
  | .cbdec h x2 d a tx nib => Sys2Proof.Machine.execCbdec h x2 d a tx nib s
  | .shfl h m d a b imm => Sys2Proof.Machine.execShfl h m d a b imm s
  | .vote h m d a => Sys2Proof.Machine.execVote h m d a s
  | .redux h op d a => Sys2Proof.Machine.execRedux h op d a s
  | .prmt h nib d a b x => Sys2Proof.Machine.execPrmt h nib d a b x s
  | .shape h d a => Sys2Proof.Machine.execShape h d a s
  | .shapeQ h d a => Sys2Proof.Machine.execShapeQ h d a s
  | .expand h d a => Sys2Proof.Machine.execExpand h d a s
  | .smov h d a => Sys2Proof.Machine.execSmov h d a s
  | .smovChk h d a => Sys2Proof.Machine.execSmovChk h d a s
  | .smovLane h d a ln => Sys2Proof.Machine.execSmovLane h d a ln s
  | .pset h nz d a => Sys2Proof.Machine.execPset h nz d a s
  | .plop h op na nb nc d a b x => Sys2Proof.Machine.execPlop h op na nb nc d a b x s
  | .ld h w o64 pol d a b imm sc acq => Sys2Proof.Machine.execLd h w o64 pol d a b imm sc acq s
  | .st h w o64 pol d a b imm sc rel => Sys2Proof.Machine.execSt h w o64 pol d a b imm sc rel s
  | .ldu h w o64 d a b imm sc acq => Sys2Proof.Machine.execLdu h w o64 d a b imm sc acq s
  | .pref h k o64 a b imm => Sys2Proof.Machine.execPref h k o64 a b imm s
  | .ldres h w o64 d a b imm sc acq => Sys2Proof.Machine.execLdres h w o64 d a b imm sc acq s
  | .stcond h w rel o64 d a b imm sc st => Sys2Proof.Machine.execStcond h w rel o64 d a b imm sc st s
  | .atom h op ty d a b x => Sys2Proof.Machine.execAtom h op ty d a b x s
  | .fatom h op ty d a b x => Sys2Proof.Machine.execFatom h op ty d a b x s
  | .fatomOrd h d a seq x => Sys2Proof.Machine.execFatomOrd h d a seq x s
  | .acell h a count imm scope => Sys2Proof.Machine.execAcell h a count imm scope s
  | .acellClose h a imm scope => Sys2Proof.Machine.execAcellClose h a imm scope s
  | .acread h d a imm => Sys2Proof.Machine.execAcread h d a imm s
  | .pst h d tx i0 i1 => Sys2Proof.Machine.execPst h d tx i0 i1 s
  | .fence h k scope => Sys2Proof.Machine.execFence h k scope s
  | .bset h d a u imm => Sys2Proof.Machine.execBset h d a u imm s
  | .bsetAdd64 h d a p imm => Sys2Proof.Machine.execBsetAdd64 h d a p imm s
  | .bsetIns h d a u k => Sys2Proof.Machine.execBsetIns h d a u k s
  | .bsetRd h d a k => Sys2Proof.Machine.execBsetRd h d a k s
  | .cctl h k a b imm => Sys2Proof.Machine.execCctl h k a b imm s
  | .tlbinvPage h a u imm => Sys2Proof.Machine.execTlbinvPage h a u imm s
  | .tlbinvAll h => Sys2Proof.Machine.execTlbinvAll h s
  | .pageResponse vd page ok => Sys2Proof.Machine.execPageResponse vd page ok s
  | .memoryAccessComplete k part err => Sys2Proof.Machine.execMemoryAccessComplete k part err s
  | .invalidationRequest vd va => Sys2Proof.Machine.execInvalidationRequest vd va s
  | .instructionFetch grp => Sys2Proof.Machine.execInstructionFetch grp s
  | .chunkVerify core vd chunk => Sys2Proof.Machine.execChunkVerify core vd chunk s
  | .lookup h d a b imm => Sys2Proof.Machine.execLookup h d a b imm s
  | .tagset h slot a u imm => Sys2Proof.Machine.execTagset h slot a u imm s
  | .tagclr h slot => Sys2Proof.Machine.execTagclr h slot s
  | .tagclrLend h slot => Sys2Proof.Machine.execTagclrLend h slot s
  | .tagclrAll h => Sys2Proof.Machine.execTagclrAll h s
  | .tagrd h d slot => Sys2Proof.Machine.execTagrd h d slot s
  | .tagrdAddr h d slot => Sys2Proof.Machine.execTagrdAddr h d slot s
  | .copy h m slot tx quad => Sys2Proof.Machine.execCopy h m slot tx quad s
  | .copyw h m slot tx quad => Sys2Proof.Machine.execCopyw h m slot tx quad s
  | .copym h acq rel z slot tx quad xquad => Sys2Proof.Machine.execCopym h acq rel z slot tx quad xquad s
  | .copyExecute core ix rows err => Sys2Proof.Machine.execCopyExecute core ix rows err s
  | .waitany h lo mask => Sys2Proof.Machine.execWaitany h lo mask s
  | .waitall h lo mask => Sys2Proof.Machine.execWaitall h lo mask s
  | .ffready h lo d mask => Sys2Proof.Machine.execFfready h lo d mask s
  | .cwaitlt h c thr => Sys2Proof.Machine.execCwaitlt h c thr s
  | .ctrrd h d c sel => Sys2Proof.Machine.execCtrrd h d c sel s
  | .tdef h tx a b imm => Sys2Proof.Machine.execTdef h tx a b imm s
  | .tdefInv h tx => Sys2Proof.Machine.execTdefInv h tx s
  | .tset h tx a fld => Sys2Proof.Machine.execTset h tx a fld s
  | .tget h d tx fld => Sys2Proof.Machine.execTget h d tx fld s
  | .tloadcb h tx c scope acq => Sys2Proof.Machine.execTloadcb h tx c scope acq s
  | .tloadcbComplete core ix err => Sys2Proof.Machine.execTloadcbComplete core ix err s
  | .batload h acq ctr ctrIx slot a b imm scope => Sys2Proof.Machine.execBatload h acq ctr ctrIx slot a b imm scope s
  | .batloadExecute core err => Sys2Proof.Machine.execBatloadExecute core err s
  | .batstat h d slot sel => Sys2Proof.Machine.execBatstat h d slot sel s
  | .mmt h ck z sa sb c a b ctl => Sys2Proof.Machine.execMmt h ck z sa sb c a b ctl s
  | .mmx h ck z ta tb c txA txB quad => Sys2Proof.Machine.execMmx h ck z ta tb c txA txB quad s
  | .matrixStep core blk err => Sys2Proof.Machine.execMatrixStep core blk err s
  | .mresume h ctr ctrIx a b imm => Sys2Proof.Machine.execMresume h ctr ctrIx a b imm s
  | .mresumeReg h ctr ctrIx => Sys2Proof.Machine.execMresumeReg h ctr ctrIx s
  | .msave h rel ctr ctrIx a b imm => Sys2Proof.Machine.execMsave h rel ctr ctrIx a b imm s
  | .mldt h m d tx quad => Sys2Proof.Machine.execMldt h m d tx quad s
  | .mstt h m d tx quad => Sys2Proof.Machine.execMstt h m d tx quad s
  | .mzero h ctr ctrIx tile first count => Sys2Proof.Machine.execMzero h ctr ctrIx tile first count s
  | .mrd h d slab q => Sys2Proof.Machine.execMrd h d slab q s
  | .mwr h d slab q => Sys2Proof.Machine.execMwr h d slab q s
  | .mchk h pos i32 res d c k x => Sys2Proof.Machine.execMchk h pos i32 res d c k x s
  | .mdrain h adamw acq rel ctr keep txW txM quad bP => Sys2Proof.Machine.execMdrain h adamw acq rel ctr keep txW txM quad bP s
  | .tbegin h => Sys2Proof.Machine.execTbegin h s
  | .tbeginSeg h a b imm => Sys2Proof.Machine.execTbeginSeg h a b imm s
  | .trec h a => Sys2Proof.Machine.execTrec h a s
  | .tend h => Sys2Proof.Machine.execTend h s
  | .tendDrop h => Sys2Proof.Machine.execTendDrop h s
  | .trev h => Sys2Proof.Machine.execTrev h s
  | .tpop h d => Sys2Proof.Machine.execTpop h d s
  | .tpopSt h d => Sys2Proof.Machine.execTpopSt h d s
  | .tbr h disp => Sys2Proof.Machine.execTbr h disp s
  | .tmark h id => Sys2Proof.Machine.execTmark h id s
  | .tapeLineWrite core ix err => Sys2Proof.Machine.execTapeLineWrite core ix err s
  | .coll h k norm acq rel d a quad bP => Sys2Proof.Machine.execColl h k norm acq rel d a quad bP s
  | .collComplete die ix others agree done errAt err => Sys2Proof.Machine.execCollComplete die ix others agree done errAt err s
  | .rankDrop part comm rank => Sys2Proof.Machine.execRankDrop part comm rank s
  | .peerAccess k part answered => Sys2Proof.Machine.execPeerAccess k part answered s
  | .flitReceive link crcOk => Sys2Proof.Machine.execFlitReceive link crcOk s
  | .heartbeatTimer link => Sys2Proof.Machine.execHeartbeatTimer link s
  | .linkLoss link => Sys2Proof.Machine.execLinkLoss link s
  | .linkShareWrite link part w => Sys2Proof.Machine.execLinkShareWrite link part w s
  | .handlerEntry grp => Sys2Proof.Machine.execHandlerEntry grp s
  | .milestone vd => Sys2Proof.Machine.execMilestone vd s
  | .sliceEnd vd saved => Sys2Proof.Machine.execSliceEnd vd saved s
  | .sliceStart vd restored => Sys2Proof.Machine.execSliceStart vd restored s
  | .rollbackRequest vd saved => Sys2Proof.Machine.execRollbackRequest vd saved s
  | .hostAccess vd a => Sys2Proof.Machine.execHostAccess vd a s
  | .harvestAdmit vd launch cores => Sys2Proof.Machine.execHarvestAdmit vd launch cores s
  | .revocation core blk => Sys2Proof.Machine.execRevocation core blk s
  | .contextResume blk core restored => Sys2Proof.Machine.execContextResume blk core restored s
  | .contextMoveCore blk core => Sys2Proof.Machine.execContextMoveCore blk core s
  | .contextMoveMemory blk saved => Sys2Proof.Machine.execContextMoveMemory blk saved s
  | .marginReclaim cluster saved => Sys2Proof.Machine.execMarginReclaim cluster saved s
  | .hvcfgWrite core w => Sys2Proof.Machine.execHvcfgWrite core w s
  | .doorbell vd q t => Sys2Proof.Machine.execDoorbell vd q t s
  | .launchAccept vd q readOk preOk => Sys2Proof.Machine.execLaunchAccept vd q readOk preOk s
  | .dependencePoll vd launch readOk => Sys2Proof.Machine.execDependencePoll vd launch readOk s
  | .evpoke vd => Sys2Proof.Machine.execEvpoke vd s
  | .blockDispatch vd launch cores => Sys2Proof.Machine.execBlockDispatch vd launch cores s
  | .batchRequest vd launch die n => Sys2Proof.Machine.execBatchRequest vd launch die n s
  | .dieLoss die => Sys2Proof.Machine.execDieLoss die s
  | .launchComplete vd launch recOk sigOk => Sys2Proof.Machine.execLaunchComplete vd launch recOk sigOk s
  | .qcfgWrite vd q w => Sys2Proof.Machine.execQcfgWrite vd q w s
  | .vdStart vd => Sys2Proof.Machine.execVdStart vd s
  | .vdReset vd => Sys2Proof.Machine.execVdReset vd s
  | .abort vd launch => Sys2Proof.Machine.execAbort vd launch s
  | .lendtoLend cluster w => Sys2Proof.Machine.execLendtoLend cluster w s
  | .lendtoReclaim cluster => Sys2Proof.Machine.execLendtoReclaim cluster s
  | .partitionMaskWrite p margin w => Sys2Proof.Machine.execPartitionMaskWrite p margin w s
  | .pshareWrite p w => Sys2Proof.Machine.execPshareWrite p w s
  | .spdmRequest fn r => Sys2Proof.Machine.execSpdmRequest fn r s
  | .keyInstall vd k => Sys2Proof.Machine.execKeyInstall vd k s
  | .keyRelease slot => Sys2Proof.Machine.execKeyRelease slot s
  | .permitGrant die => Sys2Proof.Machine.execPermitGrant die s
  | .govcfgWrite die w => Sys2Proof.Machine.execGovcfgWrite die w s
  | .thermalAdjust die tmp => Sys2Proof.Machine.execThermalAdjust die tmp s
  | .thermalTrip die => Sys2Proof.Machine.execThermalTrip die s
  | .powerLoss => Sys2Proof.Machine.execPowerLoss s
  | .bringUp failAt => Sys2Proof.Machine.execBringUp failAt s
  | .stallSample core sched => Sys2Proof.Machine.execStallSample core sched s
  | .taggedRecord core sched fet rdy opc exe wbk lvl cut => Sys2Proof.Machine.execTaggedRecord core sched fet rdy opc exe wbk lvl cut s
  | .ringReadPointerWrite vd sample w => Sys2Proof.Machine.execRingReadPointerWrite vd sample w s
  | .dctlContinue vd serial => Sys2Proof.Machine.execDctlContinue vd serial s
  | .dctlStep vd serial => Sys2Proof.Machine.execDctlStep vd serial s
  | .dctlStopReq vd => Sys2Proof.Machine.execDctlStopReq vd s
  | .loaderLoad r => Sys2Proof.Machine.execLoaderLoad r s
  | .loaderUnload vd obj => Sys2Proof.Machine.execLoaderUnload vd obj s
  | .codeSwap vd old new => Sys2Proof.Machine.execCodeSwap vd old new s
  | .imageRetire vd obj => Sys2Proof.Machine.execImageRetire vd obj s
  | .registerWrite r val => Sys2Proof.Machine.execRegisterWrite r val s
  | .resultWriteback k => Sys2Proof.Machine.execResultWriteback k s
  | .incomingPeerAccess a => Sys2Proof.Machine.execIncomingPeerAccess a s

end Sys2Proof.Machine
end

