-- ==== Sys2Proof/Machine/Reads.lean ====
section
/-! DEFINITION. Reads of host and system software: each register's current value, zero for a write-only or reserved field (R2, R3,
R325, R330 to R332, R364 to R367, R375 to R378, R383, R390, R395, R400), and the use counts of code ranges (R86). -/

namespace Sys2Proof.Machine

/-- The virtual device whose function a read reaches (R364). -/
def ReadName.function : ReadName → Option Nat
  | .vf vd _ => some vd
  | _ => none

/-- A bit of a register. -/
def regBit (b : Bool) (i : Nat) : Nat := if b then 2 ^ i else 0

/-- A word of an 80-bit base. -/
def basePart (x : Va) (k : Nat) : Nat := x.toNat / 2 ^ (32 * k) % 2 ^ 32

/-- QBASE, QCFG and QHEAD (R367). -/
def Queue.readWord (q : Queue) (off : Nat) : Nat :=
  match off with
  | 0 => basePart q.base 0
  | 4 => basePart q.base 1
  | 8 => basePart q.base 2
  | 12 => regBit q.en 31 + regBit q.bad 30 + regBit q.rdf 29 + q.lsz % 16
  | 16 => q.head.toNat
  | _ => 0

/-- The registers of a ring (R383). -/
def Ring.readWord (r : Ring) (off : Nat) : Nat :=
  match off with
  | 0x00 => basePart r.base 0
  | 0x04 => basePart r.base 1
  | 0x08 => basePart r.base 2
  | 0x0C => r.cfg.toNat
  | 0x10 => r.shown.toNat
  | 0x14 => r.rp.toNat
  | 0x18 => r.drop.toNat
  | _ => 0

/-- The registers of a breakpoint unit (R395). -/
def BpUnit.readWord (u : BpUnit) (off : Nat) : Nat :=
  match off with
  | 0 => basePart u.bpa 0
  | 4 => basePart u.bpa 1
  | 8 => basePart u.bpa 2
  | 12 => u.bpf.toNat
  | 16 => u.bpl.toNat
  | 20 => u.bpb.toNat
  | 24 => u.bpt.toNat
  | _ => 0

/-- VDSTAT (R366). -/
def VDev.vdstat (v : VDev) : Nat :=
  regBit v.run 29 + regBit v.halt 28 + regBit v.sched 27 + regBit v.refused 26 + v.bad % 256

/-- CMPLS (R376). -/
def VDev.cmpls (v : VDev) : Nat :=
  regBit v.cmplv 31 + regBit v.cmplRec 30 + regBit v.cmplSig 29 + v.cmplLost % 256 * 2 ^ 16 + v.cmplCode.toNat

/-- DSTAT: the stops reported, and the groups now stopped (R383). -/
def State.dstat (s : State) (vd : Nat) : Nat :=
  let held := s.groups.filter fun (e : Nat × Group) => s.vdOf e.1 = vd && e.2.paths.any fun p => p.stop.isSome
  (s.vd vd).stops % 65536 * 65536 + held.length % 65536

/-- A word of the observability block (R383). -/
def State.readObs (s : State) (vd off : Nat) : Nat :=
  let v := s.vd vd
  if off < 0x20 then v.trace.readWord off
  else if off < 0x40 then v.sample.readWord (off - 0x20)
  else if off = 0x40 then regBit v.dcfg 31
  else if off = 0x44 then s.dstat vd
  else if off = 0x50 then basePart v.dbase 0
  else if off = 0x54 then basePart v.dbase 1
  else if off = 0x58 then basePart v.dbase 2
  else if 0x100 ≤ off then (Tbl.getD v.bps ((off - 0x100) / 32) .init).readWord (off % 32)
  else 0

/-- A word of a virtual device's function (R364): doorbells, EVPOKE, ABORT and DCTL are write-only, every other offset is
reserved. -/
def State.readVf (s : State) (vd off : Nat) : Nat :=
  let v := s.vd vd
  if 256 ≤ vd then 0
  else if 0x2000 ≤ off && off < 0x3000 then (v.queue ((off - 0x2000) / 64)).readWord (off % 64)
  else if off = 0x3004 then v.vdstat
  else if off = 0x300C then v.cmplf.toNat
  else if off = 0x3010 then v.cmpls
  else if 0x4000 ≤ off && off < 0x4200 then s.readObs vd (off - 0x4000)
  else 0

/-- GMASK, MMASK, LEND, PCFG and PSHARE (R377). -/
def Partition.readWord (p : Partition) (off : Nat) : Nat :=
  match off with
  | 0 => p.gmask.toNat
  | 4 => p.mmask.toNat
  | 8 => p.lend.toNat
  | 12 => p.xres % 16 * 256 + regBit p.arec 0
  | 16 => p.share
  | _ => 0

/-- The partition records and the LENDTO registers of the management window (R377). -/
def State.readWindow (s : State) (off : Nat) : Nat :=
  if 0x100000 ≤ off && off < 0x100400 then (s.part ((off - 0x100000) / 32)).readWord (off % 32)
  else if 0x100400 ≤ off && off < 0x100480 then (if off % 4 = 0 then Tbl.getD s.lendto ((off - 0x100400) / 4) 0 else 0)
  else 0

/-- HVSTAT (R325). -/
def State.hvstat (s : State) (core : Nat) : Nat :=
  let parked := s.blocks.filter fun (e : Nat × Block) => e.2.harvest && e.2.loc = .layby core
  (s.core core).revs % 256 * 2 ^ 24 + parked.length % 256 * 2 ^ 16 + (s.contexts core).length % 256 * 2 ^ 8 +
    s.freeBanks core % 256

/-- GOVSTAT (R400). -/
def Die.govstat (d : Die) : Nat := regBit d.trip 31 + d.tmp % 128 * 2 ^ 24 + d.tlim % 1024 * 2 ^ 10

/-- An event counter, read as two words (R390). -/
def EvCnt.words (c : EvCnt) : List Byte := leBytes 4 (c.count.toNat % 2 ^ 32) ++ leBytes 4 (c.count.toNat / 2 ^ 32)

/-- A communicator slot as system software writes it, with `broken` behind `sil` (R332). -/
def Comm.bytes (c : Comm) : List Byte :=
  leBytes 1 (regBit c.valid 0) ++ leBytes 2 c.nr ++ leBytes 2 c.me ++ leBytes 2 c.sil ++ c.routes.flatMap (leBytes 2) ++
    leBytes 1 (regBit c.broken 0)

/-- The unretired launches whose kernel entry lies in a code range (R86). -/
def State.rangeUse (s : State) (vd range : Nat) : Nat :=
  (s.launches.filter fun (e : Nat × Launch) => e.2.vd = vd && e.2.bound && (match (s.vd vd).rangeAt e.2.entry with
    | some (k, _) => k = range
    | none => false)).length

/-- The ranges of indices that a launch has lost, as its completion record lists them (R375). -/
def State.handOutBytes (s : State) (vd launch : Nat) : List Byte :=
  (Tbl.getD (s.vd vd).handOut launch []).flatMap fun r => leBytes 4 r.1 ++ leBytes 4 r.2

/-- WHAT A READ RETURNS. -/
def State.readReg (s : State) : ReadName → List Byte
  | .vf vd off => leBytes 4 (s.readVf vd off)
  | .vdConfig vd off => ((s.vd vd).config.drop off).take 4
  | .window off => leBytes 4 (s.readWindow off)
  | .hvcfg core => leBytes 4 (regBit (s.core core).xrev 8 + (s.core core).keep)
  | .hvstat core => leBytes 4 (s.hvstat core)
  | .govcfg die => leBytes 4 ((s.die die).thot * 2 ^ 16 + (s.die die).bud)
  | .govstat die => leBytes 4 ((s.die die).govstat + s.dieUse die % 1024)
  | .evselCore core k => leBytes 4 (Tbl.getD (s.core core).cnt k ⟨0, 0⟩).sel.toNat
  | .evcntCore core k => (Tbl.getD (s.core core).cnt k ⟨0, 0⟩).words
  | .evselDie die k => leBytes 4 (Tbl.getD (s.die die).cnt k ⟨0, 0⟩).sel.toNat
  | .evcntDie die k => (Tbl.getD (s.die die).cnt k ⟨0, 0⟩).words
  | .linkShare link part => leBytes 4 (Tbl.getD (s.link link).shares part 0).toNat
  | .aperture vd ix => Tbl.getD (s.vd vd).aperture ix []
  | .commSlot p ix => (s.comm p ix).bytes
  | .useCount vd range => leBytes 4 (s.rangeUse vd range)
  | .handOut vd launch => s.handOutBytes vd launch
  | .mailbox => leBytes 4 (s.mailbox.getD 0)

/-- A read: it changes nothing of the package but what the reader is told. -/
def State.read (s : State) (r : ReadName) : State := { s with hostData := s.readReg r }

/-! ## System software and memory -/

/-- System software resumes a halted group through Signpost: its paths may issue again (R345). -/
def State.resumeGroup (s : State) (gid : Nat) : State := s.modGroup gid fun g => { g with halt := none }

/-- A line of region 0 decays: the next access that reads it meets an uncorrectable error (R178). -/
def State.decay (s : State) (line : Nat) : State :=
  if s.latent.contains line then s else { s with latent := s.latent ++ [line] }

end Sys2Proof.Machine
end

