-- ==== Sys2Proof/Machine/Undo.lean ====
section
/-! DEFINITION. The undo log as it stands in memory, and the limits of the withheld effects (R355 to R358). -/

namespace Sys2Proof.Machine

/-! ## What the log holds (R356) -/

/-- The keys of the entries of a table that differ from those of an earlier one. -/
def changed {α : Type} [DecidableEq α] (new old : Tbl α) : List Nat := (new.filter fun e => Tbl.find old e.1 ≠ some e.2).map (·.1)

/-- The registers and the storage that a turn has written, as the groups and blocks of a virtual device have noted them. -/
def State.written (s : State) (vd : Nat) : List (Nat × LogItem) :=
  ((s.groups.filter fun e => s.blkIn vd e.2.blk).flatMap fun e => e.2.noted.map fun r => (e.1, LogItem.reg r)) ++
    (s.blocks.filter fun e => e.2.vd = vd).flatMap fun e => e.2.noted.map fun x => (e.1, x)

/-- The tracks, table slots and ordered cells of a virtual device that differ from those of `p`. -/
def State.altered (p : Snapshot) (t : State) (vd : Nat) : List (Nat × LogItem) :=
  let track := fun (e : Nat × Group) => ((Tbl.find p.groups e.1).map (·.track)).getD .init
  let bat := fun (k : Nat) => ((Tbl.find p.cores k).map (·.bat)).getD []
  ((t.groups.filter fun e => t.blkIn vd e.2.blk && e.2.track ≠ track e).map fun e => (e.1, LogItem.track)) ++
    ((t.cores.filter fun e => t.coreIn vd e.1).flatMap fun e => (changed e.2.bat (bat e.1)).map fun k => (e.1, LogItem.bat k)) ++
    t.dies.flatMap fun e => (e.2.cells.filter fun c => c.vd = vd && !p.cells.contains c).map fun c => (c.pa, LogItem.cell)

/-- What a turn from `s` has written joins the log of a virtual device: one entry for each at its first write since the latest
milestone, which the turn itself may have taken. -/
def State.noteTurn (s t : State) (vd : Nat) : State :=
  let v := t.vd vd
  let base := if (s.vd vd).msseq = v.msseq then s.capture vd else v.snap.getD (s.capture vd)
  let new := (t.written vd ++ State.altered base t vd).eraseDups
  (t.clearNoted vd).modVd vd fun v => { v with noted := v.noted ++ new.filter fun x => !v.noted.contains x }

/-- The bytes that a virtual device's log takes: the format is the device's own (R355). -/
def State.logBytes (s : State) (vd : Nat) : Nat :=
  (s.vd vd).log.length * (129 + Config.freeNat 0 70 % 128) + (s.vd vd).noted.length * (1 + Config.freeNat 0 71 % 1280)

/-! ## The log in memory -/

/-- Bytes of region 0 written past the log. -/
def State.putRaw : List Seg → List Byte → State → State
  | [], _, s => s
  | g :: gs, bs, s => State.putRaw gs (bs.drop g.len) (match g with
      | .phys pa n key _ => s.writeHbm none none key pa (bs.take n)
      | .slot _ _ => s
      | .none _ => s)

/-- What an event has added to the log of a virtual device, behind `was` bytes, is written to the log's area; a write that fails,
or does not fit, halts the virtual device with MS_LOG. -/
def State.writeLog (s : State) (vd was : Nat) : State :=
  let v := s.vd vd
  let use := s.logBytes vd
  let area := v.cfg 64 10
  if use ≤ was then s
  else if v.cfg 89 1 * 2 ^ 20 < use then s.haltUnder vd 0x127 0 (BitVec.ofNat 80 (area + was))
  else
    let r := s.areaSegs vd .wr (area + was) (use - was) true
    match r.2 with
    | .ok gs => { State.putRaw gs (privateRecord s.free 1 (use - was)) r.1 with free := s.free + 1 }
    | .error e => r.1.haltUnder vd 0x127 e.1 (BitVec.ofNat 80 e.2)

/-! ## The withheld effects (R358) -/

def Effect.size : Effect → Nat
  | .bytes _ _ bs => bs.length
  | .irq _ => 0
  | .add _ _ _ => 4

def VDev.heldBytes (v : VDev) : Nat := v.withheld.foldl (fun a e => a + e.size) 0

/-- The buffer cannot hold what is withheld: 4,096 records, 1 MiB of write data. -/
def VDev.spills (v : VDev) : Bool := 4096 < v.withheld.length || 2 ^ 20 < v.heldBytes

/-- The effects that fit. -/
def fitting : Nat → Nat → List Effect → List Effect
  | _, _, [] => []
  | recs, bytes, e :: es => if recs = 0 || bytes < e.size then [] else e :: fitting (recs - 1) (bytes - e.size) es

/-- A virtual device whose buffer could not accept an effect after a forced commit is halted with MS_SPILL. -/
def State.spill (s : State) (vd : Nat) : State :=
  if (s.vd vd).spills then (s.modVd vd fun v => { v with withheld := fitting 4096 (2 ^ 20) v.withheld }).haltVd vd 0x128 0 else s

/-! ## The end of a turn -/

/-- The halt of a group. -/
def State.haltOf (s : State) (gid : Nat) : Option (BitVec 9) := (Tbl.find s.groups gid).bind (·.halt)

/-- A turn has halted a group of a virtual device. -/
def State.newHalt (s t : State) (vd : Nat) : Bool :=
  t.groups.any fun e => e.2.halt.isSome && (s.haltOf e.1).isNone && t.blkIn vd e.2.blk

/-- The running virtual devices in SLICE mode that must take a milestone before a turn: it halts a group, or what it withholds
does not fit (R357, R358). -/
def State.mustCommit (s t : State) : List Nat :=
  (t.vds.filter fun e => e.2.msmode = 2 && (s.vd e.1).runs && (e.2.spills || s.newHalt t e.1)).map (·.1)

/-- A log or a buffer at 7/8 makes a milestone due (R357). -/
def State.markDue (s : State) (vd : Nat) : State :=
  let v := s.vd vd
  if v.cfg 89 1 * 2 ^ 20 * 7 ≤ s.logBytes vd * 8 || 4096 * 7 ≤ v.withheld.length * 8 || 2 ^ 20 * 7 ≤ v.heldBytes * 8 then
    s.modVd vd fun v => { v with msDue := true }
  else s

/-- What a turn that led from one state to another has logged is written; a milestone may be due. -/
def State.settleLogs (s t : State) : State :=
  t.vds.foldl (fun (u : State) e =>
    if e.2.msmode = 0 || !e.2.runs then u
    else ((s.noteTurn u e.1).writeLog e.1 (if (s.vd e.1).msseq = e.2.msseq then s.logBytes e.1 else 0)).markDue e.1) t

end Sys2Proof.Machine
end

