-- ==== Sys2Proof/Machine/Sched.lean ====
section
/-! DEFINITION. The turns of the machine: the issue of a scheduler (R87 to R93, R127), the passing of a core cycle, and what the
model does when the environment has laid down no turn. -/

namespace Sys2Proof.Machine

/-! ## One instruction of a path -/

/-- A word that fails a decode check parks every active lane of its path (R56). -/
def State.trapWord (s : State) (gid : Nat) (p : Path) (w : BitVec 96) (e : DecErr) : State :=
  s.takeFault gid p.handler p.mask fun (_ : Nat) => { FaultRec.at' e.code p.pc w p.b14 with pos := e.pos }

/-- The state after an outcome with its issuer gone; an outcome other than a next state stands. -/
def settled : Out → Out
  | .next t => .next { t with issuer := none }
  | o => o

/-- The word of a path's next instruction is decoded, and its instruction issues for the path, or traps. -/
def State.runWord (s : State) (gid : Nat) (p : Path) (w : BitVec 96) : Out :=
  match decode w with
  | .error e => .next (s.trapWord gid p w e)
  | .ok i => settled (exec i { s with issuer := some ⟨gid, lowLane p.mask⟩ })

/-! ## PC breakpoints (R394, R395) -/

/-- The unit that a path about to issue matches. -/
def State.pcUnit (s : State) (g : Group) (p : Path) : Option (Nat × BpUnit) :=
  match Tbl.find s.blocks g.blk with
  | none => none
  | some b =>
    if !(s.vd b.vd).dcfg || p.past then none
    else (s.vd b.vd).firstUnit fun u =>
      u.bpa = p.pc && (lanesOf p.mask).any fun l => u.meets 0 (s.launchIx b) b.idx (g.lt l)

/-- A path stops in front of its instruction with BREAK_PC. -/
def State.breakPc (s : State) (gid : Nat) (g : Group) (p : Path) (k : Nat) (u : BpUnit) : State :=
  let vd := s.vdOf gid
  let s1 := s.modGroup gid fun g => { g with paths := replacePath g.paths (lowLane p.mask) [{ p with past := true }] }
  (s1.holdScope vd gid g.blk (lowLane p.mask) (u.bpf.toNat / 2 ^ 26 % 4) (s.vd vd).nextStop).reportStop vd g p.mask
    p.pc k 0x161 0

/-! ## The scalar path (R126) -/

/-- A position holds a GENERAL source: `two` counts the second register of a pair as well. -/
def Group.isG (g : Group) (gid : Nat) (two : Bool) (bits : BitVec 10) : Bool :=
  match Opnd.ofBits bits with
  | some (.v n) => (g.vreg gid n.toNat).tag = 2 || (two && (g.vreg gid (n.toNat + 1)).tag = 2)
  | _ => false

/-- The sources of a word: the positions that its form reads, each with whether it names a pair, which is where the form takes no
odd register (R36, R37). -/
def Raw.sources (r : Raw) : List (Bool × BitVec 10) :=
  match formOf r with
  | none => []
  | some f =>
    let pair := fun (acc : Opnd → Bool) => !acc (.v 1) && !acc (.s 1)
    ([(f.a, r.a), (f.b, r.b), (f.x.acc, r.x.extractLsb' 10 10)] : List (Option (Opnd → Bool) × BitVec 10)).filterMap
      fun e => e.1.map fun acc => (pair acc, e.2)

/-- A write of an instruction that runs on the scalar path: a uniform register, a full U or A result, a predicate of every
lane. -/
def RegWrite.isScalar (full : LaneMask) : RegWrite → Bool
  | .v _ _ val all => all && val.tag ≠ 2
  | .s _ _ => true
  | .p _ m _ => m = full
  | _ => false

/-- The results of fixed latency that the issue of `w` by the path `p` has set under way: `g` the group before, `h` after it. -/
def newHazards (g h : Group) (p : Path) (w : BitVec 96) : List Hazard :=
  match h.paths.find? fun q => q.mask = p.mask with
  | some q => q.hazards.take (q.hazards.length - (p.issued g (Raw.ofWord w).hints 0).hazards.length)
  | none => []

/-- An instruction of class 1, 2 or 3 that has issued ran on the scalar path (R126): `g` its group before, `h` after it. -/
def scalarPath (g h : Group) (gid : Nat) (p : Path) (w : BitVec 96) : Bool :=
  let r := Raw.ofWord w
  let cls := (r.op.extractLsb' 7 3).toNat
  1 ≤ cls && cls ≤ 3 && !(newHazards g h p w).isEmpty && !((Raw.sources r).any fun o => g.isG gid o.1 o.2) &&
    (h.due.drop g.due.length).all fun d => d.write.isScalar g.full

/-! ## What an issue leaves to be seen (R387 to R391) -/

/-- The cause code that an issue raised in a lane of its path, else 0. -/
def raised (g h : Group) (p : Path) : BitVec 9 :=
  match h.halt with
  | some c => c
  | none => ((lanesOf p.mask).findSome? fun l =>
      if (Tbl.find g.faults l).isNone then (Tbl.find h.faults l).map (·.code) else none).getD 0

/-- A path that was let go for one instruction stops again behind it (R396). -/
def State.stepStop (s : State) (gid vd : Nat) (p : Path) : State :=
  if !p.step then s
  else match Tbl.find s.groups gid with
    | none => s
    | some g => match g.paths.find? fun q => q.mask &&& p.mask ≠ 0 with
      | none => s
      | some q =>
        let n := (s.vd vd).nextStop
        let s1 := s.modGroup gid fun g =>
          { g with held := g.held.map fun _ => n
                   paths := g.paths.map fun (x : Path) =>
                     if x.mask &&& p.mask ≠ 0 then { x with stop := some n, step := false } else x }
        s1.reportStop vd g q.mask q.pc 0xFF 0x164 0

/-- The other groups of the scheduler have been passed over once, as a `yld` asked (R91). -/
def State.passedOver (s : State) (core sched gid : Nat) : State :=
  { s with groups := s.groups.map fun (e : Nat × Group) =>
      if e.1 ≠ gid && e.2.core = core && e.2.sched = sched && e.2.yielded then (e.1, { e.2 with yielded := false }) else e }

/-- Counters, tag, sample and step of an issue. -/
def State.noteIssue (s t : State) (core sched gid : Nat) (g : Group) (p : Path) (w : BitVec 96) (offer : Bool) : State :=
  let vd := s.vdOf gid
  let h := (Tbl.find t.groups gid).getD g
  let b := Tbl.find s.blocks g.blk
  let hv := (b.map (·.harvest)).getD false
  let scalar := scalarPath g h gid p w
  let c1 := t.countCore core (if hv then 0x02 else 0x01) (some vd) 1
  let c2 := if offer then c1.countCore core 0x03 (some vd) 1 else c1
  let c3 := if scalar then c2.countCore core 0x04 (some vd) 1 else c2
  let c5 := c3.modSched core sched fun o =>
    { o with issued := s.cycle + 1, last := (if offer then o.last else []) ++ [⟨gid, p.pc, p.mask⟩] }
  let tag : Tagged := { vd := vd, gid := gid, flag := (Raw.ofWord w).set.toNat
                        till := (newHazards g h p w).foldl (fun a d => max a (s.cycle + d.left)) 0
                        bytes := s.sampleTail g p.mask p.pc, conts := s.contBytes vd g p.mask, time := s.cycle
                        code := raised g h p, noWb := noWriteback w
                        pc := p.pc, who := g.ltids p.mask, mem := ((Raw.ofWord w).op.extractLsb' 7 3).toNat = 4 }
  let c6 := (c5.passedOver core sched gid).countTag core sched vd tag
  (c6.syncSample core sched vd ((b.map (·.launch)).getD 0)).stepStop gid vd p

/-! ## The issue of a scheduler (R91, R127) -/

/-- A group that is ready is tried: it issues, its path stops at a breakpoint, or it stalls. The Boolean: it has issued. -/
def State.tryGroup (s : State) (core sched gid : Nat) (offer : Bool) : Out × Bool :=
  match Tbl.find s.groups gid with
  | none => (.next s, false)
  | some g => match if s.ready gid g then g.current else none with
    | none => (.next s, false)
    | some p => match s.nextWord gid g p, s.pcUnit g p with
      | none, _ => (.next s, false)
      | _, some (k, u) => (.next (s.breakPc gid g p k u), false)
      | some w, none => match s.runWord gid p w with
        | .next t =>
          if ((Tbl.find t.groups gid).bind (·.stall)).isSome then (.next t, false)
          else (.next (s.noteIssue t core sched gid g p w offer), true)
        | o => (o, false)

/-- The pick order among groups of one kind: those that yielded last, the longest ready first, the lowest slot first. -/
def Group.before (now : Nat) (x y : Nat × Group) : Bool :=
  let a := x.2.readySince.getD now
  let b := y.2.readySince.getD now
  if x.2.yielded ≠ y.2.yielded then y.2.yielded
  else if a ≠ b then a < b
  else x.2.slot ≤ y.2.slot

/-- The ready groups of a kind on a scheduler, in pick order. -/
def State.picks (s : State) (core sched : Nat) (hv : Bool) : List Nat :=
  let mine := (s.residents core sched).filter fun e =>
    s.ready e.1 e.2 && decide (((Tbl.find s.blocks e.2.blk).map (·.harvest)).getD false = hv)
  (sortBy (Group.before s.cycle) mine).map (·.1)

/-- A harvest group's next instruction may issue in a lane offer: it is of class 1, 2 or 3 and has run on the vector lanes. -/
def State.offerFits (s t : State) (gid : Nat) : Bool :=
  match Tbl.find s.groups gid, Tbl.find t.groups gid with
  | some g, some h => match g.current with
    | some p => match s.nextWord gid g p with
      | some w =>
        let cls := ((Raw.ofWord w).op.extractLsb' 7 3).toNat
        1 ≤ cls && cls ≤ 3 && !scalarPath g h gid p w
      | none => false
    | none => false
  | _, _ => false

/-- A harvest group has met no register capacity for its instruction in a lane offer: its context parks (R319). -/
def State.offerShort (s t : State) (gid : Nat) : Bool :=
  match Tbl.find s.groups gid, Tbl.find t.groups gid with
  | some g, some h => h.stall = some .capacity && (match g.current with
    | some p => match s.nextWord gid g p with
      | some w =>
        let cls := ((Raw.ofWord w).op.extractLsb' 7 3).toNat
        1 ≤ cls && cls ≤ 3
      | none => false
    | none => false)
  | _, _ => false

/-- A lane offer: the first harvest group in pick order whose instruction fits issues as well. -/
def State.offer (core sched : Nat) : List Nat → State → Out
  | [], s => .next s
  | gid :: rest, s => match s.tryGroup core sched gid true with
    | (.next t, true) => if s.offerFits t gid then .next t else State.offer core sched rest s
    | (.next t, false) => State.offer core sched rest (if s.offerShort t gid then t else s)
    | (o, _) => o

/-- The group that has just issued made a lane offer: an owner group's instruction on the scalar path, not of a narrow group. -/
def State.offers (s t : State) (gid : Nat) : Bool :=
  match Tbl.find s.groups gid, Tbl.find t.groups gid with
  | some g, some h => !g.narrow && (match g.current with
    | some p => match s.nextWord gid g p with
      | some w => scalarPath g h gid p w
      | none => false
    | none => false)
  | _, _ => false

/-- The first group in pick order that issues; a slot that finds none idles. -/
def State.pick (core sched : Nat) (hv : List Nat) : List Nat → State → Out
  | [], s => .next s
  | gid :: rest, s => match s.tryGroup core sched gid false with
    | (.next t, true) => if !hv.contains gid && s.offers t gid then State.offer core sched hv t else .next t
    | (.next t, false) => State.pick core sched hv rest t
    | (o, _) => o

/-- A scheduler from `k` on of a core has had its issue turn in this cycle. -/
def State.turned (s : State) (core k : Nat) : Bool :=
  (List.range 4).any fun i => k ≤ i && ((s.core core).sched i).issued = s.cycle + 1

/-- The lowest scheduler of a core that can still have its issue turn in this cycle. -/
def State.nextSched (s : State) (core : Nat) : Nat := ((List.range 4).find? fun k => !s.turned core k).getD 4

/-- THE ISSUE TURN of a scheduler: once in a cycle, the schedulers of a core in ascending order (R113, R162, R248, R281). The TDEFs
of the schedulers up to it whose images have been read end first. -/
def State.issueTurn (s0 : State) (core sched : Nat) : Out :=
  if 4 ≤ sched || 256 ≤ core || s0.turned core sched then .next s0
  else
    let s := s0.applyTdefs core (s0.nextSched core) (sched + 1)
    let hv := s.picks core sched true
    State.pick core sched hv (s.picks core sched false ++ hv)
      (s.modSched core sched fun o => { o with issued := s.cycle + 1, last := [] })

/-! ## A core cycle -/

/-- The counters of a cycle: core cycles, idle slots, and each resident group's reason (R390). -/
def State.countCycle (s : State) : State :=
  if s.cores.all (fun e => e.2.cnt.isEmpty) && s.dies.all (fun e => e.2.cnt.isEmpty) then s
  else
    let s1 := (List.range 256).foldl (fun (t : State) c => t.countCore c 0x00 none 1) s
    let s2 := (List.range 1024).foldl (fun (t : State) k =>
      let o := (s.core (k / 4)).sched (k % 4)
      if o.issued = s.cycle + 1 && !o.last.isEmpty then t else t.countCore (k / 4) 0x05 none 1) s1
    s.groups.foldl (fun (t : State) e =>
      match Tbl.find s.blocks e.2.blk with
      | some b => if b.loc = .core e.2.core then
          t.countCore e.2.core (0x08 + (s.reason e.1 e.2).1) (some b.vd) 1 else t
      | none => t) s2

/-- Flags whose time has come clear, sleeps end, and the entry sets of the cycle that is over stand in their order (R362). -/
def Group.passCycle (g : Group) (now : Nat) : Group :=
  let due := g.flagDue.filter fun e => e.2 ≤ now
  let g1 := due.foldl (fun (g : Group) e => g.flagDown (some e.1)) { g with flagDue := g.flagDue.filter fun e => now < e.2 }
  { g1 with entries := g1.queue, older := g1.entries.length, paths := g1.paths.map fun p => match p.st with
      | .sleep till => if till ≤ now then { p with st := .ready } else p
      | _ => p }

/-- The paths of a group that wait for bins which can take their threads are ready (R92, R104). -/
def State.freeBins (s : State) (g : Group) : Group :=
  let hv := ((Tbl.find s.blocks g.blk).map (·.harvest)).getD false
  { g with paths := g.paths.map fun (p : Path) => match p.st with
      | .bins ts => if (s.core g.core).takes g.width g.blk hv ts then { p with st := .ready } else p
      | _ => p }

/-- The paths of a group in a new cycle: its timer, its switch of path, the handler's entry (R93, R343). -/
def State.passPaths (s : State) (gid : Nat) : State :=
  match Tbl.find s.groups gid with
  | none => s
  | some g0 =>
    if !s.mayIssue gid g0 then s
    else
      let s0 := s.modGroup gid s.freeBins
      let g := s.freeBins g0
      let s1 := if g.expired s.cycle && (!g.rotation.isEmpty || g.entryNext) then s0.rotatePath gid g else s0.settlePath gid
      if s1.converged gid then s1.enterHandler gid else s1

/-- What the next instruction of a group's current path would stall on if it were tried now, its timing fields apart. -/
def State.wouldStall (s : State) (gid : Nat) (g : Group) : Option Stall :=
  match g.current with
  | none => none
  | some p => if !s.mayIssue gid g || !p.couldIssue then none else match s.nextWord gid g p with
    | none => none
    | some w => match s.runWord gid p w with
      | .next t => (Tbl.find t.groups gid).bind (·.stall)
      | _ => none

/-- A group is ready (R90): its next instruction would issue now, so that every structural resource it needs is free. -/
def State.wouldIssue (s : State) (gid : Nat) (g : Group) : Bool := s.ready gid g && (s.wouldStall gid g).isNone

/-- Since when a group has been ready (R91). -/
def State.markReady (s : State) : State :=
  { s with groups := s.groups.map fun (e : Nat × Group) =>
      (e.1, { e.2 with readySince := if s.wouldIssue e.1 e.2 then some (e.2.readySince.getD s.cycle) else none }) }

/-- What each group's next instruction stalls on as a cycle begins (R389). -/
def State.markWhy (s : State) : State :=
  { s with groups := s.groups.map fun (e : Nat × Group) => (e.1, { e.2 with why := s.wouldStall e.1 e.2 }) }

/-- Harvest contexts with a group that found no register capacity park themselves (R319). -/
def State.parkShort (s : State) : State :=
  s.groups.foldl (fun (t : State) (e : Nat × Group) => match Tbl.find t.blocks e.2.blk with
    | some b => if b.harvest && e.2.stall = some .capacity && b.loc = .core e.2.core then t.revoke e.2.core e.2.blk .capacity else t
    | none => t) s

/-- The schedulers that hold a group, each once, in ascending order. -/
def State.schedulers (s : State) : List (Nat × Nat) :=
  sortBy (fun x y => x.1 < y.1 || (x.1 = y.1 && x.2 ≤ y.2)) (s.groups.map fun e => (e.2.core, e.2.sched)).eraseDups

/-- What is seen of a cycle as it ends: the samples that are due in it (R388), and the records of tagged instructions that are over
or have been cut off (R387). -/
def State.observe (s : State) : State :=
  let due := if s.vds.any fun e => ringBit e.2.sample.cfg 31 then
      s.schedulers.foldl (fun (t : State) x => t.sampleDue x.1 x.2) s else s
  due.cores.foldl (fun (t : State) (e : Nat × Core) => e.2.obs.foldl (fun (u : State) (o : Nat × SchedObs) =>
    if o.2.tagged.isSome then u.endTag e.1 o.1 else u) t) due

/-- The TDEFs whose images have been read, of the schedulers that have had no turn in the cycle, end with it (R162). -/
def State.endTdefs (s : State) : State :=
  ((s.groups.map (·.2.core)).eraseDups).foldl (fun (t : State) c => t.applyTdefs c (s.nextSched c) 4) s

/-- A CORE CYCLE PASSES. -/
def State.tick (s0 : State) : State :=
  let s := s0.endTdefs.takeStops
  let s1 := { s.markReady.countCycle.observe with cycle := s.cycle + 1 }
  let s2 := { s1 with groups := s1.groups.map fun (e : Nat × Group) => (e.1, e.2.passCycle (s.cycle + 1)) }
  let s2b := s2.groups.foldl (fun (t : State) (e : Nat × Group) => t.land e.1 fun d => d.at' ≤ s.cycle + 1) s2
  let s3 := s2b.parkShort.reapAll
  let s4 := s3.groups.foldl (fun (t : State) (e : Nat × Group) => t.passPaths e.1) s3
  let s5 := s4.cores.foldl (fun (t : State) (e : Nat × Core) => t.drainFollow e.1) s4
  let s6 := s5.dies.foldl (fun (t : State) (e : Nat × Die) => t.reenterAll e.1) s5
  let s7 := s6.retryWaits fun w => w.come && s6.onCore (s6.waitBlk w)
  let s8 := (s7.settleLends.electAgain.claimMargins).settleAll
  s8.markReady.markWhy

/-! ## Turns -/

/-- An event that comes before the issues of its cycle is too late in this one: ends of commands (R248, R281, R292), revocations
and ends of slices (R56, R115), be they asked for by a move or made for a block that is dispatched (R320). -/
def State.tooLate (s : State) : Instr → Bool
  | .copyExecute core .. | .tloadcbComplete core .. | .batloadExecute core .. | .matrixStep core .. => s.turned core 0
  | .revocation core _ => s.turned core 0
  | .contextMoveCore blk _ | .contextMoveMemory blk _ => (Tbl.find s.blocks blk).any fun b => b.stands && s.turned b.onCore 0
  | .blockDispatch _ _ cores => cores.any fun c => s.turned c 0 && !(s.contexts c).isEmpty
  | .marginReclaim cluster _ => (clusterCores cluster).any fun c => s.turned c 0
  | .sliceEnd .. => (List.range 256).any fun c => s.turned c 0
  | _ => false

/-- The virtual device whose function an event of host software reaches. -/
def Instr.function : Instr → Option Nat
  | .doorbell vd .. | .qcfgWrite vd .. | .evpoke vd | .vdStart vd | .vdReset vd | .abort vd _ | .ringReadPointerWrite vd ..
  | .dctlContinue vd _ | .dctlStep vd _ | .dctlStopReq vd | .keyInstall vd _ => some vd
  | .spdmRequest fn _ => if fn = 0 then none else some (fn - 1)
  | .registerWrite r _ => RegName.function r
  | _ => none

/-- A function answers: PF 0 also after a bring-up that a step has stopped, every function while only the compute dies have no power,
and those of virtual devices once their configuration blocks have been written (R400, R402). -/
def State.answers (s : State) : Option Nat → Bool
  | some vd => (s.powered || s.standby) && (s.vd vd).config.any fun b => b ≠ 0
  | none => s.powered || s.standby || s.mailbox.isSome

/-- A register of the host or of system software is written, or the Tollhouse is asked: this needs no compute die. -/
def Instr.toFunction : Instr → Bool
  | .registerWrite .. | .govcfgWrite .. | .linkShareWrite .. | .partitionMaskWrite .. | .pshareWrite .. | .spdmRequest ..
  | .qcfgWrite .. | .ringReadPointerWrite .. => true
  | _ => false

/-- What a turn does. Without power only the functions that answer and a bring-up act. An instruction is no event: it issues, by its
word. -/
def State.doTurn (s : State) : Turn → Out
  | .tick => .next (if s.powered then s.tick else { s with cycle := s.cycle + 1 })
  | .issue core sched => if s.powered then s.issueTurn core sched else .next s
  | .read r => .next (if s.answers (ReadName.function r) then s.read r else s)
  | .resumeGroup gid => .next (if s.powered then s.resumeGroup gid else s)
  | .decay line => .next (if s.powered then s.decay line else s)
  | .event i =>
    match i with
    | .bringUp _ => exec i s
    | _ => if (s.powered || Instr.toFunction i) && i.isEvent && !s.tooLate i && s.answers (Instr.function i) then exec i s else .next s

def Effect.isAdd : Effect → Bool
  | .add .. => true
  | _ => false

/-- Where a turn has committed completion signals of a virtual device, its dependences are read again (R358, R371). -/
def State.pollSignals (s t : State) : State :=
  (s.vds.filter fun e => e.2.withheld.any Effect.isAdd && (t.vd e.1).msseq ≠ e.2.msseq).foldl
    (fun (u : State) e => u.pollAll e.1) t

/-- ONE TURN. In SLICE mode a halt, and an effect that finds the buffer full, come after a milestone (R357, R358); an effect that
does not fit even then halts its virtual device. What the turn logs is written to the undo log (R356). -/
def State.turn (s : State) (x : Turn) : Out :=
  match s.doTurn x with
  | .next t =>
    let vs := s.mustCommit t
    if vs.isEmpty then .next (s.settleLogs (s.pollSignals t))
    else
      let s1 := vs.foldl State.milestone s
      match s1.doTurn x with
      | .next w =>
        let u := s.pollSignals w
        .next (s1.settleLogs (u.vds.foldl (fun (v : State) (e : Nat × VDev) => v.spill e.1) u))
      | o => o
  | o => o

/-- The next event of a core's copy engine. -/
def copyEvent (core : Nat) (k : Core) : List Instr :=
  match k.copyQ with
  | [] => []
  | q :: _ => match q.body with
    | .tloadcb .. => [.tloadcbComplete core 0 .ok]
    | _ => [.copyExecute core 0 1 .ok]

/-- The next event of a core's matrix engine. -/
def State.matEvent (s : State) (core : Nat) : List Instr :=
  match s.matPick core with
  | none => []
  | some b => match s.matHead core b with
    | none => []
    | some q => match q.body with
      | .batload .. => [.batloadExecute core .ok]
      | _ => [.matrixStep core b .ok]

/-- The next events of a core. -/
def State.coreEvents (s : State) (e : Nat × Core) : List Instr :=
  copyEvent e.1 e.2 ++ s.matEvent e.1 ++ (if e.2.tape.isEmpty then [] else [.tapeLineWrite e.1 0 .ok]) ++
    (List.range e.2.bins.length).map fun k => .binDraw e.1 k

/-- The fetch that a group's paths wait for, and the revocation that it asks for. -/
def State.fetchEvent (s : State) (e : Nat × Group) : Option Instr :=
  if e.2.paths.any fun p => s.mustFetch e.1 e.2 p then some (.instructionFetch e.1) else none

def revokeEvent (e : Nat × Group) : Option Instr :=
  match e.2.stall with
  | some (.revocation (b :: _)) => some (.revocation e.2.core b)
  | _ => none

/-- The next access that may be performed, and the next result that may be written. -/
def State.accessEvent (s : State) : List Instr :=
  match s.openPart fun _ => true with
  | some (k, i) => [.memoryAccessComplete k i .ok]
  | none => []

def State.resultEvent (s : State) : List Instr :=
  match s.results.findIdx? fun r => !r.service with
  | some k => [.resultWriteback k]
  | none => []

/-- Parked harvest contexts resume as soon as they can, the one parked first before the others (R323): on the core of their lay-by, or
from memory on the first core that takes them. -/
def State.resumeEvents (s : State) : List Instr :=
  let parked := s.blocks.filter fun (e : Nat × Block) => e.2.harvest && (s.vd e.2.vd).runs && (match e.2.loc with
    | .layby _ => true
    | .memory => true
    | _ => false)
  (sortBy (fun (x y : Nat × Block) => x.2.parkAt ≤ y.2.parkAt) parked).filterMap fun e => match e.2.loc with
    | .layby n => some (.contextResume e.1 n true)
    | _ => (allCores.find? fun c => (s.resumeSlots e.1 c).isSome).map fun c => .contextResume e.1 c true

/-- Accesses, results and engines go on as far as they can: one event for each. -/
def State.ownEvents (s : State) : List Instr :=
  let checks : List Instr := s.cores.flatMap fun (e : Nat × Core) => e.2.checking.map fun c => .chunkVerify e.1 c.1 c.2
  let grants : List Instr := s.dies.map fun e => .permitGrant e.1
  let milestones : List Instr := s.vds.map fun e => .milestone e.1
  let ends : List Instr := s.launches.map fun e => .launchComplete e.2.vd e.1 true true
  let margins : List Instr := (s.lends.filter fun e => e.2.reclaim).map fun e => .marginReclaim e.1 true
  s.groups.filterMap s.fetchEvent ++ checks ++ s.accessEvent ++ s.resultEvent ++ s.cores.flatMap s.coreEvents ++ grants ++
    s.groups.filterMap revokeEvent ++ margins ++ milestones ++ ends ++ s.resumeEvents

/-- What comes next where the environment has laid down nothing: the device's own events, every scheduler's issue, and the end of the
cycle. -/
def State.plan (s : State) : List Turn :=
  (s.ownEvents.map .event) ++ (s.schedulers.map fun x => .issue x.1 x.2) ++ [.tick]

/-- The next turn and what is left of the agenda. -/
def State.nextTurn (s : State) : Turn × List Turn :=
  match s.agenda with
  | t :: rest => (t, rest)
  | [] => match s.plan with
    | t :: rest => (t, rest)
    | [] => (.tick, [])

end Sys2Proof.Machine
end

