-- ==== Sys2Proof/Machine/Setup.lean ====
section
/-! DEFINITION. A word placed where the next step fetches: the state that loading an object, starting a virtual device, accepting a
launch and dispatching its block leave (R71, R366, R369, R372), for a program of one word. -/

namespace Sys2Proof.Machine

/-- Where the placed word stands: the image base, of a chunk of its own. -/
def placedAt : Va := 0x100000

/-- The launch of one group of 32 threads, with every demand at its highest. -/
def placedLaunch : Launch :=
  { vd := 0, q := 0, index := 1, raw := [], fail := none, cls := 1, hv := false, narrow := false, img := placedAt, entry := placedAt,
    entries := [], lvl := [0x00000001, 0x11000020, 0x22000001], nv := 256, ns := 64, nt := 64, nsl := 512, nsp := 384,
    ntag := 64, nctr := 16, prod := 0, obj := 0, tx := [], bell := 0, depsMet := [true, true, true, true], started := true,
    ended := false, first := 0, next := 1, limit := 1, resident := 1, home := none, leader := none, mirror := none, handLog := [],
    mirrorLog := [], units := [], lost := [], dieLost := false, stop := none }

/-- Its block, in slot 0 of scheduler 0 of core 0; its storage reads zero. -/
def placedBlock (launch : Nat) : Block :=
  { placedLaunch.block launch 0 0 0 0 [(0, 0)] with tiles := [], slabs := [], slots := [] }

/-- The group of the block, at the word. -/
def placedGroup (blk gid now : Nat) : Group := placedLaunch.group blk 0 0 (0, 0) 0 gid now

/-- The chunk of the word, as the core has verified it. -/
def placedChunk (w : BitVec 96) : Memory := Memory.write [] 0 (wordBytes w)

/-- The state with a word placed at the PC of the group that the next turn issues. -/
def State.placeWord (s : State) (w : BitVec 96) : State :=
  let id := s.nextId
  let s1 := s.modVd 0 fun v => { v with
    run := true, halt := false, sched := true
    ranges := [(0, { base := placedAt, chunks := 1, leaves := placedAt + 4096, obj := 0, root := [] })] }
  let s2 := s1.modCore 0 fun k => { k with
    verified := (0, placedAt.toNat / 4096, placedChunk w) :: k.verified, obs := Tbl.put (k.obs.map fun (e : Nat × SchedObs) => (e.1, { e.2 with issued := 0 })) 0 .init }
  { s2 with
    powered := true
    agenda := .issue 0 0 :: s.agenda
    launches := s.launches ++ [(id, placedLaunch)]
    blocks := s.blocks ++ [(id, placedBlock id)]
    groups := (s.groups.filter fun (e : Nat × Group) => e.2.core ≠ 0 || e.2.sched ≠ 0) ++
      [(id, placedGroup id id s.cycle)]
    nextId := id + 1 }

end Sys2Proof.Machine
end

