-- ==== Sys2Proof/Machine/Step.lean ====
section
/-! DEFINITION. One step of the package: the next turn of the agenda, or of the plan where the agenda is empty. -/

namespace Sys2Proof.Machine

/-- One step. Without power and with no turn laid down there is nothing to do. -/
def step (s : State) : Host.Outcome State Fault Refusal :=
  if !s.powered && s.agenda.isEmpty then .fault .noPower
  else State.turn { s with agenda := s.nextTurn.2 } s.nextTurn.1

/-- The state with an instruction placed where step fetches its next instruction; bits from `nbits` on are zero. -/
def State.withFetchWord (s : State) (nbits w : Nat) : State := s.placeWord (BitVec.ofNat 96 (w % 2 ^ nbits))

end Sys2Proof.Machine
end

