-- ==== Sys2Proof/Safety.lean ====
section
/-! DEFINITION. What a safe run is, and the terms in which the claims speak of an issue: who issues, what an issue must meet, and
what it leaves alone. -/

namespace Sys2Proof.Machine

/-- A step answers a next state: it neither faults nor is refused. -/
def Answers (s : State) : Prop := ∃ t, step s = .next t

/-- Every state that `n` steps reach answers a next state. -/
def SafeFor : Nat → State → Prop
  | 0, _ => True
  | n + 1, s => ∃ t, step s = .next t ∧ SafeFor n t

/-- Path `p` of group `g` of block `b` is the one that issues (R92), named by its lowest lane, and no late error waits in the
group (R178). -/
structure Issuing (s : State) (who : Issuer) (g : Group) (p : Path) (b : Block) : Prop where
  issuer : s.issuer = some who
  group : Tbl.find s.groups who.gid = some g
  path : pathAt g.paths who.lane = some p
  low : who.lane = lowLane p.mask
  block : Tbl.find s.blocks g.blk = some b
  clean : g.errs = []

/-- The issue has live lanes (R40, R41), and the registers that it names lie within the demands of its block (R117). -/
structure Runs (s : State) (who : Issuer) (g : Group) (p : Path) (b : Block) (h : Hints) (ops : List (Nat × Opnd × Nat)) :
    Prop extends Issuing s who g p b where
  live : (s.issueCtx who g p b h).live ≠ 0
  demands : demandFail b ops = none

/-- The register file has room for the vector registers that the issue may grow (R124). -/
def Roomy (s : State) (who : Issuer) (g : Group) (p : Path) (b : Block) (h : Hints) : Prop :=
  ∀ n ≤ 256, (s.issued who g p h).room (s.issueCtx who g p b h) n = none

/-- The registers that a destination of class 1 to 3 names: `n` of them. -/
def Opnd.regs (n : Nat) : Opnd → List RegId
  | .v k => (List.range n).map fun i => .v (k.toNat + i)
  | .s k => (List.range n).map fun i => .s (k.toNat + i)
  | .p k => [.p k.toNat]
  | _ => []

/-- No V result is outstanding on the registers of a destination (R47). -/
def Quiet (g : Group) (dst : List RegId) : Prop := ∀ r ∈ dst, g.vfor r = []

/-- What an issue of fixed latency leaves of its group: every register is as it was, but for the uniform registers of `dst`, whose
writes take effect at once (R150); results for other registers of `dst` alone are under way, to be written `lat` cycles behind the
issue (R44); the named flag is pending, the path goes on at the sequential successor, and everything else that is not the bookkeeping
of an issue (R43, R45, R48, R91, R356, R389) is as it was. -/
structure Leaves (h : Hints) (now lat : Nat) (dst : List RegId) (who : Issuer) (g g' : Group) (p p' : Path) : Prop where
  same : g' = { g with s := g'.s, due := g'.due, flags := g'.flags, flagDue := g'.flagDue, paths := g'.paths, cur := g'.cur
                       lastIssue := g'.lastIssue, yielded := g'.yielded, readySince := g'.readySince, stall := g'.stall
                       why := g'.why, noted := g'.noted }
  uniform : ∀ n, .s n ∉ dst → Tbl.find g'.s n = Tbl.find g.s n
  due : ∃ ds, g'.due = g.due ++ ds ∧ ∀ d ∈ ds, d.at' = now + lat ∧ d.who = p.mask ∧ d.write.reg ∈ dst
  flag : ∀ f, Tbl.getD g'.flags f 0 = Tbl.getD g.flags f 0 + if setFlag h = some f then 1 else 0
  paths : g'.paths = replacePath g.paths who.lane [p']
  path : p' = { p with pc := nextPc p.pc, hazards := p'.hazards, defer := p'.defer, past := p'.past }

/-- The group behind an issue once the results that the issue has set under way have been written: `g` is the group before it,
`g'` the group behind it. -/
def Group.arrived (g g' : Group) (gid : Nat) : Group := Group.landAll gid [] (g'.due.drop g.due.length) g'

/-- The state after an issue whose only effect is on its own group: nothing else of the machine changes. -/
def OwnGroup (s t : State) (who : Issuer) (g' : Group) : Prop :=
  t = { s with free := s.free + 1, groups := Tbl.put s.groups who.gid g' }

/-- A 32-bit destination holds `f`: a vector register in every live lane, its other lanes as before (R121); a uniform register the
value of the lowest live lane (R118). -/
def Gets (c : Ctx) (g' : Group) (d : Opnd) (f : Nat → W32) : Prop :=
  match d with
  | .v n => ∀ l < c.g.width,
      (g'.vreg c.gid n.toNat).lane l = if has c.live l then f l else (c.g.vreg c.gid n.toNat).lane l
  | .s n => g'.sreg c.gid n.toNat = f (lowLane c.live)
  | _ => False

/-- A pair holds the two halves of `f`, low register first (R36). -/
def GetsPair (c : Ctx) (g' : Group) (d : Opnd) (f : Nat → W64) : Prop :=
  match d with
  | .v n => ∀ l < c.g.width,
      (g'.vreg c.gid n.toNat).lane l =
        (if has c.live l then (f l).extractLsb' 0 32 else (c.g.vreg c.gid n.toNat).lane l) ∧
      (g'.vreg c.gid (n.toNat + 1)).lane l =
        (if has c.live l then (f l).extractLsb' 32 32 else (c.g.vreg c.gid (n.toNat + 1)).lane l)
  | .s n => g'.sreg c.gid n.toNat = (f (lowLane c.live)).extractLsb' 0 32 ∧
      g'.sreg c.gid (n.toNat + 1) = (f (lowLane c.live)).extractLsb' 32 32
  | _ => False

/-- A predicate holds `f` in every live lane, its other lanes as before (R135). -/
def GetsPred (c : Ctx) (g' : Group) (d : BitVec 4) (f : Nat → Bool) : Prop :=
  ∀ l < c.g.width, has (g'.preg c.gid d.toNat) l = if has c.live l then f l else has (c.g.preg c.gid d.toNat) l

/-- No lane stands in two paths of a group (R92). -/
def Apart (g : Group) : Prop := g.paths.Pairwise fun q r => q.mask &&& r.mask = 0

/-- What an issue leaves of its group apart from the paths: the named flag is pending, and nothing else but the bookkeeping of an
issue changes. -/
structure Keeps (h : Hints) (g g' : Group) : Prop where
  same : g' = { g with flags := g'.flags, flagDue := g'.flagDue, paths := g'.paths, cur := g'.cur
                       lastIssue := g'.lastIssue, yielded := g'.yielded, readySince := g'.readySince, stall := g'.stall
                       why := g'.why, noted := g'.noted }
  flag : ∀ f, Tbl.getD g'.flags f 0 = Tbl.getD g.flags f 0 + if setFlag h = some f then 1 else 0

/-- Where a lane stands: PC, mask, state and b14 of its path. -/
structure Stand where
  pc : Va
  mask : LaneMask
  st : PathSt
  b14 : Va
  deriving DecidableEq, Repr

def Path.stand (p : Path) : Stand := ⟨p.pc, p.mask, p.st, p.b14⟩

/-- Every lane of path `p` stands where `dest` says, as a lane of a path of the same kind, and every other lane where it stood. -/
def SplitTo (p : Path) (g g' : Group) (dest : Nat → Stand) : Prop :=
  (∀ l, has p.mask l = true → ∃ q, pathAt g'.paths l = some q ∧ q.stand = dest l ∧ q.handler = p.handler) ∧
  (∀ l, has p.mask l = false → pathAt g'.paths l = pathAt g.paths l)

/-- The whole path goes on at the sequential successor. -/
def Path.on (p : Path) : Nat → Stand := fun _ => ⟨nextPc p.pc, p.mask, p.st, p.b14⟩

/-- The lanes of the path that are not in `m` go on at the sequential successor. -/
def Path.onBut (p : Path) (m : LaneMask) : Stand := ⟨nextPc p.pc, p.mask &&& ~~~m, p.st, p.b14⟩

/-- The fault record of the issuing path's instruction (R342). -/
def record (s : State) (g : Group) (p : Path) (b : Block) (code : BitVec 9) (pos det info : Nat) (addr : Va) : FaultRec :=
  { code := code, pos := BitVec.ofNat 3 pos, det := BitVec.ofNat 16 det, info := BitVec.ofNat 32 info, addr := addr
    pc := p.pc, orig := p.pc, word := s.wordAt g.core b.vd p.pc, b14 := p.b14, followOn := false, more := .none, lead := none }

/-- The lanes of `m` are parked as one entry set, each with its record and without its reservation, and the path's other lanes
have gone on (R342). -/
structure Parks (p : Path) (m : LaneMask) (rec : Nat → FaultRec) (g g' : Group) : Prop where
  faults : ∀ l, Tbl.find g'.faults l = if has m l then some (rec l) else Tbl.find g.faults l
  resv : ∀ l, Tbl.find g'.resv l = if has m l then none else Tbl.find g.resv l
  entries : g'.entries = g.entries ++ [m]
  gone : ∀ l, has m l = true → pathAt g'.paths l = none
  on : ∀ l, has (p.mask &&& ~~~m) l = true → ∃ q, pathAt g'.paths l = some q ∧ q.stand = p.onBut m ∧ q.handler = p.handler
  others : ∀ l, has p.mask l = false → pathAt g'.paths l = pathAt g.paths l
  same : g' = { g with faults := g'.faults, resv := g'.resv, entries := g'.entries, paths := g'.paths
                       cur := g'.cur, lastIssue := g'.lastIssue, yielded := g'.yielded, readySince := g'.readySince
                       stall := g'.stall, why := g'.why }

/-- The issue completes, and its path goes on at the sequential successor: `u` is the machine, and `g0` the issuing group, with the
instruction's own effect; nothing else changes but the bookkeeping of the issue. -/
def Goes (s u t : State) (who : Issuer) (g0 : Group) (p : Path) (h : Hints) : Prop :=
  ∃ g' p', Keeps h g0 g' ∧ g'.paths = replacePath g0.paths who.lane [p'] ∧
    p' = { p with pc := nextPc p.pc, hazards := p'.hazards, defer := p'.defer, past := p'.past } ∧
    t = { u with free := s.free + 1, groups := Tbl.put u.groups who.gid g' }

/-- A result of category V is under way (R44, R47): the group's flag counts one more, the registers of the writes are pending, the
path has gone on, and the result waits to be written; `u` is the machine with whatever else the instruction does. -/
structure Pends (s u t : State) (who : Issuer) (g g' : Group) (p : Path) (h : Hints) (r : Pending) : Prop where
  state : t = { u with free := s.free + 1, groups := Tbl.put u.groups who.gid g', results := u.results ++ [r] }
  same : g' = { g with flags := g'.flags, vpend := g'.vpend, clobber := g'.clobber, grow := g'.grow, paths := g'.paths
                       cur := g'.cur, lastIssue := g'.lastIssue, yielded := g'.yielded, readySince := g'.readySince
                       stall := g'.stall, why := g'.why }
  flag : ∀ f, Tbl.getD g'.flags f 0 = Tbl.getD g.flags f 0 + if f = h.set.toNat then 1 else 0
  vpend : g'.vpend = r.writes.map (·.reg) ++ g.vpend
  paths : ∃ p', g'.paths = replacePath g.paths who.lane [p'] ∧ p'.stand = p.on 0 ∧ p'.handler = p.handler

/-- The result of a group's V instruction that writes `ws`. -/
def result (who : Issuer) (h : Hints) (ws : List RegWrite) : Pending :=
  { gid := who.gid, writes := ws, flag := h.set.toNat, service := false, req := [], at' := 0, pc := 0, who := [], wakes := [] }

end Sys2Proof.Machine
end

