-- ==== Sys2Proof/Safety/Access.lean ====
section
/-! DEFINITION. What the claims say of an access: when all its checks pass, that it has started, and what it stores and gives. -/

namespace Sys2Proof.Machine

/-- The checks of every request of an issue pass, no earlier SO access of its threads is outstanding, and its results have room
(R124, R176, R205). -/
structure Passes (s : State) (who : Issuer) (g : Group) (p : Path) (b : Block) (h : Hints) (op : MemOp) (reqs : List Req) :
    Prop where
  checks : ∀ r ∈ reqs, ∃ segs, ((s.issued who g p h).chkReq b op r).1 = .ok segs
  room : ∀ n ≤ 512, (s.issued who g p h).room (s.issueCtx who g p b h) n = none
  order : s.soOut b.launch (reqs.map fun q => g.lt q.lane) = false
  calm : (s.vd b.vd).msmode ≠ 2

/-- An access has started (R176, R202): it is the newest of the machine, with its requests as captured; its flag counts one
more, the registers of its result are pending, and the path has gone on. Memory is as it was: the access has yet to be
performed. -/
structure Starts (s t : State) (who : Issuer) (g : Group) (p : Path) (b : Block) (h : Hints) (op : MemOp) (acq rel : Bool)
    (reqs : List Req) : Prop where
  access : ∃ a, t.accesses = s.accesses ++ [a] ∧ a.op = op ∧ a.reqs = reqs ∧ a.acq = acq ∧ a.rel = rel ∧
    a.live = (s.issueCtx who g p b h).live ∧ a.flag = setFlag h ∧ a.gid = who.gid ∧ a.blk = g.blk ∧ a.vd = b.vd ∧ a.pc = p.pc ∧
    a.launch = b.launch ∧ a.id = s.nextId ∧ a.who = g.ltids a.live ∧ a.replay = false ∧ (∀ q ∈ a.parts, q.done = false ∧ q.ltid = g.lt q.lane)
  group : ∃ g', Tbl.find t.groups who.gid = some g' ∧
    g' = { g with flags := g'.flags, vpend := g'.vpend, clobber := g'.clobber, grow := g'.grow, paths := g'.paths, cur := g'.cur
                  lastIssue := g'.lastIssue, yielded := g'.yielded, readySince := g'.readySince, stall := g'.stall
                  why := g'.why } ∧
    (∀ f, Tbl.getD g'.flags f 0 = Tbl.getD g.flags f 0 + if setFlag h = some f then 1 else 0) ∧
    g'.vpend = op.regs ++ g.vpend ∧
    ∃ p', g'.paths = replacePath g.paths who.lane [p'] ∧ p'.stand = p.on 0 ∧ p'.handler = p.handler
  others : ∀ k, k ≠ who.gid → Tbl.find t.groups k = Tbl.find s.groups k
  nextId : t.nextId = s.nextId + 1
  mem : t.mem = s.mem
  peer : t.peer = s.peer

/-- A part of an access that may be performed now, in memory of this package under `key` or of its host, with no failure of the
memory system (R177 to R179, R202), of a virtual device without milestones. -/
structure Performs (s : State) (k i : Nat) (a : Access) (q : Part) (pa n key : Nat) (ord : Ord) : Prop where
  access : s.accesses[k]? = some a
  part : a.parts[i]? = some q
  may : s.mayPerform k i = true
  seg : q.seg = .phys pa n key ord
  place : (region pa = 0 ∧ ∀ l ∈ linesOf pa n, Tbl.find s.lineSlot l = some key) ∨ region pa = 1
  good : s.segFail a.vd q.seg a.op.writes .ok = none
  mode : (s.vd a.vd).msmode = 0
  mem : Memory.wf s.mem = true

/-- The number that performing a part stores at its bytes; none where it stores nothing (R183, R187 to R189). -/
def stored (s : State) (a : Access) (q : Part) : Option Nat :=
  let old := leNat (s.readSeg a.vd a.blk q.seg)
  match a.op with
  | .st _ => some q.data
  | .stcond _ _ => if s.holds a q then some q.data else none
  | .atom op ty _ => some (atomNew op (8 * IntTy.bytes ty) ty.isSigned old q.data q.aux)
  | .fatom op ty _ => some (fatomNew op ty old q.data)
  | .pst _ => some q.data
  | _ => none

/-- Byte `x` of memory once the number `v` has been stored in the `n` bytes from `pa` on, least significant byte first. -/
def storedByte (m : Memory) (pa n v x : Nat) : Byte :=
  if pa ≤ x ∧ x < pa + n then BitVec.ofNat 8 (v / 256 ^ (x - pa)) else Memory.get m x

/-- The result that an operation writes lane by lane: its first register, the number of registers, and the value as a register holds
it (R183, R188, R189, R191). -/
def MemOp.perLane : MemOp → Option (Nat × Nat × (Nat → Nat))
  | .ld d n sx _ false => some (d, (n + 3) / 4, extend n sx)
  | .atom _ ty d => some (d, IntTy.bytes ty / 4, id)
  | .fatom _ ty d => some (d, (ftyBytes ty + 3) / 4, id)
  | .ford d => some (d, 1, id)
  | _ => none

end Sys2Proof.Machine
end

