-- ==== Sys2Proof/Safety/Engine.lean ====
section
/-! DEFINITION. What the claims say of an engine command at its issue: when it is accepted, and what its acceptance leaves. -/

namespace Sys2Proof.Machine

/-- An engine command with a plan is accepted at once (R42, R234, R253, R398): every active lane of the producer group issues
it, its tag and its counter are free to take it, its slots are not lent out, its queue has room, no permit is asked for and its
own fits, none of its block's commands waits to enter again, and no breakpoint looks on. -/
structure Takes (s : State) (who : Issuer) (g : Group) (p : Path) (b : Block) (h : Hints) (plan : Plan) : Prop where
  whole : (s.issueCtx who g p b h).live = p.mask
  producer : (s.issueCtx who g p b h).isProducer = true
  tag : ∀ i, plan.tag = some i → b.tag i ≠ .busy
  counter : ∀ i, plan.ctr = some i → b.ctr i < 255
  slots : ∀ k ∈ plan.slots, b.away k = false
  present : plan.absent = false
  room : s.roomFor g.core b.vd plan.body = true
  permits : (s.die (g.core / 64)).permits = []
  power : s.dieUse (g.core / 64) + plan.cost ≤ (s.die (g.core / 64)).limit
  batch : b.batch = []
  quiet : (s.vd b.vd).dcfg = false

/-- The command of a plan as its queue holds it: with the obligations that it has taken on, behind the accesses that its threads
have outstanding (R208). -/
def commandOf (s : State) (who : Issuer) (g : Group) (p : Path) (b : Block) (h : Hints) (plan : Plan) : EngCmd :=
  plan.cmd (s.issueCtx who g p b h) (s.openOf b.launch (g.ltids (s.issueCtx who g p b h).live))

/-- The machine once a plan has been accepted: the block's tag, counter, barrier and slots note it, and its command is the
newest of its queue. -/
def accepted (s : State) (who : Issuer) (g : Group) (p : Path) (b : Block) (h : Hints) (plan : Plan) : State :=
  ((s.modBlock g.blk fun b => b.take plan).enqueue g.core (commandOf s who g p b h plan)).countColl b.vd plan.body

/-- Instruction `i`, which names the registers of `ops`, issues as the command of `plan`. -/
def Issues (i : Instr) (s : State) (who : Issuer) (g : Group) (p : Path) (b : Block) (h : Hints) (ops : List (Nat × Opnd × Nat))
    (plan : Plan) : Prop :=
  Runs s who g p b h ops → Takes s who g p b h plan →
    ∃ t, exec i s = .next t ∧ Goes s (accepted s who g p b h plan) t who { g with engOut := g.engOut + 1 } p h

/-- The engine commands, with the registers that each names; MRESUME.reg names none. -/
def engineOps : Instr → Option (Hints × List (Nat × Opnd × Nat))
  | .copy h _ slot _ quad => some (h, [(0, slot, 1), (2, .s quad, 4)])
  | .copyw h _ slot _ quad => some (h, [(0, slot, 1), (2, .s quad, 4)])
  | .copym h _ _ _ slot _ quad xquad => some (h, [(0, slot, 1), (2, .s quad, 4), (3, .s xquad, 4)])
  | .tloadcb h _ _ _ _ => some (h, [])
  | .batload h _ _ _ slot _ b _ _ => some (h, [(0, slot, 1), (2, b, 1)])
  | .mmt h _ _ _ _ d a b ctl => some (h, [(0, d, 1), (1, a, 1), (2, b, 1), (3, .s ctl, 1)])
  | .mmx h _ _ _ _ d _ _ quad => some (h, [(0, d, 1), (3, .s quad, 4)])
  | .mresume h _ _ _ b _ => some (h, [(2, b, 1)])
  | .mresumeReg h _ _ => some (h, [])
  | .msave h _ _ _ _ b _ => some (h, [(2, b, 1)])
  | .mldt h _ d _ quad => some (h, [(0, d, 1), (2, .s quad, 4)])
  | .mstt h _ d _ quad => some (h, [(0, d, 1), (2, .s quad, 4)])
  | .mzero h _ _ _ first count => some (h, [(0, first, 1), (1, count, 1)])
  | .mdrain h _ _ _ _ _ _ _ quad _ => some (h, [(2, .s quad, 4)])
  | .coll h _ _ _ _ _ _ quad _ => some (h, [(2, .s quad, 4)])
  | _ => none

/-- A write of `n` bytes at `ea` that an engine of a virtual device without milestones makes passes its checks whole: they lie at `pa`
in this package's memory, in lines that hold the key of their page. `salt` tells the walks of one step apart. -/
structure Lands (s : State) (b : Block) (salt ea n pa : Nat) : Prop where
  mapped : ∃ u page key ord, s.engSegs b .wr .ok salt (pageRuns (runFuel n) (ea % 2 ^ 80) n) =
    (u, .ok [(page, .phys pa n key ord)]) ∧ ∀ l ∈ linesOf pa n, Tbl.find s.lineSlot l = some key
  place : region pa = 0
  mode : (s.vd b.vd).msmode = 0
  mem : Memory.wf s.mem = true

/-- The bytes `bs` stand from `pa` on, and every other byte of memory is as it was. -/
def WrittenAt (s t : State) (pa : Nat) (bs : List Byte) : Prop :=
  ∀ x, Memory.get t.mem x = if pa ≤ x ∧ x < pa + bs.length then bs.getD (x - pa) 0 else Memory.get s.mem x

/-- A row of a tensor is written from the bytes `bs` (R240): nothing where no element of it lies within the extents; of a row of
whole bytes, those of the elements within the extents, at the address of the first. -/
def RowStored (s t : State) (b : Block) (salt : Nat) (e : BitVec 512) (r : Row) (bs : List Byte) : Prop :=
  (r.range e = none → t.mem = s.mem) ∧
  ∀ lo hi pa, r.range e = some (lo, hi) → (hi - lo) * TxEnt.half e % 2 = 0 →
    let out := (bs.drop (lo * TxEnt.half e / 2)).take (rowBytes e (hi - lo))
    Lands s b (salt + 8) (r.addr e lo) out.length pa → WrittenAt s t pa out

/-- What a step of the matrix engine leaves of the slabs, which were `old` (R157, R262, R264, R284, R288): each element of the C
entries from slab `c` on has taken its product on top of its old value, or of zero; each check word in the slabs from `ckAt` on has taken
the exact classical sum of its entry's row or column; every other byte is that of `base`. -/
structure Multiplies (st : Step) (old base new : Memory) (c pos : Nat) (ckAt : Option Nat) (zero : Bool) : Prop where
  product : ∀ e < st.entries, ∀ i < 16, ∀ j < 16,
    let n := accBytes st.r.fa
    let at' := cAddr st.r.fa (c + e * slabsOf st.r.fa) i j
    let was := if zero then 0 else leNat (Memory.read old at' n)
    Memory.read new at' n = leBytes n (if st.dep = 0 then
        mac st.r.fa was ((st.as.getD 0 #[]).at' st.kb i) ((st.bs.getD 0 #[]).at' st.kb j) st.kb
      else (accumulate st.r was ((st.values.1.getD e #[]).getD (16 * i + j) .zero)).1)
  check : ∀ k, ckAt = some k → ∀ e < st.entries, ∀ i < 32,
    let at' := 1024 * (k + (pos + e) / 8) + 128 * ((pos + e) % 8) + 4 * i
    let was := if zero then 0 else leNat (Memory.read old at' 4)
    Memory.read new at' 4 = leBytes 4 (checkWord st.r.fa was (checkSum st.kb (st.pairs e) (decide (16 ≤ i)) (i % 16)))
  rest : ∀ x, (x < 1024 * c ∨ 1024 * (c + st.entries * slabsOf st.r.fa) ≤ x) →
    (∀ k, ckAt = some k → x < 1024 * k + 128 * pos ∨ 1024 * k + 128 * (pos + st.entries) ≤ x) →
    Memory.get new x = Memory.get base x

/-- The head command of a block has ended: it is out of its queue, with no follow-on to take its place. -/
def HeadGone (s t : State) (core blk : Nat) : Prop :=
  (s.core core).follow = [] → (t.core core).matQ = replaceHead blk [] (s.core core).matQ

/-- The group of a command that has failed keeps the fault for its error point, where no path of it waits for the command (R243). -/
def Fails (s t : State) (q : EngCmd) (code addr : Nat) : Prop :=
  ∀ g, Tbl.find s.groups q.gid = some g → g.waiting q.ctrs = none → ∃ g' e, Tbl.find t.groups q.gid = some g' ∧
    g'.errs = g.errs ++ [e] ∧ e.fault.code = BitVec.ofNat 9 code ∧ e.fault.pc = q.pc ∧ e.fault.addr = BitVec.ofNat 80 addr

end Sys2Proof.Machine
end

