-- ==== Sys2Proof/Safety/Lanes.lean ====
section
/-! DEFINITION. What the instructions of class 1 to 3 give in one lane, as the rules state it, apart from shapes: the tables that
the claims about those instructions quantify over. -/

namespace Sys2Proof.Machine

/-- A form of an instruction: its hints, its destination, the registers whose demands are checked (position, operand, count), and
the result in a lane. -/
structure LaneForm (α : Type) where
  h : Hints
  d : Opnd
  ops : List (Nat × Opnd × Nat)
  val : Ctx → W32 → Nat → α

/-- The 32-bit operand at a position, as lane `l` reads it (R118). -/
def rd (c : Ctx) (li : W32) (pos : Nat) (o : Opnd) (l : Nat) : W32 := (c.src li pos o).lane l

/-- The 64-bit operand at a position, as lane `l` reads it (R36). -/
def rd64 (c : Ctx) (li : W32) (pos : Nat) (o : Opnd) (l : Nat) : W64 := lane64 (c.src64 li pos o) l

/-- A 32-bit form of two sources, the second with the immediate added (R131). -/
def bin32 (h : Hints) (d a b : Opnd) (k : W32) (f : W32 → W32 → W32) : LaneForm W32 :=
  ⟨h, d, [(0, d, 1), (1, a, 1), (2, b, 1)], fun c li l => f (rd c li 1 a l) (rd c li 2 b l + k)⟩

def un32 (h : Hints) (d a : Opnd) (f : W32 → W32) : LaneForm W32 :=
  ⟨h, d, [(0, d, 1), (1, a, 1)], fun c li l => f (rd c li 1 a l)⟩

def tri32 (h : Hints) (d a b x : Opnd) (f : W32 → W32 → W32 → W32) : LaneForm W32 :=
  ⟨h, d, [(0, d, 1), (1, a, 1), (2, b, 1), (3, x, 1)], fun c li l => f (rd c li 1 a l) (rd c li 2 b l) (rd c li 3 x l)⟩

def bin64 (h : Hints) (d a b : Opnd) (k : W64) (f : W64 → W64 → W64) : LaneForm W64 :=
  ⟨h, d, [(0, d, 2), (1, a, 2), (2, b, 2)], fun c li l => f (rd64 c li 1 a l) (rd64 c li 2 b l + k)⟩

def un64 (h : Hints) (d a : Opnd) (f : W64 → W64) : LaneForm W64 :=
  ⟨h, d, [(0, d, 2), (1, a, 2)], fun c li l => f (rd64 c li 1 a l)⟩

/-- A shift of a pair by a 32-bit count, to which the immediate is added modulo 2^64 (R133). -/
def shift64 (h : Hints) (d a b : Opnd) (imm : BitVec 12) (f : W64 → Nat → W64) : LaneForm W64 :=
  ⟨h, d, [(0, d, 2), (1, a, 2), (2, b, 1)], fun c li l =>
    f (rd64 c li 1 a l) ((rd c li 2 b l).setWidth 64 + imm.signExtend 64).toNat⟩

/-- A 32-bit result of a pair. -/
def count64 (h : Hints) (d a : Opnd) (f : W64 → W32) : LaneForm W32 :=
  ⟨h, d, [(0, d, 1), (1, a, 2)], fun c li l => f (rd64 c li 1 a l)⟩

/-- The saturated sum, difference and negation (R131): the exact result, clamped to the type's range. -/
def satTo (w : Nat) (sgn : Bool) (t : Int) : BitVec w := BitVec.ofInt w (clamp w sgn t)

/-- The forms of class 1 with a 32-bit destination that is no predicate (R131 to R135). -/
def int32 : Instr → Option (LaneForm W32)
  | .iadd h ty sat d a b imm => if ty.is64 then none else
    some (bin32 h d a b (imm.signExtend 32) fun x y =>
      if sat then satTo 32 ty.isSigned (asInt ty.isSigned x + asInt ty.isSigned y) else x + y)
  | .isub h ty sat d a b imm => if ty.is64 then none else
    some (bin32 h d a b (imm.signExtend 32) fun x y =>
      if sat then satTo 32 ty.isSigned (asInt ty.isSigned x - asInt ty.isSigned y) else x - y)
  | .iaddc h cy d a b x => some (tri32 h d a b x fun p q r =>
      if cy then BitVec.ofNat 32 ((p.toNat + q.toNat + r.toNat % 2) / 2 ^ 32) else p + q + BitVec.ofNat 32 (r.toNat % 2))
  | .imul h ty d a b imm => if ty.is64 then none else some (bin32 h d a b (imm.signExtend 32) fun x y => x * y)
  | .imulhi h ty d a b imm => if ty.is64 then none else
    some (bin32 h d a b (imm.signExtend 32) fun x y => BitVec.ofInt 32 (asInt ty.isSigned x * asInt ty.isSigned y / 2 ^ 32))
  | .imad h ty d a b x => if ty.is64 then none else some (tri32 h d a b x fun p q r => p * q + r)
  | .imin h ty d a b imm => if ty.is64 then none else
    some (bin32 h d a b (imm.signExtend 32) fun x y => if asInt ty.isSigned x ≤ asInt ty.isSigned y then x else y)
  | .imax h ty d a b imm => if ty.is64 then none else
    some (bin32 h d a b (imm.signExtend 32) fun x y => if asInt ty.isSigned x ≤ asInt ty.isSigned y then y else x)
  | .iabs h w64 sat d a => if w64 then none else
    some (un32 h d a fun x => if sat then satTo 32 true |x.toInt| else if x.msb then -x else x)
  | .ineg h w64 sat d a => if w64 then none else some (un32 h d a fun x => if sat then satTo 32 true (-x.toInt) else -x)
  | .and h w64 d a b imm => if w64 then none else some (bin32 h d a b (imm.signExtend 32) fun x y => x &&& y)
  | .or h w64 d a b imm => if w64 then none else some (bin32 h d a b (imm.signExtend 32) fun x y => x ||| y)
  | .xor h w64 d a b imm => if w64 then none else some (bin32 h d a b (imm.signExtend 32) fun x y => x ^^^ y)
  | .andn h w64 d a b imm => if w64 then none else some (bin32 h d a b (imm.signExtend 32) fun x y => x &&& ~~~y)
  | .not h w64 d a => if w64 then none else some (un32 h d a fun x => ~~~x)
  | .shl h w64 d a b imm => if w64 then none else some (bin32 h d a b (imm.signExtend 32) fun x y => x <<< y.toNat)
  | .shr h w64 d a b imm => if w64 then none else some (bin32 h d a b (imm.signExtend 32) fun x y => x >>> y.toNat)
  | .sar h w64 d a b imm => if w64 then none else some (bin32 h d a b (imm.signExtend 32) fun x y => x.sshiftRight y.toNat)
  | .rot h w64 d a b imm => if w64 then none else some (bin32 h d a b (imm.signExtend 32) fun x y => x.rotateLeft y.toNat)
  | .popc h w64 d a => some (if w64 then count64 h d a fun x => BitVec.ofNat 32 (popBelow x.toNat 64)
      else un32 h d a fun x => BitVec.ofNat 32 (popBelow x.toNat 32))
  | .clz h w64 d a => some (if w64 then count64 h d a fun x => BitVec.ofNat 32 (lzBelow x.toNat 64)
      else un32 h d a fun x => BitVec.ofNat 32 (lzBelow x.toNat 32))
  | .ctz h w64 d a => some (if w64 then count64 h d a fun x => BitVec.ofNat 32 (lzBelow x.reverse.toNat 64)
      else un32 h d a fun x => BitVec.ofNat 32 (lzBelow x.reverse.toNat 32))
  | .brev h w64 d a => if w64 then none else some (un32 h d a fun x => x.reverse)
  | .bfx h ty d a b imm => if ty.is64 then none else
    some (bin32 h d a b (imm.setWidth 32) fun x y => opBfx ty.isSigned x y)
  | .bfi h w64 d a b x => if w64 then none else some (tri32 h d a b x fun p ctl r => opBfi p r ctl)
  | .isel h w64 d a b q => if w64 then none else
    some ⟨h, d, [(0, d, 1), (1, a, 1), (2, b, 1)], fun c li l =>
      if q = 15 || has (c.pred 3 q.toNat) l then rd c li 1 a l else rd c li 2 b l⟩
  | _ => none

/-- The forms of class 1 with a pair as destination (R36, R131 to R135). -/
def int64 : Instr → Option (LaneForm W64)
  | .iadd h ty sat d a b imm => if ty.is64 then
      some (bin64 h d a b (imm.signExtend 64) fun x y =>
        if sat then satTo 64 ty.isSigned (asInt ty.isSigned x + asInt ty.isSigned y) else x + y) else none
  | .isub h ty sat d a b imm => if ty.is64 then
      some (bin64 h d a b (imm.signExtend 64) fun x y =>
        if sat then satTo 64 ty.isSigned (asInt ty.isSigned x - asInt ty.isSigned y) else x - y) else none
  | .imul h ty d a b imm => if ty.is64 then some (bin64 h d a b (imm.signExtend 64) fun x y => x * y) else none
  | .imulhi h ty d a b imm => if ty.is64 then
      some (bin64 h d a b (imm.signExtend 64) fun x y => BitVec.ofInt 64 (asInt ty.isSigned x * asInt ty.isSigned y / 2 ^ 64))
      else none
  | .imad h ty d a b x => if ty.is64 then
      some ⟨h, d, [(0, d, 2), (1, a, 2), (2, b, 2), (3, x, 2)], fun c li l =>
        rd64 c li 1 a l * rd64 c li 2 b l + rd64 c li 3 x l⟩ else none
  | .imadw h sgn d a b x => some ⟨h, d, [(0, d, 2), (1, a, 1), (2, b, 1), (3, x, 2)], fun c li l =>
      BitVec.ofInt 64 (asInt sgn (rd c li 1 a l) * asInt sgn (rd c li 2 b l)) + rd64 c li 3 x l⟩
  | .imin h ty d a b imm => if ty.is64 then
      some (bin64 h d a b (imm.signExtend 64) fun x y => if asInt ty.isSigned x ≤ asInt ty.isSigned y then x else y) else none
  | .imax h ty d a b imm => if ty.is64 then
      some (bin64 h d a b (imm.signExtend 64) fun x y => if asInt ty.isSigned x ≤ asInt ty.isSigned y then y else x) else none
  | .iabs h w64 sat d a => if w64 then
      some (un64 h d a fun x => if sat then satTo 64 true |x.toInt| else if x.msb then -x else x) else none
  | .ineg h w64 sat d a => if w64 then some (un64 h d a fun x => if sat then satTo 64 true (-x.toInt) else -x) else none
  | .and h w64 d a b imm => if w64 then some (bin64 h d a b (imm.signExtend 64) fun x y => x &&& y) else none
  | .or h w64 d a b imm => if w64 then some (bin64 h d a b (imm.signExtend 64) fun x y => x ||| y) else none
  | .xor h w64 d a b imm => if w64 then some (bin64 h d a b (imm.signExtend 64) fun x y => x ^^^ y) else none
  | .andn h w64 d a b imm => if w64 then some (bin64 h d a b (imm.signExtend 64) fun x y => x &&& ~~~y) else none
  | .not h w64 d a => if w64 then some (un64 h d a fun x => ~~~x) else none
  | .shl h w64 d a b imm => if w64 then some (shift64 h d a b imm fun x n => x <<< n) else none
  | .shr h w64 d a b imm => if w64 then some (shift64 h d a b imm fun x n => x >>> n) else none
  | .sar h w64 d a b imm => if w64 then some (shift64 h d a b imm fun x n => x.sshiftRight n) else none
  | .rot h w64 d a b imm => if w64 then some (shift64 h d a b imm fun x n => x.rotateLeft n) else none
  | .brev h w64 d a => if w64 then some (un64 h d a fun x => x.reverse) else none
  | .bfx h ty d a b imm => if ty.is64 then
      some ⟨h, d, [(0, d, 2), (1, a, 2), (2, b, 1)], fun c li l =>
        opBfx ty.isSigned (rd64 c li 1 a l) (rd c li 2 b l + imm.setWidth 32)⟩ else none
  | .bfi h w64 d a b x => if w64 then
      some ⟨h, d, [(0, d, 2), (1, a, 2), (2, b, 1), (3, x, 2)], fun c li l =>
        opBfi (rd64 c li 1 a l) (rd64 c li 3 x l) (rd c li 2 b l)⟩ else none
  | .isel h w64 d a b q => if w64 then
      some ⟨h, d, [(0, d, 2), (1, a, 2), (2, b, 2)], fun c li l =>
        if q = 15 || has (c.pred 3 q.toNat) l then rd64 c li 1 a l else rd64 c li 2 b l⟩ else none
  | _ => none

/-- The bits of a floating-point operand of a 32-bit or 16-bit type in a lane; an immediate is converted (R35). -/
def rdF (c : Ctx) (li : W32) (pos : Nat) (f : FF) (o : Opnd) (l : Nat) : Nat := ((c.srcF li pos f o).lane l).toNat % 2 ^ f.width

/-- The bits of an FP64 operand in a lane. -/
def rdF64 (c : Ctx) (li : W32) (pos : Nat) (o : Opnd) (l : Nat) : Nat := (lane64 (c.srcF64 li pos o) l).toNat

/-- A packed operand: two 16-bit numbers in a word (R140). -/
def rdPacked (c : Ctx) (li : W32) (pos : Nat) (f : FF) (o : Opnd) (l : Nat) : W32 := (c.srcPacked li pos f o).lane l

def bits32 (n : Nat) : W32 := BitVec.ofNat 32 n

def floBin32 (h : Hints) (f : FF) (d a b : Opnd) (op : EV → EV → Nat) : LaneForm W32 :=
  ⟨h, d, [(0, d, 1), (1, a, 1), (2, b, 1)], fun c li l => bits32 (op (f.decode (rdF c li 1 f a l)) (f.decode (rdF c li 2 f b l)))⟩

def floUn32 (h : Hints) (f : FF) (d a : Opnd) (op : Nat → Nat) : LaneForm W32 :=
  ⟨h, d, [(0, d, 1), (1, a, 1)], fun c li l => bits32 (op (rdF c li 1 f a l))⟩

def floBin64 (h : Hints) (d a b : Opnd) (op : EV → EV → Nat) : LaneForm W64 :=
  ⟨h, d, [(0, d, 2), (1, a, 2), (2, b, 2)], fun c li l =>
    BitVec.ofNat 64 (op (ffF64.decode (rdF64 c li 1 a l)) (ffF64.decode (rdF64 c li 2 b l)))⟩

def floUn64 (h : Hints) (d a : Opnd) (op : Nat → Nat) : LaneForm W64 :=
  ⟨h, d, [(0, d, 2), (1, a, 2)], fun c li l => BitVec.ofNat 64 (op (rdF64 c li 1 a l))⟩

/-- The forms of class 2 with a 32-bit destination: the exact value of R136 to R140, rounded once (R154). -/
def float32 : Instr → Option (LaneForm W32)
  | .fadd h ty rm d a b => if ty.is64 then none else
    some (floBin32 h ty.ff d a b fun x y => roundFmt ty.ff rm (EV.add rm x y))
  | .fsub h ty rm d a b => if ty.is64 then none else
    some (floBin32 h ty.ff d a b fun x y => roundFmt ty.ff rm (EV.add rm x y.neg))
  | .fmul h ty rm d a b => if ty.is64 then none else some (floBin32 h ty.ff d a b fun x y => roundFmt ty.ff rm (x.mul y))
  | .fdiv h ty rm d a b => if ty.is64 then none else some (floBin32 h ty.ff d a b fun x y => roundFmt ty.ff rm (x.div y))
  | .ffma h ty rm d a b x => if ty.is64 then none else
    some ⟨h, d, [(0, d, 1), (1, a, 1), (2, b, 1), (3, x, 1)], fun c li l => bits32 (roundFmt ty.ff rm (EV.add rm
      ((ty.ff.decode (rdF c li 1 ty.ff a l)).mul (ty.ff.decode (rdF c li 2 ty.ff b l))) (ty.ff.decode (rdF c li 3 ty.ff x l))))⟩
  | .fmin h ty d a b => if ty.is64 then none else
    some ⟨h, d, [(0, d, 1), (1, a, 1), (2, b, 1)], fun c li l =>
      bits32 (fminmax ty.ff false (rdF c li 1 ty.ff a l) (rdF c li 2 ty.ff b l))⟩
  | .fmax h ty d a b => if ty.is64 then none else
    some ⟨h, d, [(0, d, 1), (1, a, 1), (2, b, 1)], fun c li l =>
      bits32 (fminmax ty.ff true (rdF c li 1 ty.ff a l) (rdF c li 2 ty.ff b l))⟩
  | .fsel h ty d a b q => if ty.is64 then none else
    some ⟨h, d, [(0, d, 1), (1, a, 1), (2, b, 1)], fun c li l =>
      bits32 (if q = 15 || has (c.pred 3 q.toNat) l then rdF c li 1 ty.ff a l else rdF c li 2 ty.ff b l)⟩
  | .fclass h ty d a => some (if ty.is64 then
      ⟨h, d, [(0, d, 1), (1, a, 2)], fun c li l => bits32 (fclassBit ffF64 (rdF64 c li 1 a l))⟩
    else floUn32 h ty.ff d a (fclassBit ty.ff))
  | .fscale h ty rm d a b => if ty.is64 then none else
    some ⟨h, d, [(0, d, 1), (1, a, 1), (2, b, 1)], fun c li l => bits32 (fScale rm ty.ff (rdF c li 1 ty.ff a l) (rd c li 2 b l))⟩
  | .fsqrt h ty rm d a => if ty.is64 then none else
    some (floUn32 h ty.ff d a fun x => roundFmt ty.ff rm (ty.ff.decode x).sqrt)
  | .frcp h ty rm d a => if ty.is64 then none else
    some (floUn32 h ty.ff d a fun x => roundFmt ty.ff rm (ty.ff.decode x).rcp)
  | .frsq h ty rm d a => if ty.is64 then none else
    some (floUn32 h ty.ff d a fun x => roundFmt ty.ff rm (ty.ff.decode x).rsq)
  | .fexp2 h ty rm d a => if ty.is64 then none else some (floUn32 h ty.ff d a (fExp2 rm ty.ff))
  | .flog2 h ty rm d a => if ty.is64 then none else some (floUn32 h ty.ff d a (fLog2 rm ty.ff))
  | .fsin h ty rm d a => if ty.is64 then none else some (floUn32 h ty.ff d a (fSin rm ty.ff))
  | .fcos h ty rm d a => if ty.is64 then none else some (floUn32 h ty.ff d a (fCos rm ty.ff))
  | .fdot2 h ty rm d a b x => some ⟨h, d, [(0, d, 1), (1, a, 1), (2, b, 1), (3, x, 1)], fun c li l =>
      fDot2 rm ty.ff (rdPacked c li 1 ty.ff a l) (rdPacked c li 2 ty.ff b l) ((c.srcF li 3 ffF32 x).lane l)⟩
  | .hfma2 h ty rm d a b x => some ⟨h, d, [(0, d, 1), (1, a, 1), (2, b, 1), (3, x, 1)], fun c li l =>
      hFma2 rm ty.ff (rdPacked c li 1 ty.ff a l) (rdPacked c li 2 ty.ff b l) (rdPacked c li 3 ty.ff x l)⟩
  | _ => none

/-- The forms of class 2 with an FP64 destination. -/
def float64 : Instr → Option (LaneForm W64)
  | .fadd h ty rm d a b => if ty.is64 then
      some (floBin64 h d a b fun x y => roundFmt ffF64 rm (EV.add rm x y)) else none
  | .fsub h ty rm d a b => if ty.is64 then
      some (floBin64 h d a b fun x y => roundFmt ffF64 rm (EV.add rm x y.neg)) else none
  | .fmul h ty rm d a b => if ty.is64 then some (floBin64 h d a b fun x y => roundFmt ffF64 rm (x.mul y)) else none
  | .fdiv h ty rm d a b => if ty.is64 then some (floBin64 h d a b fun x y => roundFmt ffF64 rm (x.div y)) else none
  | .ffma h ty rm d a b x => if ty.is64 then
      some ⟨h, d, [(0, d, 2), (1, a, 2), (2, b, 2), (3, x, 2)], fun c li l => BitVec.ofNat 64 (roundFmt ffF64 rm (EV.add rm
        ((ffF64.decode (rdF64 c li 1 a l)).mul (ffF64.decode (rdF64 c li 2 b l))) (ffF64.decode (rdF64 c li 3 x l))))⟩ else none
  | .fmin h ty d a b => if ty.is64 then
      some ⟨h, d, [(0, d, 2), (1, a, 2), (2, b, 2)], fun c li l =>
        BitVec.ofNat 64 (fminmax ffF64 false (rdF64 c li 1 a l) (rdF64 c li 2 b l))⟩ else none
  | .fmax h ty d a b => if ty.is64 then
      some ⟨h, d, [(0, d, 2), (1, a, 2), (2, b, 2)], fun c li l =>
        BitVec.ofNat 64 (fminmax ffF64 true (rdF64 c li 1 a l) (rdF64 c li 2 b l))⟩ else none
  | .fsel h ty d a b q => if ty.is64 then
      some ⟨h, d, [(0, d, 2), (1, a, 2), (2, b, 2)], fun c li l =>
        BitVec.ofNat 64 (if q = 15 || has (c.pred 3 q.toNat) l then rdF64 c li 1 a l else rdF64 c li 2 b l)⟩ else none
  | .fscale h ty rm d a b => if ty.is64 then
      some ⟨h, d, [(0, d, 2), (1, a, 2), (2, b, 1)], fun c li l =>
        BitVec.ofNat 64 (fScale rm ffF64 (rdF64 c li 1 a l) (rd c li 2 b l))⟩ else none
  | .fsqrt h ty rm d a => if ty.is64 then
      some (floUn64 h d a fun x => roundFmt ffF64 rm (ffF64.decode x).sqrt) else none
  | .frcp h ty rm d a => if ty.is64 then
      some (floUn64 h d a fun x => roundFmt ffF64 rm (ffF64.decode x).rcp) else none
  | _ => none

/-- The forms of class 3 with a 32-bit destination that is no rejoin mask, apart from MOV and CBDEC (R142 to R148). -/
def move32 : Instr → Option (LaneForm W32)
  | .movi h d imm => some ⟨h, d, [(0, d, 1)], fun _ _ _ => imm.signExtend 32⟩
  | .movhi h d imm => some ⟨h, d, [(0, d, 1)], fun _ _ _ => imm ++ (0 : BitVec 12)⟩
  | .cvt h rm sat dst frm d a => if cvtIs64 dst then none else
    some ⟨h, d, [(0, d, 1), (1, a, if cvtIs64 frm then 2 else 1)], fun c li l =>
      bits32 (cvt rm sat (cvtKind frm) (cvtKind dst) (lane64 (cvtSrc c li frm a) l).toNat)⟩
  | .shfl h m d a b imm => some ⟨h, .v d, [(0, .v d, 1), (1, a, 1), (2, b, 1)], fun c li l =>
      rd c li 1 a (shflFrom c.g.narrow m l (rd c li 2 b l + imm.signExtend 32))⟩
  | .vote h _ d a => match d with
    | .p _ => none
    | d => some ⟨h, d, [(0, d, 1)], fun c _ _ => c.pred 1 a.toNat &&& c.live⟩
  | .redux h op d a => some ⟨h, d, [(0, d, 1), (1, .v a, 1)], fun c _ _ => redux op c.live (c.v 1 a.toNat)⟩
  | .prmt h nib d a b x => some (tri32 h d a b x (prmt nib))
  | .shape h d a => some ⟨h, .v d, [(0, .v d, 1), (1, .v a, 1)], fun c _ l => (c.v 1 a.toNat).lane l⟩
  | .shapeQ h d a => some ⟨h, .s d, [(0, .s d, 1), (1, .v a, 1)], fun c _ _ => bits32 (c.v 1 a.toNat).tag⟩
  | .expand h d a => some ⟨h, .v d, [(0, .v d, 1), (1, .v a, 1)], fun c _ l => (c.v 1 a.toNat).lane l⟩
  | .smov h d a => some ⟨h, .s d, [(0, .s d, 1), (1, .v a, 1)], fun c _ _ =>
      if c.g.width ≤ lowLane c.live then 0 else (c.v 1 a.toNat).lane (lowLane c.live)⟩
  | .smovLane h d a ln => some ⟨h, .s d, [(0, .s d, 1), (1, .v a, 1)], fun c _ _ =>
      if c.g.width ≤ ln.toNat then 0 else (c.v 1 a.toNat).lane ln.toNat⟩
  | _ => none

/-- A form that writes a predicate in the live lanes. -/
structure PredForm where
  h : Hints
  d : BitVec 4
  ops : List (Nat × Opnd × Nat)
  val : Ctx → W32 → Nat → Bool

/-- The forms of classes 1 to 3 that write a predicate (R135, R138, R146, R149). -/
def predForm : Instr → Option PredForm
  | .icmp h ty cc d a b imm => some (if ty.is64 then
      ⟨h, d, [(1, a, 2), (2, b, 2)], fun c li l => icompare ty.isSigned cc (rd64 c li 1 a l) (rd64 c li 2 b l + imm.signExtend 64)⟩
    else
      ⟨h, d, [(1, a, 1), (2, b, 1)], fun c li l => icompare ty.isSigned cc (rd c li 1 a l) (rd c li 2 b l + imm.signExtend 32)⟩)
  | .fcmp h ty cc d a b => some (if ty.is64 then
      ⟨h, d, [(1, a, 2), (2, b, 2)], fun c li l =>
        fcompare cc (ffF64.decode (rdF64 c li 1 a l)) (ffF64.decode (rdF64 c li 2 b l))⟩
    else
      ⟨h, d, [(1, a, 1), (2, b, 1)], fun c li l =>
        fcompare cc (ty.ff.decode (rdF c li 1 ty.ff a l)) (ty.ff.decode (rdF c li 2 ty.ff b l))⟩)
  | .vote h m d a => match d with
    | .p n => some ⟨h, n, [(0, .p n, 1)], fun c _ _ => match m with
      | .all => c.live &&& ~~~(c.pred 1 a.toNat) = 0
      | .any => c.pred 1 a.toNat &&& c.live ≠ 0
      | .uni => c.live &&& ~~~(c.pred 1 a.toNat) = 0 || c.pred 1 a.toNat &&& c.live = 0
      | .ballot => c.pred 1 a.toNat &&& c.live ≠ 0⟩
    | _ => none
  | .pset h nz d a => some ⟨h, d, [(1, a, 1)], fun c li l =>
      if nz then rd c li 1 a l ≠ 0 else (rd c li 1 a 0).getLsbD l⟩
  | .plop h op na nb nc d a b x => some ⟨h, d, [], fun c _ l =>
      plop op (has (c.pred 1 a.toNat) l != na) (has (c.pred 2 b.toNat) l != nb) (has (c.pred 3 x.toNat) l != nc)⟩
  | _ => none

/-- The latency of an instruction of class 1 to 3: that of the opcode map, twice for the 64-bit types of classes 1 and 2 (R44). -/
def latency (i : Instr) : Nat :=
  let two := fun (w64 : Bool) (l : Nat) => if w64 then 2 * l else l
  match i with
  | .iadd _ ty .. | .isub _ ty .. | .imin _ ty .. | .imax _ ty .. | .bfx _ ty .. | .icmp _ ty .. => two ty.is64 4
  | .imul _ ty .. | .imulhi _ ty .. | .imad _ ty .. => two ty.is64 6
  | .imadw .. => 6
  | .iabs _ w .. | .ineg _ w .. | .and _ w .. | .or _ w .. | .xor _ w .. | .andn _ w .. | .not _ w .. | .shl _ w .. | .shr _ w ..
  | .sar _ w .. | .rot _ w .. | .popc _ w .. | .clz _ w .. | .ctz _ w .. | .brev _ w .. | .bfi _ w .. | .isel _ w .. => two w 4
  | .fadd _ ty .. | .fsub _ ty .. | .fmul _ ty .. | .ffma _ ty .. | .fmin _ ty .. | .fmax _ ty .. | .fsel _ ty .. | .fclass _ ty ..
  | .fscale _ ty .. | .fcmp _ ty .. => two ty.is64 4
  | .fdiv _ ty .. | .fsqrt _ ty .. | .frcp _ ty .. | .frsq _ ty .. | .fexp2 _ ty .. | .flog2 _ ty .. | .fsin _ ty .. | .fcos _ ty .. =>
    two ty.is64 20
  | .shfl .. | .vote .. => 8
  | .redux .. => 12
  | .mov .. | .movi .. | .movhi .. | .shape .. | .shapeQ .. | .smov .. | .smovChk .. | .smovLane .. | .pset .. | .plop .. => 2
  | _ => 4

/-- What holds behind an issue of a form that writes a predicate. -/
def CompletesPred (i : Instr) (f : PredForm) : Prop :=
  ∀ s who g p b, Runs s who g p b f.h f.ops → Roomy s who g p b f.h → Quiet g [.p f.d.toNat] →
    ∃ t g' p', exec i s = .next t ∧ OwnGroup s t who g' ∧ Leaves f.h s.cycle (latency i) [.p f.d.toNat] who g g' p p' ∧
      GetsPred (s.issueCtx who g p b f.h) (g.arrived g' who.gid) f.d (f.val (s.issueCtx who g p b f.h) (s.launchIx b))

/-- What holds behind an issue of a form with a 32-bit destination. -/
def Completes32 (i : Instr) (f : LaneForm W32) : Prop :=
  ∀ s who g p b, Runs s who g p b f.h f.ops → Roomy s who g p b f.h → Quiet g (Opnd.regs 1 f.d) →
    ∃ t g' p', exec i s = .next t ∧ OwnGroup s t who g' ∧ Leaves f.h s.cycle (latency i) (Opnd.regs 1 f.d) who g g' p p' ∧
      Gets (s.issueCtx who g p b f.h) (g.arrived g' who.gid) f.d (f.val (s.issueCtx who g p b f.h) (s.launchIx b))

/-- What holds behind an issue of a form with a pair as destination. -/
def Completes64 (i : Instr) (f : LaneForm W64) : Prop :=
  ∀ s who g p b, Runs s who g p b f.h f.ops → Roomy s who g p b f.h → Quiet g (Opnd.regs 2 f.d) →
    ∃ t g' p', exec i s = .next t ∧ OwnGroup s t who g' ∧ Leaves f.h s.cycle (latency i) (Opnd.regs 2 f.d) who g g' p p' ∧
      GetsPair (s.issueCtx who g p b f.h) (g.arrived g' who.gid) f.d (f.val (s.issueCtx who g p b f.h) (s.launchIx b))

/-! ## Shapes of a full write (R119 to R121) -/

/-- The stride of a register that is UNIFORM (0) or AFFINE. -/
def VReg.strideOf : VReg → Option W32
  | .u _ => some 0
  | .a _ t => some t
  | .g _ => none

/-- The tag of a register of a stride: U of stride zero, else A; G of none. -/
def strideTag : Option W32 → Nat
  | some t => if t = 0 then 0 else 1
  | none => 2

/-- The stride of a product: of A and U, of U and A, or of two U (R120). -/
def mulStride (a b : VReg) : Option W32 :=
  match a, b with
  | .u x, .a _ t => some (x * t)
  | .a _ t, .u y => some (t * y)
  | .u _, .u _ => some 0
  | _, _ => none

/-- A stride of two, where both are there. -/
def bothStrides (f : W32 → W32 → W32) (a b : Option W32) : Option W32 := a.bind fun x => b.map (f x)

/-- The tag that R121 recomputes from the lanes of a group. -/
def lanesTag (width : Nat) (f : Nat → W32) : Nat :=
  if (List.range width).all fun l => f l = f 0 then 0
  else if (List.range width).all fun l => f l = f 0 + (f 1 - f 0) * BitVec.ofNat 32 l then 1
  else 2

/-- Every source among the registers that a form names is UNIFORM. -/
def uniformOps (c : Ctx) (li : W32) (ops : List (Nat × Opnd × Nat)) : Bool :=
  (ops.filter fun o => o.1 ≠ 0).all fun o =>
    if o.2.2 = 2 then (c.src64 li o.1 o.2.1).1.isU && (c.src64 li o.1 o.2.1).2.isU else (c.src li o.1 o.2.1).isU

/-- One of two tags, as a predicate that is equal in every lane of the group chooses; G where it differs. -/
def chosenTag (c : Ctx) (q : BitVec 4) (x y : Nat) : Nat :=
  let m := c.pred 3 q.toNat &&& c.g.full
  if m = c.g.full then x else if m = 0 then y else 2

/-- The tag of a full write of a 32-bit form by the rows of R120: 0 U, 1 A, 2 G. -/
def fullTag (c : Ctx) (li : W32) (ops : List (Nat × Opnd × Nat)) (i : Instr) : Nat :=
  let src := c.src li
  match i with
  | .expand .. => 2
  | .shape _ _ a => lanesTag c.g.width fun l => (c.v 1 a.toNat).lane l
  | .isel _ _ _ a b q => chosenTag c q (src 1 a).tag (src 2 b).tag
  | .fsel _ ty _ a b q =>
    let half := fun (x : VReg) => if ty = .f32 then x.tag else if x.isU then 0 else 2
    chosenTag c q (half (src 1 a)) (half (src 2 b))
  | .shfl _ m _ a b _ => if (src 1 a).isU || (m = .idx && (src 2 b).isU) then 0 else 2
  | .mov _ _ _ a => (src 1 a).tag
  | .redux .. => 0
  | .vote .. => 0
  | .iadd _ _ false _ a b _ => strideTag (bothStrides (· + ·) (src 1 a).strideOf (src 2 b).strideOf)
  | .isub _ _ false _ a b _ => strideTag (bothStrides (· - ·) (src 1 a).strideOf (src 2 b).strideOf)
  | .imul _ _ _ a b imm => strideTag (mulStride (src 1 a) (addImm (src 2 b) (imm.signExtend 32)))
  | .imad _ _ _ a b x => strideTag (bothStrides (· + ·) (mulStride (src 1 a) (src 2 b)) (src 3 x).strideOf)
  | .ineg _ _ false _ a => strideTag ((src 1 a).strideOf.map (- ·))
  | .shl _ _ _ a b imm => match src 2 b with
    | .u n => strideTag ((src 1 a).strideOf.map fun t : W32 => t <<< (n + imm.signExtend 32).toNat)
    | _ => 2
  | _ => if uniformOps c li ops then 0 else 2

/-- The tags of the two registers of a full write of a pair (R120). -/
def pairTags (c : Ctx) (li : W32) (ops : List (Nat × Opnd × Nat)) (i : Instr) : Nat × Nat :=
  let pick := fun (a b : Opnd) (q : BitVec 4) =>
    (chosenTag c q (c.src64 li 1 a).1.tag (c.src64 li 2 b).1.tag, chosenTag c q (c.src64 li 1 a).2.tag (c.src64 li 2 b).2.tag)
  match i with
  | .isel _ _ _ a b q => pick a b q
  | .fsel _ _ _ a b q => pick a b q
  | _ => if uniformOps c li ops then (0, 0) else (2, 2)

/-- The tag of the vector register that a 32-bit form writes: by the table in a full write, else recomputed from the merged lanes,
but for EXPAND, which tags its destination G (R120, R121, R148). -/
def Tags32 (i : Instr) (h : Hints) (d : Opnd) (ops : List (Nat × Opnd × Nat)) : Prop :=
  ∀ s who g p b n, d = .v n → Runs s who g p b h ops → Roomy s who g p b h → Quiet g (Opnd.regs 1 d) →
    (p.handler = true → ∀ o ∈ ops, namesHighJ o.2.1 = false) →
    let c := s.issueCtx who g p b h
    ∃ t g', exec i s = .next t ∧ Tbl.find t.groups who.gid = some g' ∧
      let r := (g.arrived g' who.gid).vreg who.gid n.toNat
      (c.live = g.full → r.tag = fullTag c (s.launchIx b) ops i) ∧
      (c.live ≠ g.full → r.tag = if (match i with
        | .expand .. => true
        | _ => false) then 2 else lanesTag g.width r.lane)

/-- The tags of the vector registers of a pair. -/
def Tags64 (i : Instr) (h : Hints) (d : Opnd) (ops : List (Nat × Opnd × Nat)) : Prop :=
  ∀ s who g p b n, d = .v n → Runs s who g p b h ops → Roomy s who g p b h → Quiet g (Opnd.regs 2 d) →
    let c := s.issueCtx who g p b h
    ∃ t g', exec i s = .next t ∧ Tbl.find t.groups who.gid = some g' ∧
      let r := (g.arrived g' who.gid).vreg who.gid n.toNat
      let q := (g.arrived g' who.gid).vreg who.gid (n.toNat + 1)
      (c.live = g.full → (r.tag, q.tag) = pairTags c (s.launchIx b) ops i) ∧
      (c.live ≠ g.full → r.tag = lanesTag g.width r.lane ∧ q.tag = lanesTag g.width q.lane)

/-! ## The hints of an instruction -/

/-- The hint fields of an instruction; an event has none. -/
def hintsOf : Instr → Option Hints
  | .exit h | .rthSkip h | .rthRetry h | .tlbinvAll h | .tagclrAll h | .tbegin h | .tend h | .tendDrop h | .trev h => some h
  | .nop h _ | .bra h _ | .brx h _ | .ret h _ | .join h _ | .waitj h _ | .reform h _ | .yield h _ | .bar h _ | .bararv h _
    | .trap h _ | .rthTo h _ | .bkpt h _ | .mark h _ | .tagclr h _ | .tagclrLend h _ | .tdefInv h _ | .trec h _ | .tpop h _
    | .tpopSt h _ | .tbr h _ | .tmark h _ => some h
  | .brxIx h _ _ | .call h _ _ | .callx h _ _ | .barinit h _ _ | .barinitA h _ _ | .hvq h _ _ | .rdsp h _ _ | .wrsp h _ _
    | .movi h _ _ | .movhi h _ _ | .shape h _ _ | .shapeQ h _ _ | .expand h _ _ | .smov h _ _ | .smovChk h _ _ | .fence h _ _
    | .tagrd h _ _ | .tagrdAddr h _ _ | .waitany h _ _ | .waitall h _ _ | .cwaitlt h _ _ | .mresumeReg h _ _ => some h
  | .callxIx h _ _ _ | .sys h _ _ _ | .not h _ _ _ | .popc h _ _ _ | .clz h _ _ _ | .ctz h _ _ _ | .brev h _ _ _ | .fclass h _ _ _
    | .mov h _ _ _ | .vote h _ _ _ | .redux h _ _ _ | .smovLane h _ _ _ | .pset h _ _ _ | .acellClose h _ _ _ | .acread h _ _ _
    | .bsetRd h _ _ _ | .tlbinvPage h _ _ _ | .ffready h _ _ _ | .ctrrd h _ _ _ | .tset h _ _ _ | .tget h _ _ _ | .batstat h _ _ _
    | .mrd h _ _ _ | .mwr h _ _ _ | .tbeginSeg h _ _ _ => some h
  | .spawn h _ _ _ _ | .iabs h _ _ _ _ | .ineg h _ _ _ _ | .fmin h _ _ _ _ | .fmax h _ _ _ _ | .fsqrt h _ _ _ _ | .frcp h _ _ _ _
    | .frsq h _ _ _ _ | .fexp2 h _ _ _ _ | .flog2 h _ _ _ _ | .fsin h _ _ _ _ | .fcos h _ _ _ _ | .fatomOrd h _ _ _ _
    | .acell h _ _ _ _ | .pst h _ _ _ _ | .bset h _ _ _ _ | .bsetAdd64 h _ _ _ _ | .bsetIns h _ _ _ _ | .cctl h _ _ _ _
    | .lookup h _ _ _ _ | .tagset h _ _ _ _ | .copy h _ _ _ _ | .copyw h _ _ _ _ | .tdef h _ _ _ _ | .tloadcb h _ _ _ _
    | .mldt h _ _ _ _ | .mstt h _ _ _ _ => some h
  | .iaddc h _ _ _ _ _ | .imul h _ _ _ _ _ | .imulhi h _ _ _ _ _ | .imad h _ _ _ _ _ | .imadw h _ _ _ _ _ | .imin h _ _ _ _ _
    | .imax h _ _ _ _ _ | .and h _ _ _ _ _ | .or h _ _ _ _ _ | .xor h _ _ _ _ _ | .andn h _ _ _ _ _ | .shl h _ _ _ _ _
    | .shr h _ _ _ _ _ | .sar h _ _ _ _ _ | .rot h _ _ _ _ _ | .bfx h _ _ _ _ _ | .bfi h _ _ _ _ _ | .isel h _ _ _ _ _
    | .fadd h _ _ _ _ _ | .fsub h _ _ _ _ _ | .fmul h _ _ _ _ _ | .fdiv h _ _ _ _ _ | .fcmp h _ _ _ _ _ | .fsel h _ _ _ _ _
    | .fscale h _ _ _ _ _ | .cbdec h _ _ _ _ _ | .shfl h _ _ _ _ _ | .prmt h _ _ _ _ _ | .pref h _ _ _ _ _ | .mresume h _ _ _ _ _
    | .mzero h _ _ _ _ _ => some h
  | .iadd h _ _ _ _ _ _ | .isub h _ _ _ _ _ _ | .icmp h _ _ _ _ _ _ | .ffma h _ _ _ _ _ _ | .fdot2 h _ _ _ _ _ _
    | .hfma2 h _ _ _ _ _ _ | .cvt h _ _ _ _ _ _ | .atom h _ _ _ _ _ _ | .fatom h _ _ _ _ _ _ | .msave h _ _ _ _ _ _ => some h
  | .copym h _ _ _ _ _ _ _ | .mchk h _ _ _ _ _ _ _ => some h
  | .plop h _ _ _ _ _ _ _ _ | .ldu h _ _ _ _ _ _ _ _ | .ldres h _ _ _ _ _ _ _ _ | .batload h _ _ _ _ _ _ _ _
    | .mmt h _ _ _ _ _ _ _ _ | .mmx h _ _ _ _ _ _ _ _ | .coll h _ _ _ _ _ _ _ _ => some h
  | .ld h _ _ _ _ _ _ _ _ _ | .st h _ _ _ _ _ _ _ _ _ | .stcond h _ _ _ _ _ _ _ _ _ | .mdrain h _ _ _ _ _ _ _ _ _ => some h
  | _ => none

end Sys2Proof.Machine
end

