-- ==== Sys2Proof/Certificates/Slice0/Obligations.lean ====
section
/-! DEFINITION. The statements that the provers settle: what the numbered rules of the spec say that the machine does. -/

open Sys2Proof Sys2Proof.Machine

/-! ## The word -/

/-- Words that the manual writes out with their instructions (R32, the worked programs) decode to them. -/
def Obligations.SpecWordsDecode : Prop :=
  decode 0x410898140220E060004022B0 =
    .ok (.ffma ⟨true, 3, 2, 0x011, 5, true⟩ .f32 .rtz (.v 10) (.v 4) (.s 7) (.v 12)) ∧
  decode 0x20400806_01AC8002_008001E0 = .ok (.iadd ⟨false, 1, 4, 0, 15, false⟩ .n32 false (.v 3) (.v 3) (.konst .zero) 1) ∧
  decode 0x26D07C0200AC8014002001E0 = .ok (.icmp ⟨false, 15, 1, 0, 15, false⟩ .n32 .lt 1 (.v 1) (.konst .zero) 10) ∧
  decode 0x02007C4400000000002001E0 = .ok (.join ⟨false, 15, 1, 0, 15, false⟩ 2) ∧
  decode 0x80427810A100A01000200020 = .ok (.ld ⟨false, 15, 1, 0, 1, false⟩ .b32 false .dflt 8 2 (.v 5) 8 0 false) ∧
  decode 0x04000800000000000A2001E0 = .ok (.trap ⟨false, 1, 1, 0, 15, false⟩ 5) ∧
  decode 0xC4C0780002800000002001E0 = .ok (.trec ⟨false, 15, 1, 0, 15, false⟩ (.v 5))

/-- DECODE AND ENCODE AGREE: every well-formed instruction that has a word is what its word decodes to. The model's own choices
in it: log 7. -/
def Obligations.DecodeEncode : Prop :=
  ∀ i, wellFormed i = true → i.isEvent = false → ∃ w, encode i = some w ∧ decode w = .ok i

/-- A word whose opcode the map of R53 does not assign raises ENC_OPCODE, whatever its other fields, and so does every word of
class 7 and every word of index 0 of a class. -/
def Obligations.ReservedOpcode : Prop :=
  (∀ w : BitVec 96, opDefined (w.extractLsb' 86 10).toNat = false → decode w = .error ⟨0x000, 0⟩) ∧
  (∀ w : BitVec 96, (w.extractLsb' 93 3 = 7 ∨ w.extractLsb' 86 7 = 0) → decode w = .error ⟨0x000, 0⟩)

/-! ## The step -/

/-- A STEP RUNS THE DECODED INSTRUCTION. Where the next turn is a scheduler's issue, group `gid` is the first in pick order, no
harvest group is ready there, no breakpoint meets the path, and the word at its PC decodes to `i`: the step is exec of `i` for
the group's current path, with what an issue adds: the TDEFs of the schedulers up to this one whose images have been read end first
(R162), the issuer is put down, the scheduler has had its turn of the cycle, the counters, the tag and the sample of the issue are
taken (noteIssue), and what it logs is written (settleLogs). Where no milestones are taken (R356), that is all. The model's own
choices in it: log 1 and 2. -/
def Obligations.StepRunsDecoded : Prop :=
  ∀ (s : State) (core sched gid : Nat) (more : List Nat) (rest : List Turn) (g : Group) (p : Path) (w : BitVec 96) (i : Instr)
    (t : State),
    s.powered = true → s.agenda = .issue core sched :: rest → core < 256 → sched < 4 →
    let a := { s with agenda := rest }
    let s0 := a.applyTdefs core (a.nextSched core) (sched + 1)
    a.turned core sched = false → s0.picks core sched true = [] → s0.picks core sched false = gid :: more →
    Tbl.find s0.groups gid = some g → g.current = some p →
    let s1 := s0.modSched core sched fun o => { o with issued := s0.cycle + 1, last := [] }
    s1.nextWord gid g p = some w → s1.pcUnit g p = none → decode w = .ok i →
    exec i { s1 with issuer := some ⟨gid, lowLane p.mask⟩ } = .next t →
    (Tbl.find t.groups gid).bind (·.stall) = none →
    let u := s1.noteIssue { t with issuer := none } core sched gid g p w false
    (a.mustCommit u = [] → step s = .next (a.settleLogs (a.pollSignals u))) ∧
    ((∀ e ∈ s.vds, e.2.withheld = []) → (∀ e ∈ u.vds, e.2.msmode = 0) → step s = .next u)

/-- A word that fails a decode check parks every active lane of its path, whatever the guard, as one entry set, with the code
and the position of the check (R54 to R56). -/
def Obligations.DecodeTrap : Prop :=
  ∀ (s : State) (gid : Nat) (g : Group) (p : Path) (w : BitVec 96) (e : DecErr),
    decode w = .error e → Tbl.find s.groups gid = some g → p.mask ≠ 0 → p.handler = false →
    ∃ t g', s.runWord gid p w = .next t ∧ Tbl.find t.groups gid = some g' ∧
      (∀ l, Tbl.find g'.faults l = if has p.mask l then
        some { FaultRec.at' e.code p.pc w p.b14 with pos := e.pos } else Tbl.find g.faults l) ∧
      g'.entries = g.entries ++ [p.mask] ∧ (∀ l, has p.mask l = true → pathAt g'.paths l = none) ∧
      g'.v = g.v ∧ g'.s = g.s ∧ g'.p = g.p ∧ g'.b = g.b ∧ g'.flags = g.flags ∧ t.mem = s.mem

/-! ## Classes 1 to 3 -/

/-- Every integer form completes with the value of R131 to R135 in every live lane, of 32 bits or of a pair (R36), and changes
nothing else but its flag, its PC and the bookkeeping of the issue. The model's own choices in it: log 46. -/
def Obligations.IntegerResults : Prop :=
  (∀ i f, int32 i = some f → wellFormed i = true → Completes32 i f) ∧
  (∀ i f, int64 i = some f → wellFormed i = true → Completes64 i f)

/-- Every floating-point form completes with the exact value of R136 to R140, rounded once, in a word or in a pair for FP64. The
model's own choices in it: log 48. -/
def Obligations.FloatResults : Prop :=
  (∀ i f, float32 i = some f → wellFormed i = true → Completes32 i f) ∧
  (∀ i f, float64 i = some f → wellFormed i = true → Completes64 i f)

/-- The lanes that wait on the rejoin mask jk. -/
def waiting (g : Group) (handler : Bool) (k : Nat) : LaneMask :=
  (g.waiters handler k).foldl (fun m q => m ||| q.mask) 0

/-- Every move, conversion and lane operation completes with the value of R142 to R148; MOV, the 64-bit MOV and the conversions
to 64-bit formats with their source's value (R142, R143); MOV to a rejoin mask writes the mask, and when that write lands, the
lanes of the mask that all wait on it at one PC merge (R103, R142). -/
def Obligations.Moves : Prop :=
  (∀ i f, move32 i = some f → wellFormed i = true → Completes32 i f) ∧
  ((∀ h d a, wellFormed (.mov h false d a) = true → (d.isV || d.isS) = true →
     ∀ s who g p b, Runs s who g p b h [(0, d, 1), (1, a, 1)] → Roomy s who g p b h → Quiet g (Opnd.regs 1 d) →
       (p.handler = true → namesHighJ a = false) →
       ∃ t g' p', exec (.mov h false d a) s = .next t ∧ OwnGroup s t who g' ∧ Leaves h s.cycle 2 (Opnd.regs 1 d) who g g' p p' ∧
         Gets (s.issueCtx who g p b h) (g.arrived g' who.gid) d (rd (s.issueCtx who g p b h) (s.launchIx b) 1 a)) ∧
   (∀ h d a, wellFormed (.mov h true d a) = true → Completes64 (.mov h true d a)
     ⟨h, d, [(0, d, 2), (1, a, 2)], fun c li l => rd64 c li 1 a l⟩) ∧
   (∀ h rm sat dst frm d a, wellFormed (.cvt h rm sat dst frm d a) = true → cvtIs64 dst = true →
     Completes64 (.cvt h rm sat dst frm d a) ⟨h, d, [(0, d, 2), (1, a, if cvtIs64 frm then 2 else 1)], fun c li l =>
       BitVec.ofNat 64 (cvt rm sat (cvtKind frm) (cvtKind dst) (lane64 (cvtSrc c li frm a) l).toNat)⟩) ∧
   (∀ h k a, wellFormed (.mov h false (.j k) a) = true →
     ∀ s who g p b, Runs s who g p b h [(0, .j k, 1), (1, a, 1)] → Quiet g [.j k.toNat] →
       (p.handler = true → namesHighJ (.j k) = false ∧ namesHighJ a = false) →
       ∃ t g' p', exec (.mov h false (.j k) a) s = .next t ∧ OwnGroup s t who g' ∧ Leaves h s.cycle 2 [.j k.toNat] who g g' p p' ∧
         (g.arrived g' who.gid).rejoin p.handler k.toNat = (if p.handler && g.handler.isNone then 0 else
           rd (s.issueCtx who g p b h) (s.launchIx b) 1 a (lowLane (s.issueCtx who g p b h).live) &&& g.full)) ∧
   (∀ (s : State) gid g d k m pc, Tbl.find s.groups gid = some g → Apart g → g.due = [d] → d.write = .j k m false → k < 8 →
     g.vfor (.j k) = [] →
     let need := m &&& g.full
     need ≠ 0 → need &&& ~~~waiting g false k = 0 → (∀ q ∈ g.waiters false k, q.mask &&& need ≠ 0 → q.pc = pc) →
     ∃ g', Tbl.find (s.land gid fun _ => true).groups gid = some g' ∧ g'.rejoin false k = 0 ∧ g'.due = [] ∧
       (∀ l, has need l = true → ∃ q, pathAt g'.paths l = some q ∧
         q.stand = ⟨nextPc pc, need, .ready, ((pathAt g.paths (lowLane need)).map (·.b14)).getD 0⟩) ∧
       ∀ l, has need l = false → pathAt g'.paths l = (pathAt g.paths l).map fun q => { q with mask := q.mask &&& ~~~need }))

/-- Every form that writes a predicate completes with the value of R135, R138, R146 or R149 in the live lanes. -/
def Obligations.PredicateResults : Prop :=
  ∀ i f, predForm i = some f → wellFormed i = true → CompletesPred i f

/-- SMOV.chk gives the common value of the live lanes, and takes NOT_UNIFORM in all of them where they differ (R148); CBDEC
gives the codebook values of the word (R144). -/
def Obligations.CheckedMoves : Prop :=
  (∀ h d a s who g p b, Runs s who g p b h [(0, .s d, 1), (1, .v a, 1)] → Quiet g [.s d.toNat] →
    let c := s.issueCtx who g p b h
    (∀ l, has c.live l = true → (c.v 1 a.toNat).lane l = (c.v 1 a.toNat).lane (lowLane c.live)) →
    ∃ t g' p', exec (.smovChk h d a) s = .next t ∧ OwnGroup s t who g' ∧ Leaves h s.cycle 2 [.s d.toNat] who g g' p p' ∧
      (g.arrived g' who.gid).sreg who.gid d.toNat = (c.v 1 a.toNat).lane (lowLane c.live)) ∧
  (∀ h d a s who g p b, Runs s who g p b h [(0, .s d, 1), (1, .v a, 1)] → Apart g → p.handler = false →
    let c := s.issueCtx who g p b h
    (∃ l, has c.live l = true ∧ (c.v 1 a.toNat).lane l ≠ (c.v 1 a.toNat).lane (lowLane c.live)) →
    ∃ t g', exec (.smovChk h d a) s = .next t ∧ OwnGroup s t who g' ∧
      Parks p c.live (fun _ => record s g p b 0x02B 0 0 0 0) g g') ∧
  (∀ h x2 d a tx nib, wellFormed (.cbdec h x2 d a tx nib) = true →
    ∀ s who g p b st, Runs s who g p b h [(0, d, 1), (1, a, 1)] → Roomy s who g p b h → Quiet g (Opnd.regs 1 d) →
      s.loadingCb g.core g.blk tx.toNat = false → b.store tx.toNat = some st →
      txReason (b.txEnt tx.toNat) (some st) ⟨[.cb4], true, false, false⟩ = none →
      ∃ t g' p', exec (.cbdec h x2 d a tx nib) s = .next t ∧ OwnGroup s t who g' ∧ Leaves h s.cycle 6 (Opnd.regs 1 d) who g g' p p' ∧
        Gets (s.issueCtx who g p b h) (g.arrived g' who.gid) d fun l =>
          cbdec st x2 nib.toNat (rd (s.issueCtx who g p b h) (s.launchIx b) 1 a l))

/-- The shape of every result of class 1 to 3 in a vector register: a full write takes the tag of its row of R120, which with the
lanes' values fixes what the register holds (R119); a write that is not full takes the tag recomputed from the merged lanes, but
EXPAND tags its destination G (R121, R148). The model's own choices in it: log 43, 44 and 45. -/
def Obligations.ShapeOfResults : Prop :=
  (∀ i f, int32 i = some f ∨ float32 i = some f ∨ move32 i = some f → wellFormed i = true → Tags32 i f.h f.d f.ops) ∧
  (∀ i f, int64 i = some f ∨ float64 i = some f → wellFormed i = true → Tags64 i f.h f.d f.ops) ∧
  (∀ h d a, wellFormed (.mov h false d a) = true → Tags32 (.mov h false d a) h d [(0, d, 1), (1, a, 1)]) ∧
  (∀ h d a, wellFormed (.mov h true d a) = true → Tags64 (.mov h true d a) h d [(0, d, 2), (1, a, 2)]) ∧
  (∀ h rm sat dst frm d a, wellFormed (.cvt h rm sat dst frm d a) = true → cvtIs64 dst = true →
    Tags64 (.cvt h rm sat dst frm d a) h d [(0, d, 2), (1, a, if cvtIs64 frm then 2 else 1)]) ∧
  (∀ h x2 d a tx nib, wellFormed (.cbdec h x2 d a tx nib) = true → ∀ s who g p b n st, d = .v n →
    Runs s who g p b h [(0, d, 1), (1, a, 1)] → Roomy s who g p b h → Quiet g (Opnd.regs 1 d) → b.store tx.toNat = some st →
    txReason (b.txEnt tx.toNat) (some st) ⟨[.cb4], true, false, false⟩ = none → (s.issueCtx who g p b h).live = g.full →
    ∃ t g', exec (.cbdec h x2 d a tx nib) s = .next t ∧ Tbl.find t.groups who.gid = some g' ∧
      ((g.arrived g' who.gid).vreg who.gid n.toNat).tag =
        if ((s.issueCtx who g p b h).src (s.launchIx b) 1 a).isU then 0 else 2)

/-! ## What every issue meets -/

/-- The lane instructions of classes 1 to 3, with the registers that each names. -/
def laneOps (i : Instr) : Option (Hints × List (Nat × Opnd × Nat)) :=
  match int32 i, int64 i, float32 i, float64 i, move32 i, predForm i with
  | some f, _, _, _, _, _ => some (f.h, f.ops)
  | _, some f, _, _, _, _ => some (f.h, f.ops)
  | _, _, some f, _, _, _ => some (f.h, f.ops)
  | _, _, _, some f, _, _ => some (f.h, f.ops)
  | _, _, _, _, some f, _ => some (f.h, f.ops)
  | _, _, _, _, _, some f => some (f.h, f.ops)
  | _, _, _, _, _, _ => match i with
    | .mov h w64 d a => let n := if w64 then 2 else 1; some (h, [(0, d, n), (1, a, n)])
    | .cvt h _ _ dst frm d a => some (h, [(0, d, if cvtIs64 dst then 2 else 1), (1, a, if cvtIs64 frm then 2 else 1)])
    | .smovChk h d a => some (h, [(0, .s d, 1), (1, .v a, 1)])
    | .cbdec h _ d a _ _ => some (h, [(0, d, 1), (1, a, 1)])
    | _ => none

/-- An instruction with an empty live set, of whatever class, has no effect: its path goes on, and the flag it names is pending and
due to clear in the following cycle (R41, R42); of a BRA in a recording track, which records its decision all the same (R305), the
statement of branches speaks. An instruction of class 1 to 3 that names a register beyond the demands of its block raises 0x024 to
0x027 for the first such position in its live lanes, and writes nothing (R117). The model's own choices in it: log 30 and 226. -/
def Obligations.IssueChecks : Prop :=
  (∀ i h, hintsOf i = some h → ∀ s who g p b, Issuing s who g p b → (s.issueCtx who g p b h).live = 0 →
     ((∃ disp, i = .bra h disp) → g.track.st ≠ .recording) →
     ∃ t g' p', exec i s = .next t ∧ OwnGroup s t who g' ∧ Leaves h s.cycle 0 [] who g g' p p' ∧
       g'.flagDue = g.flagDue ++ (match setFlag h with | some f => [(f, s.cycle + 1)] | none => [])) ∧
  (∀ i h ops pos, laneOps i = some (h, ops) → ∀ s who g p b, Issuing s who g p b → Apart g → p.handler = false →
     (s.issueCtx who g p b h).live ≠ 0 → demandFail b ops = some pos →
     ∃ t g', exec i s = .next t ∧ OwnGroup s t who g' ∧
       Parks p (s.issueCtx who g p b h).live (fun _ => record s g p b (BitVec.ofNat 9 (0x024 + pos)) (pos + 1) 0 0 0) g g')

/-! ## Control (R98 to R114) -/

/-- NOP has no effect beyond R41, whatever its x (R98). A MARK in a virtual device whose trace ring is off (R386), a FENCE with
every earlier access of its threads performed, PREF and CCTL only issue (R185, R194). The model's own choices in it: log 21 and
27. -/
def Obligations.IssueOnly : Prop :=
  ((∀ h x s who g p b, Issuing s who g p b →
     ∃ t g' p', exec (.nop h x) s = .next t ∧ OwnGroup s t who g' ∧ Leaves h s.cycle 0 [] who g g' p p') ∧
   (∀ h id s who g p b, Runs s who g p b h [] → (s.vd b.vd).trace.cfg.getLsbD 31 = false →
     ∃ t g' p', exec (.mark h id) s = .next t ∧ OwnGroup s t who g' ∧ Leaves h s.cycle 0 [] who g g' p p')) ∧
  ((∀ h k sc s who g p b, Runs s who g p b h [] → s.threadBusy b.launch (g.ltids (s.issueCtx who g p b h).live) = false →
     ∃ t, exec (.fence h k sc) s = .next t ∧ Goes s s t who g p h) ∧
   (∀ h k o64 a x imm s who g p b, Runs s who g p b h [] →
     ∃ t, exec (.pref h k o64 a x imm) s = .next t ∧ Goes s s t who g p h) ∧
   (∀ h k a x imm s who g p b, Runs s who g p b h [] →
     ∃ t, exec (.cctl h k a x imm) s = .next t ∧ Goes s s t who g p h))

/-- BRA and CALL split the path (R95, R99, R101): the live lanes stand at the target, the others at the successor, each as one
path; CALL leaves the successor in bD, in the live lanes' own copy for b14. A BRA of a RECORDING track whose guard is one of p0 to
p14 records the decision of the region's lanes first: as a pending bit where all of them agree, else as a BRD (R305). -/
def Obligations.Branches : Prop :=
  (∀ h disp s who g p b, Issuing s who g p b → Apart g → g.track.st ≠ .recording →
    let c := s.issueCtx who g p b h
    ∃ t g', exec (.bra h disp) s = .next t ∧ OwnGroup s t who g' ∧ Keeps h g g' ∧ SplitTo p g g' fun l =>
      if has c.live l then ⟨slotTarget p.pc disp.toInt, c.live, p.st, p.b14⟩ else p.onBut c.live) ∧
  (∀ h disp s who g p b r rs, Issuing s who g p b → Apart g → p.handler = false → g.track.st = .recording → g.track.regions = r :: rs →
    let c := s.issueCtx who g p b h
    let act := p.mask &&& r.mask
    let tk := c.live &&& r.mask
    let splits := fun (u : State) (tr : Track) => ∃ t g', exec (.bra h disp) s = .next t ∧
      t = { u with free := s.free + 1, groups := Tbl.put u.groups who.gid g' } ∧ Keeps h { g with track := tr } g' ∧
      SplitTo p g g' fun l => if has c.live l then ⟨slotTarget p.pc disp.toInt, c.live, p.st, p.b14⟩ else p.onBut c.live
    ((h.gp = 15 ∨ act = 0) → splits s g.track) ∧
    (h.gp ≠ 15 → act ≠ 0 → (tk = 0 ∨ tk = act) → g.track.pend.length < 22 →
      splits s { g.track with pend := g.track.pend ++ [decide (tk = act)] }) ∧
    (h.gp ≠ 15 → act ≠ 0 → tk ≠ 0 → tk ≠ act → g.track.pend = [] → g.track.dead = false → r.trunc = false →
      g.track.fits (entBrd act tk) = true → s.sharedFree g.core (g.track.place (entBrd act tk)).2.length = true →
      splits (s.sendLines c true (g.track.place (entBrd act tk)).2) (g.track.place (entBrd act tk)).1)) ∧
  (∀ h bD disp s who g p b, Runs s who g p b h [] → Apart g → bD ≠ 14 → Quiet g [.b bD.toNat] →
    let c := s.issueCtx who g p b h
    ∃ t g', exec (.call h bD disp) s = .next t ∧ OwnGroup s t who g' ∧
      Keeps h { g with b := Tbl.put g.b bD.toNat (nextPc p.pc) } g' ∧ SplitTo p g g' fun l =>
        if has c.live l then ⟨slotTarget p.pc disp.toInt, c.live, p.st, p.b14⟩ else p.onBut c.live) ∧
  (∀ h disp s who g p b, Runs s who g p b h [] → Apart g →
    let c := s.issueCtx who g p b h
    Quiet g [.b14 c.live] →
    ∃ t g', exec (.call h 14 disp) s = .next t ∧ OwnGroup s t who g' ∧ Keeps h g g' ∧ SplitTo p g g' fun l =>
      if has c.live l then ⟨slotTarget p.pc disp.toInt, c.live, p.st, nextPc p.pc⟩ else p.onBut c.live)

/-- The lanes of a mask whose target is that of lane `l`. -/
def sameTarget (m : LaneMask) (target : Nat → Va) (l : Nat) : LaneMask := maskOf fun k => has m k && decide (target k = target l)

/-- Where the lanes of a register-target branch stand (R100, R101): one path for each target; `link` is the return address in
b14. -/
def jumpTo (c : Ctx) (p : Path) (target : Nat → Va) (b14 : Va) (l : Nat) : Stand :=
  if has c.live l then ⟨target l, sameTarget c.live target l, p.st, b14⟩ else p.onBut c.live

/-- BRX, CALLX and RET, and their indexed forms, whose targets are all code addresses, split the path by target (R100, R101). A
branch none of whose targets is a code address parks its live lanes with TARGET_NOT_SLOT and the target (R52). The model's own
choices in it: log 52. -/
def Obligations.RegisterBranches : Prop :=
  (∀ h bN off s who g p b, Issuing s who g p b → Apart g →
     let c := s.issueCtx who g p b h
     let plain := jumpTarget c (s.launchIx b) bN none
     let ix := jumpTarget c (s.launchIx b) bN (some off)
     (Runs s who g p b h [] → (∀ l, has c.live l = true → isCode (plain l) = true) →
       (∃ t g', exec (.brx h bN) s = .next t ∧ OwnGroup s t who g' ∧ Keeps h g g' ∧ SplitTo p g g' (jumpTo c p plain p.b14)) ∧
       (∃ t g', exec (.ret h bN) s = .next t ∧ OwnGroup s t who g' ∧ Keeps h g g' ∧ SplitTo p g g' (jumpTo c p plain p.b14)) ∧
       (Quiet g [.b14 c.live] → ∃ t g', exec (.callx h 14 bN) s = .next t ∧ OwnGroup s t who g' ∧ Keeps h g g' ∧
         SplitTo p g g' (jumpTo c p plain (nextPc p.pc)))) ∧
     (Runs s who g p b h [(2, off, 1)] → (∀ l, has c.live l = true → isCode (ix l) = true) →
       (∃ t g', exec (.brxIx h off bN) s = .next t ∧ OwnGroup s t who g' ∧ Keeps h g g' ∧ SplitTo p g g' (jumpTo c p ix p.b14)) ∧
       (Quiet g [.b14 c.live] → ∃ t g', exec (.callxIx h 14 off bN) s = .next t ∧ OwnGroup s t who g' ∧ Keeps h g g' ∧
         SplitTo p g g' (jumpTo c p ix (nextPc p.pc)))) ∧
     (∀ bD, bD ≠ 14 → Quiet g [.b bD.toNat] →
       (Runs s who g p b h [] → (∀ l, has c.live l = true → isCode (plain l) = true) →
         ∃ t g', exec (.callx h bD bN) s = .next t ∧ OwnGroup s t who g' ∧
           Keeps h { g with b := Tbl.put g.b bD.toNat (nextPc p.pc) } g' ∧ SplitTo p g g' (jumpTo c p plain p.b14)) ∧
       (Runs s who g p b h [(2, off, 1)] → (∀ l, has c.live l = true → isCode (ix l) = true) →
         ∃ t g', exec (.callxIx h bD off bN) s = .next t ∧ OwnGroup s t who g' ∧
           Keeps h { g with b := Tbl.put g.b bD.toNat (nextPc p.pc) } g' ∧ SplitTo p g g' (jumpTo c p ix p.b14)))) ∧
  (∀ h bN s who g p b, Runs s who g p b h [] → Apart g → p.handler = false →
     let c := s.issueCtx who g p b h
     let target := jumpTarget c (s.launchIx b) bN none
     isCode (target 0) = false →
     ∃ t g', exec (.brx h bN) s = .next t ∧ OwnGroup s t who g' ∧
       (∀ l, has c.live l = true → Tbl.find g'.faults l = some (record s g p b 0x007 0 0 0 (target l)) ∧ pathAt g'.paths l = none) ∧
       g'.entries = g.entries ++ [c.live] ∧
       (∀ l, has (p.mask &&& ~~~c.live) l = true → ∃ q, pathAt g'.paths l = some q ∧ q.stand = p.onBut c.live))

/-- JOIN sets the mask's bit in each live lane and no other bit (R103); WAITJ lets the lanes without the bit pass, keeps the
others waiting while a lane of the mask is elsewhere, and when they all wait, whatever paths they wait in, merges them at one PC with
the b14 of the path that holds the lowest, or parks them at their own WAITJ with JOIN_MISMATCH where they wait at several. -/
def Obligations.JoinAndWait : Prop :=
  (∀ h jk s who g p b, Runs s who g p b h [] → Apart g → (p.handler = true → jk.toNat < 2) →
    let c := s.issueCtx who g p b h
    ∃ t g', exec (.join h jk) s = .next t ∧ OwnGroup s t who g' ∧
      Keeps h (g.setRejoin p.handler jk.toNat (g.rejoin p.handler jk.toNat ||| c.live)) g' ∧ SplitTo p g g' p.on) ∧
  (∀ h jk s who g p b, Runs s who g p b h [] → Apart g → (p.handler = true → jk.toNat < 2) → p.st = .ready →
    let c := s.issueCtx who g p b h
    let need := g.rejoin p.handler jk.toNat
    let stay := c.live &&& need
    need &&& ~~~(stay ||| waiting g p.handler jk.toNat) ≠ 0 ∨ need = 0 →
    ∃ t g', exec (.waitj h jk) s = .next t ∧ OwnGroup s t who g' ∧ Keeps h g g' ∧ SplitTo p g g' fun l =>
      if has stay l then ⟨p.pc, stay, .join jk.toNat, p.b14⟩ else p.onBut stay) ∧
  (∀ h jk s who g p b, Runs s who g p b h [] → Apart g → (p.handler = true → jk.toNat < 2) → p.st = .ready →
    (p.handler = true → g.handler.isSome) →
    let c := s.issueCtx who g p b h
    let need := g.rejoin p.handler jk.toNat
    need &&& ~~~((c.live &&& need) ||| waiting g p.handler jk.toNat) = 0 → c.live &&& need ≠ 0 →
    ((∀ q ∈ g.waiters p.handler jk.toNat, q.mask &&& need ≠ 0 → q.pc = p.pc) →
      ∃ t g', exec (.waitj h jk) s = .next t ∧ OwnGroup s t who g' ∧ g'.rejoin p.handler jk.toNat = 0 ∧
        (∀ k, k ≠ jk.toNat → g'.rejoin p.handler k = g.rejoin p.handler k) ∧
        (∀ l, has need l = true → ∃ q, pathAt g'.paths l = some q ∧ q.handler = p.handler ∧
          q.stand = ⟨nextPc p.pc, need, .ready, ((pathAt g.paths (lowLane need)).map (·.b14)).getD 0⟩) ∧
        (∀ l, has (p.mask &&& ~~~need) l = true → ∃ q, pathAt g'.paths l = some q ∧ q.stand = p.onBut need) ∧
        ∀ l, has (p.mask ||| need) l = false →
          pathAt g'.paths l = (pathAt g.paths l).map fun q => { q with mask := q.mask &&& ~~~need }) ∧
    (p.handler = false → (∃ q ∈ g.waiters false jk.toNat, q.mask &&& need ≠ 0 ∧ q.pc ≠ p.pc) →
      ∃ t g', exec (.waitj h jk) s = .next t ∧ OwnGroup s t who g' ∧ g'.rejoin false jk.toNat = need ∧
        g'.entries = g.entries ++ [need] ∧ ∀ l q, has need l = true → pathAt g.paths l = some q → pathAt g'.paths l = none ∧
          Tbl.find g'.faults l = some (FaultRec.at' 0x038 q.pc (s.wordAt g.core b.vd q.pc) q.b14)))

/-- EXIT of lanes of a group that keeps other threads: their lanes, rejoin bits, records and reservations are gone, and the other
lanes go on (R102). EXIT of the last threads of a group whose flags are clear, whose tape lines are written and whose block lives on
frees the group's slot (R25, R89, R307); an EXIT with an access of its threads outstanding does not issue (R178, R198). The model's
own choices in it: log 59 and 209. -/
def Obligations.Exits : Prop :=
  (∀ h s who g p b, Runs s who g p b h [] → Apart g → g.engOut = 0 → g.track = .init → p.handler = false → g.handler = none →
    let c := s.issueCtx who g p b h
    s.threadBusy b.launch (g.ltids c.live) = false →
    g.alive &&& ~~~c.live ≠ 0 → (∀ k, g.waiters false k = [] ∧ g.waiters true k = []) →
    ∃ t g', exec (.exit h) s = .next t ∧ OwnGroup s t who g' ∧ g'.alive = g.alive &&& ~~~c.live ∧ g'.occ = g.occ &&& ~~~c.live ∧
      (∀ k, g'.rejoin false k = g.rejoin false k &&& ~~~c.live) ∧
      (∀ l, has c.live l = true → pathAt g'.paths l = none ∧ Tbl.find g'.faults l = none ∧ Tbl.find g'.resv l = none) ∧
      (∀ l, has (p.mask &&& ~~~c.live) l = true → ∃ q, pathAt g'.paths l = some q ∧ q.stand = p.onBut c.live) ∧
      (∀ l, has p.mask l = false → pathAt g'.paths l = pathAt g.paths l) ∧
      g'.v = g.v ∧ g'.s = g.s ∧ g'.p = g.p ∧ g'.b = g.b) ∧
  (∀ h s who g p b, Runs s who g p b h [] → setFlag h = none → g.engOut = 0 → g.track = .init → g.flagsClear = true →
    g.handler = none → p.handler = false → g.j = [] →
    let c := s.issueCtx who g p b h
    s.threadBusy b.launch (g.ltids c.live) = false → s.tapeBusy g.core who.gid = false →
    g.alive &&& ~~~c.live = 0 → (∃ k x, (k, x) ∈ s.groups ∧ k ≠ who.gid ∧ x.blk = g.blk) →
    exec (.exit h) s = .next (State.trimSlots { s with free := s.free + 1, groups := Tbl.drop s.groups who.gid } g.blk) ∧
    (b.held.length ≤ b.ngr → ∃ t, exec (.exit h) s = .next t ∧ t.groups = Tbl.drop s.groups who.gid ∧ t.mem = s.mem ∧
      Tbl.find t.blocks g.blk = some b)) ∧
  (∀ h s who g p b, Runs s who g p b h [] → g.engOut = 0 → s.threadBusy b.launch (g.ltids (s.issueCtx who g p b h).live) = true →
    exec (.exit h) s = .next (s.stalled who.gid .memoryQueue))

/-- REFORM of a group with clear flags, whose lanes owe no rejoin and record no tape, files every live lane in a bin of its
block and target, and the lanes leave the group (R104); BIN_DRAW gives the threads of a full bin a fresh group in an empty slot
of their block (R105, R106). The model's own choices in it: log 54. -/
def Obligations.ReformAndDraw : Prop :=
  (∀ h idx s who g p b, Runs s who g p b h [(1, idx, 1)] → Apart g → p.handler = false → g.flagsClear = true → setFlag h = none →
    let c := s.issueCtx who g p b h
    let x := c.src (s.launchIx b) 1 idx
    (∀ l, has c.live l = true → reformBad c x l = none) → (s.core g.core).bins.length + (lanesOf c.live).length ≤ 64 →
    g.alive &&& ~~~c.live ≠ 0 → (s.core g.core).cnt = [] → (s.die (g.core / 64)).cnt = [] →
    ∃ t g', exec (.reform h idx) s = .next t ∧ Tbl.find t.groups who.gid = some g' ∧ g'.alive = g.alive &&& ~~~c.live ∧
      (∀ l, has c.live l = true → pathAt g'.paths l = none ∧
        let gl := g.land who.gid fun d => d.who &&& c.live ≠ 0
        ∃ bin ∈ (t.core g.core).bins, bin.blk = g.blk ∧ bin.pc = slotTarget p.pc (1 + (x.lane l).toInt) ∧
          ∃ f ∈ bin.threads, f.ltid = g.lt l ∧ ∀ n < b.nv, Tbl.find f.v n = some ((gl.vreg who.gid n).lane l)) ∧
      t.mem = s.mem) ∧
  (∀ core bin s x b sched slot, (s.core core).bins[bin]? = some x → Tbl.find s.blocks x.blk = some b →
    s.emptySlot core x.blk b = some (sched, slot) → x.threads.length = (if b.narrow then 16 else 32) →
    (∀ y ∈ (s.core core).bins, x.age ≤ y.age) → (∀ q ∈ s.groups, q.1 ≠ s.nextId) →
    ∃ t g', exec (.binDraw core bin) s = .next t ∧ (t.core core).bins = (s.core core).bins.eraseIdx bin ∧
      Tbl.find t.groups s.nextId = some g' ∧ g'.blk = x.blk ∧ g'.core = core ∧ g'.sched = sched ∧ g'.slot = slot ∧
      g'.regrouped = true ∧ g'.flags = [] ∧ g'.j = [] ∧ (∀ (k : Nat) (f : Filed), x.threads[k]? = some f → g'.lt k = f.ltid) ∧
      g'.paths = [Path.fresh x.pc g'.occ (Config.creationBase s.nextId 14)] ∧ t.mem = s.mem)

/-- SPAWN (R107): the parent's result is the new serial or the status of the first reason to fail; a successful one creates the
groups that it was asked for, each thread named under the serial, with the parent's registers as its first ones. YIELD splits
off the live lanes, asleep for `n` cycles, and asks for the next path (R109); YIELD_WAKE ends a sleep whose time has come and no
other; FAIRNESS_TIMER_EXPIRY makes the next path in rotation current (R93), or lets the entry set that is next enter the handler
(R343). The model's own choices in it: log 36, 56 and 58. -/
def Obligations.SpawnAndYield : Prop :=
  (∀ h d entry count nargs s who g p b, Runs s who g p b h [(0, .s d, 1), (1, entry, 1), (2, count, 1)] → p.handler = false →
     let c := s.issueCtx who g p b h
     let s1 := s.issued who g p h
     let e := (c.scalar (s.launchIx b) 1 entry).toNat
     let m := (c.scalar (s.launchIx b) 2 count).toNat
     e ≤ b.entries.length →
     (∀ why, s1.spawnWhy c m = some why → (s.core g.core).cnt = [] → (s.die (g.core / 64)).cnt = [] →
       ∃ t g', exec (.spawn h d entry count nargs) s = .next t ∧
         Pends s s t who g g' p h (result who h [.s d.toNat (spawnFail why)])) ∧
     (s1.spawnWhy c m = none → (b.harvest = true ∨ s1.harvestUse g.core = 0) → (∀ q ∈ s.groups, q.1 < s.nextId) →
       ∃ t, exec (.spawn h d entry count nargs) s = .next t ∧ t.nextId = s.nextId + m ∧
         (Tbl.find t.blocks g.blk).map (·.serials) = some (b.serials + 1) ∧
         (∃ r ∈ t.results, r.gid = who.gid ∧ r.writes = [.s d.toNat (BitVec.ofNat 32 (b.serials + 1))]) ∧
         (∀ i < m, ∃ x, Tbl.find t.groups (s.nextId + i) = some x ∧ x.blk = g.blk ∧ x.core = g.core ∧ x.alive = g.full ∧
           x.flags = [] ∧ (∀ k, x.rejoin false k = 0) ∧
           x.paths = [Path.fresh (if e = 0 then b.entry else b.entries.getD (e - 1) 0) g.full (Config.creationBase (s.nextId + i) 14)] ∧
           (∀ n < nargs.toNat, x.sreg (s.nextId + i) n = c.s (32 + n) n) ∧
           (∀ l < g.width, x.lt l = BitVec.ofNat 64
             (b.idx.toNat * 2 ^ 32 + (b.serials + 1) * 2 ^ 20 + i * 2 ^ (if g.narrow then 4 else 5) + l))) ∧
         t.mem = s.mem)) ∧
  ((∀ h n s who g p b, Runs s who g p b h [] → Apart g → p.st = .ready →
     let c := s.issueCtx who g p b h
     ∃ t g', exec (.yield h n) s = .next t ∧ OwnGroup s t who g' ∧ Keeps h { g with rotate := !g.track.locked } g' ∧
       SplitTo p g g' fun l =>
         if has c.live l then ⟨nextPc p.pc, c.live, if n = 0 then .ready else .sleep (s.cycle + n.toNat), p.b14⟩
         else p.onBut c.live) ∧
   (∀ gid l s g p till, Tbl.find s.groups gid = some g → pathAt g.paths l = some p → p.st = .sleep till →
     (till ≤ s.cycle → exec (.yieldWake gid l) s = .next { s with
       groups := Tbl.put s.groups gid { g with paths := replacePath g.paths l [{ p with st := .ready }] } }) ∧
     (s.cycle < till → exec (.yieldWake gid l) s = .next s)) ∧
   (∀ gid s g x xs, Tbl.find s.groups gid = some g → s.mayEnter gid = true → g.expired s.cycle = true → g.halt = none → g.entryNext = false →
     g.rotation = x :: xs → exec (.fairnessTimerExpiry gid) s = .next { s with
       groups := Tbl.put s.groups gid { g with
         cur := x, since := s.cycle, rotate := false, stall := none, readySince := none, why := none } }) ∧
   (∀ gid s g b, Tbl.find s.groups gid = some g → Tbl.find s.blocks g.blk = some b → b.hand ≠ 0 → s.mayEnter gid = true →
     g.expired s.cycle = true → g.halt = none → g.held = none → g.entryNext = true → ∃ t g', exec (.fairnessTimerExpiry gid) s = .next t ∧ Tbl.find t.groups gid = some g' ∧
       g'.handler.isSome = true ∧ t.mem = s.mem))

/-- BARINIT and BARINIT.A (R112): a barrier that is not busy is initialised with the count and no arrival, its phase kept; a busy
one, or a count outside 1 to 4095, parks the live lanes; an empty live set has no effect. BAR and BARARV (R111): each live thread
arrives. Below the count the arrivals are noted, and at a BAR the live lanes wait; with the count reached the phase flips, the
surplus remains, and the paths that wait on the barrier are ready behind their BAR. The model's own choices in it: log 21 and 225.
-/
def Obligations.Barriers : Prop :=
  (∀ h n cnt ix s who g p b,
     let c := s.issueCtx who g p b h
     let n' := (c.scalar (s.launchIx b) 1 ix).toNat
     let inits := fun (i : Instr) (k : Nat) => ∃ t, exec i s = .next t ∧ Goes s (s.modBlock g.blk fun b =>
       { b with bars := Tbl.put b.bars n.toNat { b.barrier n.toNat with init := true, count := k, arrived := 0 } }) t who g p h
     let parks := fun (i : Instr) (code : BitVec 9) => ∃ t g', exec i s = .next t ∧ OwnGroup s t who g' ∧
       Parks p c.live (fun _ => record s g p b code 0 0 0 0) g g'
     let busy := s.barWaiters g.blk n.toNat = true ∨ 0 < (b.barrier n.toNat).eng
     (p.handler = false → Apart g →
       (Runs s who g p b h [] → 1 ≤ cnt.toNat →
         (¬ busy → inits (.barinit h n cnt) cnt.toNat) ∧ (busy → parks (.barinit h n cnt) 0x03A)) ∧
       (Runs s who g p b h [(1, ix, 1)] →
         (1 ≤ n' → n' ≤ 4095 → ¬ busy → inits (.barinitA h ix n) n') ∧
         (1 ≤ n' → n' ≤ 4095 → busy → parks (.barinitA h ix n) 0x03A) ∧
         (n' < 1 ∨ 4095 < n' → parks (.barinitA h ix n) 0x03C))) ∧
     (Issuing s who g p b → c.live = 0 → ∀ i, (i = .barinit h n cnt ∨ i = .barinitA h ix n) →
       ∃ t g' p', exec i s = .next t ∧ OwnGroup s t who g' ∧ Leaves h s.cycle 0 [] who g g' p p')) ∧
  (∀ h n s who g p b, Runs s who g p b h [] → p.handler = false → (b.barrier n.toNat).init = true →
     let c := s.issueCtx who g p b h
     let x := b.barrier n.toNat
     let k := x.arrived + (lanesOf c.live).length
     let noted := fun y => s.modBlock g.blk fun b => { b with bars := Tbl.put b.bars n.toNat y }
     s.threadBusy b.launch (g.ltids c.live) = false →
     (k < x.count → ∃ t, exec (.bararv h n) s = .next t ∧ Goes s (noted { x with arrived := k }) t who g p h) ∧
     (k < x.count → Apart g → p.st = .ready → ∃ t g', exec (.bar h n) s = .next t ∧ Keeps h g g' ∧
       (SplitTo p g g' fun l => if has c.live l then ⟨p.pc, c.live, .bar n.toNat, p.b14⟩ else p.onBut c.live) ∧
       t = { noted { x with arrived := k } with free := s.free + 1, groups := Tbl.put s.groups who.gid g' }) ∧
     (x.count ≤ k → ∀ i, (i = .bararv h n ∨ i = .bar h n) → ∃ t, exec i s = .next t ∧
       t.blocks = (noted { x with arrived := k - x.count, phase := !x.phase }).blocks ∧
       (∀ gid q, gid ≠ who.gid → Tbl.find s.groups gid = some q → Tbl.find t.groups gid = some (if q.blk = g.blk then
         { q with paths := q.paths.map fun r => if r.st = (.bar n.toNat) then { r with st := .ready, pc := nextPc r.pc } else r }
         else q)) ∧
       (Apart g → p.st = .ready → ∃ g', Tbl.find t.groups who.gid = some g' ∧ ∀ l, has p.mask l = true →
         ∃ q, pathAt g'.paths l = some q ∧ q.pc = nextPc p.pc ∧ q.st = .ready)))

/-- HVQ and RDSP give their value as a V result (R114, R351): the slack of the group, the words of the trap handler, the
milestone registers, the cycle counter. A selector-0 HVQ clears the two event bits that it reads. WRSP writes a handler scratch
word; a non-zero word for MSREQ, where the mode has milestones, forces one first (R351, R357). The model's own choices in it:
log 66. -/
def Obligations.SpecialRegisters : Prop :=
  ((∀ h d sel s who g p b, Runs s who g p b h [(0, .s d, 1)] →
     let c := s.issueCtx who g p b h
     let u := if sel = 0 then s.modBlock g.blk fun b => { b with moved := false, parked := false } else s
     ∃ t g' x, exec (.hvq h d sel) s = .next t ∧ Pends s u t who g g' p h (result who h [.s d.toNat x]) ∧
       (sel = 1 → x = BitVec.ofNat 32 (c.g.slack who.gid b.nv / 128)) ∧
       (sel = 0 → b.harvest = true → x.getLsbD 0 = true ∧ x.getLsbD 1 = b.parked ∧ x.getLsbD 2 = b.moved ∧
         x.extractLsb' 8 8 = BitVec.ofNat 8 b.parks)) ∧
   (∀ h d sr s who g p b, Runs s who g p b h [(0, d, 1)] → Roomy s who g p b h →
     ∃ t g', exec (.rdsp h d sr) s = .next t ∧
       let c := s.issueCtx who g p b h
       Pends s s t who g g' p h (result who h (spWrites c d ((s.issued who g p h).readSp c sr)))) ∧
   (∀ (s : State) (c : Ctx), s.readSp c .msreq = .word 0 ∧ s.readSp c .msseq = .word (s.vd c.b.vd).msseq ∧
     s.readSp c .msmode = .word (BitVec.ofNat 32 (s.vd c.b.vd).msmode) ∧
     s.readSp c .cyclo = .word (BitVec.ofNat 32 s.cycle) ∧ s.readSp c .cychi = .word (BitVec.ofNat 32 (s.cycle / 2 ^ 32)) ∧
     s.readSp c .hscr2 = .word (Tbl.getD c.g.hscr 2 0)) ∧
   (∀ (s : State) (c : Ctx) (hd : Handler) (f : FaultRec) (l : Nat), c.p.handler = true → c.g.handler = some hd →
     has hd.entry l = true → Tbl.find c.g.faults l = some f →
     ∃ y : Nat → W32, s.readSp c .fcause = .lanes y ∧ (y l).extractLsb' 0 9 = f.code ∧ (y l).extractLsb' 9 3 = f.pos ∧
       (y l).extractLsb' 16 16 = f.det)) ∧
  (∀ h a s who g p b, Runs s who g p b h [(1, a, 1)] →
     let x := (s.issueCtx who g p b h).scalar (s.launchIx b) 1 a
     (∀ sr k, scratchIx sr = some k →
       ∃ t, exec (.wrsp h a sr) s = .next t ∧ Goes s s t who { g with hscr := Tbl.put g.hscr k x } p h) ∧
     (x = 0 ∨ (s.vd b.vd).msmode = 0 → ∃ t, exec (.wrsp h a .msreq) s = .next t ∧ Goes s s t who g p h) ∧
     (x ≠ 0 → (s.vd b.vd).msmode ≠ 0 → (∀ y ∈ s.accesses, y.vd ≠ b.vd) → (s.vd b.vd).withheld = [] →
       ∃ t, exec (.wrsp h a .msreq) s = .next t ∧ Goes s (s.milestone b.vd) t who g p h ∧
         (t.vd b.vd).msseq = (s.vd b.vd).msseq + 1))

/-! ## Traps, services, stops -/

/-- TRAP n parks every live lane with cause 0x040 + n, its other lanes go on, an empty live set has no effect, and the record's
`.skip` place is behind the TRAP (R348). Once no path of the group can issue, the oldest entry set becomes the handler's path at
the launch's entry with its masks zero, the fixed-latency results of its threads written, or halts the group where there is no
handler (R343 to R346); a trap in the handler halts the group with HANDLER_FAULT (R345). The model's own choices in it: log 36,
62 and 161. -/
def Obligations.TrapsAndEntry : Prop :=
  (∀ h n s who g p b, Runs s who g p b h [] → Apart g → p.handler = false →
    ∃ t g', exec (.trap h n) s = .next t ∧ OwnGroup s t who g' ∧
      Parks p (s.issueCtx who g p b h).live (fun _ => record s g p b (BitVec.ofNat 9 (0x040 + n.toNat)) 0 0 0 0) g g' ∧
      ∀ l, has (s.issueCtx who g p b h).live l = true →
        Leave.target .skip (Tbl.getD g'.faults l (FaultRec.at' 0 0 0 0)).pc = nextPc p.pc) ∧
  (∀ h n s who g p b, Issuing s who g p b → (s.issueCtx who g p b h).live = 0 →
    ∃ t g' p', exec (.trap h n) s = .next t ∧ OwnGroup s t who g' ∧ Leaves h s.cycle 0 [] who g g' p p') ∧
  (∀ h n s who g p b, Runs s who g p b h [] → p.handler = true →
    ∃ t g', exec (.trap h n) s = .next t ∧ Tbl.find t.groups who.gid = some g' ∧ g'.halt = some 0x122 ∧ t.mem = s.mem) ∧
  (∀ gid s q m b g m1 rest, Tbl.find s.groups gid = some q → q.queue.head? = some m → s.mayEnter gid = true →
    s.converged gid = true →
    let u := s.land gid fun d => d.who &&& m ≠ 0
    Tbl.find u.groups gid = some g → Tbl.find u.blocks g.blk = some b → g.queue = m1 :: rest → g.handler = none → g.halt = none →
    (b.hand ≠ 0 → exec (.handlerEntry gid) s = .next { u with groups := Tbl.put u.groups gid { g with
      entries := rest, older := g.older - 1, handler := some ⟨m1, m1, 0, 0⟩, cur := lowLane m1, since := u.cycle, rotate := false
      paths := g.paths ++ [{ Path.fresh b.hand m1 ((Tbl.getD g.faults (lowLane m1) (FaultRec.at' 0 0 0 0)).b14) with
        handler := true }] } }) ∧
    (b.hand = 0 → ∃ t g', exec (.handlerEntry gid) s = .next t ∧ Tbl.find t.groups gid = some g' ∧
      g'.halt = some 0x124 ∧ g'.paths = g.paths ∧ t.mem = u.mem))

/-- RETURNING FROM THE HANDLER (R349): RTH takes the live lanes out as ready paths, one for each target, behind the faulting
instruction, at it, or at the base named, their fixed-latency results written; their records are gone, and the invocation ends
with its last lane. Outside the handler RTH parks its lanes. The model's own choices in it: log 161. -/
def Obligations.HandlerReturn : Prop :=
  ∀ h bA s who g p b, Runs s who g p b h [] → Apart g →
    let c := s.issueCtx who g p b h
    (p.handler = true → ∀ hd, g.handler = some hd → (∀ k, g.waiters false k = [] ∧ g.waiters true k = []) →
      ∀ i w, (i = .rthSkip h ∧ w = .skip) ∨ (i = .rthRetry h ∧ w = .retry) ∨
        (i = .rthTo h bA ∧ w = .at (c.base 1 bA.toNat) ∧ isCode (c.base 1 bA.toNat) = true) →
      (∀ d ∈ g.due, ∀ k, d.write.reg ≠ .b14 k) →
      let fr := fun l => Tbl.getD g.faults l (FaultRec.at' 0 0 0 0)
      let target := fun l => Leave.target w (fr l).pc
      let gl := g.land who.gid fun d => d.who &&& c.live ≠ 0
      ∃ t g', exec i s = .next t ∧ Tbl.find t.groups who.gid = some g' ∧ t.mem = s.mem ∧
        (∀ k, k ≠ who.gid → Tbl.find t.groups k = Tbl.find s.groups k) ∧
        (∀ l, has c.live l = true → ∃ q, pathAt g'.paths l = some q ∧ q.handler = false ∧
          q.stand = ⟨target l, sameTarget c.live target l, .ready, (fr (lowLane (sameTarget c.live target l))).b14⟩) ∧
        (∀ l, has (p.mask &&& ~~~c.live) l = true → ∃ q, pathAt g'.paths l = some q ∧ q.stand = p.onBut c.live ∧ q.handler = true) ∧
        (∀ l, has p.mask l = false → pathAt g'.paths l = pathAt g.paths l) ∧
        (∀ l, Tbl.find g'.faults l = if has c.live l then none else Tbl.find g.faults l) ∧
        (g'.handler = none ↔ hd.left &&& ~~~c.live = 0) ∧ g'.v = gl.v ∧ g'.s = gl.s ∧ g'.p = gl.p ∧ g'.b = gl.b) ∧
    (p.handler = false → ∀ i, (i = .rthSkip h ∨ i = .rthRetry h ∨ i = .rthTo h bA) →
      ∃ t g', exec i s = .next t ∧ OwnGroup s t who g' ∧
        Parks p c.live (fun _ => record s g p b 0x123 0 0 0 0) g g')

/-- SYS (R350): a service that the virtual device has makes a request, whose reply sD takes; with the ring full the request
waits; with no such service the lanes are parked. A V result that has come in is written and its flag counts one less; a result
of fixed latency stands in its register from the cycle on that its latency ends in, and not before (R44, R45, R47). The model's
own choices in it: log 64 and 65. -/
def Obligations.ServicesAndResults : Prop :=
  (∀ h d arg svc s who g p b, Runs s who g p b h [(0, .s d, 1), (1, arg, 1)] → (s.vd b.vd).msmode ≠ 2 →
    svc.toNat < (s.vd b.vd).cfg 84 2 →
    let c := s.issueCtx who g p b h
    let bs := sysRequest b.vd svc.toNat (s.launchIx b) (g.lt (lowLane c.live)) p.pc (c.scalar (s.launchIx b) 1 arg)
    let r := { result who h [.s d.toNat 0] with
      service := true, at' := (s.vd b.vd).ringAddr, pc := p.pc, who := g.ltids c.live }
    (¬ (s.vd b.vd).cfg 86 2 ≤ (s.issued who g p h).ringUsed b.vd →
      ∃ u g', Pends s s u who g g' p h r ∧
        ((u.putRequest b.vd bs).2 = none → exec (.sys h d arg svc) s = .next (u.putRequest b.vd bs).1)) ∧
    ((s.vd b.vd).cfg 86 2 ≤ (s.issued who g p h).ringUsed b.vd →
      ∃ t g', exec (.sys h d arg svc) s = .next t ∧ Pends s s t who g g' p h { r with req := bs })) ∧
  (∀ h d arg svc s who g p b, Runs s who g p b h [(0, .s d, 1), (1, arg, 1)] → Apart g → p.handler = false →
    (s.vd b.vd).msmode ≠ 2 → (s.vd b.vd).cfg 84 2 ≤ svc.toNat →
    ∃ t g', exec (.sys h d arg svc) s = .next t ∧ OwnGroup s t who g' ∧
      Parks p (s.issueCtx who g p b h).live (fun _ => record s g p b 0x140 0 0 svc.toNat 0) g g') ∧
  (∀ k s r u bs g, s.results[k]? = some r → Tbl.find s.groups r.gid = some g →
    let done := fun (s : State) (g' : Group) => { s with
      results := s.results.eraseIdx k, free := s.free + 1, groups := Tbl.put s.groups r.gid g' }
    (∀ n x, r.service = false → r.writes = [.s n x] → .s n ∉ g.clobber →
      ∃ t g', exec (.resultWriteback k) s = .next t ∧ t = done s g' ∧ g'.sreg r.gid n = x ∧
        Tbl.getD g'.flags r.flag 0 = Tbl.getD g.flags r.flag 0 - 1 ∧ g'.vpend = g.vpend.erase (.s n) ∧ g'.v = g.v ∧ g'.paths = g.paths) ∧
    (∀ n x reply, r.service = true → r.req = [] → r.writes = [.s n x] → .s n ∉ g.clobber →
      s.devRead (s.vdOf r.gid) r.at' 4 = (u, .ok bs) → Tbl.find u.groups r.gid = some g →
      (∀ g', (done u g').nextRequest (s.vdOf r.gid) = none) →
      ∃ t g', exec (.sysReply k reply) s = .next t ∧ t = done u g' ∧ g'.sreg r.gid n = reply ∧
        Tbl.getD g'.flags r.flag 0 = Tbl.getD g.flags r.flag 0 - 1 ∧ g'.v = g.v ∧ g'.paths = g.paths)) ∧
  (∀ s gid g d n x rest, s.powered = true → s.agenda = .tick :: rest → s.groups = [(gid, g)] → s.blocks = [] → s.vds = [] →
    s.cores = [] → s.dies = [] → g.alive ≠ 0 → g.flagDue = [] → g.vpend = [] → g.due = [d] → d.write = .s n x →
    ∃ t g', step s = .next t ∧ t.cycle = s.cycle + 1 ∧ t.agenda = rest ∧ t.mem = s.mem ∧ t.groups = [(gid, g')] ∧
      (d.at' ≤ s.cycle + 1 → g'.due = [] ∧ g'.sreg gid n = x ∧ ∀ m, m ≠ n → g'.sreg gid m = g.sreg gid m) ∧
      (s.cycle + 1 < d.at' → g'.due = [d] ∧ g'.s = g.s) ∧ g'.v = g.v ∧ g'.p = g.p ∧ g'.b = g.b ∧ g'.j = g.j)

/-- A ring of a virtual device without milestones takes a record of `len` bytes (R384): it is on, the record fits it and does not
pass its end, and the bytes at WP mod size lie at `pa` in this package's memory, in lines that hold the key of their page. -/
structure RingTakes (s : State) (vd : Nat) (sample : Bool) (len pa key : Nat) : Prop where
  on : ringBit ((s.vd vd).ring sample).cfg 31 = true
  mode : (s.vd vd).msmode = 0
  fits : (((s.vd vd).ring sample).wp - ((s.vd vd).ring sample).rp).toNat + len + 32 ≤ ((s.vd vd).ring sample).size
  whole : ((s.vd vd).ring sample).wp.toNat % ((s.vd vd).ring sample).size + len ≤ ((s.vd vd).ring sample).size
  mapped : ∃ u ord, s.stepSegs vd ⟨len, 0, .wr, .engine, false, [0]⟩
    (((s.vd vd).ring sample).base.toNat + ((s.vd vd).ring sample).wp.toNat % ((s.vd vd).ring sample).size) true =
      (u, .ok [.phys pa len key ord])
  place : region pa = 0 ∧ ∀ l ∈ linesOf pa len, Tbl.find s.lineSlot l = some key
  mem : Memory.wf s.mem = true

/-- The record stands in the ring (R384): its bytes from `pa` on, every other byte of memory as before, and WP past it. -/
structure RingHolds (s t : State) (vd : Nat) (sample : Bool) (pa : Nat) (bs : List Byte) : Prop where
  bytes : ∀ x, Memory.get t.mem x = if pa ≤ x ∧ x < pa + bs.length then bs.getD (x - pa) 0 else Memory.get s.mem x
  wp : ((t.vd vd).ring sample).wp = ((s.vd vd).ring sample).wp + BitVec.ofNat 32 bs.length
  shown : ((t.vd vd).ring sample).shown = ((t.vd vd).ring sample).wp

/-- The lanes of `m` are of one logical group and stand at its own places, as in a group that no REFORM has formed (R21). -/
def InPlace (g : Group) (m : LaneMask) : Prop :=
  ∃ base, ltidGroup g.narrow base = base ∧ ∀ l, has m l = true → l < g.width ∧ g.lt l = base + BitVec.ofNat 64 l

/-- Bytes [19:4] of the records of R385 and R388: the launch index, the thread of the lowest lane, the lanes. -/
def recordLanes (s : State) (b : Block) (g : Group) (m : LaneMask) : List Byte :=
  leBytes 4 (s.launchIx b).toNat ++ leBytes 8 (g.lt (lowLane m)).toNat ++ leBytes 4 m.toNat

/-- The placement byte of a record: scheduler and slot. -/
def placement (g : Group) : List Byte := leBytes 1 (g.sched * 64 + g.slot % 32)

/-- Stops and marks (R384 to R396): BKPT without debugging only issues; with it, it holds the live lanes behind itself under the
next stop number and reports BREAK_BKPT, and its other lanes go on at the successor. DCTL releases what a stop holds, to run or for
one instruction; a stop request is asked for, and taken at a tick: it holds every group of the virtual device and each of their
paths. A MARK in a tracing virtual device goes on, its flag pending, with its 32-byte record in the ring. The model's own choices in
it: log 135, 140 and 205. -/
def Obligations.StopsAndMarks : Prop :=
  (∀ h id s who g p b, Runs s who g p b h [] → (s.vd b.vd).dcfg = false →
    ∃ t, exec (.bkpt h id) s = .next t ∧ Goes s s t who g p h) ∧
  (∀ h id s who g p b, Runs s who g p b h [] → Apart g → p.st = .ready → (s.vd b.vd).dcfg = true → (s.vd b.vd).msmode ≠ 2 →
    let c := s.issueCtx who g p b h
    ∃ t g', exec (.bkpt h id) s = .next t ∧ Tbl.find t.groups who.gid = some g' ∧
      (∀ l, has c.live l = true → ∃ q, pathAt g'.paths l = some q ∧ q.stop = some ((s.vd b.vd).stops + 1) ∧ q.pc = nextPc p.pc ∧
        q.mask = c.live) ∧
      (∀ l, has (p.mask &&& ~~~c.live) l = true → ∃ q, pathAt g'.paths l = some q ∧ q.pc = nextPc p.pc ∧
        q.mask = p.mask &&& ~~~c.live ∧ q.st = p.st ∧ q.stop = p.stop) ∧
      (t.vd b.vd).stops = (s.vd b.vd).stops + 1 ∧ ∃ is, t.irqs = is ++ [.plain (some b.vd) 2 0x160 (nextPc p.pc)]) ∧
  (∀ vd n s gid g, Tbl.find s.groups gid = some g → s.blkIn vd g.blk = true →
    (∃ t, exec (.dctlContinue vd n) s = .next t ∧ Tbl.find t.groups gid = some { g with
      held := if g.held = some n then none else g.held
      paths := g.paths.map fun q => if q.stop = some n then { q with stop := none, step := false } else q } ∧ t.mem = s.mem) ∧
    (∃ t, exec (.dctlStep vd n) s = .next t ∧ Tbl.find t.groups gid = some { g with
      held := if g.held = some n ∧ ∀ q ∈ g.paths, q.stop ≠ some n then none else g.held
      paths := g.paths.map fun q => if q.stop = some n then { q with stop := none, step := true } else q } ∧ t.mem = s.mem)) ∧
  (∀ vd s k g0, (s.vd vd).dcfg = true → (s.vd vd).msmode ≠ 2 → (∀ e ∈ s.groups, e.2.due = []) →
    let a : StopAsk := { gid := none, lane := 0, scp := 3, unit := 0xFF, code := 0x165, op := 0 }
    s.stopGroup vd a = some (k, g0) →
    exec (.dctlStopReq vd) s = .next (s.modVd vd fun v => { v with asks := v.asks ++ [a] }) ∧
    let t := s.takeStop vd a
    (∀ gid g', Tbl.find t.groups gid = some g' → s.blkIn vd g'.blk = true →
      g'.held.isSome = true ∧ ∀ q ∈ g'.paths, q.stop.isSome = true) ∧
    (t.vd vd).stops = (s.vd vd).stops + 1 ∧ ∃ is, t.irqs = is ++ [.plain (some vd) 2 0x165 (s.stands k g0).2]) ∧
  (∀ h id s who g p b pa key, Runs s who g p b h [] → Apart g → RingTakes (s.issued who g p h) b.vd false 32 pa key →
    let m := (s.issueCtx who g p b h).live
    InPlace g m →
    ∃ t g', exec (.mark h id) s = .next t ∧ Tbl.find t.groups who.gid = some g' ∧ SplitTo p g g' p.on ∧
      (∀ f, Tbl.getD g'.flags f 0 = Tbl.getD g.flags f 0 + if setFlag h = some f then 1 else 0) ∧
      RingHolds s t b.vd false pa (leBytes 4 (2 ^ 28 + b.vd % 256 * 2 ^ 20 + id.toNat) ++ recordLanes s b g m ++ leBytes 8 s.cycle ++
        leBytes 1 g.core ++ placement g ++ leBytes 1 ((((s.vd b.vd).rangeAt p.pc).map (·.1)).getD 0 % 64) ++ [0]))

/-! ## Memory (R169 to R208) -/

/-- What the checks of its issue leave of a memory instruction some of whose lanes fail (R176): `bad` gives the code and the address
of a lane's first failed check. Those lanes are parked as one entry set with their records, the path's other lanes go on, and the
access of the other live lanes has started, if there are any; memory is as it was. -/
def LanesFail (i : Instr) (s : State) (who : Issuer) (g : Group) (p : Path) (b : Block) (h : Hints) (op : MemOp)
    (bad : Nat → Option (Nat × Nat)) : Prop :=
  let live := (s.issueCtx who g p b h).live
  let m := maskOf fun l => has live l && (bad l).isSome
  ∃ t g', exec i s = .next t ∧ Tbl.find t.groups who.gid = some g' ∧ t.mem = s.mem ∧ t.peer = s.peer ∧
    (∀ l, Tbl.find g'.faults l = match (if has live l then bad l else none) with
      | some (code, x) => some (record s g p b (BitVec.ofNat 9 code) 0 0 0 (BitVec.ofNat 80 x))
      | none => Tbl.find g.faults l) ∧
    g'.entries = g.entries ++ [m] ∧ (∀ l, has m l = true → pathAt g'.paths l = none) ∧
    (∀ l, has (p.mask &&& ~~~m) l = true → ∃ q, pathAt g'.paths l = some q ∧ q.stand = p.onBut m) ∧
    g'.v = g.v ∧ g'.s = g.s ∧ g'.p = g.p ∧ g'.b = g.b ∧
    (live &&& ~~~m = 0 → t.accesses = s.accesses) ∧
    (live &&& ~~~m ≠ 0 → ∃ a, t.accesses = s.accesses ++ [a] ∧ a.op = op ∧ a.live = live &&& ~~~m ∧
      ∀ q ∈ a.parts, has a.live q.lane = true ∧ q.done = false)

/-- Loads, stores, reservations and atomics start their access: one request for each live lane, at its own effective address,
with its own data; LDU and ACREAD make one request for the group (R169, R182 to R192). A lane that fails a check of its issue is
parked with the code of the check, for an instruction that acts once every live lane, and the others go on (R176); the checks are
alignment, translation with permission, key slot and region, in this order, with the codes of R175 and R177. A PST of 8-byte
elements whose data register is odd parks its lanes (R36). The model's own choices in it: log 18, 19 and 169. -/
def Obligations.MemoryIssues : Prop :=
  ∀ s who g p k h,
    let c := s.issueCtx who g p k h
    let li := s.launchIx k
    let off := fun (o64 : Bool) (b : Opnd) => (2, b, if o64 then 2 else 1)
    let starts := fun (i : Instr) (ops : List (Nat × Opnd × Nat)) (op : MemOp) (acq rel : Bool) (reqs : List Req) =>
      Runs s who g p k h ops →
        (Passes s who g p k h op reqs → ∃ t, exec i s = .next t ∧ Starts s t who g p k h op acq rel reqs) ∧
        (∀ bad : Nat → Option (Nat × Nat), Apart g → p.handler = false → (s.vd k.vd).msmode ≠ 2 →
          (∀ n ≤ 512, (s.issued who g p h).room c n = none) → s.soOut k.launch (reqs.map fun q => g.lt q.lane) = false →
          (∃ l, has c.live l = true ∧ (bad l).isSome = true) →
          (∀ r ∈ reqs, ∀ l, (r.lane = l ∨ op.whole = true) → match ((s.issued who g p h).chkReq k op r).1 with
            | .ok _ => bad l = none
            | .bad code x => bad l = some (code, x)
            | _ => False) → LanesFail i s who g p k h op bad)
    (∀ (w : Width) o64 pol (d : BitVec 8) a b imm sc acq,
      let reqs := c.each (c.ea li a b o64 imm) (fun _ => 0) fun _ => 0
      starts (.ld h w o64 pol d a b imm sc acq) [(0, .v d, regsOf w.bytes), off o64 b]
        (.ld d.toNat w.bytes (widthSigned w) false (sameEa reqs)) acq false reqs) ∧
    (∀ (w : Width) o64 pol d a b imm sc rel,
      starts (.st h w o64 pol d a b imm sc rel) [(0, d, regsOf w.bytes), off o64 b] (.st w.bytes) false rel
        (c.each (c.ea li a b o64 imm) (fun l => c.wide li 0 d (regsOf w.bytes) l % 256 ^ w.bytes) fun _ => 0)) ∧
    (∀ (w : Width) o64 (d : BitVec 6) a b imm sc acq,
      starts (.ldu h w o64 (.s d) a b imm sc acq) [(0, .s d, regsOf w.bytes), off o64 b]
        (.ldu d.toNat w.bytes (widthSigned w)) acq false [⟨lowLane c.live, c.ea li a b o64 imm (lowLane c.live), 0, 0⟩]) ∧
    (∀ (w : Width) o64 (d : BitVec 4) a b imm sc acq,
      starts (.ldu h w o64 (.base d) a b imm sc acq) [(0, .base d, regsOf w.bytes), off o64 b] (.ldb d.toNat p.mask) acq false
        [⟨lowLane c.live, c.ea li a b o64 imm (lowLane c.live), 0, 0⟩]) ∧
    (∀ (w : ResW) o64 (d : BitVec 8) a b imm sc acq,
      starts (.ldres h w o64 d a b imm sc acq) [(0, .v d, regsOf (resBytes w)), off o64 b] (.ld d.toNat (resBytes w) false true false)
        acq false (c.each (c.ea li a b o64 imm) (fun _ => 0) fun _ => 0)) ∧
    (∀ (w : ResW) rel o64 (d : BitVec 8) a b imm sc (st : BitVec 4),
      starts (.stcond h w rel o64 d a b imm sc st) [(0, .v d, regsOf (resBytes w)), off o64 b] (.stcond (resBytes w) st.toNat)
        false rel (c.each (c.ea li a b o64 imm) (fun l => c.wide li 0 (.v d) (regsOf (resBytes w)) l) fun _ => 0)) ∧
    (∀ op (ty : IntTy) (d : BitVec 8) a b x,
      let n := (if op = .cas then 2 else 1) * regsOf (IntTy.bytes ty)
      starts (.atom h op ty d a b x) [(0, .v d, regsOf (IntTy.bytes ty)), (2, b, 1), (3, x, n)] (.atom op ty d.toNat) false false
        (c.each (c.ea li a b false 0) (fun l => c.wide li 3 x n l % 256 ^ IntTy.bytes ty)
          fun l => c.wide li 3 x n l / 256 ^ IntTy.bytes ty)) ∧
    (∀ op ty (d : BitVec 8) a b x,
      let n := if ty = .f64 then 2 else 1
      starts (.fatom h op ty d a b x) [(0, .v d, n), (2, b, 1), (3, x, n)] (.fatom op ty d.toNat) false false
        (c.each (c.ea li a b false 0) (fun l => c.wide li 3 x n l) fun _ => 0)) ∧
    (∀ (d : BitVec 6) a imm,
      starts (.acread h d a imm) [(0, .s d, 1)] (.acread d.toNat) true false
        [⟨lowLane c.live, c.base 1 a.toNat + imm.signExtend 80, 0, 0⟩]) ∧
    (∀ d (tx : BitVec 6) x y,
      let e := k.txEnt tx.toNat
      let n := TxEnt.half e / 2
      txReason e none pstNeed = none → ¬ (n = 8 ∧ (overDemand k 2 d = true ∨ d.aligned 2 = false)) →
      (∀ l, has c.live l = true → ((c.src li 2 x).lane l).toNat < TxEnt.n e 0 ∧ ((c.src li 3 y).lane l).toNat < TxEnt.n e 1) →
      starts (.pst h d tx x y) [(0, d, 1), (2, x, 1), (3, y, 1)] (.pst n) false false
        (c.each (fun l => BitVec.ofInt 80 (TxEnt.addr e ((c.src li 2 x).lane l).toNat ((c.src li 3 y).lane l).toNat 0 0))
          (fun l => c.wide li 0 d (regsOf n) l % 256 ^ n)
          fun l => (TxEnt.taddr e ((c.src li 2 x).lane l).toNat ((c.src li 3 y).lane l).toNat 0 0 % (2 ^ 80 : Int)).toNat)) ∧
    (∀ d (tx : BitVec 6) x y, let e := k.txEnt tx.toNat
      Runs s who g p k h [(0, d, 1), (2, x, 1), (3, y, 1)] → Apart g → p.handler = false → txReason e none pstNeed = none →
      TxEnt.half e / 2 = 8 → d.aligned 2 = false → ∃ t g', exec (.pst h d tx x y) s = .next t ∧ OwnGroup s t who g' ∧
        Parks p c.live (fun _ => record s g p k 0x020 1 0 0 0) g g') ∧
    (∀ op r, (∀ n, op ≠ .pst n) →
      let f := op.form
      let ea := r.ea.toNat
      let chk := (s.chkReq k op r).1
      let tr := (s.translate k.vd ea (4 * r.lane) f.tk).1
      (f.align ≠ 0 → ea % f.align ≠ 0 → chk = .bad (0x060 + f.mk'.num) ea) ∧
      ((f.align = 0 ∨ ea % f.align = 0) → ea % 4096 + f.n ≤ 4096 →
        (inWindow ea = true → f.window = false → chk = .bad (0x074 + f.mk'.num) ea) ∧
        (inWindow ea = false →
          (∀ code, tr = .bad code → chk = .bad code ea) ∧ (∀ code, tr = .notPresent code → chk = .page code (ea / 4096)) ∧
          (∀ pa ord key, tr = .ok pa ord key →
            (region pa = 0 → s.keyOk k.vd key = false → chk = .bad (0x06C + f.mk'.num) ea) ∧
            ((region pa = 0 → s.keyOk k.vd key = true) → region pa ∉ f.regions → chk = .bad (0x074 + f.mk'.num) ea) ∧
            ((region pa = 0 → s.keyOk k.vd key = true) → region pa ∈ f.regions → chk = .ok [.phys pa f.n key ord]))))) ∧
    (∀ (vd va salt : Nat) (kind : AKind),
      let w := (s.walk (s.vd vd) va salt).1
      let tr := (s.translate vd va salt kind).1
      (∀ lvl, w = .notPresent lvl → tr = .notPresent (0x080 + 8 * kind.num + lvl)) ∧
      (w = .malformed → tr = .bad (0x087 + 8 * kind.num)) ∧
      (∀ e lvl, w = .leaf e lvl →
        ((kind = .rd ∨ kind = .atomic) ∧ pteBit e 4 = false ∨ (kind = .wr ∨ kind = .atomic) ∧ pteBit e 5 = false ∨
          kind = .fetch ∧ pteBit e 6 = false → tr = .bad (0x086 + 8 * kind.num))))

/-- The keys of contributions in their order: the thread, then the sequence number (R191). -/
def keyBefore (x y : W64 × Nat × W32) : Prop := x.1 < y.1 ∨ (x.1 = y.1 ∧ x.2.1 < y.2.1)

/-- Ordered cells (R190 to R192): ACELL takes a free cell, which starts with no contribution; ACELL.close removes it; FATOM.ord
adds one contribution of each live lane, in the order of the keys, to an OPEN cell that has room for all of them. When the last
contribution of a full cell has arrived, the fold of its values in key order, each step rounded once, stands in its word and the cell
is DONE; the count that a lane's contribution made is that lane's result. The model's own choices in it: log 25. -/
def Obligations.OrderedCells : Prop :=
  (∀ h a count imm scope s who g p b pa key ord, Runs s who g p b h [(2, count, 1)] →
    let c := s.issueCtx who g p b h
    let n := (c.scalar (s.launchIx b) 2 count).toNat
    let req : Req := ⟨lowLane c.live, c.base 1 a.toNat + imm.signExtend 80, n, scope.toNat⟩
    Passes s who g p b h .acell [req] → ((s.issued who g p h).chkReq b .acell req).1 = .ok [.phys pa 4 key ord] →
    1 ≤ n → n ≤ 4096 → (∀ x, s.cellAt b.vd pa = some x → x.st = .done ∨ x.st = .failed) →
    (s.die (homeDie pa)).cells.length < 1024 →
    ∃ t, exec (.acell h a count imm scope) s = .next t ∧ Starts s t who g p b h .acell false false [req] ∧
      t.cellAt b.vd pa = some { vd := b.vd, pa := pa, key := key, st := .opening, expct := n, scope := scope.toNat, got := [] }) ∧
  (∀ h a imm scope s who g p b pa key ord, Runs s who g p b h [] →
    let c := s.issueCtx who g p b h
    let req : Req := ⟨lowLane c.live, c.base 1 a.toNat + imm.signExtend 80, 0, 0⟩
    Passes s who g p b h .acellClose [req] → ((s.issued who g p h).chkReq b .acellClose req).1 = .ok [.phys pa 4 key ord] →
    (s.cellAt b.vd pa).isSome →
    ∃ t, exec (.acellClose h a imm scope) s = .next t ∧ Starts s t who g p b h .acellClose false false [req] ∧
      t.cellAt b.vd pa = none) ∧
  (∀ h d a seq x s who g p b pa cell, Runs s who g p b h [(0, .v d, 1), (2, seq, 1), (3, x, 1)] →
    let c := s.issueCtx who g p b h
    let li := s.launchIx b
    let q := fun l => ((c.src li 2 seq).lane l).toNat
    let reqs := c.each (fun _ => c.base 1 a.toNat) (fun l => c.wide li 3 x 1 l) q
    Passes s who g p b h (.ford d.toNat) reqs →
    (∀ r ∈ reqs, ∃ key ord, ((s.issued who g p h).chkReq b (.ford d.toNat) r).1 = .ok [.phys pa 4 key ord]) →
    s.cellAt b.vd pa = some cell → cell.st = .opened → (∀ l, has c.live l = true → q l ≤ 4095) →
    (∀ l l', has c.live l = true → has c.live l' = true → l ≠ l' → (g.lt l, q l) ≠ (g.lt l', q l')) →
    (∀ l, has c.live l = true → ∀ e ∈ cell.got, ¬ (e.1 = g.lt l ∧ e.2.1 = q l)) →
    cell.got.length + (lanesOf c.live).length ≤ cell.expct →
    ∃ t cell' a', exec (.fatomOrd h d a seq x) s = .next t ∧ t.cellAt b.vd pa = some cell' ∧
      cell'.got.length = cell.got.length + (lanesOf c.live).length ∧ (∀ e ∈ cell.got, e ∈ cell'.got) ∧
      (cell.got.Pairwise keyBefore → cell'.got.Pairwise keyBefore) ∧
      (∀ l, has c.live l = true → (g.lt l, q l, BitVec.ofNat 32 (c.wide li 3 x 1 l)) ∈ cell'.got) ∧
      t.accesses = s.accesses ++ [a'] ∧ a'.op = .ford d.toNat ∧ a'.live = c.live ∧ t.mem = s.mem) ∧
  (∀ s k i a q pa key ord d cell x xs, Performs s k i a q pa 4 key ord → a.op = .ford d → q.twin = none →
    s.cellAt a.vd pa = some cell → cell.st = .opened → cell.got = x :: xs → cell.expct = xs.length + 1 →
    (∀ z ∈ s.accesses, (∃ r, z.op = .ford r) → ∀ y ∈ z.parts, y.done = false → y.pa = pa → z.id = a.id ∧ y.lane = q.lane) →
    let sum := xs.foldl (fun (acc : W32) e => BitVec.ofNat 32 (roundFmt ffF32 .rne (EV.add .rne (ffF32.decode acc.toNat)
      (ffF32.decode e.2.2.toNat)))) x.2.2
    ∃ t, exec (.memoryAccessComplete k i .ok) s = .next t ∧ t.cellAt a.vd pa = some { cell with st := .done } ∧
      (∀ y, Memory.get t.mem y = storedByte s.mem pa 4 sum.toNat y)) ∧
  (∀ (s : State) (a : Access) (q : Part) d err, a.op = .ford d → (s.performPart a q err).2 = { q with done := true, got := q.aux })

/-- MEMORY_ACCESS_COMPLETE (R183 to R189, R193): the part that it performs stores the number that its operation gives in the
part's own bytes, and every other byte of memory reads as before; a load stores nothing. The model's own choices in it: log 19
and 22. -/
def Obligations.StoredBytes : Prop :=
  ∀ s k i a q pa n key ord, Performs s k i a q pa n key ord → a.op.isCell = false →
    (q.twin = none → ∃ t, exec (.memoryAccessComplete k i .ok) s = .next t ∧ ∀ x, Memory.get t.mem x =
      match stored s a q with
      | some v => storedByte s.mem pa n v x
      | none => Memory.get s.mem x) ∧
    (∀ n' pa' ord', q.twin = some (.phys pa' n key ord') → a.op = .pst n' → region pa = region pa' →
      (∀ l ∈ linesOf pa' n, Tbl.find s.lineSlot l = some key) → s.segFail a.vd (.phys pa' n key ord') true .ok = none →
      ∃ t, exec (.memoryAccessComplete k i .ok) s = .next t ∧
        ∀ x, Memory.get t.mem x =
          if pa' ≤ x ∧ x < pa' + n then BitVec.ofNat 8 (q.data / 256 ^ (x - pa')) else storedByte s.mem pa n q.data x)

/-- With its last part an access is complete (R44, R184): each live lane's registers hold what its parts read, its flag counts
one less, and the access is gone; of a load or atomic. A full LD of one address gives a UNIFORM register; LDU gives its uniform
registers, or its base, what the one request read, and ACREAD the status word of its cell (R192); STCOND gives its predicate, in each
live lane, whether the lane held its reservation. A reservation (R186, R187): LDRES leaves its lane a reservation on the
granule; STCOND without one stores nothing; either way the STCOND's lane holds none behind it. A part whose memory fails becomes a
late error of its thread (R177, R178), and it is delivered at the thread's error point: an instruction that waits on the flag, a
FENCE or the EXIT parks the lane there, with the code and the PC of the access as its origin. The model's own choices in it:
log 19. -/
def Obligations.AccessResults : Prop :=
  (∀ s k i a q g d cnt f, s.accesses[k]? = some a → a.parts[i]? = some q → s.mayPerform k i = true → q.isPeer = false →
     Tbl.find s.groups a.gid = some g → a.op.perLane = some (d, cnt, f) → s.invals = [] →
     let a' := { a with parts := a.parts.set i (s.performPart a q .ok).2 }
     (∀ r ∈ a'.parts, r.done = true ∧ r.ok = true) → (∀ r < cnt, .v (d + r) ∉ g.clobber) →
     ∃ t g', exec (.memoryAccessComplete k i .ok) s = .next t ∧ t.accesses = s.accesses.eraseIdx k ∧
       Tbl.find t.groups a.gid = some g' ∧
       (∀ r < cnt, ∀ l < g.width, (g'.vreg a.gid (d + r)).lane l =
         if has a.live l then
           BitVec.ofNat 32 (f ((a'.parts.filter fun z => z.lane = l).foldl (fun x z => x + z.got) 0) / 2 ^ (32 * r))
         else (g.vreg a.gid (d + r)).lane l) ∧
       (∀ n, (∀ r < cnt, n ≠ d + r) → Tbl.find g'.v n = Tbl.find g.v n) ∧ g'.s = g.s ∧ g'.p = g.p ∧ g'.b = g.b ∧
       g'.paths = g.paths ∧ (∀ n, Tbl.getD g'.flags n 0 = Tbl.getD g.flags n 0 - if a.flag = some n then 1 else 0)) ∧
  (∀ s k i a q pa n key ord g, Performs s k i a q pa n key ord → Tbl.find s.groups a.gid = some g → q.twin = none →
     (∀ d m sx u, a.op = .ld d m sx true u → ∃ t g', exec (.memoryAccessComplete k i .ok) s = .next t ∧
       Tbl.find t.groups a.gid = some g' ∧ Tbl.find g'.resv q.lane = some (pa / 128)) ∧
     (∀ m x, a.op = .stcond m x → ∃ t g', exec (.memoryAccessComplete k i .ok) s = .next t ∧
       Tbl.find t.groups a.gid = some g' ∧ Tbl.find g'.resv q.lane = none ∧
       (Tbl.find g.resv q.lane ≠ some (pa / 128) → t.mem = s.mem) ∧
       (s.performPart a q .ok).2.got = if Tbl.find g.resv q.lane = some (pa / 128) ∧ g.lt q.lane = q.ltid then 1 else 0)) ∧
  (∀ s k i a q g, s.accesses[k]? = some a → a.parts[i]? = some q → s.mayPerform k i = true → q.isPeer = false →
     Tbl.find s.groups a.gid = some g → s.invals = [] →
     let a' := { a with parts := a.parts.set i (s.performPart a q .ok).2 }
     let val := fun l => (a'.parts.filter fun z => z.lane = l).foldl (fun x z => x + z.got) 0
     (∀ r ∈ a'.parts, r.done = true ∧ r.ok = true) → (∀ r ∈ a.op.regs, r ∉ g.clobber) →
     let gives := fun (P : Group → Prop) => ∃ t g', exec (.memoryAccessComplete k i .ok) s = .next t ∧
       t.accesses = s.accesses.eraseIdx k ∧ Tbl.find t.groups a.gid = some g' ∧
       (∀ n, Tbl.getD g'.flags n 0 = Tbl.getD g.flags n 0 - if a.flag = some n then 1 else 0) ∧ P g'
     (∀ d n sx resv, a.op = .ld d n sx resv true → a.live = g.full → gives fun g' => ∀ r < (n + 3) / 4,
       g'.vreg a.gid (d + r) = .u (BitVec.ofNat 32 (extend n sx (val (lowLane a.live)) / 2 ^ (32 * r)))) ∧
     (∀ low d n sx, a.op = .ldu d n sx → (∀ z ∈ a.parts, z.lane = low) → gives fun g' => ∀ r < (n + 3) / 4,
       g'.sreg a.gid (d + r) = BitVec.ofNat 32 (extend n sx (val low) / 2 ^ (32 * r))) ∧
     (∀ low d m, a.op = .ldb d m → d ≠ 14 → (∀ z ∈ a.parts, z.lane = low) → gives fun g' =>
       g'.breg a.gid d = BitVec.ofNat 80 (val low)) ∧
     (∀ d, a.op = .acread d → a.parts = [q] → q.off = 0 → gives fun g' => g'.sreg a.gid d = cellWord (s.cellAt a.vd q.pa)) ∧
     (∀ n d, a.op = .stcond n d → gives fun g' => ∀ l < g.width,
       has (g'.preg a.gid d) l = if has a.live l then decide (val l % 2 = 1) else has (g.preg a.gid d) l)) ∧
  (∀ c : AccCell, cellWord (some c) = BitVec.ofNat 32 ((match c.st with
     | .opening | .opened => 1
     | .done => 2
     | .failed => 3) * 2 ^ 30 + c.expct * 2 ^ 16 + c.got.length)) ∧
  (∀ s k i a q g r l err, s.accesses[k]? = some a → a.parts[i]? = some q → s.mayPerform k i = true → q.isPeer = false →
     q.twin = none → a.op.isCell = false → a.op.whole = false → (∀ m, a.op ≠ .pst m) → s.segFail a.vd q.seg a.op.writes err = some r →
     s.groupOf a.blk q.ltid = some a.gid → Tbl.find s.groups a.gid = some g → q.ltid = g.lt l →
     ∃ t g' f, exec (.memoryAccessComplete k i err) s = .next t ∧ t.mem = s.mem ∧ t.peer = s.peer ∧
       Tbl.find t.groups a.gid = some g' ∧ g'.errs = g.errs ++ [f] ∧ f.thr = some q.ltid ∧ f.flag = a.flag ∧
       f.fault.code = BitVec.ofNat 9 (0x060 + 4 * r + a.op.form.mk'.num) ∧ f.fault.orig = a.pc ∧ f.fault.addr = q.ea) ∧
  (∀ h s who g p b (l : Nat) e i, s.issuer = some who → Tbl.find s.groups who.gid = some g → pathAt g.paths who.lane = some p →
     who.lane = lowLane p.mask → Tbl.find s.blocks g.blk = some b → Apart g → p.handler = false → p.mask = Machine.bit l → l < 32 →
     g.errs = [e] → e.thr = some (g.lt l) →
     ((e.flag.any fun f => h.wait.getLsbD f) = true ∧ (∃ x, i = .nop h x) ∨
       has (s.issueCtx who g p b h).live l = true ∧ ((∃ k sc, i = .fence h k sc) ∨ i = .exit h)) →
     ∃ t g', exec i s = .next t ∧ Tbl.find t.groups who.gid = some g' ∧ g'.errs = [] ∧ g'.entries = g.entries ++ [Machine.bit l] ∧
       pathAt g'.paths l = none ∧ t.mem = s.mem ∧ Tbl.find g'.faults l = some { e.fault with
         pc := p.pc, word := s.wordAt g.core b.vd p.pc, b14 := p.b14 })

/-- The host's accesses and those of other packages (R186, R209, R331) to memory that has been written under one slot, the slot
that the peer's aperture entry names, and that no logged line covers: a read gives the bytes, a write stores them and clears the
reservations on its lines, an atomic add does both. PEER_ACCESS (R331): an answering peer performs the part in its own memory,
at the place that the aperture names; one that does not answer makes a late error of the thread (R178). The model's own choices
in it: log 14, 15 and 70. -/
def Obligations.OuterAccesses : Prop :=
  (∀ vd s pa n, (s.vd vd).log = [] → Memory.wf s.mem = true → 0 < n →
     (∀ i < n, region (pa + i) = 0) → ∀ key, (∀ l ∈ linesOf pa n, Tbl.find s.lineSlot l = some key) →
     ∀ i, let reaches := fun a => i = Instr.hostAccess vd a ∨ i = .incomingPeerAccess ⟨key, a⟩
       (reaches (.read pa n) → exec i s = .next { s with hostData := Memory.read s.mem pa n, free := s.free + 1 }) ∧
       (∀ bs, bs.length = n → reaches (.write pa bs) → ∃ t, exec i s = .next t ∧
         (∀ x, Memory.get t.mem x = if pa ≤ x ∧ x < pa + n then bs.getD (x - pa) 0 else Memory.get s.mem x) ∧
         (∀ gid g, Tbl.find s.groups gid = some g → ∃ g', Tbl.find t.groups gid = some g' ∧ g' = { g with resv := g'.resv } ∧
           g'.resv = g.resv.filter fun e => !(linesOf pa n).contains e.2)) ∧
       (∀ c, reaches (.atomAdd pa n c) → ∃ t, exec i s = .next t ∧ t.hostData = Memory.read s.mem pa n ∧
         ∀ x, Memory.get t.mem x = if pa ≤ x ∧ x < pa + n then (leBytes n (leNat (Memory.read s.mem pa n) + c)).getD (x - pa) 0
           else Memory.get s.mem x)) ∧
  (∀ s k i a q pa n key ord e, s.accesses[k]? = some a → a.parts[i]? = some q → s.mayPerform k i = true →
     q.seg = .phys pa n key ord → region pa = 2 → (s.vd a.vd).peerAddr pa = some e → q.twin = none → a.op.isCell = false →
     (a.op.writes = true → e.write = true → (s.vd a.vd).msmode = 0 → Memory.wf s.peer = true →
       (∀ l ∈ linesOf e.at' n, Tbl.find s.peerSlot l = some e.key) →
       ∃ t, exec (.peerAccess k i true) s = .next t ∧ t.mem = s.mem ∧ ∀ x, Memory.get t.peer x =
         match stored s a q with
         | some v => storedByte s.peer e.at' n v x
         | none => Memory.get s.peer x) ∧
     (a.op.writes = false → ∃ t, exec (.peerAccess k i true) s = .next t ∧ t.mem = s.mem ∧ t.peer = s.peer) ∧
     (∀ g l, s.groupOf a.blk q.ltid = some a.gid → Tbl.find s.groups a.gid = some g → q.ltid = g.lt l →
       (∀ m, a.op ≠ .pst m) → a.op.whole = false →
       ∃ t g' f, exec (.peerAccess k i false) s = .next t ∧ t.mem = s.mem ∧ t.peer = s.peer ∧
         Tbl.find t.groups a.gid = some g' ∧ g'.errs = g.errs ++ [f] ∧ f.thr = some q.ltid ∧
         f.fault.code = BitVec.ofNat 9 (0x070 + a.op.form.mk'.num)))

/-- BSET in its four forms (R195) and the reading of a base's parts: the base takes the sum or the insertion, in the issuing
path's own copy for b14 (R92). -/
def Obligations.Bases : Prop :=
  ∀ s who g p k h, Apart g →
    let c := s.issueCtx who g p k h
    let sets := fun (i : Instr) (ops : List (Nat × Opnd × Nat)) (d : BitVec 4) (x : Va) => Runs s who g p k h ops →
      (d ≠ 14 → Quiet g [.b d.toNat] → ∃ t, exec i s = .next t ∧ Goes s s t who { g with b := Tbl.put g.b d.toNat x } p h) ∧
      (d = 14 → Quiet g [.b14 p.mask] → ∃ t g', exec i s = .next t ∧ OwnGroup s t who g' ∧ Keeps h g g' ∧
        SplitTo p g g' fun _ => ⟨nextPc p.pc, p.mask, p.st, x⟩)
    (∀ d a u imm, sets (.bset h d a u imm) [(2, u, 1)] d
      (c.base 1 a.toNat + (c.scalar (s.launchIx k) 2 u).signExtend 80 + imm.signExtend 80)) ∧
    (∀ d a r imm, sets (.bsetAdd64 h d a r imm) [(2, .s r, 2)] d
      (c.base 1 a.toNat + (c.s 18 (r.toNat + 1) ++ c.s 2 r.toNat).signExtend 80 + imm.signExtend 80)) ∧
    (∀ d a u j, sets (.bsetIns h d a u j) [(2, u, 1)] d (insBase (c.base 1 a.toNat) (c.scalar (s.launchIx k) 2 u) j.toNat)) ∧
    (∀ d a j, Runs s who g p k h [(0, .s d, 1)] → Quiet g [.s d.toNat] → ∃ t, exec (.bsetRd h d a j) s = .next t ∧
      Goes s s t who { g with s := Tbl.put g.s d.toNat (((c.base 1 a.toNat) >>> (32 * j.toNat)).setWidth 32) } p h)

/-- Invalidation (R181, R196): no cached entry that it covers remains, no core fetches from a chunk that it covers, and it is
complete only when the accesses of the virtual device that are under way have been performed; by TLBINV, or asked for from outside. The
model's own choices in it: log 197. -/
def Obligations.Invalidations : Prop :=
  (∀ h a u imm s who g p b, ∀ i va, (i = .tlbinvPage h a u imm ∧
      va = some ((s.issueCtx who g p b h).ea (s.launchIx b) a u false imm (lowLane (s.issueCtx who g p b h).live))) ∨
      (i = .tlbinvAll h ∧ va = none) → Runs s who g p b h [] →
    ((∀ x ∈ s.accesses, x.vd = b.vd → x.replay = true) →
      ∃ t, exec i s = .next t ∧ Goes s (s.invalidate b.vd va none none) t who g p h) ∧
    ((∃ x ∈ s.accesses, x.vd = b.vd ∧ x.replay = false) → ∃ t g', exec i s = .next t ∧
      (t.vd b.vd).tlb = (s.vd b.vd).tlb.filter (fun e => !covers va e) ∧ t.mem = s.mem ∧
      t.invals = s.invals ++ [⟨some who.gid, setFlag h, (s.accesses.filter fun x => x.vd = b.vd && !x.replay).map (·.id)⟩] ∧
      Tbl.find t.groups who.gid = some g' ∧
      ∀ f, Tbl.getD g'.flags f 0 = Tbl.getD g.flags f 0 + if setFlag h = some f then 1 else 0)) ∧
  (∀ vd va s, ∃ t, exec (.invalidationRequest vd va) s = .next t ∧ t.mem = s.mem ∧ t.groups = s.groups ∧
    (t.vd vd).tlb = (s.vd vd).tlb.filter (fun e => !covers va e) ∧
    (∀ core x, x ∈ (t.core core).verified ↔ x ∈ (s.core core).verified ∧
      ¬ (x.1 = vd ∧ coversChunk va ((s.vd vd).tlb.filter (covers va)) x.2.1 = true)))

/-- Instruction fetch (R76 to R78, R84): a path whose next chunk is not verified asks for its check, for its page, or is parked
where no range holds it; a chunk is fetched from only once its leaf has agreed; a page response lets its path fetch again, or
parks it. The model's own choices in it: log 131. -/
def Obligations.Fetching : Prop :=
  (∀ gid s g p b, Tbl.find s.groups gid = some g → g.paths = [p] → p.mask ≠ 0 → p.st = .ready → p.stop = none →
    Tbl.find s.blocks g.blk = some b → b.loc = .core g.core → (s.vd b.vd).runs = true → g.halt = none →
    (s.core g.core).chunk b.vd p.pc = none →
    let chunk := p.pc.toNat / 4096
    (((s.vd b.vd).rangeAt p.pc = none → p.handler = false → ∃ t g', exec (.instructionFetch gid) s = .next t ∧
      Tbl.find t.groups gid = some g' ∧ g'.paths = [] ∧ g'.entries = g.entries ++ [p.mask] ∧
      ∀ l, has p.mask l = true → ∃ f, Tbl.find g'.faults l = some f ∧ f.code = 0x09F ∧ f.pc = p.pc) ∧
    ((s.vd b.vd).rangeAt p.pc ≠ none → ∀ pa ord key,
      (s.translate b.vd p.pc.toNat 0 .fetch).1 = .ok pa ord key → (region pa = 0 → s.keyOk b.vd key = true) →
      ∃ t, exec (.instructionFetch gid) s = .next t ∧ (b.vd, chunk) ∈ (t.core g.core).checking ∧ t.mem = s.mem ∧
        Tbl.find t.groups gid = some { g with paths := [{ p with st := .fetch }] }) ∧
    ((s.vd b.vd).rangeAt p.pc ≠ none → s.waits = [] → ∀ code,
      (s.translate b.vd p.pc.toNat 0 .fetch).1 = .notPresent code →
      ∃ t, exec (.instructionFetch gid) s = .next t ∧ t.waits = [.fetch b.vd chunk gid (lowLane p.mask)] ∧
        chunk ∈ (t.vd b.vd).pages ∧ Tbl.find t.groups gid = some { g with paths := [{ p with st := .fetch }] }))) ∧
  (∀ core vd chunk s pa ord key, (s.core core).checking.contains (vd, chunk) = true →
    (s.translate vd (4096 * chunk) 0 .fetch).1 = .ok pa ord key → (region pa = 0 → s.keyOk vd key = true) →
    s.segFail vd (.phys pa 4096 key ord) false .ok = none →
    let bs := s.readPhys vd key pa 4096
    let leaf := (({ s with free := s.free + 1 }.modCore core fun k =>
      { k with checking := k.checking.erase (vd, chunk) }).leafOf vd chunk).2
    ∃ t, exec (.chunkVerify core vd chunk) s = .next t ∧ (t.core core).checking = (s.core core).checking.erase (vd, chunk) ∧
      (t.core core).verified = (s.core core).verified ++
        (if leaf = some (chunkLeaf bs) then [(vd, chunk, Memory.write [] 0 bs)] else [])) ∧
  (∀ vd page gid lane s g p, s.waits = [.fetch vd page gid lane] → page ∈ (s.vd vd).pages.take 64 →
    Tbl.find s.groups gid = some g → pathAt g.paths lane = some p → p.st = .fetch → p.handler = false → s.onCore g.blk = true →
    (∀ a ∈ s.accesses, a.replay = false) →
    (∃ t, exec (.pageResponse vd page true) s = .next t ∧ t.waits = [] ∧ t.mem = s.mem ∧
      (t.vd vd).pages = (s.vd vd).pages.erase page ∧
      Tbl.find t.groups gid = some { g with paths := replacePath g.paths lane [{ p with st := .ready }] }) ∧
    ((∀ e ∈ s.groups, e.2.stall ≠ some (.page vd page)) → p.mask ≠ 0 → Apart g →
      ∃ t g', exec (.pageResponse vd page false) s = .next t ∧ t.waits = [] ∧ Tbl.find t.groups gid = some g' ∧
        g'.entries = g.entries ++ [p.mask] ∧
        ∀ l, has p.mask l = true → pathAt g'.paths l = none ∧ ∃ f, Tbl.find g'.faults l = some f ∧ f.pc = p.pc ∧ f.addr = p.pc))

/-! ## Engine commands (R42, R227 to R279) -/

/-- The engine commands issue (R42, R234, R239 to R242, R265 to R275, R278, R334): one whose checks give a plan enters its queue
with its bound operands, and the group has one command more outstanding. MRESUME.reg (R273): the command of the progress register
enters the queue again with the obligations that it holds and the counter named, and the register is empty. The model's own choices
in it: log 85, 86, 88 and 213. -/
def Obligations.EngineIssues : Prop :=
  (∀ s who g p b h,
     let c := s.issueCtx who g p b h
     let li := s.launchIx b
     let ea := fun a u imm => c.ea li a u false imm (lowLane c.live)
     (∀ m slot (tx quad : BitVec 6) plan,
       (c.copyPlan li .copy (CopyMd.ctl m) slot tx.toNat quad.toNat false (.ok none) = .ok plan →
         Issues (.copy h m slot tx quad) s who g p b h [(0, slot, 1), (2, .s quad, 4)] plan) ∧
       (c.copyPlan li .copyw (CopyMd.ctl m) slot tx.toNat quad.toNat false (.ok none) = .ok plan →
         Issues (.copyw h m slot tx quad) s who g p b h [(0, slot, 1), (2, .s quad, 4)] plan)) ∧
     (∀ acq rel z slot (tx quad xquad : BitVec 6) m plan,
       let x := c.quad 3 xquad.toNat
       quadAt x 3 < 2 ^ 10 → quadAt x 3 / 64 ≤ 10 → ((acq || rel) = true ∨ quadAt x 3 / 64 = 0) → c.follow li x = .ok m →
       c.copyPlan li .copym {
         md := CopyMd.md ⟨false, acq, rel, false, false, z, 0, 0, 0, 0⟩, st := false, acq := acq, rel := rel, z := z
         tag := quadAt x 3 % 64, scope := quadAt x 3 / 64, ctr := false, ctrIx := 0, bar := false, barIx := 0 } slot tx.toNat
         quad.toNat false (.ok (some m)) = .ok plan →
       Issues (.copym h acq rel z slot tx quad xquad) s who g p b h [(0, slot, 1), (2, .s quad, 4), (3, .s xquad, 4)] plan) ∧
     (∀ (tx : BitVec 6) (k scope : BitVec 4) acq, txReason (b.txEnt tx.toNat) (b.store tx.toNat) ⟨[.cb4], false, false, false⟩ = none →
       k.toNat < b.nctr → Issues (.tloadcb h tx k scope acq) s who g p b h []
         { Plan.init 0 1 (.tloadcb tx.toNat (b.txEnt tx.toNat)) with acq := acq, scope := scope.toNat, ctr := some k.toNat }) ∧
     (∀ acq ctr (ix : BitVec 4) slot a u imm (scope : BitVec 4), b.harvest = false → c.tl li 0 slot ≤ 7 → (ea a u imm).toNat % 64 = 0 →
       (ctr = true → ix.toNat < b.nctr) → Issues (.batload h acq ctr ix slot a u imm scope) s who g p b h [(0, slot, 1), (2, u, 1)]
         { Plan.init 0 1 (.batload (c.tl li 0 slot) (ea a u imm)) with
           ctr := if ctr then some ix.toNat else none, acq := acq, scope := scope.toNat }) ∧
     (∀ ck z sa sb d x y (ctl : BitVec 6) plan,
       mmtPlan b (mmtMd ck z sa sb) { fol := false, buf := false, ck, z, sa, sb, c := c.tl li 0 d, a := c.tl li 1 x, b := c.tl li 2 y
                                      ctl := c.s 3 ctl.toNat, cb := none } = .ok plan →
       Issues (.mmt h ck z sa sb d x y ctl) s who g p b h [(0, d, 1), (1, x, 1), (2, y, 1), (3, .s ctl, 1)] plan) ∧
     (∀ ck z ta tb d (txA txB quad : BitVec 6) plan, b.prog = none →
       mmxPlan b ck z ta tb (c.tl li 0 d) txA.toNat txB.toNat (b.txEnt txA.toNat) (b.txEnt txB.toNat) (b.store txA.toNat)
         (b.store txB.toNat) (c.quad 3 quad.toNat) = .ok plan →
       Issues (.mmx h ck z ta tb d txA txB quad) s who g p b h [(0, d, 1), (3, .s quad, 4)] plan) ∧
     (∀ ctr (ix : BitVec 4) a u imm, b.prog = none → (ea a u imm).toNat % 64 = 0 → (ctr = true → ix.toNat < b.nctr) →
       Issues (.mresume h ctr ix a u imm) s who g p b h [(2, u, 1)]
         { Plan.init (BitVec.ofNat 6 (if ctr then 2 + 4 * ix.toNat else 0)) ((s.issued who g p h).resumeAsk c (ea a u imm))
             (.mresume (ea a u imm)) with
           ctr := if ctr then some ix.toNat else none }) ∧
     (∀ rel ctr (ix : BitVec 4) a u imm, (ea a u imm).toNat % 64 = 0 → (ctr = true → ix.toNat < b.nctr) →
       Issues (.msave h rel ctr ix a u imm) s who g p b h [(2, u, 1)]
         { Plan.init 0 1 (.msave (ea a u imm)) with ctr := if ctr then some ix.toNat else none, rel := rel }) ∧
     (∀ ctr (ix : BitVec 4) tile first count, 1 ≤ c.tl li 1 count → c.tl li 1 count ≤ (if tile then 64 else 512) →
       c.tl li 0 first + c.tl li 1 count ≤ (if tile then b.nt else b.nsl) → (ctr = true → ix.toNat < b.nctr) →
       Issues (.mzero h ctr ix tile first count) s who g p b h [(0, first, 1), (1, count, 1)]
         { Plan.init 0 1 (.mzero tile (c.tl li 0 first) (c.tl li 1 count)) with ctr := if ctr then some ix.toNat else none }) ∧
     (∀ adamw acq rel ctr keep (txW txM quad : BitVec 6) bP plan, b.prog = none → (adamw = true → txM.toNat ≠ 63) →
       (c.base 3 bP.toNat).toNat % 64 = 0 →
       mdrainPlan b adamw acq rel ctr keep txW.toNat txM.toNat (b.txEnt txW.toNat) (b.txEnt txM.toNat) (b.txEnt (txM.toNat + 1))
         (c.quad 2 quad.toNat) (c.base 3 bP.toNat) = .ok plan →
       Issues (.mdrain h adamw acq rel ctr keep txW txM quad bP) s who g p b h [(2, .s quad, 4)] plan) ∧
     (∀ k norm acq rel (d a quad : BitVec 6) bP plan,
       collPlan s b k norm acq rel d.toNat a.toNat (c.quad 2 quad.toNat) (c.base 3 bP.toNat) = .ok plan →
       Issues (.coll h k norm acq rel d a quad bP) s who g p b h [(2, .s quad, 4)] plan)) ∧
  (∀ h ctr (ix : BitVec 4) st s who g p b, Runs s who g p b h [] → b.prog = some st → (ctr = true → ix.toNat < b.nctr) →
     let plan : Plan := { Plan.init st.cmd.md st.cmd.cost st.cmd.body with
       acq := st.cmd.acq, rel := st.cmd.rel, scope := st.cmd.scope, ctr := if ctr then some ix.toNat else none
       held := st.cmd.ctrs, heldBars := st.cmd.bars }
     Takes s who g p b h plan →
     ∃ t, exec (.mresumeReg h ctr ix) s = .next t ∧
       Goes s ((accepted s who g p b h plan).modBlock g.blk fun b => { b with prog := none }) t who { g with engOut := g.engOut + 1 } p h)

/-- The plans carry what the instruction says: COPY, MLDT and MSTT bind their entry, their quad and their place; MLDT and MSTT
issue as their plan (R239, R240, R274). -/
def Obligations.TransferIssues : Prop :=
  (∀ s who g p b h m d (tx quad : BitVec 6) store,
    let c := s.issueCtx who g p b h
    let k := c.tl (s.launchIx b) 0 d
    let e := b.txEnt tx.toNat
    let q := c.quad 2 quad.toNat
    let pair := m.slab && decide (TxEnt.fmt e = some .fp64)
    txReason e (b.store tx.toNat) ⟨xferFmts store m.slab, false, false, store⟩ = none →
    k + (if pair then 2 else 1) ≤ (if m.slab then b.nsl else b.nt) → (pair = true → k % 2 = 0) →
    (m.ctr = true → m.ctrIx.toNat < b.nctr) → xferBad m.slab m.z store e q = false →
    (m.bar = true → (b.barrier m.barIx.toNat).init = true) →
    Issues (if store then .mstt h m d tx quad else .mldt h m d tx quad) s who g p b h [(0, d, 1), (2, .s quad, 4)]
      { Plan.init (CopyMd.md ⟨m.slab, m.acq, m.rel, m.bar, m.ctr, m.z, 0, 0, 0, 0⟩) 1 (.xfer store m.slab m.z k tx.toNat e q 0) with
        ctr := if m.ctr then some m.ctrIx.toNat else none, bar := if m.bar then some m.barIx.toNat else none
        acq := m.acq, rel := m.rel, scope := m.scope.toNat }) ∧
  (∀ (c : Ctx) li k m slot tx quad bad fol plan, c.copyPlan li k m slot tx quad bad fol = .ok plan →
    ∃ d f, c.same li 0 slot = some d ∧ fol = .ok f ∧
      plan.body = .copy k m.st m.z d tx (c.b.txEnt tx) (c.quad 2 quad) m.tag 0 f ∧ plan.tag = some m.tag ∧ m.tag < c.b.ntag ∧
      d + (copyRun k (c.b.txEnt tx) (c.quad 2 quad) d).length ≤ c.b.nsp ∧ plan.cost = 1) ∧
  (∀ b md m plan, mmtPlan b md m = .ok plan → ∃ cb, plan.body = .mmt { m with cb := cb } ∧ m.c < b.nsl ∧
    m.a < (if m.sa then b.nsp else b.nt) ∧ m.b < (if m.sb then b.nsp else b.nt) ∧ 2 ≤ plan.cost ∧ plan.cost ≤ 4)

/-- An engine command with an active lane that is not live parks its live lanes, and the others go on; so does one of a group that
is not the producer group, all of whose active lanes are live (R42, R57). -/
def Obligations.EngineDenials : Prop :=
  ∀ i h ops, engineOps i = some (h, ops) → ∀ s who g p b, Runs s who g p b h ops → Apart g → p.handler = false →
    let c := s.issueCtx who g p b h
    (c.live ≠ p.mask → ∃ t g', exec i s = .next t ∧ OwnGroup s t who g' ∧
      Parks p c.live (fun _ => record s g p b 0x028 0 0 0 0) g g') ∧
    (c.live = p.mask → c.isProducer = false → ∃ t g', exec i s = .next t ∧ OwnGroup s t who g' ∧
      Parks p c.live (fun _ => record s g p b 0x029 0 0 0 0) g g')

/-! ## Scratchpad, tags, counters, tensor table (R158 to R247) -/

/-- The slot that R230 suggests to a lane of LOOKUP: of the slots that are neither busy, absent nor lent the lowest whose entry is
invalid, else the one of the smallest age, the lowest on a tie; `age` is what the lane finds. -/
def Suggests (b : Block) (age : Nat → Nat) (k : Nat) : Prop :=
  k < b.nsp ∧ (b.ent k).open' = true ∧ ∀ j < b.nsp, (b.ent j).open' = true →
    if (b.ent k).vld then (b.ent j).vld = true ∧ (age k < age j ∨ (age k = age j ∧ k ≤ j)) else j < k → (b.ent j).vld = true

/-- The word that LOOKUP writes for a key (R236): the slot of a hit; `miss`, and where R230 suggests a victim `vic`, `vfree` where its
entry is invalid, and its number. -/
def LookupWord (b : Block) (age : Nat → Nat) (key : BitVec 70) (w : W32) : Prop :=
  match b.hit key with
  | some k => w = BitVec.ofNat 32 k
  | none => (∀ k, Suggests b age k → w = BitVec.ofNat 32 (2 ^ 31 + 2 ^ 30 + (if (b.ent k).vld then 0 else 2 ^ 29) + k)) ∧
      ((∀ k < b.nsp, (b.ent k).open' = false) → w = BitVec.ofNat 32 (2 ^ 31))

/-- LOOKUP (R230, R236): every live lane gets the word of its key, in ascending lane order, so that a lane finds the ages that the
hits of lower lanes have set; in the uniform form (`b` is Us) the lookup is made once, for every lane, and a full write is UNIFORM. A
hit sets the age of its entry; nothing else of the tag table, of the block, of the group or of the machine changes. -/
def Obligations.Lookup : Prop :=
  ∀ h (d : Opnd) a u imm s who g p b, (d.isV || d.isS) = true → b.nsp ≤ 384 → Runs s who g p b h [(0, d, 1), (2, u, 1)] →
    Roomy s who g p b h → Quiet g (Opnd.regs 1 d) →
    let c := s.issueCtx who g p b h
    let key := fun l => keyOf (c.ea (s.launchIx b) a u false imm l)
    let asks := if u.isUs then [lowLane c.live] else lanesOf c.live
    let age := fun l k => if asks.any fun x => x < l && b.hit (key x) = some k then s.cycle else (b.ent k).age
    ∃ t g' p' b' f, exec (.lookup h d a u imm) s = .next t ∧ Leaves h s.cycle 8 (Opnd.regs 1 d) who g g' p p' ∧
      Gets c (g.arrived g' who.gid) d f ∧
      (∀ l, has c.live l = true →
        let x := if u.isUs then lowLane c.live else l
        LookupWord b (age x) (key x) (f l)) ∧
      (∀ n, d = .v n → u.isUs = true → c.live = g.full → ((g.arrived g' who.gid).vreg who.gid n.toNat).isU = true) ∧
      (∀ k, b'.ent k = { b.ent k with age := if asks.any fun x => b.hit (key x) = some k then s.cycle else (b.ent k).age }) ∧
      b' = { b with tagTab := b'.tagTab, noted := b'.noted } ∧
      t = { (s.modBlock g.blk fun _ => b') with free := s.free + 1, groups := Tbl.put s.groups who.gid g' }

/-- TAGSET, TAGCLR, TAGCLR.lend and TAGCLR.all change the tag table (R231, R237); TAGSET on a busy slot or with a key that
another slot holds parks its lanes. The model's own choices in it: log 78 and 79. -/
def Obligations.TagWrites : Prop :=
  ∀ h slot s who g p b, let c := s.issueCtx who g p b h
    let li := s.launchIx b
    let withEnt := fun k e => s.modBlock g.blk fun b => b.setEnt k e
    (∀ k, c.slot li 0 slot = .ok k → (b.ent k).absent = false → (b.ent k).lendable = false → (b.ent k).lentTo = none →
      (∀ a u imm, Runs s who g p b h [(0, slot, 1), (2, u, 1)] →
        let key := keyOf (c.ea li a u false imm (lowLane c.live))
        ((b.ent k).busy = 0 → (∀ j < b.nsp, j ≠ k → (b.ent j).vld = true → (b.ent j).key ≠ key) →
          ∃ t, exec (.tagset h slot a u imm) s = .next t ∧
            Goes s (withEnt k { b.ent k with vld := true, key := key, age := s.cycle }) t who g p h) ∧
        (0 < (b.ent k).busy → Apart g → p.handler = false → ∃ t g', exec (.tagset h slot a u imm) s = .next t ∧ OwnGroup s t who g' ∧
          Parks p c.live (fun _ => record s g p b 0x0A1 0 0 0 0) g g') ∧
        (∀ j < b.nsp, (b.ent k).busy = 0 → j ≠ k → (b.ent j).vld = true → (b.ent j).key = key → Apart g → p.handler = false →
          ∃ t g', exec (.tagset h slot a u imm) s = .next t ∧ OwnGroup s t who g' ∧
            Parks p c.live (fun _ => record s g p b 0x0A2 0 0 0 0) g g')) ∧
      (Runs s who g p b h [(0, slot, 1)] → (b.ent k).busy = 0 →
        (∃ t, exec (.tagclr h slot) s = .next t ∧ Goes s (withEnt k { b.ent k with vld := false }) t who g p h) ∧
        (b.harvest = false → ∃ t, exec (.tagclrLend h slot) s = .next t ∧
          Goes s ((withEnt k { b.ent k with vld := false, lendable := true }).bindSlot g.blk k) t who g p h) ∧
        (b.harvest = true → ∃ t, exec (.tagclrLend h slot) s = .next t ∧
          Goes s ((withEnt k { b.ent k with vld := false }).bindSlot g.blk k) t who g p h)) ∧
      (Runs s who g p b h [(0, slot, 1)] → 0 < (b.ent k).busy → Apart g → p.handler = false →
        ∀ i, (i = .tagclr h slot ∨ i = .tagclrLend h slot) → ∃ t g', exec i s = .next t ∧ OwnGroup s t who g' ∧
          Parks p c.live (fun _ => record s g p b 0x0A1 0 0 0 0) g g')) ∧
    (Runs s who g p b h [] → ∃ t b', exec (.tagclrAll h) s = .next t ∧ Tbl.find t.blocks g.blk = some b' ∧
      (∀ k e, Tbl.find b.tagTab k = some e → Tbl.find b'.tagTab k = some (if e.busy = 0 then { e with vld := false } else e)) ∧
      Goes s (s.modBlock g.blk fun _ => b') t who g p h)

/-- TAGRD, TAGRD.addr, FFREADY and CTRRD read the tag table, the copy tags and the counters (R238, R246, R247). WAITANY, WAITALL
and CWAITLT go on where their condition holds; else their live lanes wait at the instruction and the path's other lanes go on. A
counter beyond the demand parks the lanes. The model's own choices in it: log 80. -/
def Obligations.TagReadsAndWaits : Prop :=
  (∀ h s who g p b, let c := s.issueCtx who g p b h
     let li := s.launchIx b
     let gives := fun (i : Instr) (ops : List (Nat × Opnd × Nat)) (d : BitVec 6) (x : W32) => Runs s who g p b h ops →
       Quiet g [.s d.toNat] → ∃ t g' p', exec i s = .next t ∧ OwnGroup s t who g' ∧
         Leaves h s.cycle 4 [.s d.toNat] who g g' p p' ∧ (g.arrived g' who.gid).sreg who.gid d.toNat = x
     (∀ d slot k, c.slot li 1 slot = .ok k → gives (.tagrd h d slot) [(0, .s d, 1), (1, slot, 1)] d (b.ent k).word) ∧
     (∀ (d : BitVec 4) slot k, c.slot li 1 slot = .ok k → Quiet g [.base d.toNat p.mask] → Runs s who g p b h [(1, slot, 1)] →
       let x := if (b.ent k).vld then (b.ent k).key ++ (0 : BitVec 10) else 0
       ∃ t g' p', exec (.tagrdAddr h d slot) s = .next t ∧ OwnGroup s t who g' ∧
         Leaves h s.cycle 4 [.base d.toNat p.mask] who g g' p p' ∧
         (d ≠ 14 → (g.arrived g' who.gid).breg who.gid d.toNat = x) ∧
         (d = 14 → ∃ q, pathAt (g.arrived g' who.gid).paths who.lane = some q ∧ q.b14 = x)) ∧
     (∀ d lo mask, b.maskBad (c.tagMask li lo mask) = false →
       gives (.ffready h lo d mask) [(0, .s d, 1), (1, mask, maskCount lo)] d
         (BitVec.ofNat 32 (((maskBits (c.tagMask li lo mask)).find? fun i => (b.tag i).isDone).getD 64))) ∧
     (∀ d k sel, (sel = 0 → k.toNat < b.nctr) → gives (.ctrrd h d k sel) [(0, .s d, 1)] d (b.ctrWord k.toNat sel.toNat)) ∧
     (∀ k, b.ctrWord k 0 = BitVec.ofNat 32 (b.ctr k))) ∧
  (∀ h s who g p b, Apart g → p.st = .ready →
     let c := s.issueCtx who g p b h
     let waits := fun (i : Instr) (ops : List (Nat × Opnd × Nat)) (st : PathSt) => Runs s who g p b h ops →
       (b.waitOver st = true → ∃ t, exec i s = .next t ∧ Goes s s t who g p h) ∧
       (b.waitOver st = false → ∃ t g', exec i s = .next t ∧ OwnGroup s t who g' ∧ Keeps h g g' ∧ SplitTo p g g' fun l =>
         if has c.live l then ⟨p.pc, c.live, st, p.b14⟩ else p.onBut c.live)
     (∀ lo mask, let m := c.tagMask (s.launchIx b) lo mask
       b.maskBad m = false → waits (.waitany h lo mask) [(1, mask, maskCount lo)] (.tags true m) ∧
         waits (.waitall h lo mask) [(1, mask, maskCount lo)] (.tags false m)) ∧
     (∀ k thr, k.toNat < b.nctr → waits (.cwaitlt h k thr) [] (.ctr k.toNat thr.toNat)) ∧
     (∀ k thr, b.nctr ≤ k.toNat → p.handler = false → Runs s who g p b h [] → ∃ t g', exec (.cwaitlt h k thr) s = .next t ∧
       OwnGroup s t who g' ∧ Parks p c.live (fun _ => record s g p b 0x0A4 0 0 0 0) g g'))

/-- TDEF starts the load of its image, its path standing at it (R164). MEMORY_ACCESS_COMPLETE reads the image; at the next turn of a
scheduler of its core that is not before its own (R162), the image is applied and the path goes on, or, where it fails R160 or its
memory failed, the live lanes are parked with that fault, the entry unchanged and the path's other lanes gone on. TDEF.inv and TSET
change the entry, a change of format or codebook address dropping its store; TGET reads a field; a value that does not fit parks the
lanes (R162 to R164, R167). The model's own choices in it: log 74 and 196. -/
def Obligations.TensorTable : Prop :=
  ∀ h (tx : BitVec 6) s who g p b, let c := s.issueCtx who g p b h
    let li := s.launchIx b
    let applied := fun e => s.modBlock g.blk fun b => b.applyTx tx.toNat e
    (∀ a u imm, let req : Req := ⟨lowLane c.live, c.ea li a u false imm (lowLane c.live), 0, 0⟩
      Runs s who g p b h [(2, u, 1)] → Apart g → Passes s who g p b h (.tdef tx.toNat) [req] →
      ∃ t x g', exec (.tdef h tx a u imm) s = .next t ∧ t.mem = s.mem ∧ t.accesses = s.accesses ++ [x] ∧
        x.op = .tdef tx.toNat ∧ x.reqs = [req] ∧ x.live = c.live ∧ x.gid = who.gid ∧ x.blk = g.blk ∧ x.flag = setFlag h ∧
        (∀ q ∈ x.parts, q.done = false) ∧ Tbl.find t.groups who.gid = some g' ∧
        (∀ f, Tbl.getD g'.flags f 0 = Tbl.getD g.flags f 0 + if setFlag h = some f then 1 else 0) ∧
        SplitTo p g g' fun _ => ⟨p.pc, p.mask, .read, p.b14⟩) ∧
    (∀ k i x q pa key ord n, Performs s k i x q pa 64 key ord → x.op = .tdef n → q.twin = none → ∃ t, exec (.memoryAccessComplete k i .ok) s = .next t ∧
      t.mem = s.mem ∧ t.groups = s.groups ∧ t.blocks = s.blocks ∧ t.accesses = s.accesses.set k { x with
        parts := x.parts.set i { q with done := true, got := leNat (s.readPhys x.vd key pa 64) * 256 ^ q.off } }) ∧
    (∀ x n e core lo hi, s.accesses = [x] → x.op = .tdef n → (∀ q ∈ x.parts, q.done = true) → x.replay = false →
      Tbl.find s.groups x.gid = some e → e.core = core → lo ≤ e.sched → e.sched < hi → s.onCore x.blk = true →
      s.applyTdefs core lo hi = s.applyTdef x n) ∧
    (∀ x n e r k, Tbl.find s.groups x.gid = some e → Apart e → Tbl.find s.blocks x.blk = some k → s.invals = [] → r ∈ e.paths →
      r.st = .read → r.mask &&& x.live = x.live → x.live ≠ 0 →
      let t := s.applyTdef x n
      t.accesses = (s.accesses.filter fun y => y.id ≠ x.id) ∧ t.mem = s.mem ∧
      ((∀ q ∈ x.parts, q.ok = true) → TxEnt.badCheck x.image = none → Tbl.find t.blocks x.blk = some (k.applyTx n x.image) ∧
        ∃ e', Tbl.find t.groups x.gid = some e' ∧ (∀ f, Tbl.getD e'.flags f 0 = Tbl.getD e.flags f 0 - if x.flag = some f then 1 else 0) ∧
          ∀ l, has r.mask l = true → pathAt e'.paths l = some { r with st := .ready, pc := nextPc r.pc }) ∧
      (∀ code det info y, r.handler = false → x.imageFault n = some (code, det, info, y) → t.blocks = s.blocks ∧
        ∃ e', Tbl.find t.groups x.gid = some e' ∧ e'.entries = e.entries ++ [x.live] ∧
          (∀ l, has x.live l = true → pathAt e'.paths l = none ∧ ∃ f, Tbl.find e'.faults l = some f ∧ f.code = BitVec.ofNat 9 code ∧
            f.det = BitVec.ofNat 16 det ∧ f.info = BitVec.ofNat 32 info ∧ f.addr = y ∧ f.pc = x.pc) ∧
          ∀ l, has (r.mask &&& ~~~x.live) l = true → ∃ q, pathAt e'.paths l = some q ∧ q.st = .ready ∧ q.pc = nextPc r.pc)) ∧
    (∀ (x : Access) n, (∀ q ∈ x.parts, q.ok = true) → x.imageFault n = (TxEnt.badCheck x.image).map fun k => (0x0E1, k, n, 0)) ∧
    (Runs s who g p b h [] → ∃ t, exec (.tdefInv h tx) s = .next t ∧ Goes s (applied 0) t who g p h) ∧
    (∀ a fld, Runs s who g p b h [(1, a, 1)] →
      let x := (c.src li 1 a).lane (lowLane c.live)
      (∀ e, TxEnt.setFld (b.txEnt tx.toNat) fld x (c.baseOf 1 a) = some e → TxEnt.badCheck e = none →
        ∃ t, exec (.tset h tx a fld) s = .next t ∧ Goes s (applied e) t who g p h) ∧
      (TxEnt.setFld (b.txEnt tx.toNat) fld x (c.baseOf 1 a) = none → Apart g → p.handler = false →
        ∃ t g', exec (.tset h tx a fld) s = .next t ∧ OwnGroup s t who g' ∧
          Parks p c.live (fun _ => record s g p b 0x0E1 0 9 tx.toNat 0) g g')) ∧
    (∀ (d : BitVec 6) fld, Runs s who g p b h [(0, .s d, 1)] → ∃ t g', exec (.tget h (.s d) tx fld) s = .next t ∧
      Pends s s t who g g' p h (result who h [.s d.toNat (BitVec.ofNat 32 (TxEnt.getFld (b.txEnt tx.toNat) fld))])) ∧
    (∀ (d : BitVec 4) fld, Runs s who g p b h [(0, .base d, 1)] → ∃ t g', exec (.tget h (.base d) tx fld) s = .next t ∧
      Pends s s t who g g' p h (result who h [.b d.toNat (BitVec.ofNat 80 (TxEnt.getFld (b.txEnt tx.toNat) fld)) p.mask])) ∧
    (∀ e, Tbl.find (b.applyTx tx.toNat e).tx tx.toNat = some e ∧
      ((TxEnt.fmtCode e ≠ TxEnt.fmtCode (b.txEnt tx.toNat) ∨ TxEnt.cbase e ≠ TxEnt.cbase (b.txEnt tx.toNat)) →
        (b.applyTx tx.toNat e).store tx.toNat = none))

/-- BATSTAT, MRD and MCHK give their words as V results, MWR writes its lanes' words of a slab, each word of the slab that no
live lane names reading as before (R263, R267, R276, R277). -/
def Obligations.SlabMoves : Prop :=
  ∀ h s who g p b, let c := s.issueCtx who g p b h
    let li := s.launchIx b
    (∀ d slot sel, Runs s who g p b h [(0, .s d, 1), (1, slot, 1)] → c.tl li 1 slot ≤ 7 → ∃ t g', exec (.batstat h d slot sel) s = .next t ∧
      Pends s (if sel.toNat = 6 then s.modBlock g.blk fun b => { b with sticky := 0 } else s) t who g g' p h (result who h
        [.s d.toNat (if 5 ≤ sel.toNat then b.sticky else (s.bat g.core (c.tl li 1 slot)).word sel.toNat)])) ∧
    (∀ d slab q, Runs s who g p b h [(0, .v d, 1), (1, slab, 1), (2, q, 1)] → Roomy s who g p b h →
      let k := c.tl li 1 slab
      let n := c.tl li 2 q
      k < b.nsl → n < 256 / g.width → s.slabWriteBusy g.core g.blk k = false → ∃ t g' r, exec (.mrd h d slab q) s = .next t ∧
        Pends s s t who g g' p h (result who h [.v d.toNat c.live (.g r) (decide (c.live = g.full))]) ∧
        ∀ l < g.width, (VReg.g r).lane l = b.slabWord k (n * g.width + l)) ∧
    (∀ d slab q, Runs s who g p b h [(0, d, 1), (1, slab, 1), (2, q, 1)] → Memory.wf b.slabs = true →
      p.mask &&& g.full = p.mask →
      let k := c.tl li 1 slab
      let n := c.tl li 2 q
      k < b.nsl → n < 256 / g.width → s.slabWriteBusy g.core g.blk k = false → s.slabReadBusy g.core g.blk k = false →
      ∃ t b', exec (.mwr h d slab q) s = .next t ∧ Goes s (s.modBlock g.blk fun _ => b') t who g p h ∧
        Tbl.find t.blocks g.blk = some b' ∧ b' = { b with slabs := b'.slabs } ∧ Memory.wf b'.slabs = true ∧
        ∀ j i, i < 256 → b'.slabWord j i =
          if j = k ∧ n * g.width ≤ i ∧ i < n * g.width + g.width ∧ has c.live (i - n * g.width) = true
          then (c.src li 0 d).lane (i - n * g.width) else b.slabWord j i) ∧
    (∀ pos i32 d a x y, Runs s who g p b h [(0, d, 2), (1, a, 1), (2, x, 1), (3, y, 1)] → Roomy s who g p b h →
      let cs := c.tl li 1 a
      let ks := c.tl li 2 x
      cs < b.nsl → ks < b.nsl → s.slabWriteBusy g.core g.blk cs = false → s.slabWriteBusy g.core g.blk ks = false →
      let tol := (c.srcF li 3 ffF32 y).lane (lowLane c.live)
      let bad := fun (dl : Nat → W32) => maskOf fun i => decide (i < 16) && chkFails i32 tol (dl i)
      ∃ t g', exec (.mchk h pos i32 false d a x y) s = .next t ∧ Pends s s t who g g' p h (result who h (dst64 c d
        (.u (bad fun i => chkDiff i32 ((List.range 16).map fun j => b.slabWord cs (16 * i + j)) (b.slabWord ks (32 * pos.toNat + i))),
          .u (bad fun j => chkDiff i32 ((List.range 16).map fun i => b.slabWord cs (16 * i + j))
            (b.slabWord ks (32 * pos.toNat + 16 + j))))))) ∧
    (∀ pos i32 d a x y, Runs s who g p b h [(0, d, 1), (1, a, 1), (2, x, 1), (3, y, 1)] → Roomy s who g p b h →
      c.tl li 1 a < b.nsl → c.tl li 2 x < b.nsl → s.slabWriteBusy g.core g.blk (c.tl li 1 a) = false →
      s.slabWriteBusy g.core g.blk (c.tl li 2 x) = false →
      ∃ t g' f, exec (.mchk h pos i32 true d a x y) s = .next t ∧ Pends s s t who g g' p h (result who h (dst32 c d (.g (lanes f)))) ∧
        ∀ i < 16, f i = chkDiff i32 ((List.range 16).map fun j => b.slabWord (c.tl li 1 a) (16 * i + j))
          (b.slabWord (c.tl li 2 x) (32 * pos.toNat + i))) ∧
    (∀ d data slab q i ops, (i = .mrd h d slab q ∧ ops = [(0, .v d, 1), (1, slab, 1), (2, q, 1)]) ∨
        (i = .mwr h data slab q ∧ ops = [(0, data, 1), (1, slab, 1), (2, q, 1)]) →
      Runs s who g p b h ops → Apart g → p.handler = false →
      let parks := fun (pos : Nat) => ∃ t g', exec i s = .next t ∧ OwnGroup s t who g' ∧
        Parks p c.live (fun _ => record s g p b 0x0EC pos 0 0 0) g g'
      (b.nsl ≤ c.tl li 1 slab → parks 2) ∧ (c.tl li 1 slab < b.nsl → 256 / g.width ≤ c.tl li 2 q → parks 3))

/-! ## The engines at work (R165, R239 to R275, R332 to R336) -/

/-- COPY_EXECUTE (R239 to R243): a copy that has moved its last row leaves its queue, its tag done without error; before that it
stays with its row count. A row of a load lands in the slots padded to the pitch; of a row of a store the bytes of its elements within
the extents are written (R240). The last row of a COPYM hands its follow-on to the matrix queue, or leaves it in the buffer while the
queue is full (R242). A missing page stops nothing. TLOADCB_COMPLETE
and BATLOAD_EXECUTE (R165, R256, R266): a codebook that has been read is present; a table slot is LOADING while its image is
read, VALID with the image and one more load once it verifies, and EMPTY where it does not. The model's own choices in it: log
76 and 83. -/
def Obligations.EngineLoads : Prop :=
  (∀ core ix rows s q k st z slot tx e quad tag row b, (s.core core).copyQ[ix]? = some q →
     q.body = .copy k st z slot tx e quad tag row none → Tbl.find s.blocks q.blk = some b → s.cmdReady q = true →
     (s.vd (s.vdOf q.gid)).dcfg = false →
     let m := s.moveRows b q.blk k st e quad slot rows row
     (copyRows k quad ≤ m.2.1 → ∃ t b', exec (.copyExecute core ix rows .ok) s = .next t ∧ Tbl.find t.blocks q.blk = some b' ∧
       b'.tag tag = .done false ∧ (t.core core).copyQ = (s.core core).copyQ.eraseIdx ix ∧ t.mem = m.1.mem) ∧
     (m.2.1 < copyRows k quad → (m.2.2 = .ok () ∨ m.2.2 = .wait) → ∃ t, exec (.copyExecute core ix rows .ok) s = .next t ∧
       (t.core core).copyQ[ix]? = some { q with body := .copy k st z slot tx e quad tag m.2.1 none } ∧ t.mem = m.1.mem ∧
       t.blocks = m.1.blocks) ∧
     (∀ bs u, st = false → row + 1 < copyRows k quad → s.loadRow b .ok 200 e (copyRow k quad row) = (u, .ok bs) →
       let at' := 1024 * slot + row * copyPitch e quad
       let padded := bs ++ List.replicate (copyPitch e quad - bs.length) 0
       ∃ t, exec (.copyExecute core ix 1 .ok) s = .next t ∧ t.mem = u.mem ∧
         t.blocks = (u.modBlock q.blk fun b => { b with slots := Memory.write b.slots at' padded }).blocks) ∧
     (st = true → row < copyRows k quad → ∃ t, exec (.copyExecute core ix 1 .ok) s = .next t ∧
       RowStored s t b 200 e (copyRow k quad row) (s.slotBytes b (1024 * slot + row * copyPitch e quad)
         (rowBytes e (copyRow k quad row).ne)))) ∧
  (∀ core ix rows s q k st z slot tx e quad tag row b m p, (s.core core).copyQ[ix]? = some q →
     q.body = .copy k st z slot tx e quad tag row (some m) → Tbl.find s.blocks q.blk = some b → s.cmdReady q = true →
     copyRows k quad ≤ (s.moveRows b q.blk k st e quad slot rows row).2.1 → (s.core core).follow = [] → q.bars = [] →
     (s.vd b.vd).msmode ≠ 2 → mmtPlan b (mmtMd m.ck m.z m.sa m.sb) { m with buf := false } = .ok p → p.ctr = none →
     let f : EngCmd := { q with ctrs := [], bars := [], after := [], md := mmtMd m.ck m.z m.sa m.sb, body := .mmt m }
     let old := (s.core core).matQ
     ∃ t b', exec (.copyExecute core ix rows .ok) s = .next t ∧ Tbl.find t.blocks q.blk = some b' ∧ b'.tag tag = .done false ∧
       (t.core core).copyQ = (s.core core).copyQ.eraseIdx ix ∧
       (t.core core).matQ = (if 32 ≤ old.length then old else old ++ [{ f with body := p.body, bars := p.bar.toList }]) ∧
       (t.core core).follow = (if 32 ≤ old.length then [f] else [])) ∧
  ((∀ core ix s q tx e b bs u, (s.core core).copyQ[ix]? = some q → q.body = .tloadcb tx e → Tbl.find s.blocks q.blk = some b →
     s.cmdReady q = true → s.engGet b .ok 100 (TxEnt.cbase e) 32 = (u, .ok bs) → q.bars = [] → (s.vd (s.vdOf q.gid)).dcfg = false →
     (s.vd b.vd).msmode ≠ 2 →
     ∃ t b', exec (.tloadcbComplete core ix .ok) s = .next t ∧ Tbl.find t.blocks q.blk = some b' ∧ b'.store tx = some bs ∧
       (∀ n, n ≠ tx → b'.store n = b.store n) ∧ b'.tx = b.tx ∧ (∀ k, q.ctrs = [k] → b'.ctr k = b.ctr k - 1) ∧
       (t.core core).copyQ = (s.core core).copyQ.eraseIdx ix ∧ t.mem = s.mem) ∧
   (∀ core blk slot ea s q b, s.matPick core = some blk → s.matHead core blk = some q → q.body = .batload slot ea →
     Tbl.find s.blocks blk = some b → s.cmdReady q = true →
     ((s.bat core slot).st ≠ .loading → s.slotInUse core blk slot = false →
       ∃ t, exec (.batloadExecute core .ok) s = .next t ∧ (t.bat core slot).st = .loading ∧ (t.core core).matQ = (s.core core).matQ) ∧
     (∀ img u, (s.bat core slot).st = .loading → (s.turnTo core blk).engGet b .ok 100 ea.toNat 1552 = (u, .ok img) →
       (tableBad img = none → ∃ t, exec (.batloadExecute core .ok) s = .next t ∧ t.bat core slot =
         { st := .valid, image := img, tid := BitVec.ofNat 32 (imgWord img 8), serial := ((s.bat core slot).serial + 1) % 2 ^ 15 }) ∧
       (tableBad img ≠ none → ∃ t, exec (.batloadExecute core .ok) s = .next t ∧
         (t.bat core slot).st = .empty ∧ (t.bat core slot).serial = (s.bat core slot).serial))))

/-- MATRIX_STEP (R253, R256, R262, R264, R268 to R275, R278 to R280): in its turn an MZERO clears its units and no other byte; an
MMT of depth 0 gives each C element the format's multiply-accumulate over a row of A and a row of B, on top of the old value or of
zero; an MMT of any depth and each step of an MMX accumulate the products of their table and the check words of `.ck`, and an MMX
goes on with its next counters; MLDT and MSTT move one row, MLDT zeroing behind its last; MDRAIN reads its parameter record, ends on
one that is not clean or a norm that is not finite, and updates one row of weights and moments; MSAVE writes the progress image and
empties the register; MRESUME puts the command of its image in its place. The model's own choices in it: log 89, 91, 92, 93, 94 and
190. -/
def Obligations.MatrixSteps : Prop :=
  ∀ core blk s q b, s.matPick core = some blk → s.matHead core blk = some q → Tbl.find s.blocks blk = some b → s.cmdReady q = true →
    q.blk = blk →
    (∀ tile first n, q.body = .mzero tile first n → ∃ t b', exec (.matrixStep core blk .ok) s = .next t ∧
      Tbl.find t.blocks blk = some b' ∧ ∀ x,
        Memory.get b'.slabs x = (if tile = false ∧ 1024 * first ≤ x ∧ x < 1024 * first + 1024 * n then 0 else Memory.get b.slabs x) ∧
        Memory.get b'.tiles x = (if tile = true ∧ 1024 * first ≤ x ∧ x < 1024 * first + 1024 * n then 0 else Memory.get b.tiles x)) ∧
    (∀ m fa fb, q.body = .mmt m → ctlDep m.ctl = 0 → m.ck = false → Fmt.ofCode (ctlFa m.ctl) = some fa →
      Fmt.ofCode (ctlFb m.ctl) = some fb → m.a < (if m.sa then b.nsp else b.nt) → m.b < (if m.sb then b.nsp else b.nt) →
      m.c + slabsOf fa ≤ b.nsl → Memory.wf b.slabs = true →
      let brickA := tileBrick fa (m.cb.getD []) (s.operand b m.sa m.a)
      let brickB := tileBrick fb (m.cb.getD []) (s.operand b m.sb m.b)
      ∃ t b', exec (.matrixStep core blk .ok) s = .next t ∧ Tbl.find t.blocks blk = some b' ∧
        (∀ i < 16, ∀ j < 16, Memory.read b'.slabs (cAddr fa m.c i j) (accBytes fa) = leBytes (accBytes fa) (mac fa
          (if m.z then 0 else leNat (Memory.read b.slabs (cAddr fa m.c i j) (accBytes fa)))
          (brickA.at' (Fmt.kb fa) i) (brickB.at' (Fmt.kb fa) j) (Fmt.kb fa))) ∧
        (∀ x, (x < 1024 * m.c ∨ 1024 * m.c + 1024 * slabsOf fa ≤ x) → Memory.get b'.slabs x = Memory.get b.slabs x) ∧
        b'.tiles = b.tiles ∧ b'.slots = b.slots) ∧
    (∀ m fa fb img, q.body = .mmt m → Fmt.ofCode (ctlFa m.ctl) = some fa → Fmt.ofCode (ctlFb m.ctl) = some fb →
      s.bindTable core m.ctl 0x307 false = .ok img → Memory.wf b.slabs = true →
      let tab := Table.of img
      let run := tab.runs (ctlDep m.ctl)
      m.a + run.1 ≤ (if m.sa then b.nsp else b.nt) → m.b + run.2.1 ≤ (if m.sb then b.nsp else b.nt) →
      cRunOk b fa m.ck m.c run.2.2 = true →
      let bricks := fun slot f (k n : Nat) => ((List.range n).map fun i => tileBrick f (m.cb.getD []) (s.operand b slot (k + i))).toArray
      ∃ t b', exec (.matrixStep core blk .ok) s = .next t ∧ Tbl.find t.blocks blk = some b' ∧ HeadGone s t core blk ∧
        Multiplies ⟨ctlRound m.ctl fa fb, ctlDep m.ctl, tab, Fmt.kb fa, bricks m.sa fa m.a run.1, bricks m.sb fb m.b run.2.1⟩ b.slabs
          (if m.z then zeroSlabs b.slabs m.c (cSlabs fa m.ck run.2.2) else b.slabs) b'.slabs m.c 0
          (if m.ck then some (m.c + run.2.2 * slabsOf fa) else none) m.z ∧
        b'.tiles = b.tiles ∧ b'.slots = b.slots ∧ (ctlDep m.ctl = 0 → b'.sticky = b.sticky)) ∧
    ((s.vd b.vd).msmode ≠ 2 → (s.vd (s.vdOf q.gid)).dcfg = false → Memory.wf b.slabs = true → Memory.wf b.tiles = true →
      let s1 := s.turnTo core blk
      let moves := fun (goal : State → Block → Prop) => ∃ t b', exec (.matrixStep core blk .ok) s = .next t ∧
        Tbl.find t.blocks blk = some b' ∧ goal t b'
      let goesOn := fun (t : State) (body : EngBody) => t.matHead core blk = some { q with body := body }
      (∀ ck z ta tb c ea eb cbA cbB quad ib jb k tab img u ra u' rb, q.body = .mmx ck z ta tb c ea eb cbA cbB quad ib jb k tab →
        ib < mmxNbr quad → jb < mmxNbc quad →
        (tab = some img ∨ (tab = none ∧ s.bindTable core (quad.getD 0 0) 0x308 true = .ok img)) →
        let w := quad.getD 0 0
        let fa := (TxEnt.fmt ea).getD .fp32
        let fb := (TxEnt.fmt eb).getD .fp32
        let t' := Table.of img
        let kb := Fmt.kb fa
        let kd := t'.bk ^ ctlDep w
        let md := t'.bm ^ ctlDep w
        let nd := t'.bn ^ ctlDep w
        let per := (t'.runs (ctlDep w)).2.2
        let all := mmxNbr quad * mmxNbc quad * per
        let pos := (ib * mmxNbc quad + jb) * per
        let k0 := mmxKo quad + k * kb * kd
        cRunOk b fa ck c all = true →
        s1.kRows b .ok 100 ea (cbA.getD []) ta k0 (kb * kd) (16 * md) (mmxIo quad + 16 * md * ib) = (u, .ok ra) →
        u.kRows b .ok 20000 eb (cbB.getD []) tb k0 (kb * kd) (16 * nd) (mmxJo quad + 16 * nd * jb) = (u', .ok rb) →
        moves fun t b' =>
          Multiplies ⟨ctlRound w fa fb, ctlDep w, t', kb, bricksOf kb md kd false ra, bricksOf kb nd kd true rb⟩ b.slabs
            (if z ∧ k = 0 ∧ ck ∧ pos + per = all then zeroSpare b.slabs (c + all * slabsOf fa) all else b.slabs) b'.slabs
            (c + pos * slabsOf fa) pos (if ck then some (c + all * slabsOf fa) else none) (z && k = 0) ∧
          b'.tiles = b.tiles ∧ b'.slots = b.slots ∧
          match mmxNext quad ib jb k with
          | some (i, j, n) => goesOn t (.mmx ck z ta tb c ea eb cbA cbB quad i j n (some img))
          | none => HeadGone s t core blk) ∧
      (∀ store slab z d tx e quad row, q.body = .xfer store slab z d tx e quad row → row < (windowOf quad).nr → row < 16 →
        let w := windowOf quad
        let r : Row := { x0 := w.i0, ne := w.ne, i1 := w.i1 + row, i2 := w.i2, i3 := 0 }
        let at' := (xferPlace slab e d row).1
        let len := (xferPlace slab e d row).2
        let home := fun (b : Block) => if slab then b.slabs else b.tiles
        let next := fun (t : State) =>
          if row + 1 = w.nr then HeadGone s t core blk else goesOn t (.xfer store slab z d tx e quad (row + 1))
        (∀ u bs, store = false → s1.loadRow b .ok 100 e r = (u, .ok bs) → bs.length ≤ len →
          moves fun t b' => next t ∧ (if slab then b'.tiles = b.tiles else b'.slabs = b.slabs) ∧ ∀ x, Memory.get (home b') x =
            if at' ≤ x ∧ x < at' + len then bs.getD (x - at') 0
            else if row + 1 = w.nr ∧ at' + len ≤ x ∧ x < at' + len * (16 - row) then 0 else Memory.get (home b) x) ∧
        (∀ u, store = true → s1.storeRow b .ok 100 e r (xferOut slab e quad (Memory.read (home b) at' len)) = (u, .ok ()) →
          moves fun t b' => next t ∧ b'.slabs = b.slabs ∧ b'.tiles = b.tiles ∧ t.mem = u.mem ∧
            RowStored s1 t b 100 e r (xferOut slab e quad (Memory.read (home b) at' len)))) ∧
      (∀ adamw keep ew em ev quad bp prm pos row, q.body = .mdrain adamw keep ew em ev quad bp prm pos row →
        (∀ u bs, prm = none → s1.engGet b .ok 100 bp.toNat 64 = (u, .ok bs) →
          ((∃ x ∈ bs.drop 40, x ≠ 0) → moves fun t b' => b'.slabs = b.slabs ∧ HeadGone s t core blk ∧
            ((s.core core).follow = [] → Fails s t q 0x0F7 bp.toNat)) ∧
          ((∀ x ∈ bs.drop 40, x = 0) → drainSkips bs = true →
            moves fun t b' => b'.sticky = b.sticky ||| 16 ∧ b'.slabs = b.slabs ∧ t.mem = s.mem ∧ HeadGone s t core blk) ∧
          ((∀ x ∈ bs.drop 40, x = 0) → drainSkips bs = false →
            moves fun t _ => goesOn t (.mdrain adamw keep ew em ev quad bp (some bs) pos row))) ∧
        (∀ rec', prm = some rec' →
          let nbc := quadAt quad 3 / 2 ^ 12 % 64 + 1
          let total := (quadAt quad 3 / 2 ^ 18 % 64 + 1) * nbc
          let slab := quadAt quad 0 % 512 + pos
          let r : Row := { x0 := ((quadAt quad 2 + 16 * (pos % nbc) : Nat) : Int), ne := 16
                           i1 := ((quadAt quad 1 + 16 * (pos / nbc) + row : Nat) : Int), i2 := 0, i3 := 0 }
          let body := fun p i => EngBody.mdrain adamw keep ew em ev quad bp (some rec') p i
          let next := fun (t : State) (b' : Block) =>
            (if row < 15 then goesOn t (body pos (row + 1)) else if pos + 1 < total then goesOn t (body (pos + 1) 0)
              else HeadGone s t core blk) ∧
            ∀ x, Memory.get b'.slabs x =
              if 15 ≤ row ∧ keep = false ∧ 1024 * slab ≤ x ∧ x < 1024 * slab + 1024 then 0 else Memory.get b.slabs x
          (r.range ew = none → moves fun t b' => next t b' ∧ t.mem = s.mem) ∧
          (∀ lo n u ws ms vs u', r.range ew = some (lo, n) → s1.drainReads b .ok adamw ew em ev r = (u, .ok (ws, ms, vs)) →
            let f := (TxEnt.fmt ew).getD .fp32
            let old := fun i => if f = .bf16 then BitVec.ofNat 32 (Fmt.elem .bf16 ws.toArray i * 2 ^ 16) else fpWord ws i
            let new := fun i => drainElem adamw rec' (b.slabWord slab (16 * row + i)) (old i) (fpWord ms i) (fpWord vs i)
            let weight := fun (i : Nat) => leBytes (Fmt.halfBytes f / 2) (roundFmt ((Fmt.ff f).getD ffF32) .rne (f32 (new i).1))
            let words := fun (sel : W32 × W32 × W32 → W32) => (List.range n).flatMap fun i => leBytes 4 (sel (new i)).toNat
            u.putAll b .ok 200 ([(r.addr ew 0, (List.range n).flatMap weight), (r.addr em 0, words fun t => t.2.1)] ++
              (if adamw then [(r.addr ev 0, words fun t => t.2.2)] else []) ++
              (List.range n).map fun (i : Nat) => ((TxEnt.taddr ew (r.x0 + i).toNat r.i1.toNat 0 0).toNat, weight i)) = (u', .ok ()) →
            moves fun t b' => next t b' ∧ t.mem = u'.mem))) ∧
      (∀ ea pa, q.body = .msave ea → Lands s1 b 100 ea.toNat (progImage b.prog !q.rel).length pa →
        moves fun t b' => b'.prog = none ∧ HeadGone s t core blk ∧ WrittenAt s t pa (progImage b.prog !q.rel) ∧
          ∀ st k, b.prog = some st → (s.core core).follow = [] → q.ctrs = [] → q.bars = [] → st.cmd.ctrs = [k] → st.cmd.bars = [] →
            b'.ctr k = b.ctr k - if q.rel then 1 else 0) ∧
      ∀ ea u img, q.body = .mresume ea → s1.engGet b .ok 100 ea.toNat 512 = (u, .ok img) →
        match u.resumeOf core b img with
        | .none => moves fun t _ => HeadGone s t core blk
        | .bad code => moves fun t _ => HeadGone s t core blk ∧ ((s.core core).follow = [] → Fails s t q code ea.toNat)
        | .cmd body md cost ctr bar => u.bindAgain core body = none →
            let held := imgWord img 0 / 2 ^ 16 % 2 = 1
            moves fun t _ => t.matHead core blk = some { q with
              body := body, md := md, cost := cost, ctrs := q.ctrs ++ if held then ctr.toList else []
              bars := q.bars ++ if held then bar.toList else [] })

/-- COLL_COMPLETE and RANK_DROP (R332 to R337): a barrier of ranks that agree ends with the record of status DONE, and so does a
collective that carries data, its chunks written before the record, every one of them named in it; one whose communicator was
broken, or whose ranks disagree, ends with the record that says so; the INT32 sum over the ranks is their sum modulo 2^32; a dropped
rank breaks its communicator. The model's own choices in it: log 108, 109, 111 and 193. -/
def Obligations.Collectives : Prop :=
  (∀ die ix s q k norm broken ea quad dst b ed u, (s.die die).collQ[ix]? = some q → q.body = .coll k norm broken ed ea quad dst →
    Tbl.find s.blocks q.blk = some b → s.cmdReady q = true → (s.vd (s.vdOf q.gid)).dcfg = false →
    let cm := s.comm (s.vd b.vd).partition (collComm quad)
    let nch := collChunks k (collCnt quad) cm.nr
    let frank := cm.dropped.foldl min 0xFFFFFFFF
    let nan : W32 := if norm then 0x7FC00000 else 0
    let ends := fun (i : Instr) (bs : List Byte) => { s with free := s.free + 1 }.putRecord b .ok dst bs = (u, .ok ()) →
      ∃ t, exec i s = .next t ∧ (t.die die).collQ = (s.die die).collQ.eraseIdx ix ∧ t.mem = u.mem
    (∀ others agree done, broken = true →
      ends (.collComplete die ix others agree done 3 .ok) (collRecord 1 k nch frank nan [] s.free)) ∧
    (∀ others done, broken = false →
      ends (.collComplete die ix others false done 3 .ok) (collRecord 2 k nch frank nan [] s.free)) ∧
    (∀ others done, broken = false → k = .bar → norm = false → cm.dropped = [] →
      ends (.collComplete die ix others true done 3 .ok) (collRecord 0 k 0 0xFFFFFFFF 0 [] s.free)) ∧
    (∀ others done x bytes gs u1 w n, broken = false → cm.dropped = [] →
      let f := (TxEnt.fmt ea).getD .fp32
      let size := elemBytes f
      let s0 := { s with free := s.free + 1 }
      (if k = .bar ∨ (k = .bc ∧ quadAt quad 2 ≠ cm.me) then x = s0 ∧ bytes = []
        else s0.engGet b .ok 100 (TxEnt.base ea) ((collExtents k (collCnt quad) cm.nr).1 * size) = (x, .ok bytes)) →
      let val := collElem k f quad cm.nr cm.me (fun i => Fmt.elem f bytes.toArray i) others
      let out := fun c => (List.range (collSpan k (collCnt quad) c).2).flatMap fun i => leBytes size (val ((collSpan k (collCnt quad) c).1 + i))
      let runs := (List.range nch).map fun c => (c, TxEnt.base ed + (collSpan k (collCnt quad) c).1 * size, out c)
      let nsq := if norm then collNorm f (collCnt quad) cm.nr cm.me s.free ((List.range (collCnt quad)).map val) others else 0
      x.runSegs b .ok 4000 (runs.map fun r => (r.2.1, r.2.2)) = (u1, .ok gs) → u1.recordWaits b .ok dst = none →
      u1.putChunks b .ok runs = (w, n, .ok ()) → w.putRecord b .ok dst (collRecord 0 k nch 0xFFFFFFFF nsq n s.free) = (u, .ok ()) →
      n = List.range nch ∧
      (∀ pa, nch = 1 → Lands u1 b 4000 (TxEnt.base ed) (out 0).length pa → WrittenAt u1 w pa (out 0)) ∧
      ∃ t, exec (.collComplete die ix others true done 3 .ok) s = .next t ∧ (t.die die).collQ = (s.die die).collQ.eraseIdx ix ∧
        t.mem = u.mem)) ∧
  (∀ xs : List Nat, xs ≠ [] → xs.length ≤ 8192 → reduceElem .int32 0 xs = xs.sum % 2 ^ 32) ∧
  (∀ part comm rank s, (s.comm part comm).valid = true → rank < (s.comm part comm).nr → rank ≠ (s.comm part comm).me →
    rank ∉ (s.comm part comm).dropped → ∃ t, exec (.rankDrop part comm rank) s = .next t ∧ (t.comm part comm).broken = true ∧
      (t.comm part comm).dropped = (s.comm part comm).dropped ++ [rank] ∧ t.mem = s.mem ∧ t.groups = s.groups)

/-! ## The tape (R293 to R314) -/

/-- Recording (R300, R303 to R307): with room in the segment, TBEGIN opens a region and TREC, TMARK and TEND append their
entries; the first region of a track starts in the spare segment that TBEGIN.seg gave; TEND leaves the track HELD. A TREC of a
track whose memory has failed appends nothing. The model's own choices in it: log 97 and 101. -/
def Obligations.TapeRecording : Prop :=
  ∀ h s who g p b, p.handler = false →
    let c := s.issueCtx who g p b h
    let tr := g.track
    let appends := fun (i : Instr) (ops : List (Nat × Opnd × Nat)) (t0 : Track) (e : Entry) =>
      Runs s who g p b h ops → t0.dead = false → t0.pend = [] → (∀ r ∈ t0.regions.take 1, r.trunc = false) → t0.fits e = true →
      s.sharedFree g.core (t0.place e).2.length = true →
      ∃ t, exec i s = .next t ∧ Goes s (s.sendLines c true (t0.place e).2) t who { g with track := (t0.place e).1 } p h
    let region : Region := {
      mask := c.live, first := tr.wpos, last := tr.wpos, trunc := false, truncSeg := none, dropped := 0, lastMark := 0xFFFFFFFF }
    let opened := { tr with st := .recording, pend := [], regions := region :: tr.regions }
    (tr.locked = false → tr.regions.length < 255 → appends (.tbegin h) [] opened (entOpen c.live)) ∧
    (Runs s who g p b h [] → tr.dead = false → tr.locked = false → tr.segs = [] → tr.regions = [] → ∀ a, tr.spare = some a →
      let q := ({ opened with spare := none }.take a).place (entOpen c.live)
      s.sharedFree g.core q.2.length = true →
      ∃ t, exec (.tbegin h) s = .next t ∧ Goes s (s.sendLines c true q.2) t who { g with track := q.1 } p h) ∧
    (tr.st = .recording → c.outside = false →
      ∀ a, appends (.trec h a) [(1, a, 1)] tr (entVal c.live (c.src (s.launchIx b) 1 a))) ∧
    (tr.st = .recording → ∀ id, appends (.tmark h id) [] tr (entMark id)) ∧
    (∀ a u imm, Runs s who g p b h [(2, u, 1)] → tr.spare = none →
      let ea := c.ea (s.launchIx b) a u false imm (lowLane c.live)
      ea.toNat % 4096 = 0 → ∃ t, exec (.tbeginSeg h a u imm) s = .next t ∧
        Goes s s t who { g with track := { tr with spare := some ea } } p h) ∧
    (tr.st = .recording → c.outside = false → tr.dead = true → ∀ a, Runs s who g p b h [(1, a, 1)] →
      ∃ t, exec (.trec h a) s = .next t ∧ Goes s s t who g p h) ∧
    (∀ r rs, Runs s who g p b h [] → tr.dead = false → tr.st = .recording → tr.regions = r :: rs → r.trunc = false → tr.pend = [] →
      tr.fits (entClose r.mask) = true → s.sharedFree g.core (tr.place (entClose r.mask)).2.length = true →
      ∃ t g', exec (.tend h) s = .next t ∧ Tbl.find t.groups who.gid = some g' ∧ g'.track.st = .held ∧
        g'.track.segs = (tr.place (entClose r.mask)).1.segs ∧ g'.track.regions.length = tr.regions.length ∧ g'.track.fill = [] ∧
        (∀ f, Tbl.getD g'.flags f 0 = Tbl.getD g.flags f 0 + if setFlag h = some f then 1 else 0) ∧ t.mem = s.mem)

/-- Reading back (R309 to R311): TREV stands the track behind the CLOSE that it finds; TPOP gives the value that was recorded,
TMARK passes the mark that it names and parks its lanes with TAPE_MARK, naming both marks, at any other; TBR sends to its target the
lanes that the recorded decision sends, the lanes of a BRD or every live lane by the newest bit of a BRU that is not yet taken; each
moves its position to the entry. The model's own choices in it: log 96 and 99. -/
def Obligations.TapeReading : Prop :=
  ∀ h s who g p b f, p.handler = false →
    let c := s.issueCtx who g p b h
    let s1 := s.issued who g p h
    let tr := g.track
    (∀ r rs, Runs s who g p b h [] → tr.st = .held → tr.regions = r :: rs → r.trunc = false → s.tapeBusy g.core who.gid = false →
      s1.entryAt c tr r.last 0 = .ent f → f.kind = 2 → c.live &&& ~~~(f.words.headD 0) = 0 →
      ∃ t, exec (.trev h) s = .next t ∧ Goes s s t who { g with track := { tr with
        regions := { r with mask := f.words.headD 0 } :: rs, st := .rev, vpos := f.at', dpos := f.at', bruTaken := 0 } } p h) ∧
    (∀ r rs, tr.st = .rev → tr.regions = r :: rs → r.trunc = false → s1.valueRead c tr tr.fuel tr.vpos = .ent f →
      (∀ d : BitVec 8, Runs s who g p b h [(0, .v d, 1)] → Roomy s who g p b h → f.kind = 3 → ∃ t g', exec (.tpop h (.v d)) s = .next t ∧
        Pends s s t who { g with track := { tr with vpos := f.at' } } g' p h (result who h (dst32 c (.v d) f.value))) ∧
      (∀ id, Runs s who g p b h [] → f.kind = 6 → f.foot.setWidth 20 = id → ∃ t, exec (.tmark h id) s = .next t ∧
        Goes s s t who { g with track := { tr with vpos := f.at' } } p h) ∧
      (∀ id, Runs s who g p b h [] → Apart g → f.kind = 6 → f.foot.setWidth 20 ≠ id → ∃ t g', exec (.tmark h id) s = .next t ∧
        OwnGroup s t who g' ∧ Parks p c.live (fun _ =>
          { record s g p b 0x104 0 id.toNat (f.foot.toNat % 2 ^ 20) 0 with
            more := .marks (f.foot.toNat % 2 ^ 20) id.toNat }) g g')) ∧
    (∀ r rs disp, Runs s who g p b h [] → Apart g → tr.st = .rev → tr.regions = r :: rs → r.trunc = false →
      s1.decisionRead c tr tr.fuel tr.dpos = .ent f → f.decides = true →
      let k := decide' tr c.live f
      ∃ t g', exec (.tbr h disp) s = .next t ∧ OwnGroup s t who g' ∧ Keeps h { g with track := k.2 } g' ∧ SplitTo p g g' fun l =>
        if has k.1 l then ⟨slotTarget p.pc disp.toInt, k.1, p.st, p.b14⟩ else p.onBut k.1) ∧
    (∀ (k : Found) (bits : List Bool) (taken : Nat), k.kind = 4 → bits.length ≤ 23 → [k.foot] = entBru bits → taken < bits.length →
      taken = (if k.top = tr.dpos then tr.bruTaken else 0) →
      decide' tr c.live k = (if bits.getD (bits.length - 1 - taken) false then c.live else 0,
        if taken + 1 = bits.length then { tr with dpos := k.at', bruTaken := 0 } else { tr with dpos := k.top, bruTaken := taken + 1 })) ∧
    (∀ act tk : LaneMask, ∀ k : Found, k.words = entBrd act tk → decide' tr c.live k = (c.live &&& tk, { tr with dpos := k.at', bruTaken := 0 }))

/-- Removing regions, the state word, and the lines (R295, R307, R310, R313): TEND.drop, and TEND at the OPEN of a region read back,
push the region's segments and remove it; TPOP.st reads the state; a line reaches its segment once the lines of its group before it
have. The tape instructions outside the state that they need park their lanes with TAPE_STATE and the state's code (R301, R302), and
a handler path that issues one halts its group (R345). The model's own choices in it: log 62, 97 and 98. -/
def Obligations.TapeEnds : Prop :=
  ((∀ h s who g p b u, Runs s who g p b h [] → p.handler = false → s.tapeBusy g.core who.gid = false →
     (s.issued who g p h).poolPushAll b (g.track.own.map (·.addr)) = .ok u →
     ((g.track.st = .rev ∨ g.track.st = .held) → ∃ t g', exec (.tendDrop h) s = .next t ∧ Tbl.find t.groups who.gid = some g' ∧
       g'.track = g.track.pop ∧ t.mem = u.mem) ∧
     (∀ r rs f, g.track.st = .rev → g.track.regions = r :: rs → r.trunc = false →
       (s.issued who g p h).valueRead (s.issueCtx who g p b h) g.track g.track.fuel g.track.vpos = .ent f → f.kind = 1 →
       f.words.headD 0 = r.mask → ∃ t g', exec (.tend h) s = .next t ∧ Tbl.find t.groups who.gid = some g' ∧
         g'.track = g.track.pop ∧ t.mem = u.mem)) ∧
   (∀ h d s who g p b, Runs s who g p b h [(0, .s d, 1)] → p.handler = false → ∃ t g', exec (.tpopSt h d) s = .next t ∧
     Pends s s t who g g' p h (result who h [.s d.toNat g.track.status])) ∧
   (∀ core ix s l b pa key ord, (s.core core).tape[ix]? = some l → Tbl.find s.blocks l.blk = some b → b.vd = l.vd →
     lineFirst (s.core core).tape ix l = true → (s.engLook b .wr (l.seg.toNat + l.off) l.bytes.length 0).2 =
       .ok [.phys pa l.bytes.length key ord] → region pa = 0 → (∀ x ∈ linesOf pa l.bytes.length, Tbl.find s.lineSlot x = some key) →
     s.poison = [] → s.latent = [] → (s.vd l.vd).msmode = 0 → Memory.wf s.mem = true →
     ∃ t, exec (.tapeLineWrite core ix .ok) s = .next t ∧ (t.core core).tape = (s.core core).tape.eraseIdx ix ∧
       ∀ x, Memory.get t.mem x = if pa ≤ x ∧ x < pa + l.bytes.length then l.bytes.getD (x - pa) 0 else Memory.get s.mem x)) ∧
  (∀ h s who g p b, Apart g →
     let c := s.issueCtx who g p b h
     let wants : Instr → Option (List (Nat × Opnd × Nat) × List TapeSt) := fun i =>
       match i with
       | .tbegin h' => if h' = h then some ([], [.idle, .held]) else none
       | .trec h' a => if h' = h then some ([(1, a, 1)], [.recording]) else none
       | .tend h' => if h' = h then some ([], [.recording, .rev]) else none
       | .tendDrop h' => if h' = h then some ([], [.rev, .held]) else none
       | .trev h' => if h' = h then some ([], [.held]) else none
       | .tpop h' d => if h' = h then some ([(0, d, 1)], [.rev]) else none
       | .tbr h' _ => if h' = h then some ([], [.rev]) else none
       | .tmark h' _ => if h' = h then some ([], [.recording, .rev]) else none
       | _ => none
     ∀ i ops sts, wants i = some (ops, sts) → Runs s who g p b h ops →
       (p.handler = false → g.track.st ∉ sts → ∃ t g', exec i s = .next t ∧ OwnGroup s t who g' ∧
         Parks p c.live (fun _ => record s g p b 0x100 0 0 g.track.st.num 0) g g') ∧
       (p.handler = true → ∃ t g', exec i s = .next t ∧ Tbl.find t.groups who.gid = some g' ∧ g'.halt = some 0x122 ∧ t.mem = s.mem))

/-! ## Events of the device (R315 to R402) -/

/-- Causeway links (R329, R330): a good flit ends the series of replays and of missing heartbeats, a bad one counts a replay, a
microsecond counts one heartbeat that may be missing; a lost link goes down and the virtual devices of spatial partitions are
told; a share that would take the links' minimum beyond 64 is refused, any other is held. The model's own choices in it: log 111
and 112. -/
def Obligations.Links : Prop :=
  ∀ k s, k < 24 →
    let l := s.link k
    let becomes := fun (i : Instr) (l' : Link) => ∃ t, exec i s = .next t ∧ t.link k = l' ∧ (∀ j, j ≠ k → t.link j = s.link j) ∧
      t.mem = s.mem ∧ t.groups = s.groups
    (l.up = true → becomes (.flitReceive k true) { l with missed := 0, replays := 0 } ∧
      becomes (.flitReceive k false) { l with replays := l.replays + 1 } ∧
      becomes (.heartbeatTimer k) { l with missed := l.missed + 1 }) ∧
    (l.up = true → l.isLost = true → ∃ t, exec (.linkLoss k) s = .next t ∧ t.link k = { l with up := false } ∧
      (∀ e ∈ s.vds, e.2.run = true → e.2.sliced = false → Irq.plain (some e.1) 3 0 0 ∈ t.irqs) ∧ t.mem = s.mem ∧ t.groups = s.groups) ∧
    (l.isLost = false → exec (.linkLoss k) s = .next s) ∧
    (∀ part (w : W32), part < 32 →
      let others := ((l.shares.filter fun e => e.1 ≠ part).map fun e => e.2.toNat % 64).sum
      (others + w.toNat % 64 ≤ 64 → becomes (.linkShareWrite k part w) { l with shares := Tbl.put l.shares part (w &&& 0x7F) }) ∧
      (64 < others + w.toNat % 64 → exec (.linkShareWrite k part w) s = .next s))

/-- A rolled-back virtual device stands at its milestone: the line of a log of one line is as it was, in its package or in its
peer; the groups and blocks are those captured, with results of fixed latency written and no hazard left, and with the time that
their fairness timers had run; nothing is logged or withheld. -/
def rolledBack (s t : State) (vd : Nat) : Prop :=
  (t.vd vd).log = [] ∧ (t.vd vd).withheld = [] ∧ (t.vd vd).msDue = false ∧
  ((∀ snap, (s.vd vd).snap = some snap → ∀ e ∈ snap.groups, ∀ d ∈ e.2.due, ∀ k m, d.write ≠ .j k m true) → t.irqs = s.irqs) ∧
  ((s.vd vd).log = [] → t.mem = s.mem ∧ t.peer = s.peer) ∧
  (∀ e, (s.vd vd).log = [e] → e.line < 2 ^ 60 →
    t.mem = Memory.write s.mem (e.line * 128) e.bytes ∧ Tbl.find t.lineSlot e.line = e.slot ∧ t.peer = s.peer) ∧
  (∀ e, (s.vd vd).log = [e] → 2 ^ 60 ≤ e.line →
    t.peer = Memory.write s.peer ((e.line - 2 ^ 60) * 128) e.bytes ∧ t.mem = s.mem) ∧
  (∀ snap, (s.vd vd).snap = some snap →
    (∀ k g, Tbl.find snap.groups k = some g → (∀ e ∈ s.groups, e.1 = k → s.blkIn vd e.2.blk = true) →
      ∃ g', Tbl.find t.groups k = some g' ∧ g'.due = [] ∧ (∀ p ∈ g'.paths, p.hazards = []) ∧ (snap.invals = [] → g.due = [] →
        g' = { g with
          paths := g.paths.map fun p => { p with hazards := [] }
          since := if (Tbl.find snap.blocks g.blk).any Block.stands then s.cycle - g.since else g.since })) ∧
    (∀ k b, Tbl.find snap.blocks k = some b → (∀ e ∈ s.blocks, e.1 = k → e.2.vd = vd) →
      ∃ waiting, Tbl.find t.blocks k = some { b with batch := waiting }))

/-- The physical bytes of segments, in order. -/
def segBytes (gs : List Seg) : List Nat := gs.flatMap fun g => match g with
  | .phys pa n _ _ => (List.range n).map (pa + ·)
  | _ => []

/-- The device writes a run of a virtual device's own area to host memory, or to lines that hold its key: the bytes stand there, all
others are as they were. `hbm`: an area that must lie in region 0. -/
def areaWritten (s : State) (vd ea : Nat) (bs : List Byte) (hbm : Bool) : Prop :=
  ∀ gs, (s.areaSegs vd .wr ea bs.length hbm).2 = .ok gs → (segBytes gs).Nodup → (segBytes gs).length = bs.length →
    (∀ g ∈ gs, ∃ pa n key ord, g = .phys pa n key ord ∧
      (region pa = 1 ∨ (region pa = 0 ∧ ∀ x ∈ linesOf pa n, Tbl.find s.lineSlot x = some key))) →
    Memory.wf s.mem = true → (s.areaPut vd ea bs hbm).2 = none ∧
      (∀ i < bs.length, Memory.get (s.areaPut vd ea bs hbm).1.mem ((segBytes gs).getD i 0) = bs.getD i 0) ∧
      ∀ x, x ∉ segBytes gs → Memory.get (s.areaPut vd ea bs hbm).1.mem x = Memory.get s.mem x

/-- Milestones, slices and rollback (R356 to R361): a milestone that is due captures the virtual device, empties its log, releases
what was withheld in order and counts; one that is not due does nothing. The end of a slice and a rollback request roll back and
write the images to the context save area, and a failed write halts with CTX_SAVE and the underlying code; the start of a slice,
which must be the next of its partition (R365), reads them back and lets the groups issue, a failed read or a changed header halts
with CTX_RESTORE. The model's own choices in it: log 67, 68, 70, 210, 211 and 212. -/
def Obligations.Milestones : Prop :=
  ∀ vd s, let v := s.vd vd
    (v.runs = true → v.msmode ≠ 0 → (v.msDue = true ∨ v.msAt + v.cfg 90 2 * 4000 ≤ s.cycle) →
      (∀ a ∈ s.accesses, a.vd = vd → a.op.isLoad = true) → ∀ is, v.withheld = is.map .irq →
      ∃ t, exec (.milestone vd) s = .next t ∧ t.mem = s.mem ∧ t.irqs = s.irqs ++ is ∧
        (∀ k g, Tbl.find s.groups k = some g → ∃ n, Tbl.find t.groups k = some { g with noted := n }) ∧
        t.vd vd = { v with
          snap := some ((s.clearNoted vd).capture vd), log := [], withheld := [], msseq := v.msseq + 1, msDue := false
          msAt := s.cycle, gone := [], noted := []
          trace := { v.trace with shown := v.trace.wp, keep := v.trace.lost }
          sample := { v.sample with shown := v.sample.wp, keep := v.sample.lost } }) ∧
    ((v.msmode = 0 ∨ (v.msDue = false ∧ s.cycle < v.msAt + v.cfg 90 2 * 4000)) → exec (.milestone vd) s = .next s) ∧
    let told := fun (was : List Irq) (u : State) (code : BitVec 9) (e : Nat × Nat) =>
      u.irqs = was ++ [{ Irq.plain (some vd) 2 code (BitVec.ofNat 80 e.2) with under := BitVec.ofNat 9 e.1 }]
    ∀ ok, let left := fun (u t : State) =>
      (∀ k b n, Tbl.find u.blocks k = some b → b.vd = vd → (b.loc = .core n ∨ b.loc = .layby n) →
        ∃ x, Tbl.find t.blocks k = some x ∧ x.vd = vd ∧ x.loc = .slice (b.loc = .layby n) n ∧ x.tiles = b.tiles ∧ x.slabs = b.slabs) ∧
      (∀ k b, u.sliceBlocks vd = [k] → Tbl.find u.blocks k = some b → b.vd = vd →
        t.mem = ({ u with free := u.free + 1 }.areaPut vd v.csave.toNat (u.blockImage k b) false ok).1.mem ∧
          areaWritten { u with free := u.free + 1 } vd v.csave.toNat (u.blockImage k b) false)
    let back := s.rollback vd
    (v.runs = true → rolledBack s back vd) ∧
    (v.runs = true → v.sliced = true → ∃ t, exec (.sliceEnd vd ok) s = .next t ∧ (t.vd vd).sched = false ∧ (t.vd vd).log = [] ∧
      left back t ∧ ((back.saveImages vd ok).2 = none → (t.vd vd).halt = false ∧ t.irqs = back.irqs) ∧
      (∀ e, (back.saveImages vd ok).2 = some e → (t.vd vd).halt = true ∧ told back.irqs t 0x125 e)) ∧
    (v.runs = true → v.msmode = 1 → ∃ t, exec (.rollbackRequest vd ok) s = .next t ∧ (t.vd vd).halt = true ∧ (t.vd vd).log = [] ∧
      left back t ∧ ((back.saveImages vd ok).2 = none → t.irqs = back.irqs) ∧
      (∀ e, (back.saveImages vd ok).2 = some e → told back.irqs t 0x125 e)) ∧
    let r := s.getImages ok (s.sliceBlocks vd)
    (∀ k b, s.sliceBlocks vd = [k] → Tbl.find s.blocks k = some b → r.2 = none →
      (s.areaGet b.vd b.imageAt b.image.length false ok).2 = .ok b.image →
      Tbl.find r.1.blocks k = some { b with image := [] } ∧ r.1.groups = s.groups) ∧
    (v.run = true → v.halt = false → v.sched = false → s.slicesNext vd = false → exec (.sliceStart vd ok) s = .next s) ∧
    (v.run = true → v.halt = false → v.sched = false → s.slicesNext vd = true →
      (∀ e, r.2 = some e → ∃ t, exec (.sliceStart vd ok) s = .next t ∧ (t.vd vd).halt = true ∧
        (t.vd vd).sched = false ∧ told s.irqs t 0x126 e ∧ t.mem = s.mem) ∧
      (r.2 = none → (∀ a ∈ s.accesses, a.vd ≠ vd) → s.waits = [] →
        ∃ t, exec (.sliceStart vd ok) s = .next t ∧ (t.vd vd).sched = true ∧ (t.vd vd).halt = false ∧
          (t.vd vd).msAt = s.cycle ∧ t.mem = s.mem ∧ t.irqs = s.irqs ∧ (t.part v.partition).turn = vd ∧
          (∀ snap c k, v.snap = some snap → s.coreIn vd c = true → (Tbl.find s.cores c).isSome = true →
            Tbl.find snap.cores c = some k → (t.core c).bat = k.bat) ∧
          (∀ k b n, Tbl.find r.1.blocks k = some b → b.vd = vd → b.loc = .slice false n →
            Tbl.find t.blocks k = some { b with loc := .core n, bins := [], lines := [] }) ∧
          ∀ k b n, Tbl.find r.1.blocks k = some b → b.vd = vd → b.loc = .slice true n →
            Tbl.find t.blocks k = some { b with loc := .layby n }))

/-- A write of a register (R2, R365, R367, R376, R390, R395, R400) changes what its map gives: a word of a base, a flag, a W1C bit;
the configuration block only while its virtual device is stopped; a read-only register not at all. A read gives the current value of
a register, zero for one that is write-only or that the map does not have, and changes nothing else. When whole periods of a
scheduler have passed, its clock restarts and the next resident group leaves its 32-byte SAMPLE record; a tagged instruction that
reaches its write-back, or is cut off, leaves its 64-byte TAGGED record, the stages past the cut reading zero; the host's read
pointer moves within the ring only (R384, R387, R388). The model's own choices in it: log 133, 136, 177, 184 and 200. -/
def Obligations.RegisterWritesAndSamples : Prop :=
  (∀ vd val s, vd < 256 → let w := regWord val
     let sets := fun (r : RegName) (f : VDev → VDev) => exec (.registerWrite r val) s = .next (s.modVd vd f)
     sets (.dcfg vd) (fun v => { v with dcfg := w.getLsbD 31 }) ∧
     ((s.vd vd).run = true → ∀ off, sets (.vdConfig vd off) id) ∧
     ((s.vd vd).run = false → ∀ off, ∃ t, exec (.registerWrite (.vdConfig vd off) val) s = .next t ∧ ∀ i < 256,
       (t.vd vd).config.getD i 0 = if off ≤ i ∧ i < off + val.length then val.getD (i - off) 0 else (s.vd vd).config.getD i 0) ∧
     (∀ q k, q < 64 → ∃ t, exec (.registerWrite (.qbase vd q k) val) s = .next t ∧
       let old := ((s.vd vd).queue q).base
       let new := ((t.vd vd).queue q).base
       new.toNat / 2 ^ (32 * k.val) % 2 ^ 32 = (if k.val = 2 then w.toNat % 2 ^ 16 else w.toNat) ∧
       ∀ j : Fin 3, j ≠ k → new.toNat / 2 ^ (32 * j.val) % 2 ^ 32 = old.toNat / 2 ^ (32 * j.val) % 2 ^ 32) ∧
     (w.getLsbD 31 = true → sets (.cmpls vd) fun v => { v with cmplv := false, cmplLost := 0 }) ∧
     (w.getLsbD 31 = false → sets (.cmpls vd) id) ∧
     (∀ u < 8, ∃ t, exec (.registerWrite (.bpl vd u) val) s = .next t ∧ (Tbl.getD (t.vd vd).bps u BpUnit.init).bpl = w) ∧
     (∀ die < 4, exec (.registerWrite (.govstat die) val) s =
       .next (s.modDie die fun d => { d with trip := d.trip && !w.getLsbD 31 })) ∧
     (∀ core < 256, ∀ k < 8, ∃ t, exec (.registerWrite (.evselCore core k) val) s = .next t ∧
       (Tbl.getD (t.core core).cnt k ⟨0, 0⟩).sel &&& 0xA000FFFF = w &&& 0xA000FFFF) ∧
     (∀ x, exec (.registerWrite (.readOnly x) val) s = .next s)) ∧
  (∀ r s rest, s.powered = true → s.vds = [] → s.agenda = .read r :: rest →
    (∀ vd off, r ≠ .vf vd off) → step s = .next { s with agenda := rest, hostData := s.readReg r }) ∧
  (∀ vd (s : State), vd < 256 → let v := s.vd vd
     s.readReg (.vf vd 0x3004) = leBytes 4 ((if v.run then 2 ^ 29 else 0) + (if v.halt then 2 ^ 28 else 0) +
       (if v.sched then 2 ^ 27 else 0) + (if v.refused then 2 ^ 26 else 0) + v.bad % 256) ∧
     s.readReg (.vf vd 0x300C) = leBytes 4 v.cmplf.toNat ∧ s.readReg (.vf vd 0x3000) = leBytes 4 0 ∧
     (∀ off, off < 0x1000 → s.readReg (.vf vd off) = leBytes 4 0) ∧
     (∀ q, q < 64 → s.readReg (.vf vd (0x2000 + 64 * q + 16)) = leBytes 4 (v.queue q).head.toNat)) ∧
  (∀ core (s : State), s.readReg (.hvstat core) = leBytes 4 ((s.core core).revs % 256 * 2 ^ 24 +
     (s.blocks.filter fun e => e.2.harvest && e.2.loc = .layby core).length % 256 * 2 ^ 16 +
     (s.contexts core).length % 256 * 2 ^ 8 + s.freeBanks core % 256)) ∧
  ((∀ core sched s vd per, sched < 4 → s.schedVd core sched = some vd → (s.vd vd).period sched = some per →
     let o := (s.core core).sched sched
     (o.clock < s.cycle → (s.cycle - o.clock) % per = 0 → ∀ gid g, s.sampleTarget core sched = some (gid, g) →
       ∃ t, exec (.stallSample core sched) s = .next t ∧ ((t.core core).sched sched).clock = s.cycle ∧
         ((t.core core).sched sched).lastSlot = g.slot ∧
         let u := s.modSched core sched fun o => { o with clock := s.cycle }
         ∀ q b pa key, g.core = core → g.sched = sched → o.issued ≠ s.cycle + 1 → g.current = some q → q.mask ≠ 0 → Tbl.find s.blocks g.blk = some b →
           InPlace g q.mask → RingTakes u vd true 32 pa key →
           RingHolds s t vd true pa (leBytes 4 (5 * 2 ^ 28 + (u.reason gid g).1 * 2 ^ 23 + (u.reason gid g).2 * 2 ^ 19 +
             (if b.harvest then 2 ^ 18 else 0) + vd % 256 * 2 ^ 8) ++ recordLanes s b g q.mask ++ leBytes 10 q.pc.toNat ++
             leBytes 1 core ++ placement g)) ∧
     ((s.cycle ≤ o.clock ∨ (s.cycle - o.clock) % per ≠ 0) → exec (.stallSample core sched) s = .next s)) ∧
   (∀ core sched fet rdy opc exe wbk lvl cut s x, ((s.core core).sched sched).tagged = some x →
     let past := if cut then s.tagCut x && !s.tagOver x else s.tagOver x
     (past = false → exec (.taggedRecord core sched fet rdy opc exe wbk lvl cut) s = .next s) ∧
     (past = true → ∃ t, exec (.taggedRecord core sched fet rdy opc exe wbk lvl cut) s = .next t ∧ ((t.core core).sched sched).tagged = none ∧
       (ringBit (s.vd x.vd).sample.cfg 31 = false → t.mem = s.mem ∧ t.vds = s.vds) ∧
       ∀ pa key, x.bytes.length = 28 → x.conts = [] →
         RingTakes (s.modSched core sched fun o => { o with tagged := none }) x.vd true 64 pa key →
         let ran := s.cycle - x.time
         let a := if cut then min opc ran else opc
         let e := if cut then min exe (ran - a) else exe
         let w := if x.noWb then 0 else if cut then min wbk (ran - (a + e)) else wbk
         RingHolds s t x.vd true pa (leBytes 4 (4 * 2 ^ 28 + x.vd % 256 * 2 ^ 20 + (if x.mem then lvl % 8 else 0) * 2 ^ 17 +
           (if cut then 2 ^ 16 else 0) + (s.tagCode x).toNat) ++ x.bytes ++ ([fet, rdy, a, e, w].flatMap fun n => leBytes 2 (min 65535 n)) ++
           List.replicate 6 0 ++ leBytes 8 x.time ++ List.replicate 8 0))) ∧
   (∀ vd sample (w : W32) s, let r := (s.vd vd).ring sample
     ((r.wp - w).toNat ≤ r.size → (r.shown - w).toNat ≤ r.size → ∃ t, exec (.ringReadPointerWrite vd sample w) s = .next t ∧
       (t.vd vd).ring sample = { r with rp := w } ∧ (t.vd vd).ring (!sample) = (s.vd vd).ring (!sample) ∧ t.mem = s.mem) ∧
     ((r.size < (r.wp - w).toNat ∨ r.size < (r.shown - w).toNat) → exec (.ringReadPointerWrite vd sample w) s = .next s)))

/-- Revocation and moves (R320 to R326): a context that an owner's instruction waits for is revoked: with nothing in flight it
stands in the lay-by with its bins, its slots gone, its waiting commands with it; an image moves to another lay-by or is written to
the save area, and a failed write ends its context; a cluster under reclaim is scrubbed and returned; HVCFG takes its two fields. A
parked context that is admitted again, with none older that could be: its block stands on the core in its new slots, its groups
issue there, their registers and paths as they were, their timers where they had stood (R323, R353); an image that cannot be read
back, or whose header is not the one that was written, ends it (R324). The model's own choices in it: log 67, 103, 105 and 210. -/
def Obligations.HarvestMoves : Prop :=
  let lost := fun (s t : State) (b : Block) (blk : Nat) (code : BitVec 9) (e : Nat × Nat) =>
    ∀ l, Tbl.find s.launches b.launch = some l → ∃ l', Tbl.find t.blocks blk = none ∧ Tbl.find t.launches b.launch = some l' ∧
      l'.stop = some (11, code) ∧ l'.lost = l.lost ++ [(b.idx.toNat, 1)] ∧ ((s.vd b.vd).msmode ≠ 2 →
      t.irqs = s.irqs ++ [{ Irq.plain (some b.vd) 2 code (BitVec.ofNat 80 e.2) with under := BitVec.ofNat 9 e.1 }])
  let isCopy := fun (q : EngCmd) => match q.body with
    | .copy .. => true
    | _ => false
  ((∀ core (w : W32) s, exec (.hvcfgWrite core w) s = .next (s.modCore core fun k => { k with xrev := w.getLsbD 8, keep := w.toNat % 16 })) ∧
   (∀ core blk s, s.wanted core blk = false → exec (.revocation core blk) s = .next s) ∧
   (∀ core blk s b, s.wanted core blk = true → Tbl.find s.blocks blk = some b → b.harvest = true → b.loc = .core core →
     (∀ a ∈ s.accesses, a.blk ≠ blk) → (∀ q ∈ (s.core core).copyQ, q.blk ≠ blk) → (∀ l ∈ (s.core core).tape, l.blk ≠ blk) →
     (∀ q ∈ b.batch, isCopy q = false) → (∀ e ∈ s.groups, e.2.blk = blk → e.2.track.fill = []) → s.results = [] →
     ∃ t x, exec (.revocation core blk) s = .next t ∧ Tbl.find t.blocks blk = some x ∧ x = { b with
       tagTab := [], slots := [], loc := .layby core, parks := b.parks + 1, parked := true, parkAt := (s.vd b.vd).parkSeq
       noted := x.noted
       parkWhy := .need, bins := (s.core core).bins.filter fun x => x.blk = blk, lines := []
       batch := ((s.core core).matQ.filter fun q => q.blk = blk) ++ ((s.core core).follow.filter fun q => q.blk = blk) ++ b.batch } ∧
       (t.vd b.vd).parkSeq = (s.vd b.vd).parkSeq + 1 ∧ (∀ q ∈ (t.core core).matQ, q.blk ≠ blk) ∧
       (∀ x ∈ (t.core core).bins, x.blk ≠ blk) ∧ (t.core core).revs = ((s.core core).revs + 1) % 256 ∧ t.mem = s.mem ∧
       (∀ gid g, Tbl.find s.groups gid = some g → g.blk = blk → ∃ g', Tbl.find t.groups gid = some g' ∧ g'.resv = [] ∧
         g'.paths = g.paths.map (fun p => { p with hazards := [] }) ∧ g'.due = [] ∧
         (g.due = [] → g'.v = g.v ∧ g'.s = g.s ∧ g'.p = g.p ∧ g'.b = g.b ∧ g'.j = g.j))) ∧
   (∀ blk core n s b, Tbl.find s.blocks blk = some b → b.harvest = true → b.loc = .layby n → n ≠ core →
     s.harvestCore b.vd core = true →
     s.harvestRoom core { b with parts := b.held.length }.banks b.nt b.nsl b.ntag 0 = true →
     (s.takeSlots core 20 4 (b.held.map (·.1)) []).isSome = true →
     exec (.contextMoveCore blk core) s = .next (s.modBlock blk fun b => { b with loc := .layby core, parts := b.held.length })) ∧
   (∀ ok blk n s b, Tbl.find s.blocks blk = some b → b.loc = .layby n →
     let ea := s.imagesEnd b.launch (((Tbl.find s.launches b.launch).map Launch.saveArea).getD 0)
     let img := s.blockImage blk b
     ((s.putImage blk ea true ok).2 = none → ∃ t, exec (.contextMoveMemory blk ok) s = .next t ∧ Tbl.find t.blocks blk = some { b with
         loc := .memory, parts := b.held.length, image := img, imageAt := ea } ∧
       t.mem = ({ s with free := s.free + 1 }.areaPut b.vd ea img true ok).1.mem ∧
       areaWritten { s with free := s.free + 1 } b.vd ea img true) ∧
     ∀ e, (s.putImage blk ea true ok).2 = some e → ∃ t, exec (.contextMoveMemory blk ok) s = .next t ∧ lost s t b blk 0x120 e) ∧
   (∀ ok cluster s l, Tbl.find s.lends cluster = some l → (∀ e ∈ s.blocks, match e.2.loc with
       | .core n => e.2.harvest = false ∨ n / 8 ≠ cluster
       | .layby n => n / 8 ≠ cluster
       | _ => True) →
     (l.reclaim = true → ∃ t, exec (.marginReclaim cluster ok) s = .next t ∧ Tbl.find t.lends cluster = none ∧
       (∀ i < 8, (t.core (8 * cluster + i)).matQ = [] ∧ (t.core (8 * cluster + i)).bins = [] ∧ (t.core (8 * cluster + i)).bat = []) ∧
       (∀ p, cluster < 32 → (t.part p).lend.getLsbD cluster = false) ∧ t.mem = s.mem) ∧
     (l.reclaim = false → exec (.marginReclaim cluster ok) s = .next s))) ∧
  (∀ ok blk core s b new, Tbl.find s.blocks blk = some b → s.resumeSlots blk core = some new →
     (∀ e ∈ s.blocks, ¬ (e.2.vd = b.vd ∧ e.2.harvest = true ∧ e.2.parkAt < b.parkAt ∧ e.1 ≠ blk ∧ (s.resumeSlots e.1 core).isSome = true)) →
     ((b.loc = .layby core ∨ (b.loc = .memory ∧ (s.areaGet b.vd b.imageAt b.image.length true ok).2 = .ok b.image)) →
       (∀ a ∈ s.accesses, a.blk ≠ blk) → (∀ w ∈ s.waits, s.waitBlk w ≠ blk) →
       ∃ t b', exec (.contextResume blk core ok) s = .next t ∧ Tbl.find t.blocks blk = some b' ∧ b'.loc = .core core ∧ b'.held = new ∧
         b'.tiles = b.tiles ∧ b'.slabs = b.slabs ∧ b'.parks = b.parks ∧ b'.bins = [] ∧ t.mem = s.mem ∧
         (t.core core).bins = (s.core core).bins ++ b.bins ∧
         ∀ gid g, Tbl.find s.groups gid = some g → g.blk = blk → ∃ g', Tbl.find t.groups gid = some g' ∧
           g' = { g with core := core, sched := g'.sched, slot := g'.slot, since := s.cycle - g.since }) ∧
     (∀ e, b.loc = .memory → (s.getImage blk true ok).2 = some e →
       ∃ t, exec (.contextResume blk core ok) s = .next t ∧ lost s t b blk 0x121 e))

/-- THE DISPATCH of a unit of one block (R17, R19, R88, R110, R116, R161, R318): the block stands on the core with its demands,
barrier 0 set up for its threads, its tensor entries those of the launch; its groups are fresh, at the kernel's entry, no
register written but the image bases; the launch counts it. The model's own choices in it: log 10 and 60. -/
def Obligations.Dispatch : Prop :=
  ∀ vd key core s l u held, Tbl.find s.launches key = some l → l.vd = vd → core < 256 →
    let s1 := s.settleServed vd
    let l1 := l.placed (core / 64) core
    let i := if l.hv then Instr.harvestAdmit vd key [core] else .blockDispatch vd key [core]
    l.nextUnit (core / 64) = some u → (s.vd vd).runs = true → l.unitBlocks = 1 → l.gangOk [core] = true →
    l.onDie (core / 64) core = true → s1.isServed key l = true → s.contexts core = [] → s1.blockRoom l1 core ≠ 0 →
    s1.takeSlots core (if l.hv then 20 else 0) (if l.hv then 4 else 16) ((List.range l.ngr).map (· % 4)) [] = some held →
    (∀ e ∈ s.blocks, e.1 < s.nextId) → (∀ e ∈ s.groups, e.1 < s.nextId) →
    ∃ t b, exec i s = .next t ∧ Tbl.find t.blocks s.nextId = some b ∧ b.launch = key ∧ b.vd = vd ∧ b.idx = BitVec.ofNat 32 u ∧
      b.loc = .core core ∧ b.harvest = l.hv ∧ b.held = held ∧ b.nv = l.nv ∧ b.ns = l.ns ∧ b.entry = l.entry ∧ b.tx = l.tx ∧ b.ctrs = [] ∧
      b.bars = [(0, { init := true, count := l.ngr * (if l.narrow then 16 else 32), arrived := 0, phase := false, eng := 0 })] ∧
      t.mem = s.mem ∧
      (∃ l', Tbl.find t.launches key = some l' ∧ l'.resident = l.resident + 1 ∧ l'.started = true ∧
        (l.spans = false → l'.next = l.next + 1)) ∧
      ∀ n < l.ngr, ∃ g, Tbl.find t.groups (s.nextId + 1 + n) = some g ∧ g.blk = s.nextId ∧ g.core = core ∧ g.sched = (held.getD n (0, 0)).1 ∧
        g.slot = (held.getD n (0, 0)).2 ∧ g.alive = g.full ∧ g.v = [] ∧ g.p = [] ∧ g.s = [] ∧ g.b = [(13, l.img), (15, l.img)] ∧
        (∃ b14, g.paths = [Path.fresh l.entry g.full b14]) ∧
        ∀ x < g.width, g.lt x = BitVec.ofNat 64 (u % 2 ^ 32 * 2 ^ 32 + n * g.width + x)

/-- Queues and acceptance (R367 to R370): a doorbell within the entries makes its records ready, any other sets `bad`, and a
queue that is not enabled takes none; QCFG takes its fields; the record at the head takes the next launch index, whether or not
it passes its checks, and the head goes on; a record that cannot be read sets `rdf`. A poll, or the host's poke, marks a
dependence met once its event word has reached its value, and ends the launch with EVENT_FAULT where the word does not exist
(R371, R372); a granted batch is logged and moves the next unit on (R29). The model's own choices in it: log 113. -/
def Obligations.QueuesAndDependences : Prop :=
  (∀ vd q s, vd < 256 → q < 64 → let x := (s.vd vd).queue q
     (∀ t, x.en = true → (t - x.head).toNat ≤ x.entries → ∃ u, exec (.doorbell vd q t) s = .next u ∧
       ((u.vd vd).queue q).bells = x.bells ++ [(t, s.nextId)] ∧ ((u.vd vd).queue q).bad = x.bad ∧ ((u.vd vd).queue q).head = x.head ∧
       (((x.tail - x.head).toNat ≤ (t - x.head).toNat) → ((u.vd vd).queue q).tail = t)) ∧
     (∀ t, x.en = true → x.entries < (t - x.head).toNat →
       exec (.doorbell vd q t) s = .next (s.modQueue vd q fun x => { x with bad := true })) ∧
     (∀ t, x.en = false → exec (.doorbell vd q t) s = .next s) ∧
     (∀ w : W32, x.en = false → w.toNat % 16 ≤ 8 → ∃ u, exec (.qcfgWrite vd q w) s = .next u ∧
       ((u.vd vd).queue q).en = w.getLsbD 31 ∧ ((u.vd vd).queue q).lsz = w.toNat % 16) ∧
     (∀ w : W32, x.en = true → w.getLsbD 31 = false → ∃ u, exec (.qcfgWrite vd q w) s = .next u ∧
       ((u.vd vd).queue q).en = false ∧ ((u.vd vd).queue q).head = 0 ∧ ((u.vd vd).queue q).tail = 0 ∧ ((u.vd vd).queue q).lsz = x.lsz) ∧
     ((s.vd vd).runs = true → x.en = true → x.stuck = false → x.head ≠ x.tail →
       let r := s.devRead vd ((x.base.toNat + 256 * (x.head.toNat % x.entries)) % 2 ^ 80) 256
       (∀ preOk, (s.vd vd).msmode ≠ 2 → ∃ u, exec (.launchAccept vd q false preOk) s = .next u ∧ ((u.vd vd).queue q).rdf = true ∧
         ((u.vd vd).queue q).stuck = true ∧ ((u.vd vd).queue q).head = x.head ∧ u.launches = s.launches ∧
         u.irqs = s.irqs ++ [.plain (some vd) 2 0x146 0]) ∧
       (∀ raw, r.2 = .ok raw →
         let k := (s.vd vd).kernelAt (BitVec.ofNat 80 (recFld raw 16 10))
         let ker := (k.map fun y => y.2.2.raw).getD []
         let takes := fun (l' : Launch) => ∃ u, exec (.launchAccept vd q true true) s = .next u ∧
           u.launches = s.launches ++ [(s.nextId, l')] ∧ (u.vd vd).nextLaunch = (s.vd vd).nextLaunch + 1 ∧
           ((u.vd vd).queue q).head = x.head + 1 ∧ ((u.vd vd).queue q).rdf = x.rdf ∧ u.mem = s.mem
         let l := mkLaunch vd q (s.vd vd).nextLaunch raw (((x.bells.find? fun b => 0 < x.named b.1).map (·.2)).getD s.nextId) k
         l.index = (s.vd vd).nextLaunch ∧
         (recBad raw l.hv = true → takes { l with fail := some (4, 0) }) ∧
         (recBad raw l.hv = false → k = none → takes { l with fail := some (5, 0) }) ∧
         (∀ u tx, r.1.recordFail vd raw k l = none → r.1.images vd raw ker true = (u, some tx) → takes { l with fail := none, tx := tx })))) ∧
  ((∀ vd key s l i n, Tbl.find s.launches key = some l → l.vd = vd → (s.vd vd).runs = true → l.ended = false → n < 4 →
     (i = .dependencePoll vd key true ∨ (i = .evpoke vd ∧ (s.launches.filter fun e => e.2.vd = vd) = [(key, l)])) →
     l.depsMet.getD n true = false → (∀ j, j ≠ n → l.depsMet.getD j true = true) →
     let ix := recFld l.raw (152 + 8 * n) 4 % 2 ^ 31
     (ix < (s.vd vd).nev → ∀ code u, s.stepSegs vd ⟨4, 0, .rd, .load, false, [0, 1]⟩ ((s.vd vd).eventWord ix) true = (u, .error code) →
       ∃ t, exec i s = .next t ∧ Tbl.find t.launches key = some { l with ended := true, stop := some (12, 0x144) } ∧ t.mem = u.mem) ∧
     (ix < (s.vd vd).nev → ∀ gs u, s.stepSegs vd ⟨4, 0, .rd, .load, false, [0, 1]⟩ ((s.vd vd).eventWord ix) true = (u, .ok gs) →
       u.mem = s.mem → Tbl.find u.launches key = some l → (s.vd vd).withheld = [] →
       let word : W32 := BitVec.ofNat 32 (leNat (gs.flatMap fun g => u.readSeg vd 0 g))
       let reached := (word - BitVec.ofNat 32 (recFld l.raw (156 + 8 * n) 4)).toNat < 2 ^ 31
       (reached → ∃ t, exec i s = .next t ∧ Tbl.find t.launches key = some { l with depsMet := l.depsMet.set n true } ∧ t.mem = s.mem) ∧
       (¬ reached → ∃ t, exec i s = .next t ∧ Tbl.find t.launches key = some l ∧ t.mem = s.mem)) ∧
     ((s.vd vd).nev ≤ ix → ∃ t, exec i s = .next t ∧
       Tbl.find t.launches key = some { l with ended := true, stop := some (12, 0x144) } ∧ t.mem = s.mem)) ∧
   (∀ vd key die n s l, Tbl.find s.launches key = some l → l.vd = vd → l.leader.isSome = true → l.spans = true → l.fail = none →
     (l.leader.any fun d => (s.die d).live) = true → (l.mirror.all fun d => (s.die d).live) = true → l.ended = false →
       l.dieLost = false → (s.vd vd).runs = true → l.started = true → die < 4 → (s.die die).live = true →
     (∀ u ∈ l.units, u.1 ≠ die) → 1 ≤ n → n ≤ 16 → l.next + n ≤ l.limit → n ≤ s.unitsNow l (l.onDie die) → l.mirror.isSome = true →
     exec (.batchRequest vd key die n) s = .next (s.modLaunch key fun _ => { l with
       next := l.next + n, units := l.units ++ [(die, l.next, n)], handLog := l.handLog ++ [(die, l.next, n)]
       mirrorLog := l.handLog ++ [(die, l.next, n)] })))

/-- The end of a launch (R30, R375, R382): completed, it is gone, its record written with its status and its interrupt raised;
aborted, it has no block left and waits for its completion; a lost die leaves no block on itself and the virtual devices of
spatial partitions are told. The model's own choices in it: log 117 and 118. -/
def Obligations.LaunchEnds : Prop :=
  (∀ vd key s l w, Tbl.find s.launches key = some l → l.vd = vd → (s.vd vd).runs = true → s.launchOver key l = true →
    (∀ a ∈ s.accesses, a.launch ≠ key) → recBit l.raw 184 4 31 = false → (s.vd vd).msmode ≠ 2 →
    s.stepRecord vd (recFld l.raw 98 10) l.record true = (w, none) →
    ∃ t, exec (.launchComplete vd key true true) s = .next t ∧ t.launches = Tbl.drop s.launches key ∧ t.mem = w.mem ∧
      t.irqs = s.irqs ++ (if recBit l.raw 2 1 2 then [.plain (some vd) 0 0 0] else [])) ∧
  (∀ l : Launch, l.record.length = 64 ∧ l.record.take 1 = leBytes 1 l.status.1 ∧ (l.record.drop 4).take 4 = leBytes 4 l.index.toNat ∧
    (l.stop = none → l.fail = none → l.lost = [] → l.dieLost = false → l.status = (0, 0, 0)) ∧
    (l.stop = none → l.fail = none → (l.lost ≠ [] ∨ l.dieLost = true) → l.status = (3, 0, 0))) ∧
  (∀ vd ix s key l, (s.launches.find? fun e => e.2.vd = vd && e.2.index.toNat = ix && !e.2.ended) = some (key, l) →
    Tbl.find s.launches key = some l → (∀ a ∈ s.accesses, a.launch ≠ key) → ∃ t l', exec (.abort vd ix) s = .next t ∧
      Tbl.find t.launches key = some l' ∧ l'.ended = true ∧ l'.resident = 0 ∧ l'.units = [] ∧ l'.next = l.limit ∧
      l'.stop = some (match s.haltCode key with
        | some c => (9, c)
        | none => (10, 0x142)) ∧
      (∀ k b, Tbl.find t.blocks k = some b → b.launch ≠ key) ∧ t.mem = s.mem) ∧
  (∀ die s, die < 4 → (s.die die).live = true → ∃ t, exec (.dieLoss die) s = .next t ∧ (t.die die).live = false ∧
    (∀ k b, Tbl.find t.blocks k = some b → b.onDie die = false) ∧ t.mem = s.mem ∧
    (∀ e ∈ s.vds, e.2.run = true → e.2.sliced = false → Irq.plain (some e.1) 3 0 0 ∈ t.irqs))

/-- A stopped virtual device starts, or its start is refused with the offset of the first field out of range (R365, R366); its
reset stops it, empties its queues, and leaves it no access, no cell, no key slot and nothing withheld (R382). The model's own
choices in it: log 119 and 120. -/
def Obligations.VirtualDevices : Prop :=
  (∀ vd s, vd < 256 → (s.vd vd).run = false →
    ((s.vd vd).badField = none → s.partTaken vd = false → exec (.vdStart vd) s = .next (s.modVd vd fun v => { v with
      run := true, halt := false, sched := !v.sliced, refused := false, snap := none, log := [], msAt := s.cycle
      gone := [], noted := [] })) ∧
    (∀ f, (s.vd vd).badField = some f → exec (.vdStart vd) s = .next (s.modVd vd fun v => { v with refused := true, bad := f })) ∧
    ((s.vd vd).badField = none → s.partTaken vd = true →
      exec (.vdStart vd) s = .next (s.modVd vd fun v => { v with refused := true, bad := 92 }))) ∧
  (∀ vd s, (s.vd vd).run = true → exec (.vdStart vd) s = .next s) ∧
  (∀ vd s, vd < 256 → ∃ t, exec (.vdReset vd) s = .next t ∧ (t.vd vd).run = false ∧ (t.vd vd).halt = false ∧ (t.vd vd).sched = false ∧
    (t.vd vd).nextLaunch = 0 ∧ (t.vd vd).withheld = [] ∧ (t.vd vd).log = [] ∧ (t.vd vd).msseq = 0 ∧
    (∀ e ∈ (t.vd vd).queues, e.2.en = false ∧ e.2.head = 0 ∧ e.2.tail = 0 ∧ e.2.bells = []) ∧
    (∀ a ∈ t.accesses, a.vd ≠ vd) ∧ (∀ e ∈ t.dies, ∀ c ∈ e.2.cells, c.vd ≠ vd) ∧ ∀ k x, Tbl.find t.keys k = some x → x.vd ≠ vd)

/-- Partition records and lending (R377 to R379): a mask is written while the partition is stopped and no cluster would belong
twice; a share while the shares stay within 256; a margin cluster is lent, shown in LEND once no block of the lender remains on it,
and its reclaim begins, or ends at once a lend that never took effect. Sessions and keys (R179, R380, R381): the Tollhouse answers
requests, FINISH opens a session on a function that has exchanged keys and END_SESSION closes it; a key is installed only within a
session, in a slot that was free, a translator's measurement is listed; a released slot is empty, and what was written under it is
no longer any slot's. The model's own choices in it: log 121, 122, 123, 152 and 215. -/
def Obligations.PartitionsAndSessions : Prop :=
  ((∀ p margin (w : W32) s, p < 32 → s.partStopped p = true →
     let others := (s.parts.filter fun e => e.1 ≠ p).foldl (fun (a : W32) e => a ||| e.2.gmask ||| e.2.mmask) 0
     let own := if margin then (s.part p).gmask else (s.part p).mmask
     ((others ||| own) &&& w = 0 → exec (.partitionMaskWrite p margin w) s =
       .next (s.modPart p fun x => if margin then { x with mmask := w } else { x with gmask := w })) ∧
     ((others ||| own) &&& w ≠ 0 → exec (.partitionMaskWrite p margin w) s = .next s)) ∧
   (∀ p margin (w : W32) s, s.partStopped p = false → exec (.partitionMaskWrite p margin w) s = .next s) ∧
   (∀ p (w : W32) s, p < 32 →
     let others := ((s.parts.filter fun e => e.1 ≠ p).map fun e => e.2.share).sum
     (others + w.toNat % 256 ≤ 256 → exec (.pshareWrite p w) s = .next (s.modPart p fun x => { x with share := w.toNat % 256 })) ∧
     (256 < others + w.toNat % 256 → exec (.pshareWrite p w) s = .next s)) ∧
   (∀ c (w : W32) s p, c < 32 → s.lender c = some p → w.getLsbD 31 = true → w.toNat % 32 ≠ p → Tbl.find s.lends c = none →
     (s.blockNear p c = true → ∃ t, exec (.lendtoLend c w) s = .next t ∧ (t.part p).lend = (s.part p).lend ∧
       Tbl.find t.lends c = some { borrower := w.toNat % 32, effect := false, reclaim := false }) ∧
     (s.blockNear p c = false → ∃ t, exec (.lendtoLend c w) s = .next t ∧ (t.part p).lend.getLsbD c = true ∧
       Tbl.find t.lends c = some { borrower := w.toNat % 32, effect := true, reclaim := false })) ∧
   (∀ c s l p, Tbl.find s.lends c = some l → c < 32 → s.lender c = some p →
     ∀ i, (i = .lendtoReclaim c ∨ ∃ w : W32, i = .lendtoLend c w ∧ w.getLsbD 31 = true ∧ w.toNat % 32 = p) →
     (l.effect = true → ∃ t, exec i s = .next t ∧ t.lends = Tbl.put s.lends c { l with reclaim := true } ∧ t.parts = s.parts ∧
       t.mem = s.mem ∧ t.groups = s.groups ∧ t.blocks = s.blocks) ∧
     (l.effect = false → ∃ t, exec i s = .next t ∧ Tbl.find t.lends c = none ∧ t.mem = s.mem ∧ t.groups = s.groups))) ∧
  ((∀ vd r s, vd < 256 → ∃ t, exec (.spdmRequest (vd + 1) r) s = .next t ∧ t.mem = s.mem ∧
     (t.vd vd).session = (if r = .finish then (s.vd vd).session || (s.vd vd).exchanged
       else if r = .endSession then false else (s.vd vd).session) ∧
     (t.vd vd).exchanged = (if r = .keyExchange then true
       else if r = .finish ∨ r = .endSession then false else (s.vd vd).exchanged)) ∧
   (∀ r s, ∃ ans, exec (.spdmRequest 0 r) s = .next { s with hostData := ans, free := s.free + 1 }) ∧
   (∀ vd k s, (s.vd vd).session = false → exec (.keyInstall vd k) s = .next s) ∧
   (∀ vd s, vd < 256 → (s.vd vd).session = true → (∃ n < 1024, Tbl.find s.keys n = none) →
     ∃ t n key, exec (.keyInstall vd .xts) s = .next t ∧ n < 1024 ∧ Tbl.find s.keys n = none ∧
       t = { s with keys := Tbl.put s.keys n { vd := vd, key := key }, hostData := leBytes 2 n, free := s.free + 1 }) ∧
   (∀ vd id s, vd < 256 → (s.vd vd).session = true → ∃ t bs, exec (.keyInstall vd (.signing id)) s = .next t ∧
     (t.vd vd).signKeys = ((s.vd vd).signKeys.filter fun e => e.1 ≠ id) ++ [(id, bs)] ∧ t.mem = s.mem ∧ t.keys = s.keys) ∧
   (∀ vd m s, vd < 256 → (s.vd vd).session = true → ∃ t, exec (.keyInstall vd (.translator m)) s = .next t ∧
     m ∈ (t.vd vd).translators ∧ (∀ x ∈ (s.vd vd).translators, x ∈ (t.vd vd).translators) ∧ t.mem = s.mem ∧ t.keys = s.keys) ∧
   (∀ n s, (Tbl.find s.keys n).isSome = true → s.keyUsed n = false → ∃ t, exec (.keyRelease n) s = .next t ∧ Tbl.find t.keys n = none ∧
     (∀ k, k ≠ n → Tbl.find t.keys k = Tbl.find s.keys k) ∧ (∀ l, Tbl.find t.lineSlot l ≠ some n) ∧ t.mem = s.mem))

/-- Power (R398, R400 to R402): the governor's register refuses values out of range; the limit falls at the hot threshold and rises
when the die is 5 degrees below it; a die at 110 degrees takes the package down, as does the loss of power; bring-up leaves the
reset state, or the number of the step that failed; the oldest request that waits is granted when it fits the limit. The model's own
choices in it: log 124, 141, 204 and 206. -/
def Obligations.Power : Prop :=
  (∀ die (w : W32) s, die < 4 →
    let thot := w.toNat / 2 ^ 16 % 1024
    let bud := w.toNat % 1024
    (60 ≤ thot → thot ≤ 100 → 16 ≤ bud → exec (.govcfgWrite die w) s = .next (s.modDie die fun d => { d with thot := thot, bud := bud })) ∧
    ((thot < 60 ∨ 100 < thot ∨ bud < 16) → exec (.govcfgWrite die w) s = .next s)) ∧
  (∀ die tmp s, die < 4 → tmp < 128 → ∃ t, exec (.thermalAdjust die tmp) s = .next t ∧ (t.die die).tmp = tmp ∧
    ((s.die die).thot ≤ tmp → 32 ≤ (s.die die).tlim → (t.die die).tlim = (s.die die).tlim - 16) ∧
    (tmp + 5 < (s.die die).thot → (t.die die).tlim = min 1023 ((s.die die).tlim + 16)) ∧
    (tmp < (s.die die).thot → (s.die die).thot ≤ tmp + 5 → (t.die die).tlim = (s.die die).tlim)) ∧
  (∀ die s, die < 4 → 110 ≤ (s.die die).tmp → ∃ t, exec (.thermalTrip die) s = .next t ∧ t.powered = false ∧ (t.die die).trip = true ∧
    t.groups = [] ∧ t.blocks = [] ∧ t.keys = [] ∧ (s.vds = [] → ∀ v < 256, Irq.plain (some v) 2 0 0 ∈ t.irqs)) ∧
  (∀ s, ∃ t, exec .powerLoss s = .next t ∧ t.powered = false ∧ t.groups = [] ∧ t.blocks = [] ∧ t.vds = [] ∧ t.keys = [] ∧ t.cores = [] ∧
    (∀ x, Memory.get t.mem x = if region x = 1 then Memory.get s.mem x else 0) ∧ t.peer = s.peer) ∧
  (∀ s, ∃ t, exec (.bringUp none) s = .next t ∧ t.powered = true ∧ t.mailbox = none ∧ t.groups = [] ∧ t.blocks = [] ∧ t.vds = [] ∧
    t.keys = [] ∧ t.cores = [] ∧ t.launches = []) ∧
  (∀ k s, 1 ≤ k → k ≤ 5 → ∃ t, exec (.bringUp (some k)) s = .next t ∧ t.powered = false ∧ t.mailbox = some k) ∧
  (∀ die s gid cost rest, (s.die die).permits = { gid := gid, blk := none, cost := cost, granted := false } :: rest →
    (∀ p ∈ rest, p.blk = none) →
    (s.dieUse die + cost ≤ (s.die die).limit → ∃ t, exec (.permitGrant die) s = .next t ∧
      (t.die die).permits = { gid := gid, blk := none, cost := cost, granted := true } :: rest ∧ t.mem = s.mem) ∧
    ((s.die die).limit < s.dieUse die + cost → ∃ t, exec (.permitGrant die) s = .next t ∧
      (t.die die).permits = (s.die die).permits ∧ t.mem = s.mem))

/-- The host loader (R71, R72, R85, R86): a load answers with its status and changes nothing, or installs the object; an object
whose symbols another refers to is not unloaded, one in use is not retired, any other goes, with its range and its kernels; a swap
turns the kernel table to the new object, and a GOT entry that names a symbol of the old one to that symbol's new place. The model's
own choices in it: log 126, 129, 130 and 202. -/
def Obligations.Loader : Prop :=
  (∀ (r : LoadReq) s, headerBad r.file = true → recFld r.file 0 4 ≠ 0x46464F42 →
    exec (.loaderLoad r) s = .next { s with hostData := leBytes 4 1 ++ leBytes 4 0 }) ∧
  (∀ (r : LoadReq) s file narrow base rel u, selectImage (s.vd r.vd) r = .ok (file, narrow) → headerBad file = false → s.takeBase r file = .ok base →
    applyRelocs (s.vd r.vd) file base = .ok rel → (s.vd r.vd).ranges.length < 64 → s.install r file narrow base rel = some u →
    exec (.loaderLoad r) s = .next u ∧ (u.vd r.vd).objs = (s.vd r.vd).objs ++ [(s.nextId, mkObj (s.vd r.vd) file narrow base s.nextId)] ∧
      u.hostData = leBytes 4 0 ++ leBytes 4 0 ∧ u.groups.map (·.1) = s.groups.map (·.1)) ∧
  (∀ (r : LoadReq) s file narrow e, selectImage (s.vd r.vd) r = .ok (file, narrow) → headerBad file = false →
    s.takeBase r file = .error e →
    exec (.loaderLoad r) s = .next { s with hostData := leBytes 4 e ++ leBytes 4 0 }) ∧
  (∀ vd obj s o, Tbl.find (s.vd vd).objs obj = some o →
    let gone := fun (i : Instr) => ∃ t, exec i s = .next t ∧ Tbl.find (t.vd vd).objs obj = none ∧
      (∀ e ∈ (t.vd vd).ranges, e.2.obj ≠ obj) ∧ (∀ e ∈ (t.vd vd).kernels, e.2.1 ≠ obj) ∧ t.hostData = leBytes 4 0 ++ leBytes 4 0 ∧
      t.groups = s.groups ∧ t.launches = s.launches
    let inUse := fun (i : Instr) => exec i s = .next { s with hostData := leBytes 4 8 ++ leBytes 4 0 }
    ((∃ e ∈ (s.vd vd).objs, e.1 ≠ obj ∧ obj ∈ e.2.refs) → inUse (.loaderUnload vd obj)) ∧
    ((∀ e ∈ (s.vd vd).objs, e.1 ≠ obj → obj ∉ e.2.refs) → gone (.loaderUnload vd obj)) ∧
    (0 < s.useCount vd obj → inUse (.imageRetire vd obj)) ∧ (s.useCount vd obj = 0 → gone (.imageRetire vd obj))) ∧
  (∀ vd old new s o n, Tbl.find (s.vd vd).objs old = some o → Tbl.find (s.vd vd).objs new = some n →
    ∃ t, exec (.codeSwap vd old new) s = .next t ∧ t.launches = s.launches ∧
      (∀ e ∈ (s.vd vd).kernels, e.2.1 ≠ old → e ∈ (t.vd vd).kernels) ∧
      ∀ e ∈ (s.vd vd).kernels, e.2.1 = old → ∀ k nm ix, o.kernels[e.2.2]? = some k → k.name = nm →
        n.kernelNamed nm = some ix → (e.1, new, ix) ∈ (t.vd vd).kernels) ∧
  (∀ vd old new s o n g a e, Tbl.find (s.vd vd).objs old = some o → Tbl.find (s.vd vd).objs new = some n →
    (s.vd vd).objs.flatMap (fun e => e.2.gotSyms) = [g] → g.obj = old → n.symAt g.own g.name = some a →
    s.mapped vd g.place.toNat = some e →
    let pa := ptePfn e * 4096 + g.place.toNat % 4096
    (∀ x ∈ linesOf pa 32, Tbl.find s.lineSlot x = some (pteKey e)) → Memory.wf s.mem = true → ∃ t, exec (.codeSwap vd old new) s = .next t ∧
      (∀ i < 10, Memory.get t.mem (pa + i) = (leBytes 10 (BitVec.ofInt 80 (a.toNat + g.add)).toNat).getD i 0 ∧
        Memory.get t.mem (pa + 16 + i) = (leBytes 10 n.base.toNat).getD i 0) ∧
      ∀ x, (x < pa ∨ pa + 32 ≤ x) → Memory.get t.mem x = Memory.get s.mem x)

/-! ## Reset and the invariant -/

/-- After reset (R179, R325, R365 to R367, R377, R378, R383, R400, R402) the package is powered and holds no work; no byte of
memory is listed, every virtual device is stopped with its configuration zero and its queues off, no key slot is assigned, and
the registers hold their reset values. The model's own choices in it: log 9, 14 and 15. -/
def Obligations.ResetValues : Prop :=
  let s := State.reset
  s.powered = true ∧ s.mailbox = none ∧ s.latent = [] ∧ s.peer = [] ∧ s.groups = [] ∧ s.blocks = [] ∧ s.launches = [] ∧
    s.accesses = [] ∧ s.lends = [] ∧
  (∀ x, Memory.get s.mem x = 0) ∧ Memory.wf s.mem = true ∧ (∀ n, Tbl.find s.keys n = none) ∧
  (∀ vd, (s.vd vd).run = false ∧ (s.vd vd).halt = false ∧ (s.vd vd).config = List.replicate 256 0 ∧ (s.vd vd).dcfg = false ∧
    (s.vd vd).trace.cfg = 0 ∧ (s.vd vd).sample.cfg = 0 ∧ ∀ q, ((s.vd vd).queue q).en = false ∧ ((s.vd vd).queue q).lsz = 0) ∧
  (∀ p, (s.part p).gmask = 0 ∧ (s.part p).mmask = 0 ∧ (s.part p).lend = 0 ∧ (s.part p).share = 0) ∧
  (∀ die, (s.die die).thot = 95 ∧ (s.die die).bud = 360 ∧ (s.die die).trip = false) ∧
  (∀ core, (s.core core).xrev = true ∧ (s.core core).keep = 0 ∧ (s.core core).matQ = [] ∧ (s.core core).copyQ = [])

/-- AN INVARIANT THAT EVERY STEP KEEPS: memory and the other packages' memory stay in their canonical form, so that equal
contents are equal data. The form is the model's own: bytes in rising order of address, none of them zero. The model's own
choices in it: log 14. -/
def Obligations.MemoryCanonical : Prop :=
  ∀ s t, Memory.wf s.mem = true → Memory.wf s.peer = true → step s = .next t → Memory.wf t.mem = true ∧ Memory.wf t.peer = true
end

