-- ==== Sys2Proof/Laws/State.lean ====
section
/-! SUPPORT. For each update of one part of State, what every field of State holds after it. -/

namespace Sys2Proof.Machine

@[simp] theorem State.modGroup_cycle (s : State) (g : Nat) (f : Group → Group) :
    (s.modGroup g f).cycle = s.cycle := rfl
@[simp] theorem State.modGroup_agenda (s : State) (g : Nat) (f : Group → Group) :
    (s.modGroup g f).agenda = s.agenda := rfl
@[simp] theorem State.modGroup_issuer (s : State) (g : Nat) (f : Group → Group) :
    (s.modGroup g f).issuer = s.issuer := rfl
@[simp] theorem State.modGroup_free (s : State) (g : Nat) (f : Group → Group) :
    (s.modGroup g f).free = s.free := rfl
@[simp] theorem State.modGroup_powered (s : State) (g : Nat) (f : Group → Group) :
    (s.modGroup g f).powered = s.powered := rfl
@[simp] theorem State.modGroup_mailbox (s : State) (g : Nat) (f : Group → Group) :
    (s.modGroup g f).mailbox = s.mailbox := rfl
@[simp] theorem State.modGroup_mem (s : State) (g : Nat) (f : Group → Group) :
    (s.modGroup g f).mem = s.mem := rfl
@[simp] theorem State.modGroup_lineSlot (s : State) (g : Nat) (f : Group → Group) :
    (s.modGroup g f).lineSlot = s.lineSlot := rfl
@[simp] theorem State.modGroup_poison (s : State) (g : Nat) (f : Group → Group) :
    (s.modGroup g f).poison = s.poison := rfl
@[simp] theorem State.modGroup_latent (s : State) (g : Nat) (f : Group → Group) :
    (s.modGroup g f).latent = s.latent := rfl
@[simp] theorem State.modGroup_peer (s : State) (g : Nat) (f : Group → Group) :
    (s.modGroup g f).peer = s.peer := rfl
@[simp] theorem State.modGroup_peerSlot (s : State) (g : Nat) (f : Group → Group) :
    (s.modGroup g f).peerSlot = s.peerSlot := rfl
@[simp] theorem State.modGroup_hostData (s : State) (g : Nat) (f : Group → Group) :
    (s.modGroup g f).hostData = s.hostData := rfl
@[simp] theorem State.modGroup_vds (s : State) (g : Nat) (f : Group → Group) :
    (s.modGroup g f).vds = s.vds := rfl
@[simp] theorem State.modGroup_keys (s : State) (g : Nat) (f : Group → Group) :
    (s.modGroup g f).keys = s.keys := rfl
@[simp] theorem State.modGroup_parts (s : State) (g : Nat) (f : Group → Group) :
    (s.modGroup g f).parts = s.parts := rfl
@[simp] theorem State.modGroup_lends (s : State) (g : Nat) (f : Group → Group) :
    (s.modGroup g f).lends = s.lends := rfl
@[simp] theorem State.modGroup_lendto (s : State) (g : Nat) (f : Group → Group) :
    (s.modGroup g f).lendto = s.lendto := rfl
@[simp] theorem State.modGroup_links (s : State) (g : Nat) (f : Group → Group) :
    (s.modGroup g f).links = s.links := rfl
@[simp] theorem State.modGroup_comms (s : State) (g : Nat) (f : Group → Group) :
    (s.modGroup g f).comms = s.comms := rfl
@[simp] theorem State.modGroup_dies (s : State) (g : Nat) (f : Group → Group) :
    (s.modGroup g f).dies = s.dies := rfl
@[simp] theorem State.modGroup_cores (s : State) (g : Nat) (f : Group → Group) :
    (s.modGroup g f).cores = s.cores := rfl
@[simp] theorem State.modGroup_launches (s : State) (g : Nat) (f : Group → Group) :
    (s.modGroup g f).launches = s.launches := rfl
@[simp] theorem State.modGroup_blocks (s : State) (g : Nat) (f : Group → Group) :
    (s.modGroup g f).blocks = s.blocks := rfl
@[simp] theorem State.modGroup_groups (s : State) (g : Nat) (f : Group → Group) :
    (s.modGroup g f).groups = Tbl.upd s.groups g f := rfl
@[simp] theorem State.modGroup_accesses (s : State) (g : Nat) (f : Group → Group) :
    (s.modGroup g f).accesses = s.accesses := rfl
@[simp] theorem State.modGroup_invals (s : State) (g : Nat) (f : Group → Group) :
    (s.modGroup g f).invals = s.invals := rfl
@[simp] theorem State.modGroup_results (s : State) (g : Nat) (f : Group → Group) :
    (s.modGroup g f).results = s.results := rfl
@[simp] theorem State.modGroup_waits (s : State) (g : Nat) (f : Group → Group) :
    (s.modGroup g f).waits = s.waits := rfl
@[simp] theorem State.modGroup_irqs (s : State) (g : Nat) (f : Group → Group) :
    (s.modGroup g f).irqs = s.irqs := rfl
@[simp] theorem State.modGroup_nextId (s : State) (g : Nat) (f : Group → Group) :
    (s.modGroup g f).nextId = s.nextId := rfl

@[simp] theorem State.modBlock_cycle (s : State) (b : Nat) (f : Block → Block) :
    (s.modBlock b f).cycle = s.cycle := rfl
@[simp] theorem State.modBlock_agenda (s : State) (b : Nat) (f : Block → Block) :
    (s.modBlock b f).agenda = s.agenda := rfl
@[simp] theorem State.modBlock_issuer (s : State) (b : Nat) (f : Block → Block) :
    (s.modBlock b f).issuer = s.issuer := rfl
@[simp] theorem State.modBlock_free (s : State) (b : Nat) (f : Block → Block) :
    (s.modBlock b f).free = s.free := rfl
@[simp] theorem State.modBlock_powered (s : State) (b : Nat) (f : Block → Block) :
    (s.modBlock b f).powered = s.powered := rfl
@[simp] theorem State.modBlock_mailbox (s : State) (b : Nat) (f : Block → Block) :
    (s.modBlock b f).mailbox = s.mailbox := rfl
@[simp] theorem State.modBlock_mem (s : State) (b : Nat) (f : Block → Block) :
    (s.modBlock b f).mem = s.mem := rfl
@[simp] theorem State.modBlock_lineSlot (s : State) (b : Nat) (f : Block → Block) :
    (s.modBlock b f).lineSlot = s.lineSlot := rfl
@[simp] theorem State.modBlock_poison (s : State) (b : Nat) (f : Block → Block) :
    (s.modBlock b f).poison = s.poison := rfl
@[simp] theorem State.modBlock_latent (s : State) (b : Nat) (f : Block → Block) :
    (s.modBlock b f).latent = s.latent := rfl
@[simp] theorem State.modBlock_peer (s : State) (b : Nat) (f : Block → Block) :
    (s.modBlock b f).peer = s.peer := rfl
@[simp] theorem State.modBlock_peerSlot (s : State) (b : Nat) (f : Block → Block) :
    (s.modBlock b f).peerSlot = s.peerSlot := rfl
@[simp] theorem State.modBlock_hostData (s : State) (b : Nat) (f : Block → Block) :
    (s.modBlock b f).hostData = s.hostData := rfl
@[simp] theorem State.modBlock_vds (s : State) (b : Nat) (f : Block → Block) :
    (s.modBlock b f).vds = s.vds := rfl
@[simp] theorem State.modBlock_keys (s : State) (b : Nat) (f : Block → Block) :
    (s.modBlock b f).keys = s.keys := rfl
@[simp] theorem State.modBlock_parts (s : State) (b : Nat) (f : Block → Block) :
    (s.modBlock b f).parts = s.parts := rfl
@[simp] theorem State.modBlock_lends (s : State) (b : Nat) (f : Block → Block) :
    (s.modBlock b f).lends = s.lends := rfl
@[simp] theorem State.modBlock_lendto (s : State) (b : Nat) (f : Block → Block) :
    (s.modBlock b f).lendto = s.lendto := rfl
@[simp] theorem State.modBlock_links (s : State) (b : Nat) (f : Block → Block) :
    (s.modBlock b f).links = s.links := rfl
@[simp] theorem State.modBlock_comms (s : State) (b : Nat) (f : Block → Block) :
    (s.modBlock b f).comms = s.comms := rfl
@[simp] theorem State.modBlock_dies (s : State) (b : Nat) (f : Block → Block) :
    (s.modBlock b f).dies = s.dies := rfl
@[simp] theorem State.modBlock_cores (s : State) (b : Nat) (f : Block → Block) :
    (s.modBlock b f).cores = s.cores := rfl
@[simp] theorem State.modBlock_launches (s : State) (b : Nat) (f : Block → Block) :
    (s.modBlock b f).launches = s.launches := rfl
@[simp] theorem State.modBlock_blocks (s : State) (b : Nat) (f : Block → Block) :
    (s.modBlock b f).blocks = Tbl.upd s.blocks b f := rfl
@[simp] theorem State.modBlock_groups (s : State) (b : Nat) (f : Block → Block) :
    (s.modBlock b f).groups = s.groups := rfl
@[simp] theorem State.modBlock_accesses (s : State) (b : Nat) (f : Block → Block) :
    (s.modBlock b f).accesses = s.accesses := rfl
@[simp] theorem State.modBlock_invals (s : State) (b : Nat) (f : Block → Block) :
    (s.modBlock b f).invals = s.invals := rfl
@[simp] theorem State.modBlock_results (s : State) (b : Nat) (f : Block → Block) :
    (s.modBlock b f).results = s.results := rfl
@[simp] theorem State.modBlock_waits (s : State) (b : Nat) (f : Block → Block) :
    (s.modBlock b f).waits = s.waits := rfl
@[simp] theorem State.modBlock_irqs (s : State) (b : Nat) (f : Block → Block) :
    (s.modBlock b f).irqs = s.irqs := rfl
@[simp] theorem State.modBlock_nextId (s : State) (b : Nat) (f : Block → Block) :
    (s.modBlock b f).nextId = s.nextId := rfl

@[simp] theorem State.modLaunch_cycle (s : State) (l : Nat) (f : Launch → Launch) :
    (s.modLaunch l f).cycle = s.cycle := rfl
@[simp] theorem State.modLaunch_agenda (s : State) (l : Nat) (f : Launch → Launch) :
    (s.modLaunch l f).agenda = s.agenda := rfl
@[simp] theorem State.modLaunch_issuer (s : State) (l : Nat) (f : Launch → Launch) :
    (s.modLaunch l f).issuer = s.issuer := rfl
@[simp] theorem State.modLaunch_free (s : State) (l : Nat) (f : Launch → Launch) :
    (s.modLaunch l f).free = s.free := rfl
@[simp] theorem State.modLaunch_powered (s : State) (l : Nat) (f : Launch → Launch) :
    (s.modLaunch l f).powered = s.powered := rfl
@[simp] theorem State.modLaunch_mailbox (s : State) (l : Nat) (f : Launch → Launch) :
    (s.modLaunch l f).mailbox = s.mailbox := rfl
@[simp] theorem State.modLaunch_mem (s : State) (l : Nat) (f : Launch → Launch) :
    (s.modLaunch l f).mem = s.mem := rfl
@[simp] theorem State.modLaunch_lineSlot (s : State) (l : Nat) (f : Launch → Launch) :
    (s.modLaunch l f).lineSlot = s.lineSlot := rfl
@[simp] theorem State.modLaunch_poison (s : State) (l : Nat) (f : Launch → Launch) :
    (s.modLaunch l f).poison = s.poison := rfl
@[simp] theorem State.modLaunch_latent (s : State) (l : Nat) (f : Launch → Launch) :
    (s.modLaunch l f).latent = s.latent := rfl
@[simp] theorem State.modLaunch_peer (s : State) (l : Nat) (f : Launch → Launch) :
    (s.modLaunch l f).peer = s.peer := rfl
@[simp] theorem State.modLaunch_peerSlot (s : State) (l : Nat) (f : Launch → Launch) :
    (s.modLaunch l f).peerSlot = s.peerSlot := rfl
@[simp] theorem State.modLaunch_hostData (s : State) (l : Nat) (f : Launch → Launch) :
    (s.modLaunch l f).hostData = s.hostData := rfl
@[simp] theorem State.modLaunch_vds (s : State) (l : Nat) (f : Launch → Launch) :
    (s.modLaunch l f).vds = s.vds := rfl
@[simp] theorem State.modLaunch_keys (s : State) (l : Nat) (f : Launch → Launch) :
    (s.modLaunch l f).keys = s.keys := rfl
@[simp] theorem State.modLaunch_parts (s : State) (l : Nat) (f : Launch → Launch) :
    (s.modLaunch l f).parts = s.parts := rfl
@[simp] theorem State.modLaunch_lends (s : State) (l : Nat) (f : Launch → Launch) :
    (s.modLaunch l f).lends = s.lends := rfl
@[simp] theorem State.modLaunch_lendto (s : State) (l : Nat) (f : Launch → Launch) :
    (s.modLaunch l f).lendto = s.lendto := rfl
@[simp] theorem State.modLaunch_links (s : State) (l : Nat) (f : Launch → Launch) :
    (s.modLaunch l f).links = s.links := rfl
@[simp] theorem State.modLaunch_comms (s : State) (l : Nat) (f : Launch → Launch) :
    (s.modLaunch l f).comms = s.comms := rfl
@[simp] theorem State.modLaunch_dies (s : State) (l : Nat) (f : Launch → Launch) :
    (s.modLaunch l f).dies = s.dies := rfl
@[simp] theorem State.modLaunch_cores (s : State) (l : Nat) (f : Launch → Launch) :
    (s.modLaunch l f).cores = s.cores := rfl
@[simp] theorem State.modLaunch_launches (s : State) (l : Nat) (f : Launch → Launch) :
    (s.modLaunch l f).launches = Tbl.upd s.launches l f := rfl
@[simp] theorem State.modLaunch_blocks (s : State) (l : Nat) (f : Launch → Launch) :
    (s.modLaunch l f).blocks = s.blocks := rfl
@[simp] theorem State.modLaunch_groups (s : State) (l : Nat) (f : Launch → Launch) :
    (s.modLaunch l f).groups = s.groups := rfl
@[simp] theorem State.modLaunch_accesses (s : State) (l : Nat) (f : Launch → Launch) :
    (s.modLaunch l f).accesses = s.accesses := rfl
@[simp] theorem State.modLaunch_invals (s : State) (l : Nat) (f : Launch → Launch) :
    (s.modLaunch l f).invals = s.invals := rfl
@[simp] theorem State.modLaunch_results (s : State) (l : Nat) (f : Launch → Launch) :
    (s.modLaunch l f).results = s.results := rfl
@[simp] theorem State.modLaunch_waits (s : State) (l : Nat) (f : Launch → Launch) :
    (s.modLaunch l f).waits = s.waits := rfl
@[simp] theorem State.modLaunch_irqs (s : State) (l : Nat) (f : Launch → Launch) :
    (s.modLaunch l f).irqs = s.irqs := rfl
@[simp] theorem State.modLaunch_nextId (s : State) (l : Nat) (f : Launch → Launch) :
    (s.modLaunch l f).nextId = s.nextId := rfl

@[simp] theorem State.modCore_cycle (s : State) (c : Nat) (f : Core → Core) :
    (s.modCore c f).cycle = s.cycle := rfl
@[simp] theorem State.modCore_agenda (s : State) (c : Nat) (f : Core → Core) :
    (s.modCore c f).agenda = s.agenda := rfl
@[simp] theorem State.modCore_issuer (s : State) (c : Nat) (f : Core → Core) :
    (s.modCore c f).issuer = s.issuer := rfl
@[simp] theorem State.modCore_free (s : State) (c : Nat) (f : Core → Core) :
    (s.modCore c f).free = s.free := rfl
@[simp] theorem State.modCore_powered (s : State) (c : Nat) (f : Core → Core) :
    (s.modCore c f).powered = s.powered := rfl
@[simp] theorem State.modCore_mailbox (s : State) (c : Nat) (f : Core → Core) :
    (s.modCore c f).mailbox = s.mailbox := rfl
@[simp] theorem State.modCore_mem (s : State) (c : Nat) (f : Core → Core) :
    (s.modCore c f).mem = s.mem := rfl
@[simp] theorem State.modCore_lineSlot (s : State) (c : Nat) (f : Core → Core) :
    (s.modCore c f).lineSlot = s.lineSlot := rfl
@[simp] theorem State.modCore_poison (s : State) (c : Nat) (f : Core → Core) :
    (s.modCore c f).poison = s.poison := rfl
@[simp] theorem State.modCore_latent (s : State) (c : Nat) (f : Core → Core) :
    (s.modCore c f).latent = s.latent := rfl
@[simp] theorem State.modCore_peer (s : State) (c : Nat) (f : Core → Core) :
    (s.modCore c f).peer = s.peer := rfl
@[simp] theorem State.modCore_peerSlot (s : State) (c : Nat) (f : Core → Core) :
    (s.modCore c f).peerSlot = s.peerSlot := rfl
@[simp] theorem State.modCore_hostData (s : State) (c : Nat) (f : Core → Core) :
    (s.modCore c f).hostData = s.hostData := rfl
@[simp] theorem State.modCore_vds (s : State) (c : Nat) (f : Core → Core) :
    (s.modCore c f).vds = s.vds := rfl
@[simp] theorem State.modCore_keys (s : State) (c : Nat) (f : Core → Core) :
    (s.modCore c f).keys = s.keys := rfl
@[simp] theorem State.modCore_parts (s : State) (c : Nat) (f : Core → Core) :
    (s.modCore c f).parts = s.parts := rfl
@[simp] theorem State.modCore_lends (s : State) (c : Nat) (f : Core → Core) :
    (s.modCore c f).lends = s.lends := rfl
@[simp] theorem State.modCore_lendto (s : State) (c : Nat) (f : Core → Core) :
    (s.modCore c f).lendto = s.lendto := rfl
@[simp] theorem State.modCore_links (s : State) (c : Nat) (f : Core → Core) :
    (s.modCore c f).links = s.links := rfl
@[simp] theorem State.modCore_comms (s : State) (c : Nat) (f : Core → Core) :
    (s.modCore c f).comms = s.comms := rfl
@[simp] theorem State.modCore_dies (s : State) (c : Nat) (f : Core → Core) :
    (s.modCore c f).dies = s.dies := rfl
@[simp] theorem State.modCore_cores (s : State) (c : Nat) (f : Core → Core) :
    (s.modCore c f).cores = Tbl.put s.cores c (f (s.core c)) := rfl
@[simp] theorem State.modCore_launches (s : State) (c : Nat) (f : Core → Core) :
    (s.modCore c f).launches = s.launches := rfl
@[simp] theorem State.modCore_blocks (s : State) (c : Nat) (f : Core → Core) :
    (s.modCore c f).blocks = s.blocks := rfl
@[simp] theorem State.modCore_groups (s : State) (c : Nat) (f : Core → Core) :
    (s.modCore c f).groups = s.groups := rfl
@[simp] theorem State.modCore_accesses (s : State) (c : Nat) (f : Core → Core) :
    (s.modCore c f).accesses = s.accesses := rfl
@[simp] theorem State.modCore_invals (s : State) (c : Nat) (f : Core → Core) :
    (s.modCore c f).invals = s.invals := rfl
@[simp] theorem State.modCore_results (s : State) (c : Nat) (f : Core → Core) :
    (s.modCore c f).results = s.results := rfl
@[simp] theorem State.modCore_waits (s : State) (c : Nat) (f : Core → Core) :
    (s.modCore c f).waits = s.waits := rfl
@[simp] theorem State.modCore_irqs (s : State) (c : Nat) (f : Core → Core) :
    (s.modCore c f).irqs = s.irqs := rfl
@[simp] theorem State.modCore_nextId (s : State) (c : Nat) (f : Core → Core) :
    (s.modCore c f).nextId = s.nextId := rfl

@[simp] theorem State.modDie_cycle (s : State) (d : Nat) (f : Die → Die) :
    (s.modDie d f).cycle = s.cycle := rfl
@[simp] theorem State.modDie_agenda (s : State) (d : Nat) (f : Die → Die) :
    (s.modDie d f).agenda = s.agenda := rfl
@[simp] theorem State.modDie_issuer (s : State) (d : Nat) (f : Die → Die) :
    (s.modDie d f).issuer = s.issuer := rfl
@[simp] theorem State.modDie_free (s : State) (d : Nat) (f : Die → Die) :
    (s.modDie d f).free = s.free := rfl
@[simp] theorem State.modDie_powered (s : State) (d : Nat) (f : Die → Die) :
    (s.modDie d f).powered = s.powered := rfl
@[simp] theorem State.modDie_mailbox (s : State) (d : Nat) (f : Die → Die) :
    (s.modDie d f).mailbox = s.mailbox := rfl
@[simp] theorem State.modDie_mem (s : State) (d : Nat) (f : Die → Die) :
    (s.modDie d f).mem = s.mem := rfl
@[simp] theorem State.modDie_lineSlot (s : State) (d : Nat) (f : Die → Die) :
    (s.modDie d f).lineSlot = s.lineSlot := rfl
@[simp] theorem State.modDie_poison (s : State) (d : Nat) (f : Die → Die) :
    (s.modDie d f).poison = s.poison := rfl
@[simp] theorem State.modDie_latent (s : State) (d : Nat) (f : Die → Die) :
    (s.modDie d f).latent = s.latent := rfl
@[simp] theorem State.modDie_peer (s : State) (d : Nat) (f : Die → Die) :
    (s.modDie d f).peer = s.peer := rfl
@[simp] theorem State.modDie_peerSlot (s : State) (d : Nat) (f : Die → Die) :
    (s.modDie d f).peerSlot = s.peerSlot := rfl
@[simp] theorem State.modDie_hostData (s : State) (d : Nat) (f : Die → Die) :
    (s.modDie d f).hostData = s.hostData := rfl
@[simp] theorem State.modDie_vds (s : State) (d : Nat) (f : Die → Die) :
    (s.modDie d f).vds = s.vds := rfl
@[simp] theorem State.modDie_keys (s : State) (d : Nat) (f : Die → Die) :
    (s.modDie d f).keys = s.keys := rfl
@[simp] theorem State.modDie_parts (s : State) (d : Nat) (f : Die → Die) :
    (s.modDie d f).parts = s.parts := rfl
@[simp] theorem State.modDie_lends (s : State) (d : Nat) (f : Die → Die) :
    (s.modDie d f).lends = s.lends := rfl
@[simp] theorem State.modDie_lendto (s : State) (d : Nat) (f : Die → Die) :
    (s.modDie d f).lendto = s.lendto := rfl
@[simp] theorem State.modDie_links (s : State) (d : Nat) (f : Die → Die) :
    (s.modDie d f).links = s.links := rfl
@[simp] theorem State.modDie_comms (s : State) (d : Nat) (f : Die → Die) :
    (s.modDie d f).comms = s.comms := rfl
@[simp] theorem State.modDie_dies (s : State) (d : Nat) (f : Die → Die) :
    (s.modDie d f).dies = Tbl.put s.dies d (f (s.die d)) := rfl
@[simp] theorem State.modDie_cores (s : State) (d : Nat) (f : Die → Die) :
    (s.modDie d f).cores = s.cores := rfl
@[simp] theorem State.modDie_launches (s : State) (d : Nat) (f : Die → Die) :
    (s.modDie d f).launches = s.launches := rfl
@[simp] theorem State.modDie_blocks (s : State) (d : Nat) (f : Die → Die) :
    (s.modDie d f).blocks = s.blocks := rfl
@[simp] theorem State.modDie_groups (s : State) (d : Nat) (f : Die → Die) :
    (s.modDie d f).groups = s.groups := rfl
@[simp] theorem State.modDie_accesses (s : State) (d : Nat) (f : Die → Die) :
    (s.modDie d f).accesses = s.accesses := rfl
@[simp] theorem State.modDie_invals (s : State) (d : Nat) (f : Die → Die) :
    (s.modDie d f).invals = s.invals := rfl
@[simp] theorem State.modDie_results (s : State) (d : Nat) (f : Die → Die) :
    (s.modDie d f).results = s.results := rfl
@[simp] theorem State.modDie_waits (s : State) (d : Nat) (f : Die → Die) :
    (s.modDie d f).waits = s.waits := rfl
@[simp] theorem State.modDie_irqs (s : State) (d : Nat) (f : Die → Die) :
    (s.modDie d f).irqs = s.irqs := rfl
@[simp] theorem State.modDie_nextId (s : State) (d : Nat) (f : Die → Die) :
    (s.modDie d f).nextId = s.nextId := rfl

@[simp] theorem State.modVd_cycle (s : State) (v : Nat) (f : VDev → VDev) :
    (s.modVd v f).cycle = s.cycle := rfl
@[simp] theorem State.modVd_agenda (s : State) (v : Nat) (f : VDev → VDev) :
    (s.modVd v f).agenda = s.agenda := rfl
@[simp] theorem State.modVd_issuer (s : State) (v : Nat) (f : VDev → VDev) :
    (s.modVd v f).issuer = s.issuer := rfl
@[simp] theorem State.modVd_free (s : State) (v : Nat) (f : VDev → VDev) :
    (s.modVd v f).free = s.free := rfl
@[simp] theorem State.modVd_powered (s : State) (v : Nat) (f : VDev → VDev) :
    (s.modVd v f).powered = s.powered := rfl
@[simp] theorem State.modVd_mailbox (s : State) (v : Nat) (f : VDev → VDev) :
    (s.modVd v f).mailbox = s.mailbox := rfl
@[simp] theorem State.modVd_mem (s : State) (v : Nat) (f : VDev → VDev) :
    (s.modVd v f).mem = s.mem := rfl
@[simp] theorem State.modVd_lineSlot (s : State) (v : Nat) (f : VDev → VDev) :
    (s.modVd v f).lineSlot = s.lineSlot := rfl
@[simp] theorem State.modVd_poison (s : State) (v : Nat) (f : VDev → VDev) :
    (s.modVd v f).poison = s.poison := rfl
@[simp] theorem State.modVd_latent (s : State) (v : Nat) (f : VDev → VDev) :
    (s.modVd v f).latent = s.latent := rfl
@[simp] theorem State.modVd_peer (s : State) (v : Nat) (f : VDev → VDev) :
    (s.modVd v f).peer = s.peer := rfl
@[simp] theorem State.modVd_peerSlot (s : State) (v : Nat) (f : VDev → VDev) :
    (s.modVd v f).peerSlot = s.peerSlot := rfl
@[simp] theorem State.modVd_hostData (s : State) (v : Nat) (f : VDev → VDev) :
    (s.modVd v f).hostData = s.hostData := rfl
@[simp] theorem State.modVd_vds (s : State) (v : Nat) (f : VDev → VDev) :
    (s.modVd v f).vds = Tbl.put s.vds v (f (s.vd v)) := rfl
@[simp] theorem State.modVd_keys (s : State) (v : Nat) (f : VDev → VDev) :
    (s.modVd v f).keys = s.keys := rfl
@[simp] theorem State.modVd_parts (s : State) (v : Nat) (f : VDev → VDev) :
    (s.modVd v f).parts = s.parts := rfl
@[simp] theorem State.modVd_lends (s : State) (v : Nat) (f : VDev → VDev) :
    (s.modVd v f).lends = s.lends := rfl
@[simp] theorem State.modVd_lendto (s : State) (v : Nat) (f : VDev → VDev) :
    (s.modVd v f).lendto = s.lendto := rfl
@[simp] theorem State.modVd_links (s : State) (v : Nat) (f : VDev → VDev) :
    (s.modVd v f).links = s.links := rfl
@[simp] theorem State.modVd_comms (s : State) (v : Nat) (f : VDev → VDev) :
    (s.modVd v f).comms = s.comms := rfl
@[simp] theorem State.modVd_dies (s : State) (v : Nat) (f : VDev → VDev) :
    (s.modVd v f).dies = s.dies := rfl
@[simp] theorem State.modVd_cores (s : State) (v : Nat) (f : VDev → VDev) :
    (s.modVd v f).cores = s.cores := rfl
@[simp] theorem State.modVd_launches (s : State) (v : Nat) (f : VDev → VDev) :
    (s.modVd v f).launches = s.launches := rfl
@[simp] theorem State.modVd_blocks (s : State) (v : Nat) (f : VDev → VDev) :
    (s.modVd v f).blocks = s.blocks := rfl
@[simp] theorem State.modVd_groups (s : State) (v : Nat) (f : VDev → VDev) :
    (s.modVd v f).groups = s.groups := rfl
@[simp] theorem State.modVd_accesses (s : State) (v : Nat) (f : VDev → VDev) :
    (s.modVd v f).accesses = s.accesses := rfl
@[simp] theorem State.modVd_invals (s : State) (v : Nat) (f : VDev → VDev) :
    (s.modVd v f).invals = s.invals := rfl
@[simp] theorem State.modVd_results (s : State) (v : Nat) (f : VDev → VDev) :
    (s.modVd v f).results = s.results := rfl
@[simp] theorem State.modVd_waits (s : State) (v : Nat) (f : VDev → VDev) :
    (s.modVd v f).waits = s.waits := rfl
@[simp] theorem State.modVd_irqs (s : State) (v : Nat) (f : VDev → VDev) :
    (s.modVd v f).irqs = s.irqs := rfl
@[simp] theorem State.modVd_nextId (s : State) (v : Nat) (f : VDev → VDev) :
    (s.modVd v f).nextId = s.nextId := rfl

@[simp] theorem State.modPart_cycle (s : State) (p : Nat) (f : Partition → Partition) :
    (s.modPart p f).cycle = s.cycle := rfl
@[simp] theorem State.modPart_agenda (s : State) (p : Nat) (f : Partition → Partition) :
    (s.modPart p f).agenda = s.agenda := rfl
@[simp] theorem State.modPart_issuer (s : State) (p : Nat) (f : Partition → Partition) :
    (s.modPart p f).issuer = s.issuer := rfl
@[simp] theorem State.modPart_free (s : State) (p : Nat) (f : Partition → Partition) :
    (s.modPart p f).free = s.free := rfl
@[simp] theorem State.modPart_powered (s : State) (p : Nat) (f : Partition → Partition) :
    (s.modPart p f).powered = s.powered := rfl
@[simp] theorem State.modPart_mailbox (s : State) (p : Nat) (f : Partition → Partition) :
    (s.modPart p f).mailbox = s.mailbox := rfl
@[simp] theorem State.modPart_mem (s : State) (p : Nat) (f : Partition → Partition) :
    (s.modPart p f).mem = s.mem := rfl
@[simp] theorem State.modPart_lineSlot (s : State) (p : Nat) (f : Partition → Partition) :
    (s.modPart p f).lineSlot = s.lineSlot := rfl
@[simp] theorem State.modPart_poison (s : State) (p : Nat) (f : Partition → Partition) :
    (s.modPart p f).poison = s.poison := rfl
@[simp] theorem State.modPart_latent (s : State) (p : Nat) (f : Partition → Partition) :
    (s.modPart p f).latent = s.latent := rfl
@[simp] theorem State.modPart_peer (s : State) (p : Nat) (f : Partition → Partition) :
    (s.modPart p f).peer = s.peer := rfl
@[simp] theorem State.modPart_peerSlot (s : State) (p : Nat) (f : Partition → Partition) :
    (s.modPart p f).peerSlot = s.peerSlot := rfl
@[simp] theorem State.modPart_hostData (s : State) (p : Nat) (f : Partition → Partition) :
    (s.modPart p f).hostData = s.hostData := rfl
@[simp] theorem State.modPart_vds (s : State) (p : Nat) (f : Partition → Partition) :
    (s.modPart p f).vds = s.vds := rfl
@[simp] theorem State.modPart_keys (s : State) (p : Nat) (f : Partition → Partition) :
    (s.modPart p f).keys = s.keys := rfl
@[simp] theorem State.modPart_parts (s : State) (p : Nat) (f : Partition → Partition) :
    (s.modPart p f).parts = Tbl.put s.parts p (f (s.part p)) := rfl
@[simp] theorem State.modPart_lends (s : State) (p : Nat) (f : Partition → Partition) :
    (s.modPart p f).lends = s.lends := rfl
@[simp] theorem State.modPart_lendto (s : State) (p : Nat) (f : Partition → Partition) :
    (s.modPart p f).lendto = s.lendto := rfl
@[simp] theorem State.modPart_links (s : State) (p : Nat) (f : Partition → Partition) :
    (s.modPart p f).links = s.links := rfl
@[simp] theorem State.modPart_comms (s : State) (p : Nat) (f : Partition → Partition) :
    (s.modPart p f).comms = s.comms := rfl
@[simp] theorem State.modPart_dies (s : State) (p : Nat) (f : Partition → Partition) :
    (s.modPart p f).dies = s.dies := rfl
@[simp] theorem State.modPart_cores (s : State) (p : Nat) (f : Partition → Partition) :
    (s.modPart p f).cores = s.cores := rfl
@[simp] theorem State.modPart_launches (s : State) (p : Nat) (f : Partition → Partition) :
    (s.modPart p f).launches = s.launches := rfl
@[simp] theorem State.modPart_blocks (s : State) (p : Nat) (f : Partition → Partition) :
    (s.modPart p f).blocks = s.blocks := rfl
@[simp] theorem State.modPart_groups (s : State) (p : Nat) (f : Partition → Partition) :
    (s.modPart p f).groups = s.groups := rfl
@[simp] theorem State.modPart_accesses (s : State) (p : Nat) (f : Partition → Partition) :
    (s.modPart p f).accesses = s.accesses := rfl
@[simp] theorem State.modPart_invals (s : State) (p : Nat) (f : Partition → Partition) :
    (s.modPart p f).invals = s.invals := rfl
@[simp] theorem State.modPart_results (s : State) (p : Nat) (f : Partition → Partition) :
    (s.modPart p f).results = s.results := rfl
@[simp] theorem State.modPart_waits (s : State) (p : Nat) (f : Partition → Partition) :
    (s.modPart p f).waits = s.waits := rfl
@[simp] theorem State.modPart_irqs (s : State) (p : Nat) (f : Partition → Partition) :
    (s.modPart p f).irqs = s.irqs := rfl
@[simp] theorem State.modPart_nextId (s : State) (p : Nat) (f : Partition → Partition) :
    (s.modPart p f).nextId = s.nextId := rfl

@[simp] theorem State.modLink_cycle (s : State) (l : Nat) (f : Link → Link) :
    (s.modLink l f).cycle = s.cycle := rfl
@[simp] theorem State.modLink_agenda (s : State) (l : Nat) (f : Link → Link) :
    (s.modLink l f).agenda = s.agenda := rfl
@[simp] theorem State.modLink_issuer (s : State) (l : Nat) (f : Link → Link) :
    (s.modLink l f).issuer = s.issuer := rfl
@[simp] theorem State.modLink_free (s : State) (l : Nat) (f : Link → Link) :
    (s.modLink l f).free = s.free := rfl
@[simp] theorem State.modLink_powered (s : State) (l : Nat) (f : Link → Link) :
    (s.modLink l f).powered = s.powered := rfl
@[simp] theorem State.modLink_mailbox (s : State) (l : Nat) (f : Link → Link) :
    (s.modLink l f).mailbox = s.mailbox := rfl
@[simp] theorem State.modLink_mem (s : State) (l : Nat) (f : Link → Link) :
    (s.modLink l f).mem = s.mem := rfl
@[simp] theorem State.modLink_lineSlot (s : State) (l : Nat) (f : Link → Link) :
    (s.modLink l f).lineSlot = s.lineSlot := rfl
@[simp] theorem State.modLink_poison (s : State) (l : Nat) (f : Link → Link) :
    (s.modLink l f).poison = s.poison := rfl
@[simp] theorem State.modLink_latent (s : State) (l : Nat) (f : Link → Link) :
    (s.modLink l f).latent = s.latent := rfl
@[simp] theorem State.modLink_peer (s : State) (l : Nat) (f : Link → Link) :
    (s.modLink l f).peer = s.peer := rfl
@[simp] theorem State.modLink_peerSlot (s : State) (l : Nat) (f : Link → Link) :
    (s.modLink l f).peerSlot = s.peerSlot := rfl
@[simp] theorem State.modLink_hostData (s : State) (l : Nat) (f : Link → Link) :
    (s.modLink l f).hostData = s.hostData := rfl
@[simp] theorem State.modLink_vds (s : State) (l : Nat) (f : Link → Link) :
    (s.modLink l f).vds = s.vds := rfl
@[simp] theorem State.modLink_keys (s : State) (l : Nat) (f : Link → Link) :
    (s.modLink l f).keys = s.keys := rfl
@[simp] theorem State.modLink_parts (s : State) (l : Nat) (f : Link → Link) :
    (s.modLink l f).parts = s.parts := rfl
@[simp] theorem State.modLink_lends (s : State) (l : Nat) (f : Link → Link) :
    (s.modLink l f).lends = s.lends := rfl
@[simp] theorem State.modLink_lendto (s : State) (l : Nat) (f : Link → Link) :
    (s.modLink l f).lendto = s.lendto := rfl
@[simp] theorem State.modLink_links (s : State) (l : Nat) (f : Link → Link) :
    (s.modLink l f).links = Tbl.put s.links l (f (s.link l)) := rfl
@[simp] theorem State.modLink_comms (s : State) (l : Nat) (f : Link → Link) :
    (s.modLink l f).comms = s.comms := rfl
@[simp] theorem State.modLink_dies (s : State) (l : Nat) (f : Link → Link) :
    (s.modLink l f).dies = s.dies := rfl
@[simp] theorem State.modLink_cores (s : State) (l : Nat) (f : Link → Link) :
    (s.modLink l f).cores = s.cores := rfl
@[simp] theorem State.modLink_launches (s : State) (l : Nat) (f : Link → Link) :
    (s.modLink l f).launches = s.launches := rfl
@[simp] theorem State.modLink_blocks (s : State) (l : Nat) (f : Link → Link) :
    (s.modLink l f).blocks = s.blocks := rfl
@[simp] theorem State.modLink_groups (s : State) (l : Nat) (f : Link → Link) :
    (s.modLink l f).groups = s.groups := rfl
@[simp] theorem State.modLink_accesses (s : State) (l : Nat) (f : Link → Link) :
    (s.modLink l f).accesses = s.accesses := rfl
@[simp] theorem State.modLink_invals (s : State) (l : Nat) (f : Link → Link) :
    (s.modLink l f).invals = s.invals := rfl
@[simp] theorem State.modLink_results (s : State) (l : Nat) (f : Link → Link) :
    (s.modLink l f).results = s.results := rfl
@[simp] theorem State.modLink_waits (s : State) (l : Nat) (f : Link → Link) :
    (s.modLink l f).waits = s.waits := rfl
@[simp] theorem State.modLink_irqs (s : State) (l : Nat) (f : Link → Link) :
    (s.modLink l f).irqs = s.irqs := rfl
@[simp] theorem State.modLink_nextId (s : State) (l : Nat) (f : Link → Link) :
    (s.modLink l f).nextId = s.nextId := rfl

@[simp] theorem State.raise_cycle (s : State) (i : Irq) :
    (s.raise i).cycle = s.cycle := rfl
@[simp] theorem State.raise_agenda (s : State) (i : Irq) :
    (s.raise i).agenda = s.agenda := rfl
@[simp] theorem State.raise_issuer (s : State) (i : Irq) :
    (s.raise i).issuer = s.issuer := rfl
@[simp] theorem State.raise_free (s : State) (i : Irq) :
    (s.raise i).free = s.free := rfl
@[simp] theorem State.raise_powered (s : State) (i : Irq) :
    (s.raise i).powered = s.powered := rfl
@[simp] theorem State.raise_mailbox (s : State) (i : Irq) :
    (s.raise i).mailbox = s.mailbox := rfl
@[simp] theorem State.raise_mem (s : State) (i : Irq) :
    (s.raise i).mem = s.mem := rfl
@[simp] theorem State.raise_lineSlot (s : State) (i : Irq) :
    (s.raise i).lineSlot = s.lineSlot := rfl
@[simp] theorem State.raise_poison (s : State) (i : Irq) :
    (s.raise i).poison = s.poison := rfl
@[simp] theorem State.raise_latent (s : State) (i : Irq) :
    (s.raise i).latent = s.latent := rfl
@[simp] theorem State.raise_peer (s : State) (i : Irq) :
    (s.raise i).peer = s.peer := rfl
@[simp] theorem State.raise_peerSlot (s : State) (i : Irq) :
    (s.raise i).peerSlot = s.peerSlot := rfl
@[simp] theorem State.raise_hostData (s : State) (i : Irq) :
    (s.raise i).hostData = s.hostData := rfl
@[simp] theorem State.raise_vds (s : State) (i : Irq) :
    (s.raise i).vds = s.vds := rfl
@[simp] theorem State.raise_keys (s : State) (i : Irq) :
    (s.raise i).keys = s.keys := rfl
@[simp] theorem State.raise_parts (s : State) (i : Irq) :
    (s.raise i).parts = s.parts := rfl
@[simp] theorem State.raise_lends (s : State) (i : Irq) :
    (s.raise i).lends = s.lends := rfl
@[simp] theorem State.raise_lendto (s : State) (i : Irq) :
    (s.raise i).lendto = s.lendto := rfl
@[simp] theorem State.raise_links (s : State) (i : Irq) :
    (s.raise i).links = s.links := rfl
@[simp] theorem State.raise_comms (s : State) (i : Irq) :
    (s.raise i).comms = s.comms := rfl
@[simp] theorem State.raise_dies (s : State) (i : Irq) :
    (s.raise i).dies = s.dies := rfl
@[simp] theorem State.raise_cores (s : State) (i : Irq) :
    (s.raise i).cores = s.cores := rfl
@[simp] theorem State.raise_launches (s : State) (i : Irq) :
    (s.raise i).launches = s.launches := rfl
@[simp] theorem State.raise_blocks (s : State) (i : Irq) :
    (s.raise i).blocks = s.blocks := rfl
@[simp] theorem State.raise_groups (s : State) (i : Irq) :
    (s.raise i).groups = s.groups := rfl
@[simp] theorem State.raise_accesses (s : State) (i : Irq) :
    (s.raise i).accesses = s.accesses := rfl
@[simp] theorem State.raise_invals (s : State) (i : Irq) :
    (s.raise i).invals = s.invals := rfl
@[simp] theorem State.raise_results (s : State) (i : Irq) :
    (s.raise i).results = s.results := rfl
@[simp] theorem State.raise_waits (s : State) (i : Irq) :
    (s.raise i).waits = s.waits := rfl
@[simp] theorem State.raise_irqs (s : State) (i : Irq) :
    (s.raise i).irqs = s.irqs ++ [i] := rfl
@[simp] theorem State.raise_nextId (s : State) (i : Irq) :
    (s.raise i).nextId = s.nextId := rfl

/-! What a note for the log leaves (R356): every field of a group but the note itself. -/

theorem Group.note_eq (g : Group) (r : RegId) : g.note r = { g with noted := (g.note r).noted } := by
  cases r <;> simp only [Group.note] <;> split <;> rfl

@[simp] theorem Group.note_blk (g : Group) (r : RegId) : (g.note r).blk = g.blk := by
  rw [Group.note_eq]
@[simp] theorem Group.note_core (g : Group) (r : RegId) : (g.note r).core = g.core := by
  rw [Group.note_eq]
@[simp] theorem Group.note_sched (g : Group) (r : RegId) : (g.note r).sched = g.sched := by
  rw [Group.note_eq]
@[simp] theorem Group.note_slot (g : Group) (r : RegId) : (g.note r).slot = g.slot := by
  rw [Group.note_eq]
@[simp] theorem Group.note_narrow (g : Group) (r : RegId) : (g.note r).narrow = g.narrow := by
  rw [Group.note_eq]
@[simp] theorem Group.note_regrouped (g : Group) (r : RegId) : (g.note r).regrouped = g.regrouped := by
  rw [Group.note_eq]
@[simp] theorem Group.note_ltid (g : Group) (r : RegId) : (g.note r).ltid = g.ltid := by
  rw [Group.note_eq]
@[simp] theorem Group.note_drawn (g : Group) (r : RegId) : (g.note r).drawn = g.drawn := by
  rw [Group.note_eq]
@[simp] theorem Group.note_occ (g : Group) (r : RegId) : (g.note r).occ = g.occ := by
  rw [Group.note_eq]
@[simp] theorem Group.note_alive (g : Group) (r : RegId) : (g.note r).alive = g.alive := by
  rw [Group.note_eq]
@[simp] theorem Group.note_v (g : Group) (r : RegId) : (g.note r).v = g.v := by
  rw [Group.note_eq]
@[simp] theorem Group.note_s (g : Group) (r : RegId) : (g.note r).s = g.s := by
  rw [Group.note_eq]
@[simp] theorem Group.note_p (g : Group) (r : RegId) : (g.note r).p = g.p := by
  rw [Group.note_eq]
@[simp] theorem Group.note_b (g : Group) (r : RegId) : (g.note r).b = g.b := by
  rw [Group.note_eq]
@[simp] theorem Group.note_j (g : Group) (r : RegId) : (g.note r).j = g.j := by
  rw [Group.note_eq]
@[simp] theorem Group.note_flags (g : Group) (r : RegId) : (g.note r).flags = g.flags := by
  rw [Group.note_eq]
@[simp] theorem Group.note_flagDue (g : Group) (r : RegId) : (g.note r).flagDue = g.flagDue := by
  rw [Group.note_eq]
@[simp] theorem Group.note_due (g : Group) (r : RegId) : (g.note r).due = g.due := by
  rw [Group.note_eq]
@[simp] theorem Group.note_vpend (g : Group) (r : RegId) : (g.note r).vpend = g.vpend := by
  rw [Group.note_eq]
@[simp] theorem Group.note_clobber (g : Group) (r : RegId) : (g.note r).clobber = g.clobber := by
  rw [Group.note_eq]
@[simp] theorem Group.note_grow (g : Group) (r : RegId) : (g.note r).grow = g.grow := by
  rw [Group.note_eq]
@[simp] theorem Group.note_paths (g : Group) (r : RegId) : (g.note r).paths = g.paths := by
  rw [Group.note_eq]
@[simp] theorem Group.note_cur (g : Group) (r : RegId) : (g.note r).cur = g.cur := by
  rw [Group.note_eq]
@[simp] theorem Group.note_since (g : Group) (r : RegId) : (g.note r).since = g.since := by
  rw [Group.note_eq]
@[simp] theorem Group.note_rotate (g : Group) (r : RegId) : (g.note r).rotate = g.rotate := by
  rw [Group.note_eq]
@[simp] theorem Group.note_lastIssue (g : Group) (r : RegId) : (g.note r).lastIssue = g.lastIssue := by
  rw [Group.note_eq]
@[simp] theorem Group.note_yielded (g : Group) (r : RegId) : (g.note r).yielded = g.yielded := by
  rw [Group.note_eq]
@[simp] theorem Group.note_readySince (g : Group) (r : RegId) : (g.note r).readySince = g.readySince := by
  rw [Group.note_eq]
@[simp] theorem Group.note_stall (g : Group) (r : RegId) : (g.note r).stall = g.stall := by
  rw [Group.note_eq]
@[simp] theorem Group.note_faults (g : Group) (r : RegId) : (g.note r).faults = g.faults := by
  rw [Group.note_eq]
@[simp] theorem Group.note_entries (g : Group) (r : RegId) : (g.note r).entries = g.entries := by
  rw [Group.note_eq]
@[simp] theorem Group.note_older (g : Group) (r : RegId) : (g.note r).older = g.older := by
  rw [Group.note_eq]
@[simp] theorem Group.note_handler (g : Group) (r : RegId) : (g.note r).handler = g.handler := by
  rw [Group.note_eq]
@[simp] theorem Group.note_errs (g : Group) (r : RegId) : (g.note r).errs = g.errs := by
  rw [Group.note_eq]
@[simp] theorem Group.note_halt (g : Group) (r : RegId) : (g.note r).halt = g.halt := by
  rw [Group.note_eq]
@[simp] theorem Group.note_hscr (g : Group) (r : RegId) : (g.note r).hscr = g.hscr := by
  rw [Group.note_eq]
@[simp] theorem Group.note_resv (g : Group) (r : RegId) : (g.note r).resv = g.resv := by
  rw [Group.note_eq]
@[simp] theorem Group.note_track (g : Group) (r : RegId) : (g.note r).track = g.track := by
  rw [Group.note_eq]
@[simp] theorem Group.note_engOut (g : Group) (r : RegId) : (g.note r).engOut = g.engOut := by
  rw [Group.note_eq]
@[simp] theorem Group.note_held (g : Group) (r : RegId) : (g.note r).held = g.held := by
  rw [Group.note_eq]
@[simp] theorem Group.note_why (g : Group) (r : RegId) : (g.note r).why = g.why := by
  rw [Group.note_eq]

end Sys2Proof.Machine
end

