-- ==== Sys2Proof/Laws/Paths.lean ====
section
/-! SUPPORT. The laws of masks and of a group's paths. -/

namespace Sys2Proof.Machine

theorem has_of_pathAt {ps : List Path} {l : Nat} {p : Path} (h : pathAt ps l = some p) : has p.mask l = true := by
  simpa [pathAt] using List.find?_some h

theorem pathAt_replace {ps : List Path} {l : Nat} {p q : Path} (h : pathAt ps l = some p) (hq : has q.mask l = true) :
    pathAt (replacePath ps l [q]) l = some q := by
  induction ps with
  | nil => simp [pathAt] at h
  | cons x xs ih =>
    by_cases hx : has x.mask l = true
    · simp [pathAt, replacePath, hx, hq]
    · have h' : pathAt xs l = some p := by simpa [pathAt, hx] using h
      simpa [pathAt, replacePath, hx] using ih h'

@[simp] theorem replacePath_replacePath (ps : List Path) (l : Nat) (q r : Path) (hq : has q.mask l = true) :
    replacePath (replacePath ps l [q]) l [r] = replacePath ps l [r] := by
  induction ps with
  | nil => rfl
  | cons x xs ih =>
    have ih' : List.flatMap (fun p => if has p.mask l = true then [r] else [p])
        (List.flatMap (fun p => if has p.mask l = true then [q] else [p]) xs) =
        List.flatMap (fun p => if has p.mask l = true then [r] else [p]) xs := ih
    by_cases hx : has x.mask l = true <;> simp [replacePath, hx, hq, ih']

theorem lt_of_has {m : LaneMask} {l : Nat} (h : has m l = true) : l < 32 := by
  by_contra hl
  simp [has, BitVec.getLsbD_of_ge m l (by omega)] at h

theorem mem_lanesOf {m : LaneMask} {l : Nat} : l ∈ lanesOf m ↔ has m l = true := by
  simp only [lanesOf, List.mem_filter, List.mem_range]
  exact ⟨fun h => h.2, fun h => ⟨lt_of_has h, h⟩⟩

/-- The lowest lane of a mask that is not empty is one of its lanes. -/
theorem has_lowLane {m : LaneMask} (h : m ≠ 0) : has m (lowLane m) = true := by
  have : lanesOf m ≠ [] := by
    intro he
    apply h
    apply BitVec.eq_of_getLsbD_eq
    intro i hi
    have : ¬ has m i = true := fun hm => by simpa [he] using mem_lanesOf.2 hm
    simpa [has] using this
  obtain ⟨a, as, ha⟩ := List.exists_cons_of_ne_nil this
  have : a ∈ lanesOf m := by simp [ha]
  simpa [lowLane, ha] using mem_lanesOf.1 this

theorem lowLane_lt {m : LaneMask} (h : m ≠ 0) : lowLane m < 32 := lt_of_has (has_lowLane h)

theorem bitsBelow_lt (f : Nat → Bool) (n : Nat) : bitsBelow f n < 2 ^ n := by
  induction n with
  | zero => simp [bitsBelow]
  | succ n ih => simp only [bitsBelow]; split <;> omega

theorem testBit_bitsBelow (f : Nat → Bool) (n i : Nat) : (bitsBelow f n).testBit i = (decide (i < n) && f i) := by
  induction n with
  | zero => simp [bitsBelow]
  | succ n ih =>
    have hlt := bitsBelow_lt f n
    simp only [bitsBelow]
    split
    · rename_i hf
      rcases Nat.lt_trichotomy i n with h | h | h
      · rw [Nat.add_comm, Nat.testBit_two_pow_add_gt h, ih]; simp [h, Nat.lt_succ_of_lt h]
      · subst h; rw [Nat.add_comm, Nat.testBit_two_pow_add_eq, ih]; simp [hf]
      · have : bitsBelow f n + 2 ^ n < 2 ^ i := lt_of_lt_of_le (by rw [Nat.pow_succ] at *; omega)
          (Nat.pow_le_pow_right (by omega) (show n + 1 ≤ i by omega))
        rw [Nat.testBit_lt_two_pow this]; simp; omega
    · rename_i hf
      rw [Nat.add_zero, ih]
      rcases Nat.lt_trichotomy i n with h | h | h
      · simp [h, Nat.lt_succ_of_lt h]
      · subst h; simp [hf]
      · simp [show ¬ i < n by omega, show ¬ i < n + 1 by omega]

@[simp] theorem has_maskOf (f : Nat → Bool) (l : Nat) : has (maskOf f) l = (decide (l < 32) && f l) := by
  simp only [has, maskOf, BitVec.getLsbD_ofNat, testBit_bitsBelow]
  by_cases h : l < 32 <;> simp [h]

theorem has_full (g : Group) (l : Nat) : has g.full l = decide (l < g.width) := by
  by_cases hn : g.narrow <;> simp only [Group.full, Group.width, hn, if_true, has, Bool.false_eq_true, if_false]
  · rcases Nat.lt_or_ge l 32 with h | h
    · revert l; decide
    · simp [BitVec.getLsbD_of_ge _ l h]; omega
  · rcases Nat.lt_or_ge l 32 with h | h
    · revert l; decide
    · simp [BitVec.getLsbD_of_ge _ l h]; omega

end Sys2Proof.Machine
end

