-- ==== Sys2Proof/Laws/Tables.lean ====
section
/-! SUPPORT. The laws of the sparse tables: a read after a write, and what a write leaves alone. -/

namespace Sys2Proof

@[simp] theorem Tbl.find_put_self {α : Type} (t : Tbl α) (k : Nat) (a : α) : Tbl.find (Tbl.put t k a) k = some a := by
  induction t with
  | nil => simp [Tbl.put, Tbl.find]
  | cons e t ih =>
    obtain ⟨i, b⟩ := e
    by_cases hi : i = k
    · simp [Tbl.put, Tbl.find, hi]
    · simpa [Tbl.put, Tbl.find, hi] using ih

theorem Tbl.find_put_ne {α : Type} (t : Tbl α) {k n : Nat} (a : α) (h : n ≠ k) :
    Tbl.find (Tbl.put t k a) n = Tbl.find t n := by
  induction t with
  | nil => simp [Tbl.put, Tbl.find, Ne.symm h]
  | cons e t ih =>
    obtain ⟨i, b⟩ := e
    by_cases hi : i = k
    · subst hi; simp [Tbl.put, Tbl.find, Ne.symm h]
    · by_cases hn : i = n
      · subst hn; simp [Tbl.put, Tbl.find, hi]
      · simpa [Tbl.put, Tbl.find, hi, hn] using ih

theorem Tbl.find_put {α : Type} (t : Tbl α) (k n : Nat) (a : α) :
    Tbl.find (Tbl.put t k a) n = if n = k then some a else Tbl.find t n := by
  by_cases h : n = k
  · subst h; simp
  · simp [h, Tbl.find_put_ne t a h]

/-- Writing what a key holds already changes nothing. -/
theorem Tbl.put_of_find {α : Type} (t : Tbl α) {k : Nat} {a : α} (h : Tbl.find t k = some a) : Tbl.put t k a = t := by
  induction t with
  | nil => simp [Tbl.find] at h
  | cons e t ih =>
    obtain ⟨i, b⟩ := e
    by_cases hi : i = k
    · simp [Tbl.find, hi] at h; simp [Tbl.put, hi, h]
    · simp only [Tbl.find, hi, if_false] at h; simp [Tbl.put, hi, ih h]

@[simp] theorem Tbl.put_put {α : Type} (t : Tbl α) (k : Nat) (a b : α) :
    Tbl.put (Tbl.put t k a) k b = Tbl.put t k b := by
  induction t with
  | nil => simp [Tbl.put]
  | cons e t ih =>
    obtain ⟨i, c⟩ := e
    by_cases hi : i = k <;> simp [Tbl.put, hi, ih]

@[simp] theorem Tbl.find_drop_self {α : Type} (t : Tbl α) (k : Nat) : Tbl.find (Tbl.drop t k) k = none := by
  induction t with
  | nil => rfl
  | cons e t ih =>
    obtain ⟨i, b⟩ := e
    by_cases hi : i = k <;> simp [Tbl.drop, Tbl.find, hi, ih]

theorem Tbl.find_drop_ne {α : Type} (t : Tbl α) {k n : Nat} (h : n ≠ k) : Tbl.find (Tbl.drop t k) n = Tbl.find t n := by
  induction t with
  | nil => rfl
  | cons e t ih =>
    obtain ⟨i, b⟩ := e
    by_cases hi : i = k
    · subst hi; simp [Tbl.drop, Tbl.find, Ne.symm h, ih]
    · by_cases hn : i = n
      · subst hn; simp [Tbl.drop, Tbl.find, hi]
      · simp [Tbl.drop, Tbl.find, hi, hn, ih]

namespace Machine

/-- A change of a listed entry. -/
theorem Tbl.upd_of_find {α : Type} (t : Tbl α) {k : Nat} {a : α} (f : α → α) (h : Tbl.find t k = some a) :
    Tbl.upd t k f = Sys2Proof.Tbl.put t k (f a) := by
  simp [Tbl.upd, h]

/-- A change of an entry that is not listed. -/
theorem Tbl.upd_of_none {α : Type} (t : Tbl α) {k : Nat} (f : α → α) (h : Tbl.find t k = none) : Tbl.upd t k f = t := by
  simp [Tbl.upd, h]

theorem Tbl.find_upd_ne {α : Type} (t : Tbl α) {k n : Nat} (f : α → α) (h : n ≠ k) :
    Tbl.find (Tbl.upd t k f) n = Tbl.find t n := by
  cases hf : Tbl.find t k with
  | none => simp [Tbl.upd, hf]
  | some a => simp [Tbl.upd, hf, Tbl.find_put_ne t (f a) h]

theorem Tbl.find_upd_self {α : Type} (t : Tbl α) (k : Nat) (f : α → α) :
    Tbl.find (Tbl.upd t k f) k = (Tbl.find t k).map f := by
  cases hf : Tbl.find t k with
  | none => simp [Tbl.upd, hf]
  | some a => simp [Tbl.upd, hf]

end Machine
end Sys2Proof
end

