-- ==== Sys2Proof/Laws/Values.lean ====
section
/-! SUPPORT. What vector values hold lane by lane, whatever their shape (R119 to R121). -/

namespace Sys2Proof.Machine

@[simp] theorem lane_u (x : W32) (l : Nat) : (VReg.u x).lane l = x := rfl

@[simp] theorem lane_a (x y : W32) (l : Nat) : (VReg.a x y).lane l = x + y * BitVec.ofNat 32 l := rfl

theorem lane_g (f : Nat → W32) {l : Nat} (h : l < 32) : (VReg.g (lanes f)).lane l = f l := by
  simp [VReg.lane, lanes, h]

@[simp] theorem lane_affine (x y : W32) (l : Nat) : (VReg.affine x y).lane l = x + y * BitVec.ofNat 32 l := by
  unfold VReg.affine; split <;> simp [*]

/-- A recomputed register holds in each lane of the group what it was computed from. -/
theorem lane_recompute {w : Nat} (hw : w ≤ 32) (f : Nat → W32) {l : Nat} (h : l < w) : (recompute w f).lane l = f l := by
  unfold recompute
  split
  · rename_i hu
    simp only [List.all_eq_true, List.mem_range, decide_eq_true_eq] at hu
    simp [hu l h]
  · split
    · rename_i _ ha
      simp only [List.all_eq_true, List.mem_range, decide_eq_true_eq] at ha
      simp [VReg.lane, ← ha l h]
    · rw [lane_g _ (by omega)]; simp [h]

theorem width_le (g : Group) : g.width ≤ 32 := by unfold Group.width; split <;> omega

theorem lane_trim (g : Group) (r : VReg) {l : Nat} (h : l < g.width) : (r.trim g.narrow).lane l = r.lane l := by
  cases r with
  | u x => rfl
  | a x y => rfl
  | g w =>
    by_cases hn : g.narrow = true
    · have h16 : l < 16 := by simpa [Group.width, hn] using h
      simp only [VReg.trim, hn, if_true]
      rw [lane_g _ (by omega)]; simp [h16]
    · simp [VReg.trim, hn]

/-- A write to a vector register (R120, R121): the live lanes of the group hold the result, the others what they held. -/
theorem lane_writeV (g : Group) (gid n : Nat) (live : LaneMask) (val : VReg) (full : Bool)
    (hf : full = true → live = g.full) {l : Nat} (h : l < g.width) :
    ((g.writeV gid n live val full).vreg gid n).lane l = if has live l then val.lane l else (g.vreg gid n).lane l := by
  simp only [Group.writeV, Group.vreg, Tbl.getD, Group.note_v, Sys2Proof.Tbl.find_put_self, Option.getD_some]
  by_cases hb : full = true
  · simp only [hb, if_true, lane_trim g val h]
    rw [hf hb, has_full]; simp [h]
  · simp only [hb]
    rw [if_neg (by simp), VReg.merge, lane_recompute (width_le g) _ h]

theorem lane_map1 (f : W32 → W32) (a : VReg) {l : Nat} (h : l < 32) : (map1 f a).lane l = f (a.lane l) := by
  cases a <;> simp only [map1, lane_u] <;> rw [lane_g _ h]

theorem lane_map2 (f : W32 → W32 → W32) (a b : VReg) {l : Nat} (h : l < 32) :
    (map2 f a b).lane l = f (a.lane l) (b.lane l) := by
  cases a <;> cases b <;> simp only [map2, lane_u] <;> rw [lane_g _ h]

theorem lane_map3 (f : W32 → W32 → W32 → W32) (a b c : VReg) {l : Nat} (h : l < 32) :
    (map3 f a b c).lane l = f (a.lane l) (b.lane l) (c.lane l) := by
  cases a <;> cases b <;> cases c <;> simp only [map3, lane_u] <;> rw [lane_g _ h]

theorem lane_addImm (b : VReg) (k : W32) {l : Nat} (h : l < 32) : (addImm b k).lane l = b.lane l + k := by
  cases b with
  | u x => rfl
  | a x y => simp only [addImm, VReg.lane]; ring
  | g w => simp only [addImm]; rw [lane_g _ h]

theorem lane_shAdd (a b : VReg) {l : Nat} (h : l < 32) : (shAdd a b).lane l = a.lane l + b.lane l := by
  cases a <;> cases b <;> simp only [shAdd, lane_affine, lane_map2 _ _ _ h, lane_u, lane_a] <;> ring

theorem lane_shSub (a b : VReg) {l : Nat} (h : l < 32) : (shSub a b).lane l = a.lane l - b.lane l := by
  cases a <;> cases b <;> simp only [shSub, lane_affine, lane_map2 _ _ _ h, lane_u, lane_a] <;> ring

theorem lane_shMul (a b : VReg) {l : Nat} (h : l < 32) : (shMul a b).lane l = a.lane l * b.lane l := by
  cases a <;> cases b <;> simp only [shMul, lane_affine, lane_map2 _ _ _ h, lane_u, lane_a] <;> ring

theorem lane_shNeg (a : VReg) {l : Nat} (h : l < 32) : (shNeg a).lane l = - a.lane l := by
  cases a <;> simp only [shNeg, lane_affine, lane_map1 _ _ h, lane_a]
  ring

theorem opShl_mul (x y : W32) (n k : Nat) : opShl (x + y * BitVec.ofNat 32 k) n = opShl x n + opShl y n * BitVec.ofNat 32 k := by
  unfold opShl
  split
  · simp
  · simp only [BitVec.shiftLeft_eq_mul_twoPow]; ring

theorem lane_shShl (a b : VReg) {l : Nat} (h : l < 32) : (shShl a b).lane l = opShl (a.lane l) (b.lane l).toNat := by
  cases a <;> cases b <;> simp only [shShl, lane_affine, lane_map2 _ _ _ h, lane_u, lane_a, opShl_mul]

theorem lane_select (full p : LaneMask) (a b : VReg) {l : Nat} (h : l < 32) (hl : has full l = true) :
    (select full p a b).lane l = if has p l then a.lane l else b.lane l := by
  have hand : has (p &&& full) l = (has p l && has full l) := by simp [has]
  unfold select
  split
  · rename_i he; rw [he, hl] at hand; simp at hand; simp [hand]
  · split
    · rename_i he; rw [he, hl] at hand; simp [has] at hand; simp [has, hand]
    · rw [lane_g _ h]

theorem pairOf_lo (u : Bool) (f : Nat → W64) {l : Nat} (h : l < 32) (hu : u = true → f l = f 0) :
    (pairOf u f).1.lane l = (f l).extractLsb' 0 32 := by
  cases u with
  | true => simp [pairOf, hu rfl]
  | false => simp only [pairOf, Bool.false_eq_true, if_false]; rw [lane_g _ h]

theorem pairOf_hi (u : Bool) (f : Nat → W64) {l : Nat} (h : l < 32) (hu : u = true → f l = f 0) :
    (pairOf u f).2.lane l = (f l).extractLsb' 32 32 := by
  cases u with
  | true => simp [pairOf, hu rfl]
  | false => simp only [pairOf, Bool.false_eq_true, if_false]; rw [lane_g _ h]

/-- A UNIFORM register holds one value. -/
theorem lane_isU {r : VReg} (h : r.isU = true) (l : Nat) : r.lane l = r.lane 0 := by
  cases r <;> simp [VReg.isU] at h ⊢

theorem lane64_isU {r : VPair} (h : VPair.isU r = true) (l : Nat) : lane64 r l = lane64 r 0 := by
  simp only [VPair.isU, Bool.and_eq_true] at h
  simp only [lane64, lane_isU h.1 l, lane_isU h.2 l]

theorem getLsbD_lane64 (r : VPair) (l i : Nat) :
    (lane64 r l).getLsbD i = if i < 32 then (r.1.lane l).getLsbD i else (r.2.lane l).getLsbD (i - 32) :=
  BitVec.getLsbD_append (x := r.2.lane l) (y := r.1.lane l)

theorem lo_lane64 (r : VPair) (l : Nat) : (lane64 r l).extractLsb' 0 32 = r.1.lane l := by
  apply BitVec.eq_of_getLsbD_eq
  intro i hi
  simp [getLsbD_lane64, hi]

theorem hi_lane64 (r : VPair) (l : Nat) : (lane64 r l).extractLsb' 32 32 = r.2.lane l := by
  apply BitVec.eq_of_getLsbD_eq
  intro i hi
  simp [getLsbD_lane64, hi]

/-- A pair made from a function of the lanes holds it, if it is one value where it is stored as UNIFORM. -/
theorem lane64_pairOf (u : Bool) (f : Nat → W64) {l : Nat} (h : l < 32) (hu : u = true → f l = f 0) :
    lane64 (pairOf u f) l = f l := by
  apply BitVec.eq_of_getLsbD_eq
  intro i hi
  rw [getLsbD_lane64, pairOf_lo u f h hu, pairOf_hi u f h hu]
  split
  · rename_i h'; simp [h']
  · rename_i h'
    rw [BitVec.getLsbD_extractLsb']
    have : i - 32 < 32 := by omega
    simp [this, show 32 + (i - 32) = i by omega]

end Sys2Proof.Machine
end

