-- ==== Sys2Proof/Laws/Issue.lean ====
section
/-! SUPPORT. What an issue does, said once: its bookkeeping, the checks before its effect, and how a result of fixed latency is
finished. -/

namespace Sys2Proof.Machine

variable {s : State} {who : Issuer} {g : Group} {p : Path} {b : Block} {h : Hints} {ops : List (Nat × Opnd × Nat)}

theorem begin_of_issuing (hi : Issuing s who g p b) (h : Hints) (pt : ErrPoint) :
    s.begin h pt = some (some (s.issueCtx who g p b h), s.issued who g p h) := by
  simp [State.begin, hi.issuer, hi.group, hi.path, hi.block, hi.clean]

theorem queued_of_issuing (hi : Issuing s who g p b) : s.queued who.gid = g.entries.length := by
  simp [State.queued, hi.group]

@[simp] theorem issueCtx_gid : (s.issueCtx who g p b h).gid = who.gid := rfl
@[simp] theorem issueCtx_lane : (s.issueCtx who g p b h).lane = who.lane := rfl
@[simp] theorem issueCtx_g : (s.issueCtx who g p b h).g = g.issued who.lane p h s.cycle := rfl
@[simp] theorem issueCtx_p : (s.issueCtx who g p b h).p = p.issued g h s.cycle := rfl
@[simp] theorem issueCtx_b : (s.issueCtx who g p b h).b = b := rfl
@[simp] theorem issueCtx_now : (s.issueCtx who g p b h).now = s.cycle := rfl
@[simp] theorem issueCtx_seed : (s.issueCtx who g p b h).seed = s.free := rfl

/-- What one issue answers when it has live lanes and its registers lie within the demands: what its effect answers. -/
theorem issueAt_of_runs (hr : Runs s who g p b h ops) (pt : ErrPoint) (k : Ctx → State → Except Stall State) :
    issueAt pt h s ops k =
      match k (s.issueCtx who g p b h) (s.issued who g p h) with
      | .ok u => .next (u.joinEntries who.gid g.entries.length)
      | .error why => .next (s.stalled who.gid why) := by
  unfold issueAt
  rw [begin_of_issuing hr.toIssuing]
  simp only [issueCtx_b, issueCtx_gid, if_neg hr.live, hr.demands, queued_of_issuing hr.toIssuing]

/-- An issue without a live lane: R41. -/
theorem issueAt_idle (hi : Issuing s who g p b) (hl : (s.issueCtx who g p b h).live = 0) (pt : ErrPoint)
    (k : Ctx → State → Except Stall State) :
    issueAt pt h s ops k = .next ((s.issued who g p h).idle (s.issueCtx who g p b h) h) := by
  unfold issueAt
  rw [begin_of_issuing hi]
  simp only [if_pos hl]

/-- An issue that names a register beyond the demands: R117. -/
theorem issueAt_demand (hi : Issuing s who g p b) (hl : (s.issueCtx who g p b h).live ≠ 0) {pos : Nat}
    (hd : demandFail b ops = some pos) (pt : ErrPoint) (k : Ctx → State → Except Stall State) :
    issueAt pt h s ops k = .next (((s.issued who g p h).faultLive (s.issueCtx who g p b h)
      (BitVec.ofNat 9 (0x024 + pos)) (pos + 1) 0 0 0).joinEntries who.gid g.entries.length) := by
  unfold issueAt
  rw [begin_of_issuing hi]
  simp only [issueCtx_b, issueCtx_gid, if_neg hl, hd, queued_of_issuing hi]

/-- An issue that adds no entry set has none to join. -/
theorem joinEntries_of_same {u : State} {gid n : Nat} {g' : Group} (hg : Tbl.find u.groups gid = some g')
    (hn : g'.entries.length ≤ n) : u.joinEntries gid n = u := by
  have : g'.entries.drop n = [] := List.drop_eq_nil_of_le hn
  simp [State.joinEntries, State.modGroup, Tbl.upd_of_find _ _ hg, this, Sys2Proof.Tbl.put_of_find _ hg]

theorem issued_groups : (s.issued who g p h).groups = Tbl.put s.groups who.gid (g.issued who.lane p h s.cycle) := rfl

@[simp] theorem find_issued : Tbl.find (s.issued who g p h).groups who.gid = some (g.issued who.lane p h s.cycle) := by
  simp [issued_groups]

/-! ## Results under way -/

/-- A write that names a vector, a uniform or a predicate register. -/
def RegWrite.plain : RegWrite → Prop
  | .v .. => True
  | .s .. => True
  | .p .. => True
  | _ => False

/-- The writes of an issue that have yet to land (R44, R150). -/
def late (ws : List RegWrite) : List RegWrite := ws.filter fun w => !w.atIssue

/-- Results of fixed latency of an issue on their way. -/
def Ctx.underWay (c : Ctx) (lat : Nat) (ws : List RegWrite) : List Due :=
  ws.map fun w => { at' := c.now + lat, who := c.p.mask, seed := c.seed, grow := w.grows c.g c.gid, write := w }

/-- The results of fixed latency that an issue sets under way where no V result waits for their registers. -/
def Ctx.dues (c : Ctx) (lat : Nat) (ws : List RegWrite) : List Due := c.underWay lat (late ws)

/-- The uniform registers behind the writes of an issue (R150). -/
def early (t : Tbl W32) (ws : List RegWrite) : Tbl W32 :=
  ws.foldl (fun t w => match w with
    | .s n x => Tbl.put t n x
    | _ => t) t

/-- The registers that the writes of an issue note for the log (R356). -/
def earlyNotes (ns : List RegId) (ws : List RegWrite) : List RegId :=
  ws.foldl (fun ns w => match w with
    | .s n _ => if ns.contains (.s n) then ns else ns ++ [.s n]
    | _ => ns) ns

theorem writeEarly_eq (gid seed : Nat) (ws : List RegWrite) (g : Group) (hq : Quiet g (ws.map (·.reg))) :
    g.writeEarly gid seed ws = { g with s := early g.s ws, noted := earlyNotes g.noted ws } := by
  unfold Group.writeEarly
  induction ws generalizing g with
  | nil => rfl
  | cons w ws ih =>
    cases w with
    | s n x =>
      have hr : g.vfor (.s n) = [] := hq _ (by simp [RegWrite.reg])
      have hw : g.writeNow gid seed (.s n x) = { g with
          s := Tbl.put g.s n x, noted := if g.noted.contains (.s n) then g.noted else g.noted ++ [.s n] } := by
        simp only [Group.writeNow, RegWrite.reg, hr, Group.write, List.isEmpty_nil, if_true, Group.note]
        split <;> rfl
      have hq' : Quiet { g with
          s := Tbl.put g.s n x, noted := if g.noted.contains (.s n) then g.noted else g.noted ++ [.s n] } (ws.map (·.reg)) := fun r hr => hq r (List.mem_cons_of_mem _ hr)
      rw [List.filter_cons_of_pos (by simp [RegWrite.atIssue]), List.foldl_cons, hw]
      exact ih _ hq'
    | _ =>
      rw [List.filter_cons_of_neg (by simp [RegWrite.atIssue])]
      exact ih g fun r hr => hq r (List.mem_cons_of_mem _ hr)

theorem find_early {n : Nat} (ws : List RegWrite) (t : Tbl W32) (hn : .s n ∉ ws.map (·.reg)) :
    Tbl.find (early t ws) n = Tbl.find t n := by
  induction ws generalizing t with
  | nil => rfl
  | cons w ws ih =>
    have hn' : .s n ∉ ws.map (·.reg) := fun h => hn (List.mem_cons_of_mem _ h)
    cases w with
    | s k x =>
      have hk : n ≠ k := fun h => hn (by simp [h, RegWrite.reg])
      exact (ih _ hn').trans (Sys2Proof.Tbl.find_put_ne _ _ hk)
    | _ => exact ih _ hn'

theorem enqueue_eq (c : Ctx) (lat : Nat) (ws : List RegWrite) (g : Group) (hq : Quiet g (ws.map (·.reg))) :
    g.enqueue c lat ws =
      { g with s := early g.s ws, noted := earlyNotes g.noted ws, due := g.due ++ c.dues lat ws } := by
  have hv : ∀ w ∈ late ws, g.vfor w.reg = [] := fun w hw => hq _ (List.mem_map_of_mem (List.mem_of_mem_filter hw))
  have h1 : ((late ws).flatMap fun w => g.vfor w.reg) = [] := by
    simp only [List.flatMap_eq_nil_iff]; exact hv
  have h2 : ((late ws).map fun w : RegWrite => ({ at' := c.now + lat, who := c.p.mask, seed := c.seed, grow := w.grows c.g c.gid
                                                  write := if (g.vfor w.reg).isEmpty then w else w.undef c.seed 40 } : Due)) =
      c.dues lat ws := by
    apply List.map_congr_left
    intro w hw
    simp [hv w hw]
  unfold late at h1 h2
  simp only [Group.enqueue, h1, h2, Group.spoil, List.filter_nil, List.append_nil]
  exact writeEarly_eq _ _ _ _ hq

/-- Results that share no lane with a write leave it as it is. -/
theorem shared_none (ds : List Due) (w : RegWrite) (h : ∀ d ∈ ds, d.write.clash w = false) :
    ds.foldl (fun m e => m ||| e.write.shared w) (0 : LaneMask) = 0 := by
  induction ds with
  | nil => rfl
  | cons d ds ih =>
    have hd : d.write.shared w = 0 := by simpa [RegWrite.clash] using h d List.mem_cons_self
    simp only [List.foldl_cons, hd]
    exact ih fun e he => h e (List.mem_cons_of_mem _ he)

/-- Results that no two of an issue bring to one lane are written one after the other. -/
theorem landAll_underWay (c : Ctx) (lat gid : Nat) (ws : List RegWrite) (hw : ∀ w ∈ ws, w.plain) (done : List Due) (g : Group)
    (hq : Quiet g (ws.map (·.reg))) (hd : ∀ d ∈ done, ∀ w ∈ ws, d.write.clash w = false)
    (hp : ws.Pairwise fun w x => w.clash x = false) :
    Group.landAll gid done (c.underWay lat ws) g = ws.foldl (fun g w => g.write gid w) g := by
  induction ws generalizing done g with
  | nil => rfl
  | cons w ws ih =>
    have hr : g.vfor w.reg = [] := hq _ (by simp)
    have hone : g.landOne gid done
        { at' := c.now + lat, who := c.p.mask, seed := c.seed, grow := w.grows c.g c.gid, write := w } = g.write gid w := by
      have hb := shared_none ((done.filter fun e => e.at' = c.now + lat)) w fun e he =>
        hd e (List.mem_of_mem_filter he) w List.mem_cons_self
      simp only [Group.landOne, hb, Group.writeNow, hr, List.isEmpty_nil, if_true]
    have hv : ∀ r, (g.write gid w).vfor r = g.vfor r := by
      have := hw w List.mem_cons_self
      intro r
      cases w <;> first | exact absurd this id | simp [Group.write, Group.vfor, Group.writeV]
    simp only [Ctx.underWay, List.map_cons, Group.landAll, List.foldl_cons, hone]
    apply ih (fun x hx => hw x (List.mem_cons_of_mem _ hx))
    · intro r hr'
      rw [hv]
      exact hq r (by simp only [List.map_cons, List.mem_cons]; exact Or.inr hr')
    · intro d hd' x hx
      rcases List.mem_cons.mp hd' with rfl | h'
      · exact (List.pairwise_cons.mp hp).1 x hx
      · exact hd d h' x (List.mem_cons_of_mem _ hx)
    · exact (List.pairwise_cons.mp hp).2

/-- The group behind an issue of fixed latency: the uniform registers written, the other results under way, not to be read yet, the flag pending, the path going on. -/
def Group.settledBy (g : Group) (c : Ctx) (h : Hints) (lat : Nat) (ws : List RegWrite) : Group :=
  let g1 := { g with s := early g.s ws, noted := earlyNotes g.noted ws, due := g.due ++ c.dues lat ws }
  let regs := ws.map (·.reg)
  let g2 := { g1 with
    paths := replacePath g1.paths c.lane [{ c.p with hazards := hazardsOf h lat regs ++ c.p.hazards, pc := nextPc c.p.pc }]
    cur := c.lane }
  g2.flagFor (setFlag h) (c.now + lat)

theorem flagFor_same (g : Group) (f : Option Nat) (n : Nat) :
    g.flagFor f n = { g with flags := (g.flagFor f n).flags, flagDue := (g.flagFor f n).flagDue } := by
  cases f <;> rfl

theorem has_issued (hi : Issuing s who g p b) : has p.mask who.lane = true := has_of_pathAt hi.path

theorem mask_ne_zero (hi : Issuing s who g p b) : p.mask ≠ 0 := by
  intro h0
  have := has_issued hi
  simp [h0, has] at this

@[simp] theorem and_not_zero (m : LaneMask) : m &&& ~~~(0 : LaneMask) = m := by
  rw [show ~~~(0 : LaneMask) = BitVec.allOnes 32 from rfl, BitVec.and_allOnes]

@[simp] theorem flagFor_paths (g : Group) (f : Option Nat) (n : Nat) : (g.flagFor f n).paths = g.paths := by
  cases f <;> rfl

theorem advance_eq {t : State} {c : Ctx} {g' : Group} {q : Path} (hf : Tbl.find t.groups c.gid = some g')
    (hm : c.p.mask ≠ 0) (hq : pathAt g'.paths (lowLane c.p.mask) = some q) :
    t.advance c 0 = { t with groups := Tbl.put t.groups c.gid { g' with
      paths := replacePath g'.paths (lowLane c.p.mask) [{ q with pc := nextPc c.p.pc }], cur := lowLane c.p.mask } } := by
  simp only [State.advance, and_not_zero, if_neg hm, State.modGroup, Tbl.upd_of_find _ _ hf, hq]

/-- A result of fixed latency changes the issuing group alone. -/
theorem finishFixed_eq (hi : Issuing s who g p b) (lat : Nat) (ws : List RegWrite) (hq : Quiet g (ws.map (·.reg))) :
    (s.issued who g p h).finishFixed (s.issueCtx who g p b h) h lat ws =
      { s with free := s.free + 1
               groups := Tbl.put s.groups who.gid
                 ((g.issued who.lane p h s.cycle).settledBy (s.issueCtx who g p b h) h lat ws) } := by
  have hm : has p.mask who.lane = true := has_issued hi
  have hp : pathAt (g.issued who.lane p h s.cycle).paths who.lane = some (p.issued g h s.cycle) :=
    pathAt_replace hi.path hm
  have hen := enqueue_eq (s.issueCtx who g p b h) lat ws (g.issued who.lane p h s.cycle) hq
  have hlow : lowLane (p.issued g h s.cycle).mask = who.lane := hi.low.symm
  have hm' : has (p.issued g h s.cycle).mask who.lane = true := hm
  unfold State.finishFixed
  simp only [State.modGroup, issueCtx_gid, issueCtx_lane, issueCtx_now, Tbl.upd_of_find _ _ find_issued, hen, Group.hold, hp]
  generalize hG : Group.flagFor _ _ _ = G
  have hGp : G.paths = replacePath (g.issued who.lane p h s.cycle).paths who.lane [{ p.issued g h s.cycle with
      hazards := hazardsOf h lat (ws.map (·.reg)) ++ (p.issued g h s.cycle).hazards }] := by
    rw [← hG]; simp
  rw [advance_eq (c := s.issueCtx who g p b h) (g' := G)
    (q := { p.issued g h s.cycle with
      hazards := hazardsOf h lat (ws.map (·.reg)) ++ (p.issued g h s.cycle).hazards })
    (Sys2Proof.Tbl.find_put_self _ _ _) (show p.mask ≠ 0 from mask_ne_zero hi)
    (by rw [hGp]; simp only [issueCtx_p, hlow]; exact pathAt_replace hp hm)]
  simp only [issueCtx_p, hlow, issueCtx_gid, Sys2Proof.Tbl.put_put, hGp, replacePath_replacePath, hm']
  simp only [Group.settledBy, issueCtx_lane, issueCtx_now, issueCtx_p, ← hG, State.issued, Sys2Proof.Tbl.put_put]
  cases hs : setFlag h <;> rfl

/-! ## The instructions of class 1 to 3 -/

theorem use_le (r : VReg) : r.use ≤ 128 := by cases r <;> simp [VReg.use]

theorem need_le (w : RegWrite) (g : Group) (gid : Nat) : w.need g gid ≤ 128 := by
  cases w with
  | v n m val full =>
    have := use_le val
    simp only [RegWrite.need]
    split <;> [skip; split] <;> omega
  | expand n m val => simp only [RegWrite.need]; split <;> omega
  | _ => simp [RegWrite.need]

theorem growing_le (c : Ctx) (ws : List RegWrite) : growing c ws ≤ ws.length * 128 := by
  suffices ∀ a, ws.foldl (fun a w => a + w.need c.g c.gid) a ≤ a + ws.length * 128 by
    simpa [growing] using this 0
  induction ws with
  | nil => simp
  | cons w ws ih =>
    intro a
    have := ih (a + w.need c.g c.gid)
    have := need_le w c.g c.gid
    simp only [List.foldl_cons, List.length_cons]
    omega

/-- The group behind an issue of fixed latency, field by field. -/
theorem leaves_settledBy (hi : Issuing s who g p b) (lat : Nat) (ws : List RegWrite) :
    ∃ p', Leaves h s.cycle lat (ws.map (·.reg)) who g
      ((g.issued who.lane p h s.cycle).settledBy (s.issueCtx who g p b h) h lat ws) p p' := by
  have hm' : has (p.issued g h s.cycle).mask who.lane = true := (has_issued hi : has p.mask who.lane = true)
  refine ⟨{ p.issued g h s.cycle with
    hazards := hazardsOf h lat (ws.map (·.reg)) ++ (p.issued g h s.cycle).hazards, pc := nextPc p.pc }, ?_⟩
  unfold Group.settledBy
  refine ⟨?_, ?_, ⟨(s.issueCtx who g p b h).dues lat ws, ?_, ?_⟩, ?_, ?_, rfl⟩
  · rw [flagFor_same]; rfl
  · intro n hn; rw [flagFor_same]; exact find_early ws _ hn
  · rw [flagFor_same]; rfl
  · intro d hd
    obtain ⟨w, hw, rfl⟩ := List.mem_map.mp hd
    exact ⟨rfl, rfl, List.mem_map_of_mem (List.mem_of_mem_filter hw)⟩
  · intro f
    cases hs : setFlag h with
    | none => simp [Group.flagFor, Group.issued]
    | some k =>
      simp only [Group.flagFor, Group.flagUp, Tbl.getD, Sys2Proof.Tbl.find_put, Option.some.injEq, Group.issued]
      by_cases hk : f = k
      · subst hk; simp
      · simp [hk, Ne.symm hk]
  · rw [flagFor_paths]
    exact replacePath_replacePath _ _ _ _ hm'

/-- Once the results of an issue have arrived, its registers hold the writes. -/
theorem arrived_settledBy (lat : Nat) (ws : List RegWrite) (hw : ∀ w ∈ ws, w.plain) (hq : Quiet g (ws.map (·.reg)))
    (hp : ws.Pairwise fun w x => w.clash x = false) :
    g.arrived ((g.issued who.lane p h s.cycle).settledBy (s.issueCtx who g p b h) h lat ws) who.gid =
      (late ws).foldl (fun g w => g.write who.gid w)
        ((g.issued who.lane p h s.cycle).settledBy (s.issueCtx who g p b h) h lat ws) := by
  have hd : ((g.issued who.lane p h s.cycle).settledBy (s.issueCtx who g p b h) h lat ws).due.drop g.due.length =
      (s.issueCtx who g p b h).dues lat ws := by
    unfold Group.settledBy; rw [flagFor_same]; simp [Group.issued]
  unfold Group.arrived
  rw [hd]
  apply landAll_underWay _ _ _ _ fun w h => hw w (List.mem_of_mem_filter h)
  · unfold Group.settledBy; rw [flagFor_same]
    exact fun r hr => hq r (List.map_subset _ (fun _ h => List.mem_of_mem_filter h) hr)
  · simp
  · exact hp.filter _

/-- An instruction of class 1 to 3 whose demands and room are met completes: its group alone changes. -/
theorem laneIssue_of_runs (hr : Runs s who g p b h ops) (hroom : Roomy s who g p b h) (lat : Nat)
    (k : Ctx → W32 → List RegWrite)
    (hlen : (k (s.issueCtx who g p b h) (s.launchIx b)).length ≤ 2)
    (hq : Quiet g ((k (s.issueCtx who g p b h) (s.launchIx b)).map (·.reg))) :
    ∃ t g' p', laneIssue h s lat ops k = .next t ∧ OwnGroup s t who g' ∧
      Leaves h s.cycle lat ((k (s.issueCtx who g p b h) (s.launchIx b)).map (·.reg)) who g g' p p' ∧
      g' = (g.issued who.lane p h s.cycle).settledBy (s.issueCtx who g p b h) h lat
        (k (s.issueCtx who g p b h) (s.launchIx b)) := by
  have hli : (s.issued who g p h).launchIx b = s.launchIx b := rfl
  obtain ⟨p', hl⟩ := leaves_settledBy (h := h) hr.toIssuing lat (k (s.issueCtx who g p b h) (s.launchIx b))
  refine ⟨_, _, p', ?_, rfl, hl, rfl⟩
  unfold laneIssue issueWait
  rw [issueAt_of_runs hr]
  have hfree := hroom _ (le_trans (growing_le (s.issueCtx who g p b h) (k (s.issueCtx who g p b h) (s.launchIx b)))
    (Nat.mul_le_mul_right 128 hlen))
  simp only [issueCtx_b, hli, State.roomed, hfree]
  rw [finishFixed_eq hr.toIssuing _ _ hq]
  rw [joinEntries_of_same (Sys2Proof.Tbl.find_put_self _ _ _)]
  rw [hl.same]

end Sys2Proof.Machine
end

