-- ==== Sys2Proof/Laws/Memory.lean ====
section
/-! SUPPORT. The byte store: its operations keep the canonical form, a read after a write, and that equal contents are equal data; the
operations on physical memory keep the form. -/

namespace Sys2Proof.Machine

theorem Memory.wfFrom_cons (lo : Option Nat) (x : Nat) (y : Byte) (m : Memory) :
    Memory.wfFrom lo ((x, y) :: m) = true ↔ (∀ l, lo = some l → l < x) ∧ y ≠ 0 ∧ Memory.wfFrom (some x) m = true := by
  cases lo <;> simp [Memory.wfFrom, and_assoc]

theorem Memory.wfFrom_none {lo : Option Nat} {m : Memory} (h : Memory.wfFrom lo m = true) : Memory.wfFrom none m = true := by
  cases m with
  | nil => rfl
  | cons c m => obtain ⟨x, y⟩ := c; rw [Memory.wfFrom_cons] at *; exact ⟨by simp, h.2⟩

theorem Memory.wfFrom_mono {k l : Nat} {m : Memory} (h : Memory.wfFrom (some l) m = true) (hk : k ≤ l) :
    Memory.wfFrom (some k) m = true := by
  cases m with
  | nil => rfl
  | cons c m =>
    obtain ⟨x, y⟩ := c
    rw [Memory.wfFrom_cons] at *
    exact ⟨fun j hj => by cases hj; exact lt_of_le_of_lt hk (h.1 l rfl), h.2⟩

theorem Memory.wfFrom_set (a : Nat) (b : Byte) (m : Memory) : ∀ lo : Option Nat, Memory.wfFrom lo m = true →
    (∀ l, lo = some l → l < a) → Memory.wfFrom lo (Memory.set m a b) = true := by
  induction m with
  | nil => intro lo _ hl; unfold Memory.set; split
           · rfl
           · rw [Memory.wfFrom_cons]; exact ⟨hl, ‹_›, rfl⟩
  | cons c m ih =>
    obtain ⟨x, y⟩ := c
    intro lo h hl
    have h' := (Memory.wfFrom_cons lo x y m).1 h
    unfold Memory.set
    split
    · split
      · exact h
      · rw [Memory.wfFrom_cons, Memory.wfFrom_cons]
        exact ⟨hl, ‹_›, fun j hj => by cases hj; assumption, h'.2⟩
    · split
      · split
        · cases lo with
          | none => exact Memory.wfFrom_none h'.2.2
          | some l => exact Memory.wfFrom_mono h'.2.2 (le_of_lt (h'.1 l rfl))
        · subst_vars
          rw [Memory.wfFrom_cons]; exact ⟨hl, ‹_›, h'.2.2⟩
      · rw [Memory.wfFrom_cons]
        exact ⟨h'.1, h'.2.1, ih _ h'.2.2 fun j hj => by cases hj; omega⟩

/-- Writing a byte keeps the canonical form. -/
theorem Memory.wf_set {m : Memory} (h : Memory.wf m = true) (a : Nat) (b : Byte) : Memory.wf (Memory.set m a b) = true :=
  Memory.wfFrom_set a b m none h (by simp)

/-- Writing bytes keeps the canonical form. -/
theorem Memory.wf_write (bs : List Byte) : ∀ {m : Memory} (a : Nat), Memory.wf m = true → Memory.wf (Memory.write m a bs) = true := by
  induction bs with
  | nil => intro m a h; exact h
  | cons b bs ih => intro m a h; exact ih (a + 1) (Memory.wf_set h a b)

theorem Memory.wfFrom_filter (f : Nat × Byte → Bool) (m : Memory) : ∀ lo : Option Nat, Memory.wfFrom lo m = true →
    Memory.wfFrom lo (m.filter f) = true := by
  induction m with
  | nil => intro lo _; rfl
  | cons c m ih =>
    obtain ⟨x, y⟩ := c
    intro lo h
    have h' := (Memory.wfFrom_cons lo x y m).1 h
    rw [List.filter_cons]
    split
    · rw [Memory.wfFrom_cons]; exact ⟨h'.1, h'.2.1, ih _ h'.2.2⟩
    · apply ih
      cases lo with
      | none => exact Memory.wfFrom_none h'.2.2
      | some l => exact Memory.wfFrom_mono h'.2.2 (le_of_lt (h'.1 l rfl))

/-- Forgetting bytes keeps the canonical form. -/
theorem Memory.wf_filter {m : Memory} (h : Memory.wf m = true) (f : Nat × Byte → Bool) : Memory.wf (m.filter f) = true :=
  Memory.wfFrom_filter f m none h

theorem Memory.wf_clear {m : Memory} (h : Memory.wf m = true) (lo n : Nat) : Memory.wf (Memory.clear m lo n) = true :=
  Memory.wf_filter h _

theorem Memory.find_below {l x : Nat} {m : Memory} (h : Memory.wfFrom (some l) m = true) (hx : x ≤ l) : Tbl.find m x = none := by
  induction m generalizing l with
  | nil => rfl
  | cons c m ih =>
    obtain ⟨y, b⟩ := c
    have h' := (Memory.wfFrom_cons (some l) y b m).1 h
    have hy := h'.1 l rfl
    simp only [Tbl.find]
    rw [if_neg (by omega)]
    exact ih h'.2.2 (by omega)

theorem Memory.get_cons (x : Nat) (y : Byte) (m : Memory) (a : Nat) :
    Memory.get ((x, y) :: m) a = if a = x then y else Memory.get m a := by
  simp only [Memory.get, Tbl.find, eq_comm (a := x)]; split <;> simp_all

theorem Memory.get_below {l x : Nat} {m : Memory} (h : Memory.wfFrom (some l) m = true) (hx : x ≤ l) : Memory.get m x = 0 := by
  rw [Memory.get, Memory.find_below h hx]; rfl

theorem Memory.get_set_from (a : Nat) (b : Byte) (x : Nat) (m : Memory) : ∀ lo : Option Nat, Memory.wfFrom lo m = true →
    Memory.get (Memory.set m a b) x = if x = a then b else Memory.get m x := by
  induction m with
  | nil =>
    intro lo _
    unfold Memory.set
    split
    · subst_vars; split <;> rfl
    · rw [Memory.get_cons]
  | cons c m ih =>
    obtain ⟨k, y⟩ := c
    intro lo h
    have h' := (Memory.wfFrom_cons lo k y m).1 h
    unfold Memory.set
    split
    · split
      · split
        · subst_vars
          rw [Memory.get_cons, if_neg (by omega), Memory.get_below h'.2.2 (by omega)]
        · rfl
      · rw [Memory.get_cons]
    · split
      · subst_vars
        split
        · subst_vars
          rw [Memory.get_cons]
          split
          · subst_vars; exact Memory.get_below h'.2.2 (le_refl _)
          · rfl
        · rw [Memory.get_cons, Memory.get_cons]; split <;> rfl
      · rw [Memory.get_cons, Memory.get_cons, ih _ h'.2.2]
        split
        · subst_vars; rw [if_neg (by omega)]
        · rfl

/-- A byte reads as it was last written, and no other byte changes. -/
theorem Memory.get_set {m : Memory} (h : Memory.wf m = true) (a : Nat) (b : Byte) (x : Nat) :
    Memory.get (Memory.set m a b) x = if x = a then b else Memory.get m x := Memory.get_set_from a b x m none h

/-- Bytes read as they were last written, and no other byte changes. -/
theorem Memory.get_write (bs : List Byte) : ∀ {m : Memory} (a x : Nat), Memory.wf m = true →
    Memory.get (Memory.write m a bs) x = if a ≤ x ∧ x < a + bs.length then bs.getD (x - a) 0 else Memory.get m x := by
  induction bs with
  | nil => intro m a x _; rw [if_neg (by simp)]; rfl
  | cons b bs ih =>
    intro m a x h
    rw [Memory.write, ih _ _ (Memory.wf_set h a b), Memory.get_set h]
    simp only [List.length_cons]
    by_cases hx : x = a
    · subst hx; rw [if_neg (by omega), if_pos rfl, if_pos (by omega)]; simp
    · rw [if_neg hx]
      by_cases hr : a + 1 ≤ x ∧ x < a + 1 + bs.length
      · rw [if_pos hr, if_pos (by omega), show x - a = (x - (a + 1)) + 1 by omega, List.getD_cons_succ]
      · rw [if_neg hr, if_neg (by omega)]

@[simp] theorem Memory.length_read (m : Memory) (a n : Nat) : (Memory.read m a n).length = n := by simp [Memory.read]

theorem Memory.getD_read (m : Memory) (a n i : Nat) (h : i < n) : (Memory.read m a n).getD i 0 = Memory.get m (a + i) := by
  simp [Memory.read, List.getD, h]

/-- A read of what has just been written gives it back. -/
theorem Memory.read_write {m : Memory} (h : Memory.wf m = true) (a : Nat) (bs : List Byte) :
    Memory.read (Memory.write m a bs) a bs.length = bs := by
  apply List.ext_getElem (by simp)
  intro i h1 h2
  simp only [Memory.read, List.getElem_map, List.getElem_range]
  rw [Memory.get_write bs a (a + i) h, if_pos (by omega), Nat.add_sub_cancel_left, List.getD_eq_getElem _ _ h2]

theorem Memory.eq_of_get_from (m : Memory) : ∀ (n : Memory) (lo lo' : Option Nat), Memory.wfFrom lo m = true →
    Memory.wfFrom lo' n = true → (∀ x, Memory.get m x = Memory.get n x) → m = n := by
  induction m with
  | nil =>
    intro n lo lo' _ hn h
    cases n with
    | nil => rfl
    | cons c n =>
      obtain ⟨x, y⟩ := c
      have h' := (Memory.wfFrom_cons lo' x y n).1 hn
      have := h x
      rw [Memory.get_cons, if_pos rfl] at this
      exact absurd this.symm h'.2.1
  | cons c m ih =>
    obtain ⟨x, y⟩ := c
    intro n lo lo' hm hn h
    have hm' := (Memory.wfFrom_cons lo x y m).1 hm
    cases n with
    | nil =>
      have := h x
      rw [Memory.get_cons, if_pos rfl] at this
      exact absurd this hm'.2.1
    | cons d n =>
      obtain ⟨x', y'⟩ := d
      have hn' := (Memory.wfFrom_cons lo' x' y' n).1 hn
      have key : x = x' := by
        rcases Nat.lt_trichotomy x x' with hlt | heq | hgt
        · have := h x
          rw [Memory.get_cons, if_pos rfl, Memory.get_cons, if_neg (by omega), Memory.get_below hn'.2.2 (by omega)] at this
          exact absurd this hm'.2.1
        · exact heq
        · have := h x'
          rw [Memory.get_cons, if_neg (by omega), Memory.get_below hm'.2.2 (by omega), Memory.get_cons, if_pos rfl] at this
          exact absurd this.symm hn'.2.1
      subst key
      have hy : y = y' := by have := h x; rwa [Memory.get_cons, if_pos rfl, Memory.get_cons, if_pos rfl] at this
      subst hy
      congr 1
      apply ih n (some x) (some x) hm'.2.2 hn'.2.2
      intro z
      by_cases hz : z = x
      · subst hz; rw [Memory.get_below hm'.2.2 (le_refl _), Memory.get_below hn'.2.2 (le_refl _)]
      · have := h z; rwa [Memory.get_cons, if_neg hz, Memory.get_cons, if_neg hz] at this

/-- Memories in canonical form that read alike are equal. -/
theorem Memory.eq_of_get {m n : Memory} (hm : Memory.wf m = true) (hn : Memory.wf n = true)
    (h : ∀ x, Memory.get m x = Memory.get n x) : m = n := Memory.eq_of_get_from m n none none hm hn h

/-! ## Physical memory -/

/-- Memory and the other packages' memory stand in canonical form. -/
def State.canonical (s : State) : Prop := Memory.wf s.mem = true ∧ Memory.wf s.peer = true

theorem State.canonical_reset : State.reset.canonical := ⟨rfl, rfl⟩

/-- An operation that leaves both memories alone keeps their form. -/
theorem State.canonical_of_same {s t : State} (h : s.canonical) (hm : t.mem = s.mem) (hp : t.peer = s.peer) : t.canonical := by
  unfold State.canonical at *; rw [hm, hp]; exact h

theorem State.canonical_modVd {s : State} (h : s.canonical) (vd : Nat) (f : VDev → VDev) : (s.modVd vd f).canonical := h

theorem State.canonical_clearResv {s : State} (h : s.canonical) (agent : Option (Nat × Nat)) (line : Nat) :
    (s.clearResv agent line).canonical := h

theorem State.canonical_logLine {s : State} (h : s.canonical) (vd line : Nat) : (s.logLine vd line).canonical := by
  unfold State.logLine
  dsimp only
  split
  · exact h
  · exact State.canonical_modVd h _ _

theorem State.canonical_setMem {s t : State} (h : s.canonical) (a : Nat) (bs : List Byte)
    (hm : t.mem = Memory.write s.mem a bs) (hp : t.peer = s.peer) : t.canonical :=
  ⟨hm ▸ Memory.wf_write bs a h.1, hp ▸ h.2⟩

theorem State.canonical_takeLine {s : State} (h : s.canonical) (key line : Nat) : (s.takeLine key line).canonical := by
  unfold State.takeLine
  split
  · exact h
  · generalize (List.range 128).map _ = bs
    exact State.canonical_setMem h (line * 128) bs rfl rfl

theorem State.canonical_takePeerLine {s : State} (h : s.canonical) (key line : Nat) : (s.takePeerLine key line).canonical := by
  unfold State.takePeerLine
  split
  · exact h
  · generalize (List.range 128).map _ = bs
    exact ⟨h.1, Memory.wf_write bs _ h.2⟩

/-- A fold of operations that keep the form keeps it. -/
theorem State.canonical_foldl {α : Type} (f : State → α → State) (hf : ∀ s a, s.canonical → (f s a).canonical) (xs : List α) :
    ∀ s : State, s.canonical → (xs.foldl f s).canonical := by
  induction xs with
  | nil => intro s h; exact h
  | cons x xs ih => intro s h; exact ih _ (hf s x h)

theorem State.canonical_writeHbm {s : State} (h : s.canonical) (vd : Option Nat) (agent : Option (Nat × Nat)) (key pa : Nat)
    (bs : List Byte) : (s.writeHbm vd agent key pa bs).canonical := by
  have h1 : (match vd with
      | some v => (linesOf pa bs.length).foldl (fun (r : State) l => r.logLine v l) s
      | none => s).canonical := by
    cases vd with
    | none => exact h
    | some v => exact State.canonical_foldl _ (fun s a hs => State.canonical_logLine hs v a) _ s h
  have h2 := State.canonical_foldl (fun (r : State) l => (r.takeLine key l).clearResv agent l)
    (fun s a hs => State.canonical_clearResv (State.canonical_takeLine hs key a) agent a) (linesOf pa bs.length) _ h1
  exact ⟨Memory.wf_write _ _ h2.1, h2.2⟩

theorem State.canonical_writeHost {s : State} (h : s.canonical) (vd : Option Nat) (pa : Nat) (bs : List Byte) :
    (s.writeHost vd pa bs).canonical := by
  unfold State.writeHost
  split
  · split
    · exact h
    · exact ⟨Memory.wf_write _ _ h.1, h.2⟩
  · exact ⟨Memory.wf_write _ _ h.1, h.2⟩

/-- A write to physical memory, in whichever region, keeps the form. -/
theorem State.canonical_writePhys {s : State} (h : s.canonical) (vd : Nat) (agent : Option (Nat × Nat)) (key pa : Nat)
    (bs : List Byte) : (s.writePhys vd agent key pa bs).canonical := by
  unfold State.writePhys
  split
  · exact State.canonical_writeHbm h _ _ _ _ _
  · split
    · split
      · rename_i q hq
        have h1 := State.canonical_foldl (fun (t : State) l => (t.logLine vd (2 ^ 60 + l)).takePeerLine q.key l)
          (fun t l ht => State.canonical_takePeerLine (State.canonical_logLine ht vd _) _ l) (linesOf q.at' bs.length) s h
        exact ⟨h1.1, Memory.wf_write _ _ h1.2⟩
      · exact h
    · exact State.canonical_writeHost h _ _ _

theorem State.canonical_cacheEntries {s : State} (h : s.canonical) (vd : Nat) (es : List TlbEnt) :
    (s.cacheEntries vd es).canonical := by
  unfold State.cacheEntries
  split <;> exact h

end Sys2Proof.Machine
end

