-- ==== Sys2Proof/Laws/Results.lean ====
section
/-! SUPPORT. What a destination of class 1 to 3 holds behind the issue that writes it. -/

namespace Sys2Proof.Machine

variable {s : State} {who : Issuer} {g : Group} {p : Path} {b : Block} {h : Hints}

theorem settledBy_v (c : Ctx) (g : Group) (h : Hints) (lat : Nat) (ws : List RegWrite) : (g.settledBy c h lat ws).v = g.v := by
  unfold Group.settledBy; rw [flagFor_same]

theorem settledBy_s (c : Ctx) (g : Group) (h : Hints) (lat : Nat) (ws : List RegWrite) :
    (g.settledBy c h lat ws).s = early g.s ws := by
  unfold Group.settledBy; rw [flagFor_same]

theorem settledBy_p (c : Ctx) (g : Group) (h : Hints) (lat : Nat) (ws : List RegWrite) : (g.settledBy c h lat ws).p = g.p := by
  unfold Group.settledBy; rw [flagFor_same]

theorem settledBy_narrow (c : Ctx) (g : Group) (h : Hints) (lat : Nat) (ws : List RegWrite) :
    (g.settledBy c h lat ws).narrow = g.narrow := by
  unfold Group.settledBy; rw [flagFor_same]

theorem settledBy_width (c : Ctx) (g : Group) (h : Hints) (lat : Nat) (ws : List RegWrite) :
    (g.settledBy c h lat ws).width = g.width := by
  unfold Group.width; rw [settledBy_narrow]

theorem settledBy_full (c : Ctx) (g : Group) (h : Hints) (lat : Nat) (ws : List RegWrite) :
    (g.settledBy c h lat ws).full = g.full := by
  unfold Group.full; rw [settledBy_narrow]

theorem dst32_plain (c : Ctx) (d : Opnd) (val : VReg) : ∀ w ∈ dst32 c d val, w.plain := by
  cases d <;> simp [dst32, RegWrite.plain]

theorem dst64_plain (c : Ctx) (d : Opnd) (val : VPair) : ∀ w ∈ dst64 c d val, w.plain := by
  cases d <;> simp [dst64, RegWrite.plain]

theorem dstP_plain (c : Ctx) (d : BitVec 4) (f : Nat → Bool) : ∀ w ∈ dstP c d f, w.plain := by
  simp [dstP, RegWrite.plain]

theorem dst32_regs (c : Ctx) {d : Opnd} (hd : d.isDst false = true) (val : VReg) :
    (dst32 c d val).map (·.reg) = Opnd.regs 1 d := by
  cases d <;> simp [dst32, RegWrite.reg, Opnd.regs, Opnd.isDst] at hd ⊢

theorem dst64_regs (c : Ctx) {d : Opnd} (hd : d.isDst true = true) (val : VPair) :
    (dst64 c d val).map (·.reg) = Opnd.regs 2 d := by
  cases d <;> simp [dst64, RegWrite.reg, Opnd.regs, Opnd.isDst, List.range_succ] at hd ⊢

theorem dst32_length (c : Ctx) (d : Opnd) (val : VReg) : (dst32 c d val).length ≤ 2 := by
  cases d <;> simp [dst32]

theorem dst64_length (c : Ctx) (d : Opnd) (val : VPair) : (dst64 c d val).length ≤ 2 := by
  cases d <;> simp [dst64]

theorem vreg_writeV_ne (g : Group) (gid : Nat) (live : LaneMask) (val : VReg) (full : Bool) {n m : Nat} (hne : m ≠ n) :
    (g.writeV gid n live val full).vreg gid m = g.vreg gid m := by
  simp [Group.vreg, Group.writeV, Tbl.getD, Sys2Proof.Tbl.find_put_ne _ _ hne]

theorem dst32_apart (c : Ctx) (d : Opnd) (val : VReg) : (dst32 c d val).Pairwise fun w x => w.clash x = false := by
  cases d <;> simp [dst32]

theorem dst64_apart (c : Ctx) (d : Opnd) (val : VPair) : (dst64 c d val).Pairwise fun w x => w.clash x = false := by
  cases d <;> simp [dst64, RegWrite.clash, RegWrite.shared, RegWrite.reg, RegId.meets]

theorem vreg_settledBy (c : Ctx) (g : Group) (h : Hints) (lat : Nat) (ws : List RegWrite) (gid n : Nat) :
    (g.settledBy c h lat ws).vreg gid n = g.vreg gid n := by
  simp only [Group.vreg, settledBy_v]

theorem full_writeV (g : Group) (gid n : Nat) (live : LaneMask) (val : VReg) (full : Bool) :
    (g.writeV gid n live val full).full = g.full := by
  simp [Group.writeV, Group.full]

theorem width_writeV (g : Group) (gid n : Nat) (live : LaneMask) (val : VReg) (full : Bool) :
    (g.writeV gid n live val full).width = g.width := by
  simp [Group.writeV, Group.width]

/-- A vector register that takes a result behind an issue: the live lanes hold it, the others what they held. -/
theorem lane_writeV_settledBy (c : Ctx) (g : Group) (h : Hints) (lat : Nat) (ws : List RegWrite) (gid n : Nat) (val : VReg)
    (full : Bool) (hf : full = true → c.live = g.full) {l : Nat} (hl : l < g.width) :
    (((g.settledBy c h lat ws).writeV gid n c.live val full).vreg gid n).lane l =
      if has c.live l then val.lane l else (g.vreg gid n).lane l := by
  rw [← vreg_settledBy c g h lat ws gid n]
  exact lane_writeV _ gid n c.live val full (by rw [settledBy_full]; exact hf) (by rw [settledBy_width]; exact hl)

/-- A 32-bit result stands in its destination once it has arrived. -/
theorem gets_dst32 (lat : Nat) {d : Opnd} (hd : d.isDst false = true) (hq : Quiet g (Opnd.regs 1 d)) (val : VReg) :
    Gets (s.issueCtx who g p b h) (g.arrived ((g.issued who.lane p h s.cycle).settledBy (s.issueCtx who g p b h) h lat
      (dst32 (s.issueCtx who g p b h) d val)) who.gid) d val.lane := by
  rw [arrived_settledBy lat _ (dst32_plain _ _ _) (by rw [dst32_regs _ hd]; exact hq) (dst32_apart _ _ _)]
  cases d with
  | v n =>
    intro l hl
    exact lane_writeV_settledBy (s.issueCtx who g p b h) (g.issued who.lane p h s.cycle) h lat _ who.gid n.toNat val _
      of_decide_eq_true hl
  | s n => simp [Gets, dst32, late, RegWrite.atIssue, Group.sreg, Tbl.getD, settledBy_s, early]
  | _ => simp [Opnd.isDst] at hd

/-- A 64-bit result stands in its pair once it has arrived. -/
theorem gets_dst64 (lat : Nat) {d : Opnd} (hd : d.isDst true = true) (hq : Quiet g (Opnd.regs 2 d)) (val : VPair)
    (f : Nat → W64) (hlo : ∀ l < 32, val.1.lane l = (f l).extractLsb' 0 32)
    (hhi : ∀ l < 32, val.2.lane l = (f l).extractLsb' 32 32) (hlive : (s.issueCtx who g p b h).live ≠ 0) :
    GetsPair (s.issueCtx who g p b h) (g.arrived ((g.issued who.lane p h s.cycle).settledBy (s.issueCtx who g p b h) h lat
      (dst64 (s.issueCtx who g p b h) d val)) who.gid) d f := by
  rw [arrived_settledBy lat _ (dst64_plain _ _ _) (by rw [dst64_regs _ hd]; exact hq) (dst64_apart _ _ _)]
  cases d with
  | v n =>
    intro l hl
    have hl32 : l < 32 := lt_of_lt_of_le hl (width_le _)
    rw [← hlo l hl32, ← hhi l hl32]
    have hlate : late (dst64 (s.issueCtx who g p b h) (.v n) val) = dst64 (s.issueCtx who g p b h) (.v n) val := rfl
    rw [hlate]
    have hfold : ∀ G : Group, (dst64 (s.issueCtx who g p b h) (.v n) val).foldl (fun g w => g.write who.gid w) G =
        (G.writeV who.gid n.toNat (s.issueCtx who g p b h).live val.1
          ((s.issueCtx who g p b h).live = (g.issued who.lane p h s.cycle).full)).writeV who.gid (n.toNat + 1)
          (s.issueCtx who g p b h).live val.2 ((s.issueCtx who g p b h).live = (g.issued who.lane p h s.cycle).full) := by
      intro G
      simp only [dst64, List.foldl_cons, List.foldl_nil, Group.write, issueCtx_g]
      rfl
    rw [hfold]
    generalize dst64 (s.issueCtx who g p b h) (.v n) val = ws
    constructor
    · exact (congrArg (VReg.lane · l) (vreg_writeV_ne _ _ _ _ _ (by omega))).trans
        (lane_writeV_settledBy (s.issueCtx who g p b h) (g.issued who.lane p h s.cycle) h lat ws who.gid n.toNat val.1 _
          of_decide_eq_true hl)
    · refine (lane_writeV _ who.gid (n.toNat + 1) (s.issueCtx who g p b h).live val.2 _ (fun hf => ?_) ?_).trans ?_
      · rw [full_writeV]
        exact (of_decide_eq_true hf).trans (settledBy_full (s.issueCtx who g p b h) (g.issued who.lane p h s.cycle) h lat ws).symm
      · rw [width_writeV]
        exact lt_of_lt_of_eq hl (settledBy_width (s.issueCtx who g p b h) (g.issued who.lane p h s.cycle) h lat ws).symm
      · rw [vreg_writeV_ne _ _ _ _ _ (by omega), vreg_settledBy]
        rfl
  | s n =>
    have hlow := lowLane_lt hlive
    simp only [GetsPair]
    rw [← hlo _ hlow, ← hhi _ hlow]
    simp only [dst64, late, RegWrite.atIssue, List.filter_cons, Bool.not_true, Bool.false_eq_true, if_false, List.filter_nil,
      List.foldl_cons, List.foldl_nil, Group.sreg, Tbl.getD, settledBy_s, early]
    rw [Sys2Proof.Tbl.find_put_ne _ _ (by omega)]
    simp
  | _ => simp [Opnd.isDst] at hd

/-- A predicate result stands in its register once it has arrived. -/
theorem gets_dstP (lat : Nat) {d : BitVec 4} (hd : d.toNat < 15) (hq : Quiet g [.p d.toNat]) (f : Nat → Bool) :
    GetsPred (s.issueCtx who g p b h) (g.arrived ((g.issued who.lane p h s.cycle).settledBy (s.issueCtx who g p b h) h lat
      (dstP (s.issueCtx who g p b h) d f)) who.gid) d f := by
  rw [arrived_settledBy lat _ (dstP_plain _ _ _) hq (by simp [dstP])]
  intro l hl
  have hl32 : l < 32 := lt_of_lt_of_le hl (width_le _)
  have hne : d.toNat ≠ 15 := by omega
  have hfull : has (g.issued who.lane p h s.cycle).full l = true := by rw [has_full]; simpa using hl
  simp only [dstP, late, RegWrite.atIssue, List.filter_cons, Bool.not_false, if_true, List.filter_nil, List.foldl_cons,
    List.foldl_nil, Group.write]
  have hpreg : ∀ (G : Group) x, (Group.note { G with p := Tbl.put G.p d.toNat x } (.p d.toNat)).preg who.gid d.toNat =
      x &&& G.full := by
    intro G x
    simp only [Group.preg, if_neg hne, Tbl.getD, Group.note_p, Sys2Proof.Tbl.find_put_self, Option.getD_some, Group.full,
      Group.note_narrow]
  have hG : ((g.issued who.lane p h s.cycle).settledBy (s.issueCtx who g p b h) h lat
      [.p d.toNat (s.issueCtx who g p b h).live (maskOf f)]).preg who.gid d.toNat =
      (g.issued who.lane p h s.cycle).preg who.gid d.toNat := by
    simp only [Group.preg, settledBy_p, settledBy_full]
  rw [issueCtx_gid, hpreg, settledBy_full, hG]
  have hand : ∀ x y : LaneMask, has (x &&& y) l = (has x l && has y l) := by intro x y; simp [has]
  have hor : ∀ x y : LaneMask, has (x ||| y) l = (has x l || has y l) := by intro x y; simp [has]
  have hnot : ∀ x : LaneMask, has (~~~x) l = !has x l := by intro x; simp [has, hl32]
  simp only [hand, hor, hnot, hfull, has_maskOf, hl32, Bool.and_true, decide_true, Bool.true_and, issueCtx_g]
  cases has (s.issueCtx who g p b h).live l <;> simp

/-- An instruction of class 1 to 3 that gives a 32-bit value completes with that value in every live lane. -/
theorem completes32_of {i : Instr} {f : LaneForm W32} (val : Ctx → W32 → VReg)
    (hexec : ∀ s, exec i s = laneIssue f.h s (latency i) f.ops fun c li => dst32 c f.d (val c li))
    (hd : f.d.isDst false = true)
    (hval : ∀ c li l, l < 32 → (l < c.g.width ∨ f.d.isS = true) → (val c li).lane l = f.val c li l) : Completes32 i f := by
  intro s who g p b hr hroom hq
  obtain ⟨t, g', p', he, ho, hl, hg⟩ := laneIssue_of_runs hr hroom (latency i) (fun c li => dst32 c f.d (val c li))
    (dst32_length _ _ _) (by rw [dst32_regs _ hd]; exact hq)
  rw [dst32_regs _ hd] at hl
  refine ⟨t, g', p', (hexec s).trans he, ho, hl, ?_⟩
  have hgets := gets_dst32 (s := s) (who := who) (p := p) (b := b) (h := f.h) (latency i) hd hq
    (val (s.issueCtx who g p b f.h) (s.launchIx b))
  rw [← hg] at hgets
  revert hgets hval
  cases f.d with
  | v n =>
    intro hval hgets l hlw
    rw [← hval _ _ l (lt_of_lt_of_le hlw (width_le _)) (.inl hlw)]
    exact hgets l hlw
  | s n =>
    intro hval hgets
    simp only [Gets] at hgets ⊢
    rw [hgets, hval _ _ _ (lowLane_lt hr.live) (.inr rfl)]
  | _ => intro _ hgets; exact hgets

/-- An instruction of class 1 to 3 that gives a 64-bit value completes with its halves in every live lane. -/
theorem completes64_of {i : Instr} {f : LaneForm W64} (val : Ctx → W32 → VPair)
    (hexec : ∀ s, exec i s = laneIssue f.h s (latency i) f.ops fun c li => dst64 c f.d (val c li))
    (hd : f.d.isDst true = true)
    (hval : ∀ c li l, l < 32 → (l < c.g.width ∨ f.d.isS = true) → lane64 (val c li) l = f.val c li l) : Completes64 i f := by
  intro s who g p b hr hroom hq
  obtain ⟨t, g', p', he, ho, hl, hg⟩ := laneIssue_of_runs hr hroom (latency i) (fun c li => dst64 c f.d (val c li))
    (dst64_length _ _ _) (by rw [dst64_regs _ hd]; exact hq)
  rw [dst64_regs _ hd] at hl
  refine ⟨t, g', p', (hexec s).trans he, ho, hl, ?_⟩
  have hgets := gets_dst64 (s := s) (who := who) (p := p) (b := b) (h := f.h) (latency i) hd hq
    (val (s.issueCtx who g p b f.h) (s.launchIx b)) (lane64 (val (s.issueCtx who g p b f.h) (s.launchIx b)))
    (fun l _ => (lo_lane64 _ l).symm) (fun l _ => (hi_lane64 _ l).symm) hr.live
  rw [← hg] at hgets
  revert hgets hval
  cases f.d with
  | v n =>
    intro hval hgets l hlw
    rw [← hval _ _ l (lt_of_lt_of_le hlw (width_le _)) (.inl hlw)]
    exact hgets l hlw
  | s n =>
    intro hval hgets
    simp only [GetsPair] at hgets ⊢
    rw [← hval _ _ _ (lowLane_lt hr.live) (.inr rfl)]
    exact hgets
  | _ => intro _ hgets; exact hgets

end Sys2Proof.Machine
end

