-- ==== Sys2Proof/Tests/Slice0.lean ====
section
/-! SUPPORT. Tests: words of the spec decode to their instructions, each check of well-formedness refuses a term, single steps give the
values of the spec's tables, and for each statement a state and operands that meet its hypotheses. -/

namespace Sys2Proof.Tests
open Sys2Proof.Machine

/-! ## Decoding: words that the manual writes out (the section is named with each) -/

/-- 04, two kernels and a GOT call: `MOVHI s3`, `IADD s3, s3, zero, lo12`. -/
theorem test_decode_movhi : decode 0x60C07A0600000000022001E0 = .ok (.movhi ⟨false, 15, 1, 0, 15, false⟩ (.s 3) 1) := by decide
theorem test_decode_iadd : decode 0x20407A0681AC9480004001E0 =
    .ok (.iadd ⟨false, 15, 2, 0, 15, false⟩ .n32 false (.s 3) (.s 3) (.konst .zero) 0xA40) := by decide
/-- 06, a divergent region: `?p1 BRA`, `WAITJ j2`. -/
theorem test_decode_bra : decode 0x008008000000000006_2001E0 = .ok (.bra ⟨false, 1, 1, 0, 15, false⟩ 3) := by decide
theorem test_decode_waitj : decode 0x024078011100000000_2001E0 = .ok (.waitj ⟨false, 15, 1, 0, 15, false⟩ 2) := by decide
/-- 10, the release store of the message-passing shape. -/
theorem test_decode_st : decode 0x80827E02A12C8000D02001E0 =
    .ok (.st ⟨false, 15, 1, 0, 15, false⟩ .b32 false .dflt (.imm 1) 2 (.konst .zero) 0 6 true) := by decide
/-- 08, a row-scaled CB4 tensor. -/
theorem test_decode_tdef : decode 0xC0407C8AA12C860000200060 =
    .ok (.tdef ⟨false, 15, 1, 0, 3, false⟩ 5 2 (.konst .zero) 0x300) := by decide
/-- 11, a tile fetched, tagged and found. -/
theorem test_decode_copy : decode 0xA1507E0121A08288004001E0 =
    .ok (.copy ⟨false, 15, 2, 0, 15, false⟩ ⟨false, false, false, false, true, false, 5, 1, 0, 0⟩ (.imm 0) 3 4) := by decide
/-- 12, an MMT at depth 1. -/
theorem test_decode_mmt : decode 0xC1C27E1108428840008001E0 =
    .ok (.mmt ⟨false, 15, 4, 0, 15, false⟩ false true false false (.imm 8) (.tile 0) (.tile 4) 8) := by decide
/-- 14 and 24, the reverse run. -/
theorem test_decode_tbr : decode 0xC5C078000000000004_2001E0 = .ok (.tbr ⟨false, 15, 1, 0, 15, false⟩ 2) := by decide
/-- 16, a normed reduce-scatter over four ranks. -/
theorem test_decode_coll : decode 0xC6697C8320208A30008001E0 =
    .ok (.coll ⟨false, 15, 4, 0, 15, false⟩ .rs true false true 1 0 4 6) := by decide
/-- 17, a trap handled at the convergence point. -/
theorem test_decode_rdsp : decode 0x054078120000000000200000 = .ok (.rdsp ⟨false, 15, 1, 0, 0, false⟩ (.v 9) .fcause) := by decide
theorem test_decode_rth : decode 0x044078000000000000_2003E0 = .ok (.rthSkip ⟨false, 15, 1, 1, 15, false⟩) := by decide
/-- 19, a sampled loop: MARK, and a branch of displacement −39. -/
theorem test_decode_mark : decode 0x0500780000000000008001E0 = .ok (.mark ⟨false, 15, 4, 0, 15, false⟩ 0) := by decide
theorem test_decode_bra_back : decode 0x0080080000001FFFB28003E0 = .ok (.bra ⟨false, 1, 4, 1, 15, false⟩ (-39)) := by decide
/-- R53, R54: the zero word has index 0 of class 0. -/
theorem test_decode_zero : decode 0 = .error ⟨0x000, 0⟩ := by decide

/-! ## Well-formedness: a term that each check refuses -/

/-- Hints of an unguarded word without a flag, and with flag 1. -/
def hh : Hints := ⟨false, 15, 1, 0, 15, false⟩
def h1 : Hints := ⟨false, 15, 1, 0, 1, false⟩

/-- No term of the list is well formed. -/
def refused (is : List Instr) : Bool := is.all fun i => !wellFormed i

/-- The flag field: 12 to 14 name no flag, and a V instruction names one. -/
theorem test_refuses_flags : refused [.nop ⟨false, 15, 1, 0, 12, false⟩ 0, .hvq hh 0 0, .tpopSt hh 0, .acread hh 0 0 0] = true := by decide

theorem test_refuses_control : refused [.brxIx hh (.base 0) 0, .callxIx hh 0 (.p 0) 0, .reform hh (.base 0), .spawn h1 0 (.v 0) (.imm 1) 0,
    .spawn h1 0 (.imm 0) (.v 1) 0, .spawn h1 0 (.imm 0) (.imm 1) 17, .barinit hh 0 0, .barinitA hh (.v 0) 0, .hvq h1 0 3, .sys h1 0 (.v 0) 0,
    .rdsp h1 (.v 0) .msreq, .rdsp h1 (.p 0) .fcause, .wrsp hh (.v 0) .hscr0, .wrsp hh (.s 0) .fcause] = true := by decide

theorem test_refuses_integer : refused [.iadd hh .n32 false (.p 0) (.v 0) (.v 1) 0, .iadd hh .n32 false (.s 0) (.v 0) (.s 1) 0,
    .iadd hh .n64 false (.v 1) (.v 2) (.v 4) 0, .isub hh .n32 false (.v 0) (.v 1) (.base 0) 0, .iaddc hh false (.v 0) (.v 1) (.v 2) (.p 1),
    .imadw hh false (.v 1) (.v 2) (.v 3) (.v 4), .iabs hh true false (.v 0) (.v 1), .shl hh true (.v 1) (.v 2) (.v 4) 0, .popc hh true (.v 0) (.v 1),
    .bfx hh .n64 (.v 3) (.v 0) (.v 2) 0, .bfi hh false (.v 0) (.v 1) (.v 2) (.j 0), .icmp hh .n32 .lt 15 (.v 0) (.v 1) 0,
    .icmp hh .n32 .lt 1 (.base 0) (.v 1) 0, .isel hh false (.s 0) (.s 1) (.s 2) 1] = true := by decide

theorem test_refuses_float : refused [.fadd hh .f64 .rne (.v 1) (.v 2) (.v 4), .ffma hh .f32 .rne (.v 0) (.v 1) (.v 2) (.p 3),
    .fcmp hh .f32 .lt 15 (.v 0) (.v 1), .fsel hh .f32 (.s 0) (.s 1) (.s 2) 1, .fclass hh .f64 (.v 0) (.v 1), .fscale hh .f64 .rne (.v 1) (.v 0) (.v 2),
    .fsqrt hh .f64 .rne (.v 0) (.v 1), .frsq hh .f64 .rne (.v 0) (.v 2), .fdot2 hh .f16 .rne (.s 0) (.v 1) (.s 2) (.s 3)] = true := by decide

theorem test_refuses_moves : refused [.mov hh true (.v 1) (.v 0), .mov hh false (.imm 0) (.v 0), .movi hh (.p 0) 0, .cvt hh .rne false .f64 .f32 (.v 1) (.v 0),
    .cbdec hh true (.v 0) (.v 1) 0 4, .shfl hh .idx 0 (.base 0) (.v 1) 0, .vote hh .ballot (.p 0) 1, .vote hh .all (.v 0) 1, .redux hh .add (.p 0) 0,
    .prmt hh false (.v 0) (.v 1) (.v 2) (.p 3), .pset hh true 15 (.v 0), .pset hh false 1 (.v 0), .plop hh .and false false false 15 0 0 0] = true := by
  decide

theorem test_refuses_memory : refused [.ld h1 .b80 false .dflt 0 0 (.v 0) 0 0 false, .ld h1 .b64 false .dflt 1 0 (.v 0) 0 0 false,
    .ld h1 .b32 false .dflt 0 0 (.base 1) 0 0 false, .ld h1 .b32 true .dflt 0 0 (.v 1) 0 0 false, .ld h1 .b32 false .dflt 0 0 (.v 0) 0 1 false,
    .ld h1 .b32 false .dflt 0 0 (.v 0) 0 11 true, .st hh .s8 false .dflt (.v 0) 0 (.v 1) 0 0 false, .st hh .b64 false .dflt (.v 1) 0 (.v 2) 0 0 false,
    .ldu h1 .b128 false (.s 0) 0 (.s 1) 0 0 false, .ldu h1 .b80 false (.s 0) 0 (.s 1) 0 0 false, .ldu h1 .b32 false (.s 0) 0 (.v 1) 0 0 false,
    .ldres h1 .b64 false 1 0 (.v 0) 0 0 false, .stcond h1 .b32 false false 0 0 (.v 1) 0 0 15, .atom h1 .cas .n64 0 0 (.v 2) (.v 5),
    .fatom h1 .add .f64 1 0 (.v 2) (.v 4), .fatomOrd h1 0 0 (.base 0) (.v 1), .acell hh 0 (.v 0) 0 0, .acellClose hh 0 0 11,
    .pst hh (.base 0) 0 (.v 0) (.v 1), .fence hh .ar 11, .bset hh 0 0 (.v 0) 0, .bsetAdd64 hh 0 0 1 0, .bsetIns hh 0 0 (.s 0) 3, .bsetRd hh 0 0 3,
    .pref hh .l2 false 0 (.base 0) 0, .cctl hh .evict 0 (.base 0) 0, .tlbinvPage hh 0 (.v 0) 0] = true := by decide

theorem test_refuses_scratchpad : refused [.lookup hh (.s 0) 0 (.v 0) 0, .lookup hh (.p 0) 0 (.s 0) 0, .tagset hh (.base 0) 0 (.s 0) 0,
    .tagset hh (.s 0) 0 (.v 0) 0, .tagclr hh (.p 0), .tagrd hh 0 (.p 0), .tagrdAddr hh 0 (.p 0),
    .copy hh ⟨false, false, false, false, false, false, 0, 1, 0, 0⟩ (.imm 0) 0 0, .copy hh ⟨false, false, false, false, false, false, 0, 0, 0, 0⟩ (.imm 0) 0 1,
    .copyw hh ⟨true, false, false, false, false, false, 0, 0, 0, 0⟩ (.imm 0) 0 0, .copym hh false false false (.imm 0) 0 0 2, .waitany hh true (.v 0),
    .waitall hh false (.s 1), .ffready hh true 0 (.v 0), .cwaitlt hh 0 0, .cwaitlt hh 0 257, .ctrrd hh 0 0 5, .ctrrd hh 0 1 1] = true := by decide

theorem test_refuses_engines : refused [.tdef hh 0 0 (.v 0) 0, .tset hh 0 (.base 0) .bits, .tset hh 0 (.s 0) .base, .tget h1 (.s 0) 0 .base,
    .tget h1 (.base 0) 0 .bits, .tloadcb hh 0 0 11 false, .batload hh false false 1 (.imm 0) 0 (.s 0) 0 0, .batload hh false false 0 (.v 0) 0 (.s 0) 0 0,
    .batload hh false false 0 (.imm 0) 0 (.s 0) 0 1, .batstat h1 0 (.imm 0) 7, .mmt hh false false false false (.v 0) (.tile 0) (.tile 1) 0,
    .mmt hh false false true false (.imm 0) (.tile 0) (.tile 1) 0, .mmx hh false false false false (.imm 0) 0 0 1, .mresume hh false 1 0 (.s 0) 0,
    .mresumeReg hh false 1, .msave hh false false 1 0 (.s 0) 0, .mldt hh ⟨false, false, false, false, false, false, 0, 1, 0⟩ (.tile 0) 0 0,
    .mstt hh ⟨false, false, false, false, false, false, 0, 0, 1⟩ (.tile 0) 0 0, .mzero hh false 0 true (.imm 0) (.v 0), .mrd h1 0 (.v 0) (.imm 0),
    .mwr hh (.p 0) (.imm 0) (.imm 0), .mchk h1 0 false false (.s 1) (.imm 0) (.imm 0) (.s 0), .mchk h1 0 false true (.s 0) (.imm 0) (.imm 0) (.s 0),
    .mdrain hh false false false false false 0 0 1 0, .tbeginSeg hh 0 (.v 0) 0, .trec hh (.imm 0), .tpop h1 (.p 0),
    .coll hh .ar false false false 0 0 1 0, .coll hh .bar false false false 1 0 0 0] = true := by decide

/-! ## A small machine -/

/-- A block of one group of 32 threads with every demand at its highest, in slot 0 of core 0. -/
def tBlock : Block := placedBlock 0

/-- A path of all lanes at slot 0 of the image. -/
def tPath : Path := Path.fresh 0x100000 0xFFFFFFFF 0x100030

/-- A group with that path, whose first registers have been written: v1 holds the lane numbers, p1 is true in lanes 0 to 9. -/
def tGroup : Group :=
  { placedGroup 0 1 0 with
    v := [(0, .u 5), (1, .a 0 1), (2, .u 7), (3, .a 0x100 4), (4, .u 0), (5, .u 0), (6, .u 0), (7, .u 0)]
    s := [(0, 1), (1, 2), (2, 3), (3, 4), (4, 0), (5, 0), (6, 0), (7, 0), (8, 0), (9, 0), (10, 0), (11, 0)]
    p := [(1, 0x3FF)], b := [(0, 0x100030), (2, 0x200000), (13, 0x100000), (15, 0x100000)], paths := [tPath] }

def tWho : Issuer := ⟨1, 0⟩

/-- A machine in which a group issues, in a block. -/
def tState (g : Group) (b : Block) : State :=
  { State.reset with issuer := some tWho, groups := [(1, g)], blocks := [(0, b)], launches := [(0, placedLaunch)], nextId := 10 }

/-- The group behind an instruction, once its results of fixed latency have been written. -/
def after (i : Instr) (s : State) : Group :=
  match exec i s with
  | .next t => (Tbl.find (t.land 1 fun _ => true).groups 1).getD tGroup
  | _ => tGroup

/-- A page table of 16 GiB pages from its root at 0x10000, whose one leaf maps address 0 of the space to address 0 of HBM for
every kind of access. -/
def tTables : Memory := [(0x10000, 1), (0x10002, 2), (0x20000, 1), (0x20002, 3), (0x30000, 1), (0x30002, 4), (0x40000, 0x79)]

/-- A device that runs under that table, with key slot 0. -/
def tVd : VDev := { VDev.init with run := true, sched := true, config := [0, 0, 1] ++ List.replicate 253 0 }

/-- The machine that issues, of a device that runs, at a cycle in which a scheduler has had its turn. -/
def tRunning (at' : Nat) (g : Group) (b : Block) : State :=
  { tState g b with vds := [(0, tVd)], cores := [(0, { Core.init with obs := [(0, { issued := at' + 1, last := [], seen := [], left := 0, draws := 0, tagged := none, lastSlot := 0, clock := 0 })] })]
                    cycle := at' }

def t0 : State := tState tGroup tBlock

/-! ## Single steps: values of the spec's tables and rules -/

/-- R131: the saturated signed sum stops at 2^31 − 1. -/
theorem test_iadd_saturates :
    (after (.iadd hh .s32 true (.s 1) (.s 0) (.konst .zero) 1) (tState { tGroup with s := [(0, 0x7FFFFFFF)] } tBlock)).sreg 1 1 = 0x7FFFFFFF := by decide
/-- R131: the plain sum wraps. -/
theorem test_iadd_wraps :
    (after (.iadd hh .n32 false (.s 1) (.s 0) (.konst .zero) 1) (tState { tGroup with s := [(0, 0xFFFFFFFF)] } tBlock)).sreg 1 1 = 0 := by decide
/-- R132: the high half of −1 × 2. -/
theorem test_imulhi_signed :
    (after (.imulhi hh .s32 (.s 2) (.s 0) (.s 1) 0) (tState { tGroup with s := [(0, 0xFFFFFFFF), (1, 2)] } tBlock)).sreg 1 2 = 0xFFFFFFFF := by decide
theorem test_imulhi_unsigned :
    (after (.imulhi hh .n32 (.s 2) (.s 0) (.s 1) 0) (tState { tGroup with s := [(0, 0xFFFFFFFF), (1, 2)] } tBlock)).sreg 1 2 = 1 := by decide
/-- 07, one register followed through its shapes: IMUL by 4 of the lane number is AFFINE of stride 4. -/
theorem test_imul_shape : (after (.imul hh .n32 (.v 2) (.v 1) (.konst .zero) 4) t0).vreg 1 2 = .a 0 4 := by decide
/-- The same section: `ICMP.lt p1, v1, zero, 10` is true in lanes 0 to 9. -/
theorem test_icmp :
    (after (.icmp hh .n32 .lt 1 (.v 1) (.konst .zero) 10) (tState { tGroup with p := [(1, 0)] } tBlock)).preg 1 1 = 0x3FF := by decide
/-- The same section: the guarded sum leaves 0x125 in lane 9 and 0x128 in lane 10, GENERAL. -/
theorem test_partial_write :
    let r := (after (.iadd ⟨false, 1, 4, 0, 15, false⟩ .n32 false (.v 3) (.v 3) (.konst .zero) 1) t0).vreg 1 3
    r.lane 9 = 0x125 ∧ r.lane 10 = 0x128 ∧ r.tag = 2 := by decide
/-- R133: a shift by 32 or more gives zero. -/
theorem test_shl_all : (after (.shl hh false (.s 4) (.s 0) (.konst .zero) 32) t0).sreg 1 4 = 0 := by decide
/-- R136, R154: 1 + 1/2 in FP32. -/
theorem test_fadd : (after (.fadd hh .f32 .rne (.s 4) (.konst .fone) (.konst .fhalf)) t0).sreg 1 4 = 0x3FC00000 := by decide
/-- R137: the multiply-accumulate of 2 × 2 − 1 rounds once. -/
theorem test_ffma : (after (.ffma hh .f32 .rne (.s 4) (.konst .ftwo) (.konst .ftwo) (.konst .fmone)) t0).sreg 1 4 = 0x40400000 := by decide
/-- R138: −1 < 1. -/
theorem test_fcmp : (after (.fcmp hh .f32 .lt 1 (.konst .fmone) (.konst .fone)) t0).preg 1 1 = 0xFFFFFFFF := by decide
/-- R143: the conversion of 2.0 to an integer. -/
theorem test_cvt : (after (.cvt hh .rtz true .s32 .f32 (.s 4) (.konst .ftwo)) t0).sreg 1 4 = 2 := by decide
/-- R145: SHFL.xor by 1 exchanges neighbours. -/
theorem test_shfl : ((after (.shfl hh .xor 2 (.v 1) (.konst .zero) 1) t0).vreg 1 2).lane 6 = 7 := by decide
/-- R146: the ballot of p1. -/
theorem test_ballot : (after (.vote hh .ballot (.s 4) 1) t0).sreg 1 4 = 0x3FF := by decide
/-- R146: the sum of the lane numbers. -/
theorem test_redux : (after (.redux hh .add (.s 4) 1) t0).sreg 1 4 = 496 := by decide
/-- R99: `?p1 BRA +3` leaves lanes 0 to 9 three slots on and the others at the next slot. -/
theorem test_bra : (after (.bra ⟨false, 1, 1, 0, 15, false⟩ 3) t0).paths.map (fun p => (p.pc, p.mask)) =
    [(0x100024, 0x3FF), (0x10000C, 0xFFFFFC00)] ∨ (after (.bra ⟨false, 1, 1, 0, 15, false⟩ 3) t0).paths.map (fun p => (p.pc, p.mask)) =
    [(0x10000C, 0xFFFFFC00), (0x100024, 0x3FF)] := by decide
/-- R101: CALL leaves the next slot in the base. -/
theorem test_call : (after (.call hh 1 5) t0).breg 1 1 = 0x10000C := by decide
/-- R103: JOIN sets the live lanes' bits. -/
theorem test_join : (after (.join ⟨false, 1, 1, 0, 15, false⟩ 2) t0).rejoin false 2 = 0x3FF := by decide
/-- R348: TRAP 5 parks its lanes with cause 0x045. -/
theorem test_trap : ((Tbl.find (after (.trap hh 5) t0).faults 31).map (·.code)) = some 0x045 := by decide
/-- R195: `.ins` with k = 2 replaces bits 79:64. -/
theorem test_bset_ins : (after (.bsetIns hh 1 2 (.s 0) 2) t0).breg 1 1 = 0x00010000000000200000 := by decide
/-- R195: the sum wraps modulo 2^80. -/
theorem test_bset : (after (.bset hh 1 2 (.konst .ones) 0) t0).breg 1 1 = 0x1FFFFF := by decide
/-- R149: a and not a and a is false. -/
theorem test_plop : (after (.plop hh .and false true false 1 1 1 1) t0).preg 1 1 = 0 := by decide
/-- The placed word is fetched and runs: the MARK of 19, `A sampled loop`, moves the PC on by one slot. -/
theorem test_step_mark : (match step (State.reset.withFetchWord 96 0x0500780000000000008001E0) with
    | .next t => t.groups.map fun e => e.2.paths.map (·.pc)
    | _ => []) = [[0x10000C]] := by decide
/-- R54: the zero word parks its lanes with ENC_OPCODE. -/
theorem test_step_zero : (match step (State.reset.withFetchWord 96 0) with
    | .next t => t.groups.map fun e => (Tbl.find e.2.faults 0).map (·.code)
    | _ => []) = [some 0x000] := by decide
/-- A package without power and without a turn to take stops. -/
theorem test_no_power : step { State.reset with powered := false } = .fault .noPower := rfl

/-! ## Witnesses: for each statement with hypotheses, states and operands that meet them -/

theorem tRuns {g : Group} {b : Block} {p : Path} (h : Hints) (ops : List (Nat × Opnd × Nat)) (hp : pathAt g.paths 0 = some p)
    (hl : 0 = lowLane p.mask) (hb : g.blk = 0) (he : g.errs = []) (hv : (State.issueCtx (tState g b) tWho g p b h).live ≠ 0)
    (hd : demandFail b ops = none) : Runs (tState g b) tWho g p b h ops :=
  ⟨⟨rfl, rfl, hp, hl, by rw [hb]; rfl, he⟩, hv, hd⟩

/-- The small machine issues an instruction that names the registers of `ops`. -/
theorem runs0 (ops : List (Nat × Opnd × Nat)) (hd : demandFail tBlock ops = none) : Runs t0 tWho tGroup tPath tBlock hh ops :=
  tRuns hh ops rfl (by decide) rfl rfl (by decide) hd

theorem runs1 (ops : List (Nat × Opnd × Nat)) (hd : demandFail tBlock ops = none) : Runs t0 tWho tGroup tPath tBlock h1 ops :=
  tRuns h1 ops rfl (by decide) rfl rfl (by decide) hd

/-- The same under the guard p1: lanes 0 to 9 are live. -/
def hp : Hints := ⟨false, 1, 1, 0, 15, false⟩
theorem runsP (ops : List (Nat × Opnd × Nat)) (hd : demandFail tBlock ops = none) : Runs t0 tWho tGroup tPath tBlock hp ops :=
  tRuns hp ops rfl (by decide) rfl rfl (by decide) hd

/-- Under the guard of a predicate that is false in every lane no lane is live. -/
def tNone : Group := { tGroup with p := [(1, 0)] }

theorem roomy0 : Roomy t0 tWho tGroup tPath tBlock hh := by unfold Roomy; decide +kernel
theorem roomy1 : Roomy t0 tWho tGroup tPath tBlock h1 := by unfold Roomy; decide +kernel
theorem quiet0 (ds : List RegId) : Quiet tGroup ds := fun _ _ => rfl
theorem apart0 : Apart tGroup := by unfold Apart; decide

/-- What holds of the 32 lanes holds of the lanes of a mask. -/
theorem lanes_of {m : LaneMask} {P : Nat → Prop} (h : ∀ l < 32, P l) : ∀ l, has m l = true → P l := fun l hl => h l (lt_of_has hl)
theorem idle0 : Issuing (tState tNone tBlock) tWho tNone tPath tBlock := ⟨rfl, rfl, rfl, by decide, rfl, rfl⟩

theorem witness_DecodeEncode : ∃ i, wellFormed i = true ∧ i.isEvent = false :=
  ⟨.iadd hh .s64 true (.v 254) (.v 252) (.s 62) 0xFFF, by decide, by decide⟩

theorem witness_ReservedOpcode : (∃ w : BitVec 96, opDefined (w.extractLsb' 86 10).toNat = false) ∧
    (∃ w : BitVec 96, w.extractLsb' 93 3 = 7) ∧ ∃ w : BitVec 96, w.extractLsb' 93 3 ≠ 7 ∧ w.extractLsb' 86 7 = 0 :=
  ⟨⟨0, by decide⟩, ⟨0xFFFFFFFF0000000000000000, by decide⟩, ⟨0x400000000000000000000000 &&& 0x3FFFFFFFFFFFFFFFFFFFFF, by decide⟩⟩

theorem witness_StepRunsDecoded : ∃ (s : State) (core sched gid : Nat) (more : List Nat) (rest : List Turn) (g : Group) (p : Path)
    (w : BitVec 96) (i : Instr) (t : State),
    s.powered = true ∧ s.agenda = .issue core sched :: rest ∧ core < 256 ∧ sched < 4 ∧
    let a := { s with agenda := rest }
    let s0 := a.applyTdefs core (a.nextSched core) (sched + 1)
    a.turned core sched = false ∧ s0.picks core sched true = [] ∧ s0.picks core sched false = gid :: more ∧
    Tbl.find s0.groups gid = some g ∧ g.current = some p ∧
    let s1 := s0.modSched core sched fun o => { o with issued := s0.cycle + 1, last := [] }
    s1.nextWord gid g p = some w ∧ s1.pcUnit g p = none ∧ decode w = .ok i ∧
    exec i { s1 with issuer := some ⟨gid, lowLane p.mask⟩ } = .next t ∧ (Tbl.find t.groups gid).bind (·.stall) = none ∧
    let u := s1.noteIssue { t with issuer := none } core sched gid g p w false
    a.mustCommit u = [] ∧ (∀ e ∈ s.vds, e.2.withheld = []) ∧ ∀ e ∈ u.vds, e.2.msmode = 0 :=
  ⟨State.reset.withFetchWord 96 0x0500780000000000008001E0, 0, 0, 0, [], [], placedGroup 0 0 0, _, _, _, _, rfl, rfl, by decide,
    by decide, by decide, by decide, by decide, rfl, rfl, rfl, by decide, rfl, rfl, by decide, by decide, by decide, by decide⟩

theorem witness_DecodeTrap : ∃ (gid : Nat) (g : Group) (p : Path) (w : BitVec 96) (e : DecErr),
    decode w = .error e ∧ Tbl.find t0.groups gid = some g ∧ p.mask ≠ 0 ∧ p.handler = false :=
  ⟨1, tGroup, tPath, 0, _, rfl, rfl, by decide, rfl⟩

theorem witness_IntegerResults :
    (∃ i f, int32 i = some f ∧ wellFormed i = true ∧ ∃ s who g p b, Runs s who g p b f.h f.ops ∧ Roomy s who g p b f.h ∧
      Quiet g (Opnd.regs 1 f.d)) ∧
    ∃ i f, int64 i = some f ∧ wellFormed i = true ∧ ∃ s who g p b, Runs s who g p b f.h f.ops ∧ Roomy s who g p b f.h ∧
      Quiet g (Opnd.regs 2 f.d) :=
  ⟨⟨.iadd hh .n32 false (.v 0) (.v 1) (.v 2) 0x7FF, _, rfl, by decide, _, _, _, _, _, runs0 _ (by decide), roomy0, quiet0 _⟩,
   ⟨.iadd hh .s64 true (.v 0) (.v 2) (.s 2) 0x800, _, rfl, by decide, _, _, _, _, _, runs0 _ (by decide), roomy0, quiet0 _⟩⟩

theorem witness_FloatResults :
    (∃ i f, float32 i = some f ∧ wellFormed i = true ∧ ∃ s who g p b, Runs s who g p b f.h f.ops ∧ Roomy s who g p b f.h ∧
      Quiet g (Opnd.regs 1 f.d)) ∧
    ∃ i f, float64 i = some f ∧ wellFormed i = true ∧ ∃ s who g p b, Runs s who g p b f.h f.ops ∧ Roomy s who g p b f.h ∧
      Quiet g (Opnd.regs 2 f.d) :=
  ⟨⟨.ffma hh .bf16 .rna (.v 0) (.v 1) (.v 2) (.imm 1), _, rfl, by decide, _, _, _, _, _, runs0 _ (by decide), roomy0, quiet0 _⟩,
   ⟨.fdiv hh .f64 .rup (.s 0) (.s 2) (.s 62), _, rfl, by decide, _, _, _, _, _, runs0 _ (by decide), roomy0, quiet0 _⟩⟩

/-- A group two of whose paths wait on j2, which is about to be written. -/
def tGather : Group :=
  { tGroup with due := [⟨1, 0xFFFFFFFF, 0, false, .j 2 3 false⟩]
                paths := [{ tPath with mask := 1, st := .join 2 }, { tPath with mask := 2, st := .join 2 }, { tPath with mask := 0xFFFFFFFC }] }

theorem witness_Moves :
    (∃ i f, move32 i = some f ∧ wellFormed i = true ∧ ∃ s who g p b, Runs s who g p b f.h f.ops ∧ Roomy s who g p b f.h ∧
      Quiet g (Opnd.regs 1 f.d)) ∧
    (∃ d a, wellFormed (.mov hh false d a) = true ∧ (d.isV || d.isS) = true ∧ Runs t0 tWho tGroup tPath tBlock hh [(0, d, 1), (1, a, 1)] ∧
      Roomy t0 tWho tGroup tPath tBlock hh ∧ Quiet tGroup (Opnd.regs 1 d)) ∧
    (∃ d a, wellFormed (.mov hh true d a) = true ∧ Runs t0 tWho tGroup tPath tBlock hh [(0, d, 2), (1, a, 2)]) ∧
    (∃ d a, wellFormed (.cvt hh .rne false .s64 .f32 d a) = true ∧ cvtIs64 .s64 = true ∧
      Runs t0 tWho tGroup tPath tBlock hh [(0, d, 2), (1, a, 1)]) ∧
    (∃ (k : BitVec 3) (a : Opnd), wellFormed (.mov hh false (.j k) a) = true ∧ Runs t0 tWho tGroup tPath tBlock hh [(0, .j k, 1), (1, a, 1)] ∧
      (tPath.handler = true → namesHighJ (.j k) = false ∧ namesHighJ a = false) ∧ Quiet tGroup [.j k.toNat]) ∧
    ∃ (s : State) (g : Group) (d : Due) (k : Nat) (m : LaneMask) (pc : Va), Tbl.find s.groups 1 = some g ∧ Apart g ∧ g.due = [d] ∧ d.write = .j k m false ∧ k < 8 ∧
      g.vfor (.j k) = [] ∧ m &&& g.full ≠ 0 ∧ (m &&& g.full) &&& ~~~waiting g false k = 0 ∧ ∀ q ∈ g.waiters false k, q.mask &&& (m &&& g.full) ≠ 0 → q.pc = pc :=
  ⟨⟨.redux hh .smax (.s 0) 1, _, rfl, by decide, _, _, _, _, _, runs0 _ (by decide), roomy0, quiet0 _⟩,
   ⟨.v 0, .j 7, by decide, rfl, runs0 _ (by decide), roomy0, quiet0 _⟩, ⟨.v 0, .v 2, by decide, runs0 _ (by decide)⟩,
   ⟨.v 0, .v 1, by decide, rfl, runs0 _ (by decide)⟩, ⟨7, .s 0, by decide, runs0 _ (by decide), by decide, quiet0 _⟩,
   tState tGather tBlock, tGather, _, 2, _, 0x100000, rfl, by unfold Apart; decide, rfl, rfl, by decide, rfl, by decide, by decide, by decide⟩

theorem witness_PredicateResults : ∃ i f, predForm i = some f ∧ wellFormed i = true ∧ ∃ s who g p b, Runs s who g p b f.h f.ops ∧
    Roomy s who g p b f.h ∧ Quiet g [.p f.d.toNat] :=
  ⟨.pset hh true 14 (.v 1), _, rfl, by decide, _, _, _, _, _, runs0 _ (by decide), roomy0, quiet0 _⟩

/-- A block with a codebook in entry 0. -/
def tCb : Block := { tBlock with tx := [(0, 0x15)], cb := [(0, List.replicate 32 0)] }

theorem witness_CheckedMoves :
    (∃ d a, Runs t0 tWho tGroup tPath tBlock hh [(0, .s d, 1), (1, .v a, 1)] ∧ Quiet tGroup [.s d.toNat] ∧
      let c := State.issueCtx t0 tWho tGroup tPath tBlock hh
      ∀ l, has c.live l = true → (c.v 1 a.toNat).lane l = (c.v 1 a.toNat).lane (lowLane c.live)) ∧
    (∃ d a, Runs t0 tWho tGroup tPath tBlock hh [(0, .s d, 1), (1, .v a, 1)] ∧ Apart tGroup ∧ tPath.handler = false ∧
      let c := State.issueCtx t0 tWho tGroup tPath tBlock hh
      ∃ l, has c.live l = true ∧ (c.v 1 a.toNat).lane l ≠ (c.v 1 a.toNat).lane (lowLane c.live)) ∧
    ∃ d a tx nib st, wellFormed (.cbdec hh true d a tx nib) = true ∧ Runs (tState tGroup tCb) tWho tGroup tPath tCb hh [(0, d, 1), (1, a, 1)] ∧
      Roomy (tState tGroup tCb) tWho tGroup tPath tCb hh ∧ Quiet tGroup (Opnd.regs 1 d) ∧
      (tState tGroup tCb).loadingCb tGroup.core tGroup.blk tx.toNat = false ∧ tCb.store tx.toNat = some st ∧
      txReason (tCb.txEnt tx.toNat) (some st) ⟨[.cb4], true, false, false⟩ = none :=
  ⟨⟨0, 2, runs0 _ (by decide), quiet0 _, lanes_of (by decide)⟩, ⟨0, 1, runs0 _ (by decide), apart0, rfl, 1, by decide, by decide⟩,
   .v 0, .v 1, 0, 3, _, by decide, tRuns hh _ rfl (by decide) rfl rfl (by decide) (by decide), by unfold Roomy; decide +kernel, quiet0 _, by decide, rfl, by decide +kernel⟩

/-- What the shape of a form asks of the small machine, with the guard of some lanes or of all. -/
def shaped (h : Hints) (d : Opnd) (n : Nat) (ops : List (Nat × Opnd × Nat)) : Prop :=
  (∃ k, d = .v k) ∧ Runs t0 tWho tGroup tPath tBlock h ops ∧ Roomy t0 tWho tGroup tPath tBlock h ∧ Quiet tGroup (Opnd.regs n d) ∧
    (tPath.handler = true → ∀ o ∈ ops, namesHighJ o.2.1 = false)

theorem witness_ShapeOfResults :
    (∃ i f, int32 i = some f ∧ wellFormed i = true ∧ shaped f.h f.d 1 f.ops ∧ (State.issueCtx t0 tWho tGroup tPath tBlock f.h).live = tGroup.full) ∧
    (∃ i f, int32 i = some f ∧ wellFormed i = true ∧ shaped f.h f.d 1 f.ops ∧ (State.issueCtx t0 tWho tGroup tPath tBlock f.h).live ≠ tGroup.full) ∧
    (∃ i f, float32 i = some f ∧ wellFormed i = true ∧ shaped f.h f.d 1 f.ops) ∧ (∃ i f, move32 i = some f ∧ wellFormed i = true ∧ shaped f.h f.d 1 f.ops) ∧
    (∃ i f, int64 i = some f ∧ wellFormed i = true ∧ shaped f.h f.d 2 f.ops ∧ (State.issueCtx t0 tWho tGroup tPath tBlock f.h).live = tGroup.full) ∧
    (∃ i f, int64 i = some f ∧ wellFormed i = true ∧ shaped f.h f.d 2 f.ops ∧ (State.issueCtx t0 tWho tGroup tPath tBlock f.h).live ≠ tGroup.full) ∧
    (∃ i f, float64 i = some f ∧ wellFormed i = true ∧ shaped f.h f.d 2 f.ops) ∧
    (∃ d a, wellFormed (.mov hh false d a) = true ∧ shaped hh d 1 [(0, d, 1), (1, a, 1)]) ∧
    (∃ d a, wellFormed (.mov hh true d a) = true ∧ shaped hh d 2 [(0, d, 2), (1, a, 2)]) ∧
    (∃ d a, wellFormed (.cvt hh .rne false .s64 .f32 d a) = true ∧ cvtIs64 .s64 = true ∧ shaped hh d 2 [(0, d, 2), (1, a, 1)]) ∧
    ∃ n a tx nib st, wellFormed (.cbdec hh true (.v n) a tx nib) = true ∧ Runs (tState tGroup tCb) tWho tGroup tPath tCb hh [(0, .v n, 1), (1, a, 1)] ∧
      Roomy (tState tGroup tCb) tWho tGroup tPath tCb hh ∧ Quiet tGroup (Opnd.regs 1 (.v n)) ∧ tCb.store tx.toNat = some st ∧
      txReason (tCb.txEnt tx.toNat) (some st) ⟨[.cb4], true, false, false⟩ = none ∧
      (State.issueCtx (tState tGroup tCb) tWho tGroup tPath tCb hh).live = tGroup.full :=
  ⟨⟨.imad hh .n32 (.v 2) (.v 1) (.s 0) (.v 3), _, rfl, by decide, ⟨⟨_, rfl⟩, runs0 _ (by decide), roomy0, quiet0 _, by decide⟩, by decide⟩,
   ⟨.iadd hp .n32 true (.v 2) (.v 1) (.s 0) 1, _, rfl, by decide, ⟨⟨_, rfl⟩, runsP _ (by decide), by unfold Roomy; decide +kernel, quiet0 _, by decide⟩, by decide⟩,
   ⟨.fsel hh .f32 (.v 2) (.v 1) (.s 0) 1, _, rfl, by decide, ⟨_, rfl⟩, runs0 _ (by decide), roomy0, quiet0 _, by decide⟩,
   ⟨.expand hh 0 255, _, rfl, by decide, ⟨_, rfl⟩, runs0 _ (by decide), roomy0, quiet0 _, by decide⟩,
   ⟨.isel hh true (.v 0) (.v 2) (.s 2) 1, _, rfl, by decide, ⟨⟨_, rfl⟩, runs0 _ (by decide), roomy0, quiet0 _, by decide⟩, by decide⟩,
   ⟨.iadd hp .s64 false (.v 0) (.v 2) (.s 2) 1, _, rfl, by decide, ⟨⟨_, rfl⟩, runsP _ (by decide), by unfold Roomy; decide +kernel, quiet0 _, by decide⟩, by decide⟩,
   ⟨.fadd hh .f64 .rne (.v 0) (.v 2) (.s 2), _, rfl, by decide, ⟨_, rfl⟩, runs0 _ (by decide), roomy0, quiet0 _, by decide⟩,
   ⟨.v 0, .j 7, by decide, ⟨_, rfl⟩, runs0 _ (by decide), roomy0, quiet0 _, by decide⟩, ⟨.v 0, .s 2, by decide, ⟨_, rfl⟩, runs0 _ (by decide), roomy0, quiet0 _, by decide⟩,
   ⟨.v 0, .v 1, by decide, rfl, ⟨_, rfl⟩, runs0 _ (by decide), roomy0, quiet0 _, by decide⟩,
   0, .s 1, 0, 3, _, by decide, tRuns hh _ rfl (by decide) rfl rfl (by decide) (by decide), by unfold Roomy; decide +kernel, quiet0 _, rfl, by decide +kernel, by decide⟩

/-- A block whose demands are the smallest. -/
def tLow : Block := { tBlock with nv := 8, ns := 8 }

theorem witness_IssueChecks :
    (∀ i, i = Instr.iadd hp .n32 false (.v 0) (.v 1) (.v 2) 0 ∨ i = .bra hp 3 → ∃ h, hintsOf i = some h ∧ Issuing (tState tNone tBlock) tWho tNone tPath tBlock ∧
      (State.issueCtx (tState tNone tBlock) tWho tNone tPath tBlock h).live = 0 ∧ ((∃ disp, i = .bra h disp) → tNone.track.st ≠ .recording)) ∧
    (∀ pos < 4, ∃ i h ops, laneOps i = some (h, ops) ∧ Issuing (tState tGroup tLow) tWho tGroup tPath tLow ∧ Apart tGroup ∧
      tPath.handler = false ∧ (State.issueCtx (tState tGroup tLow) tWho tGroup tPath tLow h).live ≠ 0 ∧ demandFail tLow ops = some pos) := by
  refine ⟨?_, ?_⟩
  · rintro i (rfl | rfl) <;> exact ⟨hp, rfl, idle0, by decide, fun _ => by decide⟩
  have hi : Issuing (tState tGroup tLow) tWho tGroup tPath tLow := ⟨rfl, rfl, rfl, by decide, rfl, rfl⟩
  intro pos hpos
  match pos, hpos with
  | 0, _ => exact ⟨.imad hh .n32 (.v 8) (.v 1) (.v 2) (.v 3), _, _, rfl, hi, apart0, rfl, by decide, by decide⟩
  | 1, _ => exact ⟨.imad hh .n32 (.v 7) (.v 8) (.v 2) (.v 3), _, _, rfl, hi, apart0, rfl, by decide, by decide⟩
  | 2, _ => exact ⟨.imad hh .n32 (.v 0) (.v 1) (.v 255) (.v 3), _, _, rfl, hi, apart0, rfl, by decide, by decide⟩
  | 3, _ => exact ⟨.imad hh .n32 (.v 0) (.v 1) (.v 2) (.s 8), _, _, rfl, hi, apart0, rfl, by decide, by decide⟩

/-! ### Control -/

/-- A group of the same block under its handler's path. -/
def tHandled : Group := { tGroup with paths := [{ tPath with handler := true }], handler := some ⟨0xFFFFFFFF, 0xFFFFFFFF, 0, 0⟩ }

theorem runsG (g : Group) (h : Hints) (ops : List (Nat × Opnd × Nat)) (p : Path) (hp : pathAt g.paths 0 = some p) (hl : 0 = lowLane p.mask)
    (hb : g.blk = 0) (he : g.errs = []) (hv : (State.issueCtx (tState g tBlock) tWho g p tBlock h).live ≠ 0)
    (hd : demandFail tBlock ops = none) : Runs (tState g tBlock) tWho g p tBlock h ops := tRuns h ops hp hl hb he hv hd

theorem witness_IssueOnly : Issuing t0 tWho tGroup tPath tBlock ∧
    (Runs t0 tWho tGroup tPath tBlock hh [] ∧ (t0.vd tBlock.vd).trace.cfg.getLsbD 31 = false) ∧
    (Runs t0 tWho tGroup tPath tBlock hh [] ∧ t0.threadBusy tBlock.launch (tGroup.ltids (State.issueCtx t0 tWho tGroup tPath tBlock hh).live) = false) ∧
    Runs t0 tWho tGroup tPath tBlock hh [(2, .v 254, 2)] :=
  ⟨(runs0 [] rfl).toIssuing, ⟨runs0 _ rfl, by decide⟩, ⟨runs0 _ rfl, by decide⟩, runs0 _ (by decide)⟩

/-- A track with one segment at 0x200000 that holds `used` bytes, and one region in lanes 0 to 9. -/
def tTrack (st : TapeSt) (used : Nat) : Track :=
  { Track.init with st := st, segs := [{ addr := 0x200000, used := used, seq := 0 }]
                    regions := [{ mask := 0x3FF, first := ⟨0, 32⟩, last := ⟨0, 32 + used⟩, trunc := false, truncSeg := none, dropped := 0, lastMark := 0xFFFFFFFF }] }

/-- The group in the course of a recording; p2 is true in lanes 0 to 3. -/
def tRecording : Group := { tGroup with p := [(1, 0x3FF), (2, 0xF)], track := tTrack .recording 8 }
def hp2 : Hints := ⟨false, 2, 1, 0, 15, false⟩
theorem recordingOn : Issuing (tState tRecording tBlock) tWho tRecording tPath tBlock := ⟨rfl, rfl, rfl, by decide, rfl, rfl⟩

theorem witness_Branches : (Issuing t0 tWho tGroup tPath tBlock ∧ Apart tGroup ∧ tGroup.track.st ≠ .recording) ∧
    (∃ r rs, Issuing (tState tRecording tBlock) tWho tRecording tPath tBlock ∧ Apart tRecording ∧ tPath.handler = false ∧ tRecording.track.st = .recording ∧
      tRecording.track.regions = r :: rs ∧
      let act := tPath.mask &&& r.mask
      let tk := fun h => (State.issueCtx (tState tRecording tBlock) tWho tRecording tPath tBlock h).live &&& r.mask
      hh.gp = 15 ∧ act ≠ 0 ∧ (hp.gp ≠ 15 ∧ tk hp = act ∧ tRecording.track.pend.length < 22) ∧
      hp2.gp ≠ 15 ∧ tk hp2 ≠ 0 ∧ tk hp2 ≠ act ∧ tRecording.track.pend = [] ∧ tRecording.track.dead = false ∧ r.trunc = false ∧
      tRecording.track.fits (entBrd act (tk hp2)) = true ∧
      (tState tRecording tBlock).sharedFree tRecording.core (tRecording.track.place (entBrd act (tk hp2))).2.length = true) ∧
    (Runs t0 tWho tGroup tPath tBlock hp [] ∧ Apart tGroup ∧ (13 : BitVec 4) ≠ 14 ∧ Quiet tGroup [.b 13] ∧
      Quiet tGroup [.b14 (State.issueCtx t0 tWho tGroup tPath tBlock hp).live]) :=
  ⟨⟨(runs0 [] rfl).toIssuing, apart0, by decide⟩,
   ⟨_, _, recordingOn, by unfold Apart; decide, rfl, rfl, rfl, by decide, by decide, by decide, by decide, by decide, by decide, rfl, rfl, rfl, by decide, by decide⟩,
   runsP _ rfl, apart0, by decide, quiet0 _, quiet0 _⟩

theorem witness_RegisterBranches :
    (∃ bN off, Issuing t0 tWho tGroup tPath tBlock ∧ Apart tGroup ∧
      let c := State.issueCtx t0 tWho tGroup tPath tBlock hh
      (Runs t0 tWho tGroup tPath tBlock hh [] ∧
        ∀ l, has c.live l = true → isCode (jumpTarget c (State.launchIx t0 tBlock) bN none l) = true) ∧
      (Runs t0 tWho tGroup tPath tBlock hh [(2, off, 1)] ∧
        ∀ l, has c.live l = true → isCode (jumpTarget c (State.launchIx t0 tBlock) bN (some off) l) = true) ∧
      Quiet tGroup [.b14 c.live] ∧ ∃ bD : BitVec 4, bD ≠ 14 ∧ Quiet tGroup [.b bD.toNat]) ∧
    ∃ g : Group, Runs (tState g tBlock) tWho g tPath tBlock hh [] ∧ Apart g ∧ tPath.handler = false ∧
      isCode (jumpTarget (State.issueCtx (tState g tBlock) tWho g tPath tBlock hh) (State.launchIx (tState g tBlock) tBlock) 0 none 0) = false :=
  ⟨⟨0, .v 1, (runs0 [] rfl).toIssuing, apart0, ⟨runs0 _ rfl, lanes_of (by decide)⟩, ⟨runs0 _ (by decide), lanes_of (by decide)⟩, quiet0 _, 0, by decide, quiet0 _⟩,
   { tGroup with b := [(0, 0x100031)] }, runsG _ _ _ _ rfl (by decide) rfl rfl (by decide) rfl, apart0, rfl, by decide⟩

/-- A group whose mask j2 holds every lane, and one whose mask holds lanes 0 to 9. -/
def tAll : Group := { tGroup with j := [(2, 0xFFFFFFFF)] }

/-- A group whose lanes 1 and 2 wait on j2 at an address, and whose lane 0 comes to wait there as the last. -/
def tHead : Path := { tPath with mask := 1 }
def tLast (pc : Va) : Group :=
  { tGroup with j := [(2, 7)], paths := [tHead, { tPath with mask := 2, st := .join 2, pc := pc }, { tPath with mask := 4, st := .join 2 }] }

theorem witness_JoinAndWait :
    (Runs t0 tWho tGroup tPath tBlock hh [] ∧ Apart tGroup ∧ (tPath.handler = true → (7 : BitVec 3).toNat < 2)) ∧
    (∃ g : Group, ∃ jk : BitVec 3, Runs (tState g tBlock) tWho g tPath tBlock hp [] ∧ Apart g ∧ (tPath.handler = true → jk.toNat < 2) ∧ tPath.st = .ready ∧
      let need := g.rejoin tPath.handler jk.toNat
      need &&& ~~~((State.issueCtx (tState g tBlock) tWho g tPath tBlock hp).live &&& need ||| waiting g tPath.handler jk.toNat) ≠ 0) ∧
    (∃ jk : BitVec 3, Runs t0 tWho tGroup tPath tBlock hh [] ∧ tGroup.rejoin tPath.handler jk.toNat = 0) ∧
    ∀ pc : Va, pc = 0x100000 ∨ pc = 0x10000C → let g := tLast pc
      Runs (tState g tBlock) tWho g tHead tBlock hh [] ∧ Apart g ∧ (tHead.handler = true → g.handler.isSome) ∧ tHead.st = .ready ∧ tHead.handler = false ∧
      let need := g.rejoin tHead.handler 2
      let live := (State.issueCtx (tState g tBlock) tWho g tHead tBlock hh).live
      need &&& ~~~((live &&& need) ||| waiting g tHead.handler 2) = 0 ∧ live &&& need ≠ 0 ∧
      (pc = 0x100000 → ∀ q ∈ g.waiters tHead.handler 2, q.mask &&& need ≠ 0 → q.pc = tHead.pc) ∧
      (pc = 0x10000C → ∃ q ∈ g.waiters false 2, q.mask &&& need ≠ 0 ∧ q.pc ≠ tHead.pc) :=
  ⟨⟨runs0 _ rfl, apart0, by decide⟩,
   ⟨tAll, 2, runsG _ _ _ _ rfl (by decide) rfl rfl (by decide) rfl, apart0, by decide, rfl, by decide⟩,
   ⟨0, runs0 _ rfl, by decide⟩, fun pc h => by
    rcases h with rfl | rfl <;>
      exact ⟨runsG _ _ _ _ rfl (by decide) rfl rfl (by decide) rfl, by unfold Apart; decide, by decide, rfl, rfl, by decide, by decide, by decide, by decide⟩⟩

theorem no_waiters (h : Bool) (k : Nat) : tGroup.waiters h k = [] := by
  simp [Group.waiters, tGroup, tPath, Path.fresh]

/-- A load of v0 is outstanding for thread 3 of the group. -/
def tLoading : State := { t0 with accesses := [
  { id := 5, gid := 1, launch := 0, blk := 0, vd := 0, pc := 0x100000, op := .ld 0 4 false false false, acq := false, rel := false, live := 8, flag := some 1,
    who := [tGroup.lt 3], replay := false,
    parts := [{ lane := 3, ltid := tGroup.lt 3, ea := 0x200000, off := 0, seg := .phys 0x200000 4 0 .rc, twin := none, data := 0, aux := 0, done := false,
                ok := true, got := 0 }] }] }

theorem witness_Exits :
    (Runs t0 tWho tGroup tPath tBlock hp [] ∧ Apart tGroup ∧ tGroup.engOut = 0 ∧ tGroup.track = .init ∧ tPath.handler = false ∧ tGroup.handler = none ∧
      t0.threadBusy tBlock.launch (tGroup.ltids (State.issueCtx t0 tWho tGroup tPath tBlock hp).live) = false ∧
      tGroup.alive &&& ~~~(State.issueCtx t0 tWho tGroup tPath tBlock hp).live ≠ 0 ∧ (∀ k, tGroup.waiters false k = [] ∧ tGroup.waiters true k = [])) ∧
    (∃ s, Runs s tWho tGroup tPath tBlock hh [] ∧ setFlag hh = none ∧ tGroup.engOut = 0 ∧ tGroup.track = .init ∧ tGroup.flagsClear = true ∧
      tGroup.handler = none ∧ tPath.handler = false ∧ tGroup.j = [] ∧
      s.threadBusy tBlock.launch (tGroup.ltids (State.issueCtx s tWho tGroup tPath tBlock hh).live) = false ∧ s.tapeBusy tGroup.core tWho.gid = false ∧
      tGroup.alive &&& ~~~(State.issueCtx s tWho tGroup tPath tBlock hh).live = 0 ∧
      (∃ k x, (k, x) ∈ s.groups ∧ k ≠ tWho.gid ∧ x.blk = tGroup.blk) ∧ tBlock.held.length ≤ tBlock.ngr) ∧
    (Runs tLoading tWho tGroup tPath tBlock hh [] ∧ tGroup.engOut = 0 ∧
      tLoading.threadBusy tBlock.launch (tGroup.ltids (State.issueCtx tLoading tWho tGroup tPath tBlock hh).live) = true) :=
  ⟨⟨runsP _ rfl, apart0, rfl, rfl, rfl, rfl, by decide, by decide, fun k => ⟨no_waiters _ k, no_waiters _ k⟩⟩,
   ⟨{ t0 with groups := [(1, tGroup), (2, tGroup)] }, ⟨⟨rfl, rfl, rfl, by decide, rfl, rfl⟩, by decide, rfl⟩, rfl, rfl, rfl, by decide, rfl, rfl, rfl, by decide, by decide,
    by decide, ⟨2, tGroup, by simp, by decide, rfl⟩, by decide⟩,
   ⟨⟨rfl, rfl, rfl, by decide, rfl, rfl⟩, by decide, rfl⟩, rfl, by decide⟩

/-- A bin of 32 threads of the small block, which waits on core 0. -/
def tBin : Bin := { blk := 0, pc := 0x100000, threads := List.replicate 32 ⟨0, [], [], [], [], [], 0⟩, harvest := false }

theorem witness_ReformAndDraw :
    (∃ idx, Runs t0 tWho tGroup tPath tBlock hp [(1, idx, 1)] ∧ Apart tGroup ∧ tPath.handler = false ∧ tGroup.flagsClear = true ∧ setFlag hp = none ∧
      let c := State.issueCtx t0 tWho tGroup tPath tBlock hp
      (∀ l, has c.live l = true → reformBad c (c.src (t0.launchIx tBlock) 1 idx) l = none) ∧
      (t0.core tGroup.core).bins.length + (lanesOf c.live).length ≤ 64 ∧ tGroup.alive &&& ~~~c.live ≠ 0 ∧ (t0.core tGroup.core).cnt = [] ∧
      (t0.die (tGroup.core / 64)).cnt = []) ∧
    ∃ s : State, (s.core 0).bins[0]? = some tBin ∧ Tbl.find s.blocks tBin.blk = some tBlock ∧ s.emptySlot 0 tBin.blk tBlock = some (0, 0) ∧
      tBin.threads.length = (if tBlock.narrow then 16 else 32) ∧ (∀ y ∈ (s.core 0).bins, tBin.age ≤ y.age) ∧ ∀ q ∈ s.groups, q.1 ≠ s.nextId :=
  ⟨⟨.v 1, runsP _ (by decide), apart0, rfl, by decide, rfl, lanes_of (by decide), by decide, by decide, rfl, rfl⟩,
   { t0 with groups := [], cores := [(0, { Core.init with bins := [tBin] })] }, by decide, rfl, by decide, by decide, by decide, by decide⟩

/-- The small machine with a device that may spawn 16 groups on a core, and a block of the smallest demands. -/
def tQuota : State :=
  { tState tGroup tLow with vds := [(0, { VDev.init with config := List.replicate 95 0 ++ [16] ++ List.replicate 160 0 })] }

theorem witness_SpawnAndYield :
    (∃ g entry count, Runs (tState g tBlock) tWho g tPath tBlock h1 [(0, .s 0, 1), (1, entry, 1), (2, count, 1)] ∧ tPath.handler = false ∧
      let s := tState g tBlock
      let c := State.issueCtx s tWho g tPath tBlock h1
      (c.scalar (s.launchIx tBlock) 1 entry).toNat ≤ tBlock.entries.length ∧
      ∃ why, (s.issued tWho g tPath h1).spawnWhy c (c.scalar (s.launchIx tBlock) 2 count).toNat = some why ∧ (s.core g.core).cnt = [] ∧
        (s.die (g.core / 64)).cnt = []) ∧
    (∃ entry count b, ∃ s : State, Runs s tWho tGroup tPath b h1 [(0, .s 0, 1), (1, entry, 1), (2, count, 1)] ∧
      let c := State.issueCtx s tWho tGroup tPath b h1
      (c.scalar (s.launchIx b) 1 entry).toNat ≤ b.entries.length ∧
      (s.issued tWho tGroup tPath h1).spawnWhy c (c.scalar (s.launchIx b) 2 count).toNat = none ∧
      (b.harvest = true ∨ (s.issued tWho tGroup tPath h1).harvestUse tGroup.core = 0) ∧ ∀ q ∈ s.groups, q.1 < s.nextId) ∧
    (Runs t0 tWho tGroup tPath tBlock hp [] ∧ Apart tGroup ∧ tPath.st = .ready) ∧
    (∃ g p till, pathAt g.paths 0 = some p ∧ p.st = .sleep till ∧ till ≤ 0 ∧ Tbl.find (tState g tBlock).groups 1 = some g) ∧
    (∃ g p till, pathAt g.paths 0 = some p ∧ p.st = .sleep till ∧ 0 < till ∧ Tbl.find (tState g tBlock).groups 1 = some g) ∧
    (∃ (s : State) (g : Group) (x : Nat) (xs : List Nat), Tbl.find s.groups 1 = some g ∧ s.mayEnter 1 = true ∧ g.expired s.cycle = true ∧ g.halt = none ∧
      g.entryNext = false ∧ g.rotation = x :: xs) ∧
    ∃ (s : State) (g : Group) (b : Block), Tbl.find s.groups 1 = some g ∧ Tbl.find s.blocks g.blk = some b ∧ b.hand ≠ 0 ∧ s.mayEnter 1 = true ∧
      g.expired s.cycle = true ∧ g.halt = none ∧ g.held = none ∧ g.entryNext = true :=
  ⟨⟨tGroup, .imm 0, .imm 17, tRuns h1 _ rfl (by decide) rfl rfl (by decide) (by decide), rfl, by decide, 5, by decide, rfl, rfl⟩,
   ⟨.imm 0, .imm 1, tLow, tQuota, ⟨⟨rfl, rfl, rfl, by decide, rfl, rfl⟩, by decide, by decide⟩, by decide, by decide, .inr (by decide), by decide⟩,
   ⟨runsP _ rfl, apart0, rfl⟩,
   ⟨{ tGroup with paths := [{ tPath with st := .sleep 0 }] }, { tPath with st := .sleep 0 }, 0, rfl, rfl, by decide, rfl⟩,
   ⟨{ tGroup with paths := [{ tPath with st := .sleep 1 }] }, { tPath with st := .sleep 1 }, 1, rfl, rfl, by decide, rfl⟩,
   ⟨tRunning 512 { tGroup with paths := [{ tPath with mask := 1 }, { tPath with mask := 2 }] } tBlock, _, 1, _, rfl, by decide, by decide, rfl, by decide, rfl⟩,
   tRunning 512 { tGroup with paths := [{ tPath with mask := 0xFFFFFFFE }], entries := [1], cur := 1 } { tBlock with hand := 0x100030 }, _, _, rfl, rfl, by decide,
   by decide, by decide, rfl, rfl, by decide⟩

/-- A block with barrier 1 set up for 64 arrivals, for 32 with one more than complete, and with an engine command that will
arrive. -/
def tBar (count eng : Nat) : Block := { tBlock with bars := [(1, { init := true, count := count, arrived := 0, phase := false, eng := eng })] }

theorem runsB (b : Block) (ops : List (Nat × Opnd × Nat)) (hd : demandFail b ops = none) : Runs (tState tGroup b) tWho tGroup tPath b hh ops :=
  tRuns hh ops rfl (by decide) rfl rfl (by show (State.issueCtx (tState tGroup tBlock) tWho tGroup tPath tBlock hh).live ≠ 0; decide) hd

theorem witness_Barriers :
    (∃ cnt : BitVec 12, Runs t0 tWho tGroup tPath tBlock hh [] ∧ 1 ≤ cnt.toNat ∧ ¬ (t0.barWaiters tGroup.blk 1 = true ∨ 0 < (tBlock.barrier 1).eng)) ∧
    (∃ b : Block, Runs (tState tGroup b) tWho tGroup tPath b hh [] ∧ 0 < (b.barrier 1).eng) ∧
    (∃ ix, Runs t0 tWho tGroup tPath tBlock hh [(1, ix, 1)] ∧
      1 ≤ ((State.issueCtx t0 tWho tGroup tPath tBlock hh).scalar (t0.launchIx tBlock) 1 ix).toNat ∧
      ((State.issueCtx t0 tWho tGroup tPath tBlock hh).scalar (t0.launchIx tBlock) 1 ix).toNat ≤ 4095) ∧
    (∃ ix, Runs t0 tWho tGroup tPath tBlock hh [(1, ix, 1)] ∧
      ((State.issueCtx t0 tWho tGroup tPath tBlock hh).scalar (t0.launchIx tBlock) 1 ix).toNat < 1) ∧
    (∃ g ix, Runs (tState g tBlock) tWho g tPath tBlock hh [(1, ix, 1)] ∧
      4095 < ((State.issueCtx (tState g tBlock) tWho g tPath tBlock hh).scalar ((tState g tBlock).launchIx tBlock) 1 ix).toNat) ∧
    (Issuing (tState tNone tBlock) tWho tNone tPath tBlock ∧ (State.issueCtx (tState tNone tBlock) tWho tNone tPath tBlock hp).live = 0) ∧
    (∃ b : Block, Runs (tState tGroup b) tWho tGroup tPath b hh [] ∧ tPath.handler = false ∧ (b.barrier 1).init = true ∧
      (tState tGroup b).threadBusy b.launch (tGroup.ltids (State.issueCtx (tState tGroup b) tWho tGroup tPath b hh).live) = false ∧
      (b.barrier 1).arrived + (lanesOf (State.issueCtx (tState tGroup b) tWho tGroup tPath b hh).live).length < (b.barrier 1).count ∧ tPath.st = .ready) ∧
    ∃ b : Block, Runs (tState tGroup b) tWho tGroup tPath b hh [] ∧ (b.barrier 1).init = true ∧
      (b.barrier 1).count = (b.barrier 1).arrived + (lanesOf (State.issueCtx (tState tGroup b) tWho tGroup tPath b hh).live).length :=
  ⟨⟨0xFFF, runs0 _ rfl, by decide, by decide⟩, ⟨tBar 64 1, runsB _ _ rfl, by decide⟩, ⟨.s 0, runs0 _ (by decide), by decide, by decide⟩,
   ⟨.konst .zero, runs0 _ (by decide), by decide⟩,
   ⟨{ tGroup with s := [(0, 4096)] }, .s 0, runsG _ _ _ _ rfl (by decide) rfl rfl (by decide) (by decide), by decide⟩, ⟨idle0, by decide⟩,
   ⟨tBar 33 0, runsB _ _ rfl, rfl, by decide, by decide, by decide, rfl⟩, tBar 32 0, runsB _ _ rfl, by decide, by decide⟩

theorem witness_SpecialRegisters :
    (Runs t0 tWho tGroup tPath tBlock h1 [(0, .s 0, 1)] ∧ ∃ b : Block, b.harvest = true ∧ Runs (tState tGroup b) tWho tGroup tPath b hh [(0, .s 0, 1)]) ∧
    (Runs t0 tWho tGroup tPath tBlock h1 [(0, .v 255, 1)] ∧ Roomy t0 tWho tGroup tPath tBlock h1) ∧
    (∃ (c : Ctx) (hd : Handler) (f : FaultRec) (l : Nat), c.p.handler = true ∧ c.g.handler = some hd ∧ has hd.entry l = true ∧ Tbl.find c.g.faults l = some f) ∧
    (Runs t0 tWho tGroup tPath tBlock hh [(1, .s 63, 1)] ∧ scratchIx .hscr3 = some 3) ∧
    ∃ s : State, Runs s tWho tGroup tPath tBlock hh [(1, .s 0, 1)] ∧ (State.issueCtx s tWho tGroup tPath tBlock hh).scalar (s.launchIx tBlock) 1 (.s 0) ≠ 0 ∧
      (s.vd tBlock.vd).msmode ≠ 0 ∧ (∀ y ∈ s.accesses, y.vd ≠ tBlock.vd) ∧ (s.vd tBlock.vd).withheld = [] :=
  ⟨⟨runs1 _ (by decide), { tBlock with harvest := true }, rfl, runsB _ _ (by decide)⟩, ⟨runs1 _ (by decide), roomy1⟩,
   ⟨{ State.issueCtx t0 tWho tGroup tPath tBlock hh with
        p := { tPath with handler := true }, g := { tHandled with faults := [(31, FaultRec.at' 0x045 0x100000 0 0)] } },
    ⟨0xFFFFFFFF, 0xFFFFFFFF, 0, 0⟩, FaultRec.at' 0x045 0x100000 0 0, 31, rfl, rfl, by decide, rfl⟩, ⟨runs0 _ (by decide), rfl⟩,
   { t0 with vds := [(0, { VDev.init with config := List.replicate 88 0 ++ [1] ++ List.replicate 167 0 })] },
   ⟨⟨rfl, rfl, rfl, by decide, rfl, rfl⟩, by decide, by decide⟩, by decide, by decide, by decide, rfl⟩

/-! ### Traps, services, stops -/

theorem witness_TrapsAndEntry :
    (Runs t0 tWho tGroup tPath tBlock hp [] ∧ Apart tGroup ∧ tPath.handler = false) ∧
    (Issuing (tState tNone tBlock) tWho tNone tPath tBlock ∧ (State.issueCtx (tState tNone tBlock) tWho tNone tPath tBlock hp).live = 0) ∧
    (∃ g p, Runs (tState g tBlock) tWho g p tBlock hh [] ∧ p.handler = true) ∧
    ∀ hand : Va, ∃ (s : State) (q g : Group) (b : Block) (m m1 : LaneMask) (rest : List LaneMask), Tbl.find s.groups 1 = some q ∧ q.queue.head? = some m ∧
      s.mayEnter 1 = true ∧ s.converged 1 = true ∧
      let u := s.land 1 fun d => d.who &&& m ≠ 0
      Tbl.find u.groups 1 = some g ∧ Tbl.find u.blocks g.blk = some b ∧ g.queue = m1 :: rest ∧ g.handler = none ∧ g.halt = none ∧ b.hand = hand := by
  refine ⟨⟨runsP _ rfl, apart0, rfl⟩, ⟨idle0, by decide⟩, ⟨tHandled, _, runsG tHandled _ _ _ rfl (by decide) rfl rfl (by decide) rfl, rfl⟩, fun hand => ?_⟩
  exact ⟨tRunning 0 { tGroup with entries := [0x80000000, 1], paths := [{ tPath with mask := 0x7FFFFFFE, st := .sleep 9 }] } { tBlock with hand := hand }, _, _, _, _, _, _, rfl, rfl,
    rfl, rfl, rfl, rfl, rfl, rfl, rfl, rfl⟩

theorem no_waiters' (h : Bool) (k : Nat) : tHandled.waiters h k = [] := by
  simp [Group.waiters, tHandled, tGroup, tPath, Path.fresh]

theorem witness_HandlerReturn :
    (∃ p hd, Runs (tState tHandled tBlock) tWho tHandled p tBlock hp [] ∧ Apart tHandled ∧ p.handler = true ∧ tHandled.handler = some hd ∧
      (∀ k, tHandled.waiters false k = [] ∧ tHandled.waiters true k = []) ∧ (∀ d ∈ tHandled.due, ∀ k, d.write.reg ≠ .b14 k) ∧
      isCode ((State.issueCtx (tState tHandled tBlock) tWho tHandled p tBlock hp).base 1 0) = true) ∧
    (Runs t0 tWho tGroup tPath tBlock hh [] ∧ tPath.handler = false) :=
  ⟨⟨_, _, runsG tHandled _ _ _ rfl (by decide) rfl rfl (by decide) rfl, by unfold Apart; decide, rfl, rfl,
    fun k => ⟨no_waiters' _ k, no_waiters' _ k⟩, fun _ hd => absurd hd List.not_mem_nil, by decide⟩, runs0 _ rfl, rfl⟩

/-- A machine under that table with a reply to come at 0x200000, and one whose group awaits a result of fixed latency. -/
def tReply : State :=
  { t0 with vds := [(0, tVd)], keys := [(0, { vd := 0, key := 0 })], mem := tTables, lineSlot := [(0x4000, 0)],
            results := [{ result tWho h1 [.s 0 0] with service := true, at' := 0x200000 }] }
def tTick (at' : Nat) : State :=
  { State.reset with agenda := [.tick], groups := [(1, { tGroup with due := [⟨at', 0xFFFFFFFF, 0, false, .s 5 7⟩] })] }

def okBytes : Except Nat (List Byte) → Bool
  | .ok _ => true
  | .error _ => false

theorem bytes_of {x : State × Except Nat (List Byte)} (h : okBytes x.2 = true) : ∃ bs, x = (x.1, .ok bs) := by
  obtain ⟨u, r⟩ := x
  cases r with
  | ok bs => exact ⟨bs, rfl⟩
  | error e => simp [okBytes] at h

theorem erase_one {α : Type} {l : List α} (h : l.length = 1) : l.eraseIdx 0 = [] := by
  match l, h with
  | [_], _ => rfl

/-- A device of 2 services with a ring of 1 entry, at reset otherwise. -/
def tSvc : VDev := { VDev.init with config := List.replicate 84 0 ++ [2, 0, 1, 0] ++ List.replicate 168 0 }
def tSys : State := { t0 with vds := [(0, tSvc)] }
theorem runsSys (ops : List (Nat × Opnd × Nat)) (hd : demandFail tBlock ops = none) : Runs tSys tWho tGroup tPath tBlock h1 ops :=
  ⟨⟨rfl, rfl, rfl, by decide, rfl, rfl⟩, by show (State.issueCtx t0 tWho tGroup tPath tBlock h1).live ≠ 0; decide, hd⟩

theorem witness_ServicesAndResults :
    (∃ svc : BitVec 12, Runs tSys tWho tGroup tPath tBlock h1 [(0, .s 0, 1), (1, .s 1, 1)] ∧ (tSys.vd tBlock.vd).msmode ≠ 2 ∧
      svc.toNat < (tSys.vd tBlock.vd).cfg 84 2 ∧ ¬ (tSys.vd tBlock.vd).cfg 86 2 ≤ (tSys.issued tWho tGroup tPath h1).ringUsed tBlock.vd) ∧
    (∃ s : State, ∃ svc : BitVec 12, Runs s tWho tGroup tPath tBlock h1 [(0, .s 0, 1), (1, .s 1, 1)] ∧ (s.vd tBlock.vd).msmode ≠ 2 ∧
      svc.toNat < (s.vd tBlock.vd).cfg 84 2 ∧ (s.vd tBlock.vd).cfg 86 2 ≤ (s.issued tWho tGroup tPath h1).ringUsed tBlock.vd) ∧
    (∃ svc : BitVec 12, Runs tSys tWho tGroup tPath tBlock h1 [(0, .s 0, 1), (1, .s 1, 1)] ∧ Apart tGroup ∧ tPath.handler = false ∧
      (tSys.vd tBlock.vd).cfg 84 2 ≤ svc.toNat) ∧
    (∃ (s : State) (r : Pending), s.results[0]? = some r ∧ Tbl.find s.groups r.gid = some tGroup ∧ r.service = false ∧ r.writes = [.s 0 7] ∧
      RegId.s 0 ∉ tGroup.clobber) ∧
    (∃ (s u : State) (r : Pending) (bs : List Byte), s.results[0]? = some r ∧ Tbl.find s.groups r.gid = some tGroup ∧ r.service = true ∧ r.req = [] ∧
      r.writes = [.s 0 0] ∧ RegId.s 0 ∉ tGroup.clobber ∧ s.devRead (s.vdOf r.gid) r.at' 4 = (u, .ok bs) ∧ Tbl.find u.groups r.gid = some tGroup ∧
      ∀ g' : Group, State.nextRequest { u with results := u.results.eraseIdx 0, free := u.free + 1, groups := Tbl.put u.groups r.gid g' } (s.vdOf r.gid) = none) ∧
    ∀ at' : Nat, at' = 1 ∨ at' = 9 → ∃ (s : State) (g : Group) (d : Due), s.powered = true ∧ s.agenda = [.tick] ∧ s.groups = [(1, g)] ∧ s.blocks = [] ∧ s.vds = [] ∧
      s.cores = [] ∧ s.dies = [] ∧ g.alive ≠ 0 ∧ g.flagDue = [] ∧ g.vpend = [] ∧ g.due = [d] ∧ d.write = .s 5 7 ∧ d.at' = at' ∧ s.cycle = 0 := by
  obtain ⟨bs, hb⟩ := bytes_of (x := tReply.devRead 0 0x200000 4) (by decide +kernel)
  have hr : (tReply.devRead 0 0x200000 4).1.results.length = 1 := by decide +kernel
  have hg : Tbl.find (tReply.devRead 0 0x200000 4).1.groups 1 = some tGroup := by decide +kernel
  refine ⟨⟨1, runsSys _ (by decide), by decide, by decide, by decide⟩,
   ⟨{ tSys with results := [{ result tWho h1 [.s 0 0] with service := true }] }, 0, ⟨⟨rfl, rfl, rfl, by decide, rfl, rfl⟩,
     (by show (State.issueCtx t0 tWho tGroup tPath tBlock h1).live ≠ 0; decide), by decide⟩, by decide, by decide, by decide⟩,
   ⟨2, runsSys _ (by decide), apart0, rfl, by decide⟩,
   ⟨{ t0 with results := [result tWho h1 [.s 0 7]] }, _, rfl, rfl, rfl, rfl, by decide⟩,
   ⟨tReply, _, _, bs, rfl, rfl, rfl, rfl, rfl, by decide, hb, hg, fun g' => ?_⟩, fun at' _ => ⟨tTick at', _, _, rfl, rfl, rfl, rfl, rfl, rfl, rfl, (by decide : tGroup.alive ≠ 0),
     rfl, rfl, rfl, rfl, rfl, rfl⟩⟩
  have h0 : (tReply.devRead 0 0x200000 4).1.results.eraseIdx 0 = [] := erase_one hr
  simp [State.nextRequest, h0]

/-- The same machine whose device is being debugged, and one whose device traces. -/
def tDbg : State := { t0 with vds := [(0, { VDev.init with dcfg := true })] }
def tTrc : State :=
  { t0 with vds := [(0, { tVd with trace := { Ring.init with cfg := 0x80000000, base := 0x200000 } })], keys := [(0, { vd := 0, key := 0 })], mem := tTables
            lineSlot := [(0x4000, 0)] }

/-- A run of one segment passes its checks. -/
theorem step_of {n : Nat} {x : State × Except Nat (List Seg)} (h : (match x.2 with
    | .ok [.phys pa m key _] => decide (pa = 0x200000) && decide (m = n) && decide (key = 0)
    | _ => false) = true) : ∃ u ord, x = (u, .ok [.phys 0x200000 n 0 ord]) := by
  obtain ⟨u, r⟩ := x
  match r, h with
  | .ok [.phys pa m key ord], h =>
    simp only [Bool.and_eq_true, decide_eq_true_eq] at h
    obtain ⟨⟨rfl, rfl⟩, rfl⟩ := h
    exact ⟨u, ord, rfl⟩

/-- The lanes of the group stand at their own places. -/
theorem inPlace0 (m : LaneMask) : InPlace tGroup m :=
  ⟨ltidGroup tGroup.narrow (tGroup.lt 0), by decide, fun l hl => ⟨lt_of_has hl, (by decide : ∀ l < 32, tGroup.lt l = ltidGroup tGroup.narrow (tGroup.lt 0) + BitVec.ofNat 64 l) l (lt_of_has hl)⟩⟩

theorem witness_StopsAndMarks :
    (Runs t0 tWho tGroup tPath tBlock hh [] ∧ (t0.vd tBlock.vd).dcfg = false) ∧
    (Runs tDbg tWho tGroup tPath tBlock hh [] ∧ Apart tGroup ∧ (tDbg.vd tBlock.vd).dcfg = true ∧ (tDbg.vd tBlock.vd).msmode ≠ 2) ∧
    (Tbl.find tDbg.groups 1 = some tGroup ∧ tDbg.blkIn 0 tGroup.blk = true) ∧
    ((tDbg.vd 0).dcfg = true ∧ (tDbg.vd 0).msmode ≠ 2 ∧ (∀ e ∈ tDbg.groups, e.2.due = []) ∧
      tDbg.stopGroup 0 { gid := none, lane := 0, scp := 3, unit := 0xFF, code := 0x165, op := 0 } = some (1, tGroup)) ∧
    (Runs tTrc tWho tGroup tPath tBlock hh [] ∧ Apart tGroup ∧ RingTakes (tTrc.issued tWho tGroup tPath hh) tBlock.vd false 32 0x200000 0 ∧
      InPlace tGroup (State.issueCtx tTrc tWho tGroup tPath tBlock hh).live) :=
  ⟨⟨runs0 _ rfl, rfl⟩, ⟨⟨⟨rfl, rfl, rfl, by decide, rfl, rfl⟩, by show (State.issueCtx t0 tWho tGroup tPath tBlock hh).live ≠ 0; decide, rfl⟩, apart0, rfl, by decide⟩,
   ⟨rfl, by decide⟩, ⟨rfl, by decide, by decide, rfl⟩,
   ⟨⟨rfl, rfl, rfl, by decide, rfl, rfl⟩, by show (State.issueCtx t0 tWho tGroup tPath tBlock hh).live ≠ 0; decide, rfl⟩, apart0,
   ⟨by decide +kernel, by decide +kernel, by decide +kernel, by decide +kernel, step_of (by decide +kernel), ⟨by decide, by decide +kernel⟩, by decide +kernel⟩, inPlace0 _⟩

/-! ### Memory -/

/-- An entry of 32 by 32 FP32 elements at 0x200000 with a twin at 0x201000. -/
def tEntry : TxEnt := 0x4020000000000000002000000000100000000000000000000008000000000000001f0001f221
def tBlockM : Block := { tBlock with tx := [(0, tEntry)] }

/-- A block whose entry 0 is the same with FP64 elements. -/
def tWide : Block := { tBlock with tx := [(0, tEntry + 2)] }

def tMem : State :=
  { tState tGroup tBlockM with vds := [(0, tVd)], keys := [(0, { vd := 0, key := 0 })], mem := tTables
                               lineSlot := (List.range 64).map fun i => (0x4000 + i, 0) }

theorem runsM (h : Hints) (hl : (State.issueCtx tMem tWho tGroup tPath tBlockM h).live ≠ 0) (ops : List (Nat × Opnd × Nat))
    (hd : demandFail tBlockM ops = none) : Runs tMem tWho tGroup tPath tBlockM h ops := ⟨⟨rfl, rfl, rfl, by decide, rfl, rfl⟩, hl, hd⟩

def chkOk : Chk → Bool
  | .ok _ => true
  | _ => false

theorem passesM (op : MemOp) (reqs : List Req) (hc : (reqs.all fun r => chkOk ((tMem.issued tWho tGroup tPath hp).chkReq tBlockM op r).1) = true)
    (ho : tMem.soOut tBlockM.launch (reqs.map fun q => tGroup.lt q.lane) = false) : Passes tMem tWho tGroup tPath tBlockM hp op reqs := by
  refine ⟨fun r hr => ?_, by decide +kernel, ho, by decide⟩
  have := List.all_eq_true.1 hc r hr
  match h : ((tMem.issued tWho tGroup tPath hp).chkReq tBlockM op r).1 with
  | .ok segs => exact ⟨segs, rfl⟩
  | .page _ _ => simp [h, chkOk] at this
  | .bad _ _ => simp [h, chkOk] at this
  | .lent => simp [h, chkOk] at this

/-- What a clause of the issue of an access asks of an instruction with these registers, operation and requests. -/
def meets (ops : List (Nat × Opnd × Nat)) (op : MemOp) (reqs : List Req) : Prop :=
  Runs tMem tWho tGroup tPath tBlockM hp ops ∧ Passes tMem tWho tGroup tPath tBlockM hp op reqs

theorem meets_of (ops : List (Nat × Opnd × Nat)) (op : MemOp) (reqs : List Req) (hd : demandFail tBlockM ops = none)
    (hc : (reqs.all fun r => chkOk ((tMem.issued tWho tGroup tPath hp).chkReq tBlockM op r).1) = true) : meets ops op reqs :=
  ⟨runsM _ (by decide) _ hd, passesM op reqs hc rfl⟩

theorem witness_MemoryIssues :
    let c := State.issueCtx tMem tWho tGroup tPath tBlockM hp
    let li := tMem.launchIx tBlockM
    let each := fun (b : Opnd) (o64 : Bool) (imm : BitVec 12) => c.each (c.ea li 2 b o64 imm) (fun _ => 0) fun _ => 0
    let one : List Req := [⟨lowLane c.live, c.base 1 2 + 8, 0, 0⟩]
    meets [(0, .v 252, 4), (2, .v 3, 1)] (.ld 252 16 false false (sameEa (each (.v 3) false 0x7FF))) (each (.v 3) false 0x7FF) ∧
    meets [(0, .v 0, 1), (2, .s 4, 2)] (.st 1) (each (.s 4) true 0x800) ∧
    meets [(0, .s 0, 1), (2, .s 4, 1)] (.ldu 0 4 false) one ∧
    meets [(0, .base 0, 3), (2, .s 4, 1)] (.ldb 0 tPath.mask) [⟨lowLane c.live, c.base 1 2, 0, 0⟩] ∧
    meets [(0, .v 0, 2), (2, .v 4, 1)] (.ld 0 8 false true false) (each (.v 4) false 8) ∧
    meets [(0, .v 0, 1), (2, .v 4, 1)] (.stcond 4 1) (each (.v 4) false 4) ∧
    meets [(0, .v 0, 2), (2, .v 4, 1), (3, .v 4, 4)] (.atom .cas .n64 0) (each (.v 4) false 0) ∧
    meets [(0, .v 0, 1), (2, .v 4, 1), (3, .v 5, 1)] (.fatom .min .f16 0) (each (.v 4) false 0) ∧
    meets [(0, .s 63, 1)] (.acread 63) one ∧
    (meets [(0, .v 0, 1), (2, .v 1, 1), (3, .imm 31, 1)] (.pst 4)
        (c.each (fun l => BitVec.ofInt 80 (TxEnt.addr tEntry ((c.src li 2 (.v 1)).lane l).toNat 31 0 0)) (fun _ => 0)
          fun l => (TxEnt.taddr tEntry ((c.src li 2 (.v 1)).lane l).toNat 31 0 0 % (2 ^ 80 : Int)).toNat) ∧
      txReason (tBlockM.txEnt 0) none pstNeed = none ∧
      ¬ (TxEnt.half tEntry / 2 = 8 ∧ (overDemand tBlockM 2 (.v 0) = true ∨ (Opnd.v 0).aligned 2 = false)) ∧
      ∀ l, has c.live l = true → ((c.src li 2 (.v 1)).lane l).toNat < TxEnt.n tEntry 0 ∧ ((c.src li 3 (.imm 31)).lane l).toNat < TxEnt.n tEntry 1) ∧
    ∃ (s : State) (b : Block), Runs s tWho tGroup tPath b hp [(0, .v 1, 1), (2, .v 1, 1), (3, .imm 31, 1)] ∧ Apart tGroup ∧ tPath.handler = false ∧
      txReason (b.txEnt 0) none pstNeed = none ∧ TxEnt.half (b.txEnt 0) / 2 = 8 ∧ (Opnd.v 1).aligned 2 = false :=
  ⟨meets_of _ _ _ (by decide +kernel) (by decide +kernel), meets_of _ _ _ (by decide +kernel) (by decide +kernel),
   meets_of _ _ _ (by decide +kernel) (by decide +kernel), meets_of _ _ _ (by decide +kernel) (by decide +kernel),
   meets_of _ _ _ (by decide +kernel) (by decide +kernel), meets_of _ _ _ (by decide +kernel) (by decide +kernel),
   meets_of _ _ _ (by decide +kernel) (by decide +kernel), meets_of _ _ _ (by decide +kernel) (by decide +kernel),
   meets_of _ _ _ (by decide +kernel) (by decide +kernel), ⟨meets_of _ _ _ (by decide +kernel) (by decide +kernel), by decide +kernel, by decide +kernel,
   lanes_of (by decide +kernel)⟩, tState tGroup tWide, tWide, ⟨⟨rfl, rfl, rfl, by decide, rfl, rfl⟩, by decide, by decide +kernel⟩, apart0, rfl, by decide +kernel,
   by decide +kernel, by decide⟩

/-- A check gives what `bad` says of a lane. -/
def givesBad (bad : Nat → Option (Nat × Nat)) (l : Nat) : Chk → Bool
  | .ok _ => (bad l).isNone
  | .bad code x => decide (bad l = some (code, x))
  | _ => false

def agrees (bad : Nat → Option (Nat × Nat)) (l : Nat) (c : Chk) : Prop :=
  match c with
  | .ok _ => bad l = none
  | .bad code x => bad l = some (code, x)
  | _ => False

theorem gives_of {bad : Nat → Option (Nat × Nat)} {l : Nat} {c : Chk} (h : givesBad bad l c = true) : agrees bad l c := by
  match c, h with
  | .ok _, h => simpa [agrees, givesBad] using h
  | .bad _ _, h => simpa [agrees, givesBad] using h

/-- What the clause on failed checks asks of an instruction with these registers, operation and requests. -/
def failsSome (ops : List (Nat × Opnd × Nat)) (op : MemOp) (reqs : List Req) (bad : Nat → Option (Nat × Nat)) : Prop :=
  Runs tMem tWho tGroup tPath tBlockM hp ops ∧ Apart tGroup ∧ tPath.handler = false ∧ (tMem.vd tBlockM.vd).msmode ≠ 2 ∧
    (∀ n ≤ 512, (tMem.issued tWho tGroup tPath hp).room (State.issueCtx tMem tWho tGroup tPath tBlockM hp) n = none) ∧
    tMem.soOut tBlockM.launch (reqs.map fun q => tGroup.lt q.lane) = false ∧
    (∃ l, has (State.issueCtx tMem tWho tGroup tPath tBlockM hp).live l = true ∧ (bad l).isSome = true) ∧
    ∀ r ∈ reqs, ∀ l, (r.lane = l ∨ op.whole = true) → agrees bad l ((tMem.issued tWho tGroup tPath hp).chkReq tBlockM op r).1

/-- The machine with another word in the table's last entry. -/
def tWith (leaf : List Byte) : State := { tMem with mem := Memory.write (tTables.take 6) 0x40000 leaf }

theorem witness_MemoryFails :
    (∃ ops op reqs bad, op.whole = false ∧ failsSome ops op reqs bad ∧ ∃ l, has (State.issueCtx tMem tWho tGroup tPath tBlockM hp).live l = true ∧ bad l = none) ∧
    (∃ ops op reqs bad, op.whole = true ∧ failsSome ops op reqs bad) ∧
    (let op : MemOp := .ld 0 4 false true false
     let f := op.form
     let aligned := fun ea => ea % f.align = 0 ∧ ea % 4096 + f.n ≤ 4096
     let tr := fun (s : State) ea => (s.translate 0 ea 0 f.tk).1
     let gives := fun (s : State) ea (pa : Nat) (kk : Bool) => (match tr s ea with
       | .ok x _ key => x == pa && s.keyOk 0 key == kk
       | _ => false) = true
     f.align ≠ 0 ∧ 0x200001 % f.align ≠ 0 ∧ aligned (2 ^ 80 - 2 ^ 20) ∧ inWindow (2 ^ 80 - 2 ^ 20) = true ∧ f.window = false ∧
     inWindow 0x200000 = false ∧ aligned 0x200000 ∧ tr (tWith [0x69]) 0x200000 = .bad 0x086 ∧ tr tMem 0x10000000000 = .notPresent 0x083 ∧
     gives { tMem with keys := [] } 0x200000 0x200000 false ∧ region 0x200000 = 0 ∧
     gives (tWith [0x79, 0, 0, 0, 0, 0, 1]) 0x200000 (2 ^ 48 + 0x200000) true ∧ region (2 ^ 48 + 0x200000) ∉ f.regions ∧ gives tMem 0x200000 0x200000 true ∧ 0 ∈ f.regions) ∧
    (tMem.walk (tMem.vd 0) 0x10000000000 0).1 = .notPresent 3 ∧ (State.walk (tWith [0xF9]) (tMem.vd 0) 0x200000 0).1 = .malformed ∧
    ∀ kind bits, (kind, bits) = (AKind.rd, (0x69 : Byte)) ∨ (kind, bits) = (.atomic, 0x69) ∨ (kind, bits) = (.wr, 0x59) ∨ (kind, bits) = (.atomic, 0x59) ∨
      (kind, bits) = (.fetch, 0x39) → let e := BitVec.ofNat 64 bits.toNat; (State.walk (tWith [bits]) (tMem.vd 0) 0x200000 0).1 = .leaf e 3 ∧
        ((kind = .rd ∨ kind = .atomic) ∧ pteBit e 4 = false ∨ (kind = .wr ∨ kind = .atomic) ∧ pteBit e 5 = false ∨ kind = .fetch ∧ pteBit e 6 = false) := by
  refine ⟨⟨[(0, .v 0, 1), (2, .v 1, 1), (3, .v 4, 1)], .atom .add .n32 0,
      (State.issueCtx tMem tWho tGroup tPath tBlockM hp).each ((State.issueCtx tMem tWho tGroup tPath tBlockM hp).ea (tMem.launchIx tBlockM) 2 (.v 1) false 0) (fun _ => 0) fun _ => 0,
      fun l => if l % 4 = 0 then none else some (0x062, 0x200000 + l), rfl,
      ⟨runsM _ (by decide) _ (by decide), apart0, rfl, by decide, by decide +kernel, by decide, ⟨1, by decide, rfl⟩, fun r hr l hl => ?_⟩, 0, by decide, rfl⟩,
    ⟨[(0, .base 0, 3), (2, .s 4, 1)], .ldb 0 tPath.mask, [⟨0, 0x200008, 0, 0⟩], fun _ => some (0x060, 0x200008), rfl,
      ⟨runsM _ (by decide) _ (by decide), apart0, rfl, by decide, by decide +kernel, by decide, ⟨1, by decide, rfl⟩, fun r hr l _ => ?_⟩⟩,
    by decide +kernel, by decide +kernel, by decide +kernel, ?_⟩
  · obtain rfl : r.lane = l := hl.resolve_right (by decide)
    exact gives_of (List.all_eq_true.1 (by decide +kernel : ((State.issueCtx tMem tWho tGroup tPath tBlockM hp).each
      ((State.issueCtx tMem tWho tGroup tPath tBlockM hp).ea (tMem.launchIx tBlockM) 2 (.v 1) false 0) (fun _ => 0) fun _ => 0).all (fun r =>
        givesBad (fun l => if l % 4 = 0 then none else some (0x062, 0x200000 + l)) r.lane ((tMem.issued tWho tGroup tPath hp).chkReq tBlockM (.atom .add .n32 0) r).1) = true) r hr)
  · cases List.mem_singleton.1 hr
    exact gives_of (bad := fun _ => some (0x060, 0x200008)) (l := l) (c := ((tMem.issued tWho tGroup tPath hp).chkReq tBlockM (.ldb 0 tPath.mask) ⟨0, 0x200008, 0, 0⟩).1) (by
      show givesBad (fun _ => some (0x060, 0x200008)) 0 ((tMem.issued tWho tGroup tPath hp).chkReq tBlockM (.ldb 0 tPath.mask) ⟨0, 0x200008, 0, 0⟩).1 = true
      decide +kernel)
  · rintro kind bits (h | h | h | h | h) <;> cases h <;> exact ⟨by decide +kernel, by decide⟩

theorem passes_of {s : State} {g : Group} {p : Path} {b : Block} {h : Hints} {op : MemOp} {reqs : List Req}
    (hc : (reqs.all fun r => chkOk ((s.issued tWho g p h).chkReq b op r).1) = true)
    (hr : ∀ n ≤ 512, (s.issued tWho g p h).room (s.issueCtx tWho g p b h) n = none)
    (ho : s.soOut b.launch (reqs.map fun q => g.lt q.lane) = false) (hm : (s.vd b.vd).msmode ≠ 2) : Passes s tWho g p b h op reqs := by
  refine ⟨fun r hr => ?_, hr, ho, hm⟩
  have := List.all_eq_true.1 hc r hr
  match h : ((s.issued tWho g p h).chkReq b op r).1 with
  | .ok segs => exact ⟨segs, rfl⟩
  | .page _ _ => simp [h, chkOk] at this
  | .bad _ _ => simp [h, chkOk] at this
  | .lent => simp [h, chkOk] at this

/-- An OPEN cell at 0x200000 with room for ten contributions. -/
def tCell : AccCell := { vd := 0, pa := 0x200000, key := 0, st := .opened, expct := 10, scope := 0, got := [] }
def tCells : State := { tMem with dies := [(homeDie 0x200000, { Die.init with cells := [tCell] })] }

theorem lt_inj : ∀ l < 32, ∀ l' < 32, l ≠ l' → tGroup.lt l ≠ tGroup.lt l' := by decide +kernel

/-- A part of one lane at a physical address, and an access of that part alone. -/
def tPart (pa n : Nat) (twin : Option Seg) : Part :=
  { lane := 3, ltid := tGroup.lt 3, ea := 0x200000, off := 0, seg := .phys pa n 0 .rc, twin := twin, data := 0x01020304, aux := 0, done := false, ok := true, got := 0 }
def tAcc (op : MemOp) (q : Part) : Access :=
  { id := 5, gid := 1, launch := 0, blk := 0, vd := 0, pc := 0x100000, op := op, acq := false, rel := false, live := 8, who := [tGroup.lt 3], flag := some 1,
    parts := [q], replay := false }
def tPerf (op : MemOp) (q : Part) : State := { tMem with accesses := [tAcc op q] }

/-- A full cell, whose last contribution arrives. -/
def tFullCell : AccCell := { tCell with expct := 2, got := [(tGroup.lt 3, 0, 0x3F800000), (tGroup.lt 4, 0, 0x40000000)] }
def tFull : State :=
  { tPerf (.ford 0) (tPart 0x200000 4 none) with dies := [(homeDie 0x200000, { Die.init with cells := [tFullCell] })] }

theorem witness_OrderedCells :
    (∃ (count : Opnd) (pa key : Nat) (ord : Ord),
      let c := State.issueCtx tMem tWho tGroup tPath tBlockM hp
      let n := (c.scalar (tMem.launchIx tBlockM) 2 count).toNat
      let req : Req := ⟨lowLane c.live, c.base 1 2 + 0, n, 10⟩
      Runs tMem tWho tGroup tPath tBlockM hp [(2, count, 1)] ∧ Passes tMem tWho tGroup tPath tBlockM hp .acell [req] ∧
      ((tMem.issued tWho tGroup tPath hp).chkReq tBlockM .acell req).1 = .ok [.phys pa 4 key ord] ∧ 1 ≤ n ∧ n ≤ 4096 ∧
      tMem.cellAt tBlockM.vd pa = none ∧ (tMem.die (homeDie pa)).cells.length < 1024) ∧
    (∃ (pa key : Nat) (ord : Ord),
      let c := State.issueCtx tCells tWho tGroup tPath tBlockM hp
      let req : Req := ⟨lowLane c.live, c.base 1 2 + 0, 0, 0⟩
      Runs tCells tWho tGroup tPath tBlockM hp [] ∧ Passes tCells tWho tGroup tPath tBlockM hp .acellClose [req] ∧
      ((tCells.issued tWho tGroup tPath hp).chkReq tBlockM .acellClose req).1 = .ok [.phys pa 4 key ord] ∧ (tCells.cellAt tBlockM.vd pa).isSome) ∧
    (∃ (d : BitVec 8) (seq x : Opnd) (pa : Nat) (cell : AccCell),
      let c := State.issueCtx tCells tWho tGroup tPath tBlockM hp
      let li := tCells.launchIx tBlockM
      let q := fun l => ((c.src li 2 seq).lane l).toNat
      let reqs := c.each (fun _ => c.base 1 2) (fun l => c.wide li 3 x 1 l) q
      Runs tCells tWho tGroup tPath tBlockM hp [(0, .v d, 1), (2, seq, 1), (3, x, 1)] ∧ Passes tCells tWho tGroup tPath tBlockM hp (.ford d.toNat) reqs ∧
      (∀ r ∈ reqs, ((tCells.issued tWho tGroup tPath hp).chkReq tBlockM (.ford d.toNat) r).1 = .ok [.phys pa 4 0 .rc]) ∧
      tCells.cellAt tBlockM.vd pa = some cell ∧ cell.st = .opened ∧ (∀ l < 32, has c.live l = true → q l ≤ 4095) ∧
      (∀ l < 32, ∀ l' < 32, has c.live l = true → has c.live l' = true → l ≠ l' → (tGroup.lt l, q l) ≠ (tGroup.lt l', q l')) ∧
      (∀ l < 32, has c.live l = true → ∀ e ∈ cell.got, ¬ (e.1 = tGroup.lt l ∧ e.2.1 = q l)) ∧
      cell.got.length + (lanesOf c.live).length ≤ cell.expct) ∧
    ∃ (s : State) (k i : Nat) (a : Access) (q : Part) (pa key : Nat) (ord : Ord) (d : Nat) (cell : AccCell) (x : W64 × Nat × W32) (xs : List (W64 × Nat × W32)),
      Performs s k i a q pa 4 key ord ∧ a.op = .ford d ∧ q.twin = none ∧ s.cellAt a.vd pa = some cell ∧ cell.st = .opened ∧ cell.got = x :: xs ∧
      cell.expct = xs.length + 1 ∧
      ∀ z ∈ s.accesses, (∃ r, z.op = .ford r) → ∀ y ∈ z.parts, y.done = false → y.pa = pa → z.id = a.id ∧ y.lane = q.lane := by
  have hr : ∀ ops, demandFail tBlockM ops = none → Runs tCells tWho tGroup tPath tBlockM hp ops := fun ops hd =>
    ⟨⟨rfl, rfl, rfl, by decide, rfl, rfl⟩, by decide, hd⟩
  exact ⟨⟨.imm 1, 0x200000, 0, .rc, runsM _ (by decide) _ (by decide), passesM _ _ (by decide +kernel) (by decide), by decide +kernel, by decide, by decide,
      by decide, by decide⟩,
    ⟨0x200000, 0, .rc, hr _ rfl, passes_of (by decide +kernel) (by decide +kernel) (by decide) (by decide), by decide +kernel, by decide +kernel⟩,
    ⟨0, .imm 0, .v 1, 0x200000, tCell, hr _ (by decide), passes_of (by decide +kernel) (by decide +kernel) (by decide) (by decide), by decide +kernel, by decide +kernel,
    rfl, by decide +kernel, fun l hl l' hl' _ _ hne h => lt_inj l hl l' hl' hne (Prod.mk.inj h).1, by decide +kernel, by decide +kernel⟩,
    tFull, 0, 0, _, _, 0x200000, 0, .rc, 0, tFullCell, _, _, ⟨rfl, rfl, by decide +kernel, rfl, .inl (by decide), by decide, by decide, by decide⟩, rfl, rfl, by decide, rfl, rfl, rfl,
    fun z hz _ y hy _ _ => by cases List.mem_singleton.1 hz; cases List.mem_singleton.1 hy; exact ⟨rfl, rfl⟩⟩

theorem performs_of (op : MemOp) (pa n : Nat) (twin : Option Seg) (hm : (tPerf op (tPart pa n twin)).mayPerform 0 0 = true)
    (hp : (region pa = 0 ∧ ∀ l ∈ linesOf pa n, Tbl.find tMem.lineSlot l = some 0) ∨ region pa = 1)
    (hg : (tPerf op (tPart pa n twin)).segFail 0 (.phys pa n 0 .rc) op.writes .ok = none) :
    Performs (tPerf op (tPart pa n twin)) 0 0 (tAcc op (tPart pa n twin)) (tPart pa n twin) pa n 0 .rc :=
  ⟨rfl, rfl, hm, rfl, hp, hg, by show tVd.msmode = 0; decide, by show Memory.wf tTables = true; decide⟩

theorem witness_StoredBytes :
    (∃ s k i a q pa n key ord, Performs s k i a q pa n key ord ∧ a.op.isCell = false ∧ q.twin = none ∧ region pa = 0) ∧
    (∃ s k i a q pa n key ord, Performs s k i a q pa n key ord ∧ a.op.isCell = false ∧ q.twin = none ∧ region pa = 1) ∧
    ∃ s k i a q pa n key ord pa' ord', Performs s k i a q pa n key ord ∧ a.op.isCell = false ∧ q.twin = some (.phys pa' n key ord') ∧ a.op = .pst n ∧
      region pa = region pa' ∧ (∀ l ∈ linesOf pa' n, Tbl.find s.lineSlot l = some key) ∧ s.segFail a.vd (.phys pa' n key ord') true .ok = none :=
  ⟨⟨_, _, _, _, _, _, _, _, _, performs_of (.atom .incw .n64 0) 0x200078 8 none (by decide) (.inl (by decide)) (by decide), rfl, rfl, by decide⟩,
   ⟨_, _, _, _, _, _, _, _, _, performs_of (.st 4) (2 ^ 48) 4 none (by decide) (.inr (by decide)) (by decide), rfl, rfl, by decide⟩,
   _, _, _, _, _, _, _, _, _, 0x201000, .rc, performs_of (.pst 4) 0x20007C 4 (some (.phys 0x201000 4 0 .rc)) (by decide) (.inl (by decide)) (by decide), rfl, rfl, rfl,
   by decide, by decide, by decide⟩

/-- A late error of thread 0, and a group whose one path is that thread's. -/
def tErr : LateFault := { thr := some (tGroup.lt 0), flag := some 1, tape := false, fault := FaultRec.at' 0x064 0x100000 0 0 }
def tLate : Group := { tGroup with errs := [tErr], paths := [tHead] }
/-- A word that waits on flag 1. -/
def h1w : Hints := ⟨false, 15, 1, 2, 15, false⟩

theorem witness_AccessResults :
    (∃ (s : State) (k i : Nat) (a : Access) (q : Part) (g : Group) (d cnt : Nat) (f : Nat → Nat), s.accesses[k]? = some a ∧ a.parts[i]? = some q ∧ s.mayPerform k i = true ∧ q.isPeer = false ∧ Tbl.find s.groups a.gid = some g ∧
      a.op.perLane = some (d, cnt, f) ∧ s.invals = [] ∧
      let a' := { a with parts := a.parts.set i (s.performPart a q .ok).2 }
      (∀ r ∈ a'.parts, r.done = true ∧ r.ok = true) ∧ ∀ r < cnt, RegId.v (d + r) ∉ g.clobber) ∧
    (∃ s k i a q pa n key ord g d m sx u, Performs s k i a q pa n key ord ∧ Tbl.find s.groups a.gid = some g ∧ q.twin = none ∧ a.op = .ld d m sx true u) ∧
    (∃ s k i a q pa n key ord g m x, Performs s k i a q pa n key ord ∧ Tbl.find s.groups a.gid = some g ∧ q.twin = none ∧ a.op = .stcond m x ∧
      Tbl.find g.resv q.lane ≠ some (pa / 128)) ∧
    (∀ op, op = MemOp.ld 0 8 true false true ∨ op = .ldu 62 4 true ∨ op = .ldb 0 0xFFFFFFFF ∨ op = .acread 3 ∨ op = .stcond 4 1 → ∃ (s : State) (k i : Nat) (a : Access) (q : Part),
      s.accesses[k]? = some a ∧ a.parts[i]? = some q ∧ s.mayPerform k i = true ∧ q.isPeer = false ∧ Tbl.find s.groups a.gid = some tGroup ∧ s.invals = [] ∧
      (∀ r ∈ (a.parts.set i (s.performPart a q .ok).2), r.done = true ∧ r.ok = true) ∧ (∀ r ∈ a.op.regs, r ∉ tGroup.clobber) ∧ a.op = op ∧ a.live = tGroup.full ∧
      (∀ z ∈ a.parts, z.lane = 3) ∧ a.parts = [q] ∧ q.off = 0) ∧
    (∃ (s : State) (k i : Nat) (a : Access) (q : Part) (r : Nat), s.accesses[k]? = some a ∧ a.parts[i]? = some q ∧ s.mayPerform k i = true ∧ q.isPeer = false ∧ q.twin = none ∧
      a.op.isCell = false ∧ a.op.whole = false ∧ (∀ m, a.op ≠ .pst m) ∧ s.segFail a.vd q.seg a.op.writes .ok = some r ∧ s.groupOf a.blk q.ltid = some a.gid ∧
      Tbl.find s.groups a.gid = some tGroup ∧ q.ltid = tGroup.lt 3) ∧
    ∀ i h, (i, h) = (Instr.nop h1w 5, h1w) ∨ (i, h) = (.fence hh .ar 3, hh) ∨ (i, h) = (.exit hh, hh) → let s := tState tLate tBlock
      s.issuer = some tWho ∧ Tbl.find s.groups tWho.gid = some tLate ∧ pathAt tLate.paths tWho.lane = some tHead ∧ tWho.lane = lowLane tHead.mask ∧
      Tbl.find s.blocks tLate.blk = some tBlock ∧ Apart tLate ∧ tHead.handler = false ∧ tHead.mask = Machine.bit 0 ∧ tLate.errs = [tErr] ∧ tErr.thr = some (tLate.lt 0) ∧
      ((tErr.flag.any fun f => h.wait.getLsbD f) = true ∧ (∃ x, i = .nop h x) ∨
        has (s.issueCtx tWho tLate tHead tBlock h).live 0 = true ∧ ((∃ k sc, i = .fence h k sc) ∨ i = .exit h)) :=
  ⟨⟨tPerf (.ld 0 8 false false false) (tPart 0x200000 8 none), 0, 0, _, _, tGroup, _, _, _, rfl, rfl, by decide, by decide, rfl, rfl, rfl, by decide +kernel, by decide⟩,
   ⟨_, _, _, _, _, _, _, _, _, tGroup, 0, 4, false, false, performs_of (.ld 0 4 false true false) 0x200000 4 none (by decide) (.inl (by decide)) (by decide), rfl, rfl, rfl⟩,
   ⟨_, _, _, _, _, _, _, _, _, tGroup, 4, 1, performs_of (.stcond 4 1) 0x200000 4 none (by decide) (.inl (by decide)) (by decide), rfl, rfl, rfl, by decide⟩,
   fun op h => by
     rcases h with rfl | rfl | rfl | rfl | rfl <;>
       exact ⟨{ tMem with accesses := [{ tAcc _ (tPart 0x200000 4 none) with live := 0xFFFFFFFF }] }, 0, 0, _, _, rfl, rfl, by decide +kernel, by decide, rfl, rfl, by decide +kernel, by decide, rfl,
         by decide, by decide, rfl, rfl⟩,
   ⟨{ tPerf (.ld 0 4 false false false) (tPart 0x200000 4 none) with poison := [0x4000] }, 0, 0, _, _, 2, rfl, rfl, by decide +kernel, by decide, rfl, rfl, rfl, by simp [tAcc], by decide,
     by decide, rfl, rfl⟩,
   fun i h hi => by
     rcases hi with hi | hi | hi <;> cases hi <;>
       refine ⟨rfl, rfl, rfl, by decide, rfl, by unfold Apart; decide, rfl, by decide, rfl, rfl, ?_⟩
     · exact .inl ⟨by decide, _, rfl⟩
     · exact .inr ⟨by decide, .inl ⟨_, _, rfl⟩⟩
     · exact .inr ⟨by decide, .inr rfl⟩⟩

/-- The same device with one aperture entry: package 1, partition 0, writable. -/
def tPeer (op : MemOp) : State :=
  { tPerf op (tPart (2 * 2 ^ 48) 4 none) with peerSlot := [(2 ^ 48 / 128 * 1, 0), (2 ^ 48 / 128, 0)],
                                                    vds := [(0, { tVd with aperture := [(0, [1, 1, 0, 0, 0, 0, 1])] })] }

theorem witness_OuterAccesses :
    (∃ vd s pa n, (State.vd s vd).log = [] ∧ Memory.wf s.mem = true ∧ 0 < n ∧ (∀ i < n, region (pa + i) = 0) ∧
      ∃ key, ∀ l ∈ linesOf pa n, Tbl.find s.lineSlot l = some key) ∧
    (∀ op, op = MemOp.st 4 ∨ op = .ld 0 4 false false false → ∃ (s : State) (k i : Nat) (a : Access) (q : Part) (pa n key : Nat) (ord : Ord) (e : PeerRef),
      s.accesses[k]? = some a ∧ a.parts[i]? = some q ∧
      s.mayPerform k i = true ∧ q.seg = .phys pa n key ord ∧ region pa = 2 ∧ (s.vd a.vd).peerAddr pa = some e ∧ q.twin = none ∧ a.op.isCell = false ∧
      a.op = op ∧ a.op.whole = false ∧ e.write = true ∧ (∀ l ∈ linesOf e.at' n, Tbl.find s.peerSlot l = some e.key) ∧ (s.vd a.vd).msmode = 0 ∧ Memory.wf s.peer = true ∧ s.groupOf a.blk q.ltid = some a.gid ∧ Tbl.find s.groups a.gid = some tGroup ∧
      q.ltid = tGroup.lt 3) := by
  refine ⟨⟨0, tMem, 0x20007F, 2, rfl, by decide, by decide, by decide, 0, by decide⟩, ?_⟩
  rintro op (rfl | rfl)
  · exact ⟨tPeer _, 0, 0, _, _, _, _, _, _, _, rfl, rfl, by decide, rfl, by decide, rfl, rfl, rfl, rfl, rfl, rfl, by decide, by decide, rfl, by decide +kernel, rfl, rfl⟩
  · exact ⟨tPeer _, 0, 0, _, _, _, _, _, _, _, rfl, rfl, by decide, rfl, by decide, rfl, rfl, rfl, rfl, rfl, rfl, by decide, by decide, rfl, by decide +kernel, rfl, rfl⟩

theorem witness_Bases : Apart tGroup ∧ Runs t0 tWho tGroup tPath tBlock hh [(2, .s 62, 2)] ∧ Quiet tGroup [.b14 tPath.mask] ∧ Quiet tGroup [.b 13] ∧
    Runs t0 tWho tGroup tPath tBlock hh [(2, .imm 0xFF, 1)] ∧ Runs t0 tWho tGroup tPath tBlock hh [(0, .s 63, 1)] ∧ Quiet tGroup [.s 63] :=
  ⟨apart0, runs0 _ (by decide), quiet0 _, quiet0 _, runs0 _ (by decide), runs0 _ (by decide), quiet0 _⟩

theorem witness_Invalidations :
    (∃ s, Runs s tWho tGroup tPath tBlockM hp [] ∧ s.accesses ≠ [] ∧ ∀ x ∈ s.accesses, x.vd = tBlockM.vd → x.replay = true) ∧
    ∃ s, Runs s tWho tGroup tPath tBlockM hp [] ∧ ∃ x ∈ s.accesses, x.vd = tBlockM.vd ∧ x.replay = false :=
  ⟨⟨{ tMem with accesses := [{ tAcc (.ld 0 4 false false false) (tPart 0x200000 4 none) with replay := true }] },
     ⟨⟨rfl, rfl, rfl, by decide, rfl, rfl⟩, by decide, rfl⟩, by simp, by simp⟩, tPerf (.st 4) (tPart 0x200000 4 none), ⟨⟨rfl, rfl, rfl, by decide, rfl, rfl⟩, by decide, rfl⟩, _, List.mem_singleton.2 rfl, rfl, rfl⟩

/-- A range of one chunk at an address, of the device with the page table, and a group that waits at that address. -/
def tAt (pc : Va) (st : PathSt) : Group := { tGroup with paths := [{ tPath with pc := pc, st := st }] }
def tRange (base : Va) (st : PathSt) : State :=
  { tMem with vds := [(0, { tVd with ranges := [(0, { base := base, chunks := 1, leaves := 0x200000, obj := 0, root := [] })], pages := [256] })]
              groups := [(1, tAt base st)], blocks := [(0, tBlock)] }

theorem witness_Fetching :
    (∃ s p b, Tbl.find s.groups 1 = some tGroup ∧ tGroup.paths = [p] ∧ p.mask ≠ 0 ∧ p.st = .ready ∧ p.stop = none ∧ Tbl.find s.blocks tGroup.blk = some b ∧
      b.loc = .core tGroup.core ∧ (State.vd s b.vd).runs = true ∧ tGroup.halt = none ∧ (s.core tGroup.core).chunk b.vd p.pc = none ∧
      (s.vd b.vd).rangeAt p.pc = none ∧ p.handler = false) ∧
    (∃ s g p b pa ord key, Tbl.find s.groups 1 = some g ∧ g.paths = [p] ∧ p.mask ≠ 0 ∧ p.st = .ready ∧ p.stop = none ∧ Tbl.find s.blocks g.blk = some b ∧
      b.loc = .core g.core ∧ (State.vd s b.vd).runs = true ∧ g.halt = none ∧ (s.core g.core).chunk b.vd p.pc = none ∧ (s.vd b.vd).rangeAt p.pc ≠ none ∧
      (s.translate b.vd p.pc.toNat 0 .fetch).1 = .ok pa ord key ∧ region pa = 0 ∧ s.keyOk b.vd key = true) ∧
    (∃ s g p b code, Tbl.find s.groups 1 = some g ∧ g.paths = [p] ∧ p.st = .ready ∧ Tbl.find s.blocks g.blk = some b ∧ b.loc = .core g.core ∧
      (State.vd s b.vd).runs = true ∧ (s.core g.core).chunk b.vd p.pc = none ∧ (s.vd b.vd).rangeAt p.pc ≠ none ∧ s.waits = [] ∧
      (s.translate b.vd p.pc.toNat 0 .fetch).1 = .notPresent code) ∧
    (∃ s vd chunk pa ord key, (State.core s 0).checking.contains (vd, chunk) = true ∧ (s.translate vd (4096 * chunk) 0 .fetch).1 = .ok pa ord key ∧
      region pa = 0 ∧ s.keyOk vd key = true ∧ s.segFail vd (.phys pa 4096 key ord) false .ok = none) ∧
    ∃ s g p, State.waits s = [.fetch 0 256 1 0] ∧ 256 ∈ (s.vd 0).pages.take 64 ∧ Tbl.find s.groups 1 = some g ∧ pathAt g.paths 0 = some p ∧ p.st = .fetch ∧
      p.handler = false ∧ s.onCore g.blk = true ∧ (∀ a ∈ s.accesses, a.replay = false) ∧ (∀ e ∈ s.groups, e.2.stall ≠ some (.page 0 256)) ∧ p.mask ≠ 0 ∧ Apart g :=
  ⟨⟨tMem, _, _, rfl, rfl, by decide, rfl, rfl, rfl, rfl, by decide, rfl, by decide, by decide, rfl⟩,
   ⟨tRange 0x100000 .ready, _, _, _, 0x100000, .rc, 0, rfl, rfl, by decide, rfl, rfl, rfl, rfl, by decide, rfl, by decide, by decide, by decide +kernel, by decide, by decide⟩,
   ⟨tRange 0x10000000000 .ready, _, _, _, 0x093, rfl, rfl, rfl, rfl, rfl, by decide, by decide, by decide, rfl, by decide +kernel⟩,
   ⟨{ tRange 0x100000 .fetch with cores := [(0, { Core.init with checking := [(0, 256)] })] }, 0, 256, 0x100000, .rc, 0, by decide, by decide +kernel, by decide, by decide,
     by decide⟩,
   { tRange 0x100000 .fetch with waits := [.fetch 0 256 1 0] }, _, _, rfl, by decide, rfl, rfl, rfl, rfl, by decide, by decide, by decide, by decide, by unfold Apart; decide⟩

/-- A block with entries 0, 2 and 3 of 32 by 32 FP32 elements with twins, and entry 1 a CB4 entry. -/
def tBlockE : Block := { tBlock with tx := [(0, tEntry), (1, 0x15), (2, tEntry), (3, tEntry)] }

/-- The group, whose registers s8 to s10 hold the word of an MMT. -/
def tFollow : BitVec 96 := (encode (.mmt ⟨false, 15, 0, 0, 15, false⟩ true false true false (.imm 0) (.imm 1) (.tile 2) 4)).getD 0
def tGroupE : Group :=
  { tGroup with s := [(0, 1), (1, 2), (2, 3), (3, 4), (4, 0), (5, 0), (6, 0), (7, 0), (8, tFollow.setWidth 32), (9, (tFollow >>> 32).setWidth 32),
                      (10, (tFollow >>> 64).setWidth 32), (11, 5), (12, 0x80000), (13, 1), (14, 0), (15, 0)] }
def tEng : State := { tState tGroupE tBlockE with vds := [(0, tVd)], comms := [(0, { valid := true, nr := 2, me := 0, routes := [], sil := 0, broken := false, dropped := [], seq := 0 })] }

def isOkGet : EngRes (List Byte) → Bool
  | .ok _ => true
  | _ => false

/-- What a plan asks of the block. -/
def fits (s : State) (b : Block) (plan : Plan) : Bool :=
  (plan.tag.all fun i => b.tag i != .busy) && (plan.ctr.all fun i => decide (b.ctr i < 255)) && (plan.slots.all fun k => !b.away k) && !plan.absent &&
    s.roomFor 0 b.vd plan.body && decide (plan.cost ≤ 4)

theorem takes_of {g : Group} {b : Block} {s : State} (plan : Plan) (hw : (s.issueCtx tWho g tPath b hh).live = tPath.mask)
    (hp : (s.issueCtx tWho g tPath b hh).isProducer = true) (hc : g.core = 0) (hd : s.dies = []) (hk : s.cores = []) (hb : b.batch = []) (hv : (s.vd b.vd).dcfg = false)
    (hf : fits s b plan = true) : Takes s tWho g tPath b hh plan := by
  simp only [fits, Bool.and_eq_true] at hf
  obtain ⟨⟨⟨⟨⟨h1, h2⟩, h3⟩, h4⟩, h5⟩, h6⟩ := hf
  refine ⟨hw, hp, fun i hi => ?_, fun i hi => ?_, fun k hk => ?_, by simpa using h4, by rw [hc]; exact h5, ?_, ?_, hb, hv⟩
  · simpa [hi] using h1
  · simpa [hi] using h2
  · simpa using List.all_eq_true.1 h3 k hk
  · rw [hc]; simp [State.die, hd, Tbl.getD, Tbl.find]; rfl
  · rw [hc]
    have h : plan.cost ≤ 4 := by simpa using h6
    have h0 : s.dieUse (0 / 64) = 0 := by simp [State.dieUse, State.die, hd, hk, Tbl.getD, Tbl.find]; exact ⟨rfl, rfl⟩
    have h1 : (s.die (0 / 64)).limit = 360 := by simp [State.die, hd, Tbl.getD, Tbl.find]; decide
    omega

theorem runsE (ops : List (Nat × Opnd × Nat)) (hd : demandFail tBlockE ops = none) : Runs tEng tWho tGroupE tPath tBlockE hh ops :=
  ⟨⟨rfl, rfl, rfl, by decide, rfl, rfl⟩, by decide, hd⟩
theorem takesE (plan : Plan) (hf : fits tEng tBlockE plan = true) : Takes tEng tWho tGroupE tPath tBlockE hh plan :=
  takes_of plan (by decide) (by decide) rfl rfl rfl rfl (by decide) hf

/-- The checks give a plan that the block takes. -/
def planFits (x : Except Deny Plan) : Bool :=
  match x with
  | .ok plan => fits tEng tBlockE plan
  | .error _ => false

/-- A command of the engines can be accepted: its registers lie within the demands, its checks give a plan, and the plan is
taken. -/
def accepts (ops : List (Nat × Opnd × Nat)) (x : Except Deny Plan) : Prop :=
  ∃ plan, x = .ok plan ∧ Runs tEng tWho tGroupE tPath tBlockE hh ops ∧ Takes tEng tWho tGroupE tPath tBlockE hh plan

theorem accepts_of (ops : List (Nat × Opnd × Nat)) (x : Except Deny Plan) (hd : demandFail tBlockE ops = none) (hx : planFits x = true) :
    accepts ops x := by
  match x, hx with
  | .ok plan, hx => exact ⟨plan, rfl, runsE _ hd, takesE _ hx⟩

/-- The same of a plan that its statement writes out. -/
theorem accepts_ok (ops : List (Nat × Opnd × Nat)) (plan : Plan) (hd : demandFail tBlockE ops = none) (hf : fits tEng tBlockE plan = true) :
    accepts ops (.ok plan) := accepts_of _ _ hd hf

theorem resumeCost_le (n : Nat) : resumeCost n ≤ 4 := by unfold resumeCost; omega

/-- Nothing is mapped in that machine, so that no image is found, and the cost is one of R398's. -/
theorem resumeAsk_le (ea : Va) (h : isOkGet ((tEng.issued tWho tGroupE tPath hh).engGet tBlockE .ok 100 ea.toNat 512).2 = false) :
    (tEng.issued tWho tGroupE tPath hh).resumeAsk (State.issueCtx tEng tWho tGroupE tPath tBlockE hh) ea ≤ 4 := by
  have h' : isOkGet ((tEng.issued tWho tGroupE tPath hh).engGet (State.issueCtx tEng tWho tGroupE tPath tBlockE hh).b .ok 100 ea.toNat 512).2 = false := h
  unfold State.resumeAsk
  split
  · next p hp => have := List.find?_some hp; simp at this; omega
  · generalize ((tEng.issued tWho tGroupE tPath hh).engGet (State.issueCtx tEng tWho tGroupE tPath tBlockE hh).b .ok 100 ea.toNat 512).2 = x at h'
    cases x with
    | ok bs => simp [isOkGet] at h'
    | wait => exact resumeCost_le _
    | stop code addr => exact resumeCost_le _

/-- A stopped MZERO in the progress register, with the counter that it holds. -/
def tStopped : Stopped :=
  { cmd := { blk := 0, gid := 1, pc := 0x100000, ltid := 0, md := 0, acq := false, rel := false, scope := 0, ctrs := [2], bars := [], after := [], cost := 2,
             body := .mzero false 0 1 }
    code := 0, ucode := 0, addr := 0 }
def tBlockS : Block := { tBlockE with prog := some tStopped }

theorem witness_EngineIssues :
    (let c := State.issueCtx tEng tWho tGroupE tPath tBlockE hh
     let li := tEng.launchIx tBlockE
     let ea := fun a u imm => c.ea li a u false imm (lowLane c.live)
     let md : CopyMd := ⟨true, true, true, false, true, true, 63, 15, 10, 0⟩
     let x := c.quad 3 8
     (accepts [(0, .imm 0, 1), (2, .s 4, 4)] (c.copyPlan li .copy (CopyMd.ctl md) (.imm 0) 0 4 false (.ok none)) ∧
      accepts [(0, .v 0, 1), (2, .s 4, 4)] (c.copyPlan li .copyw (CopyMd.ctl md) (.v 0) 0 4 false (.ok none))) ∧
     (∃ m, quadAt x 3 < 2 ^ 10 ∧ quadAt x 3 / 64 ≤ 10 ∧ quadAt x 3 / 64 = 0 ∧ c.follow li x = .ok m ∧
       accepts [(0, .imm 0, 1), (2, .s 4, 4), (3, .s 8, 4)] (c.copyPlan li .copym {
         md := CopyMd.md ⟨false, false, false, false, false, true, 0, 0, 0, 0⟩, st := false, acq := false, rel := false, z := true
         tag := quadAt x 3 % 64, scope := quadAt x 3 / 64, ctr := false, ctrIx := 0, bar := false, barIx := 0 } (.imm 0) 0 4 false (.ok (some m)))) ∧
     (txReason (tBlockE.txEnt 1) (tBlockE.store 1) ⟨[.cb4], false, false, false⟩ = none ∧ 15 < tBlockE.nctr ∧
       accepts [] (.ok { Plan.init 0 1 (.tloadcb 1 (tBlockE.txEnt 1)) with acq := true, scope := 10, ctr := some 15 })) ∧
     (tBlockE.harvest = false ∧ c.tl li 0 (.imm 7) ≤ 7 ∧ (ea 2 (.imm 0) 0x40).toNat % 64 = 0 ∧
       accepts [(0, .imm 7, 1), (2, .imm 0, 1)] (.ok { Plan.init 0 1 (.batload (c.tl li 0 (.imm 7)) (ea 2 (.imm 0) 0x40)) with
         ctr := some 15, acq := true, scope := 10 })) ∧
     accepts [(0, .s 2, 1), (1, .imm 1, 1), (2, .tile 2, 1), (3, .s 4, 1)] (mmtPlan tBlockE (mmtMd true true true false)
       { fol := false, buf := false, ck := true, z := true, sa := true, sb := false, c := c.tl li 0 (.s 2), a := c.tl li 1 (.imm 1), b := c.tl li 2 (.tile 2)
         ctl := c.s 3 4, cb := none }) ∧
     (tBlockE.prog = none ∧ accepts [(0, .imm 0, 1), (3, .s 4, 4)] (mmxPlan tBlockE true true true true (c.tl li 0 (.imm 0)) 0 2 (tBlockE.txEnt 0)
       (tBlockE.txEnt 2) (tBlockE.store 0) (tBlockE.store 2) (c.quad 3 4))) ∧
     (tBlockE.prog = none ∧ (ea 2 (.imm 0) 0x40).toNat % 64 = 0 ∧ accepts [(2, .imm 0, 1)]
       (.ok { Plan.init (BitVec.ofNat 6 (2 + 4 * 15)) ((tEng.issued tWho tGroupE tPath hh).resumeAsk c (ea 2 (.imm 0) 0x40)) (.mresume (ea 2 (.imm 0) 0x40)) with ctr := some 15 })) ∧
     accepts [(2, .imm 0, 1)] (.ok { Plan.init 0 1 (.msave (ea 2 (.imm 0) 0x40)) with ctr := some 0, rel := true }) ∧
     (1 ≤ c.tl li 1 (.imm 64) ∧ c.tl li 1 (.imm 64) ≤ 64 ∧ c.tl li 0 (.imm 0) + c.tl li 1 (.imm 64) ≤ tBlockE.nt ∧
       accepts [(0, .imm 0, 1), (1, .imm 64, 1)] (.ok { Plan.init 0 1 (.mzero true (c.tl li 0 (.imm 0)) (c.tl li 1 (.imm 64))) with ctr := none })) ∧
     (1 ≤ c.tl li 1 (.s 0) ∧ c.tl li 1 (.s 0) ≤ 512 ∧ c.tl li 0 (.imm 0x7F) + c.tl li 1 (.s 0) ≤ tBlockE.nsl ∧
       accepts [(0, .imm 0x7F, 1), (1, .s 0, 1)] (.ok { Plan.init 0 1 (.mzero false (c.tl li 0 (.imm 0x7F)) (c.tl li 1 (.s 0))) with ctr := some 3 })) ∧
     ((c.base 3 2).toNat % 64 = 0 ∧ accepts [(2, .s 4, 4)] (mdrainPlan tBlockE true true true true true 0 2 (tBlockE.txEnt 0) (tBlockE.txEnt 2)
       (tBlockE.txEnt 3) (c.quad 2 4) (c.base 3 2))) ∧
     accepts [(2, .s 4, 4)] (collPlan tEng tBlockE .bar false true true 0 0 (c.quad 2 4) (c.base 3 2))) ∧
    (let s := { tEng with blocks := [(0, tBlockS)] }
     Runs s tWho tGroupE tPath tBlockS hh [] ∧ tBlockS.prog = some tStopped ∧ 5 < tBlockS.nctr ∧
     Takes s tWho tGroupE tPath tBlockS hh { Plan.init 0 2 (.mzero false 0 1) with ctr := some 5, held := [2] }) := by
  refine ⟨⟨⟨accepts_of _ _ (by decide) (by decide +kernel), accepts_of _ _ (by decide) (by decide +kernel)⟩,
      ⟨{ fol := true, buf := true, ck := true, z := false, sa := true, sb := false, c := 0, a := 1, b := 2, ctl := 0, cb := none }, by decide +kernel, by decide +kernel,
        by decide +kernel, by decide +kernel, accepts_of _ _ (by decide) (by decide +kernel)⟩,
      ⟨by decide +kernel, by decide, accepts_ok _ _ (by decide) (by decide +kernel)⟩,
      ⟨rfl, by decide +kernel, by decide +kernel, accepts_ok _ _ (by decide) (by decide +kernel)⟩,
      accepts_of _ _ (by decide) (by decide +kernel), ⟨rfl, accepts_of _ _ (by decide) (by decide +kernel)⟩,
      ⟨rfl, by decide +kernel, accepts_ok _ _ (by decide) ?_⟩,
      accepts_ok _ _ (by decide) (by decide +kernel),
      ⟨by decide +kernel, by decide +kernel, by decide +kernel, accepts_ok _ _ (by decide) (by decide +kernel)⟩,
      ⟨by decide +kernel, by decide +kernel, by decide +kernel, accepts_ok _ _ (by decide) (by decide +kernel)⟩,
      ⟨by decide +kernel, accepts_of _ _ (by decide) (by decide +kernel)⟩, accepts_of _ _ (by decide) (by decide +kernel)⟩,
    ⟨⟨rfl, rfl, rfl, by decide, rfl, rfl⟩, by decide, rfl⟩, rfl, by decide, takes_of _ (by decide) (by decide) rfl rfl rfl rfl (by decide) (by decide)⟩
  simp only [fits, Bool.and_eq_true, decide_eq_true_eq]
  refine ⟨by decide +kernel, ?_⟩
  refine le_of_eq_of_le (b := State.resumeAsk (tEng.issued tWho tGroupE tPath hh) (State.issueCtx tEng tWho tGroupE tPath tBlockE hh)
    ((State.issueCtx tEng tWho tGroupE tPath tBlockE hh).ea (tEng.launchIx tBlockE) 2 (.imm 0) false 64
      (lowLane (State.issueCtx tEng tWho tGroupE tPath tBlockE hh).live))) rfl (resumeAsk_le _ ?_)
  decide +kernel

theorem witness_TransferIssues :
    (∀ store, store = true ∨ store = false →
      let c := State.issueCtx tEng tWho tGroupE tPath tBlockE hh
      let m : XferMd := ⟨true, true, true, false, true, true, 5, 10, 0⟩
      let k := c.tl (tEng.launchIx tBlockE) 0 (.imm 0x7F)
      let e := tBlockE.txEnt 2
      let q := c.quad 2 4
      txReason e (tBlockE.store 2) ⟨xferFmts store m.slab, false, false, store⟩ = none ∧ k + 1 ≤ tBlockE.nsl ∧ m.ctrIx.toNat < tBlockE.nctr ∧
      xferBad m.slab m.z store e q = false ∧ accepts [(0, .imm 0x7F, 1), (2, .s 4, 4)] (.ok
        { Plan.init (CopyMd.md ⟨m.slab, m.acq, m.rel, m.bar, m.ctr, m.z, 0, 0, 0, 0⟩) 1 (.xfer store m.slab m.z k 2 e q 0) with
          ctr := some 5, bar := none, acq := m.acq, rel := m.rel, scope := m.scope.toNat })) ∧
    (∃ (c : Ctx) (li : W32) (k : CopyKind) (m : CopyCtl) (slot : Opnd) (tx quad : Nat) (bad : Bool) (fol : Except Deny (Option Mmt)) (plan : Plan),
      c.copyPlan li k m slot tx quad bad fol = .ok plan) ∧ ∃ b md m plan, mmtPlan b md m = .ok plan := by
  refine ⟨?_, ?_, ?_⟩
  · rintro store (rfl | rfl)
    · exact ⟨by decide +kernel, by decide +kernel, by decide, by decide +kernel, accepts_ok _ _ (by decide) (by decide +kernel)⟩
    · exact ⟨by decide +kernel, by decide +kernel, by decide, by decide +kernel, accepts_ok _ _ (by decide) (by decide +kernel)⟩
  · obtain ⟨plan, h, _⟩ := witness_EngineIssues.1.1.1
    exact ⟨_, _, _, _, _, _, _, _, _, plan, h⟩
  · obtain ⟨plan, h, _⟩ := witness_EngineIssues.1.2.2.2.2.1
    exact ⟨_, _, _, plan, h⟩

/-- A block whose producer is another group. -/
def tBlockO : Block := { tBlock with prod := 1 }

theorem witness_EngineDenials :
    (∃ h ops, engineOps (.mzero hp true 15 false (.imm 0) (.imm 1)) = some (h, ops) ∧ Runs t0 tWho tGroup tPath tBlock h ops ∧ Apart tGroup ∧ tPath.handler = false ∧
      (State.issueCtx t0 tWho tGroup tPath tBlock h).live ≠ tPath.mask) ∧
    ∃ h ops, engineOps (.mresumeReg hh false 0) = some (h, ops) ∧ Runs (tState tGroup tBlockO) tWho tGroup tPath tBlockO h ops ∧
      (State.issueCtx (tState tGroup tBlockO) tWho tGroup tPath tBlockO h).live = tPath.mask ∧
      (State.issueCtx (tState tGroup tBlockO) tWho tGroup tPath tBlockO h).isProducer = false :=
  ⟨⟨_, _, rfl, runsP _ (by decide), apart0, rfl, by decide⟩, _, _, rfl, tRuns hh _ rfl (by decide) rfl rfl (by decide) rfl, by decide, by decide⟩

/-- A block with one entry of the tag table written. -/
def tTags (k : Nat) (e : TagEnt) : Block := { tBlock with tagTab := [(k, e)] }
def tEnt (vld : Bool) (busy : Nat) : TagEnt := { vld := vld, key := 0x800, busy := busy, lendable := false, lentTo := none, absent := false, age := 0 }

/-- A block of one slot, with its entry. -/
def tSole (e : TagEnt) : Block := { tTags 0 e with nsp := 1 }

theorem witness_Lookup :
    (let b := tTags 383 (tEnt true 1)
     let s := tState tGroup b
     let c := State.issueCtx s tWho tGroup tPath b hp
     (Opnd.isV (.v 255) || Opnd.isS (.v 255)) = true ∧ Opnd.isUs (.v 3) = false ∧ b.nsp ≤ 384 ∧ Runs s tWho tGroup tPath b hp [(0, .v 255, 1), (2, .v 3, 1)] ∧
     Roomy s tWho tGroup tPath b hp ∧ Quiet tGroup (Opnd.regs 1 (.v 255)) ∧
     (has c.live 0 = true ∧ b.hit (keyOf (c.ea (s.launchIx b) 2 (.v 3) false 0 0)) = some 383) ∧
     (has c.live 9 = true ∧ b.hit (keyOf (c.ea (s.launchIx b) 2 (.v 3) false 0x7FF 9)) = none)) ∧
    (let b := tTags 383 (tEnt true 1)
     let s := tState tGroup b
     Opnd.isUs (.s 4) = true ∧ Runs s tWho tGroup tPath b hh [(0, .v 255, 1), (2, .s 4, 1)] ∧ Roomy s tWho tGroup tPath b hh ∧ Quiet tGroup (Opnd.regs 1 (.v 255)) ∧
     (State.issueCtx s tWho tGroup tPath b hh).live = tGroup.full) ∧
    Suggests (tTags 0 (tEnt true 1)) (fun _ => 0) 1 ∧ Suggests (tSole (tEnt true 0)) (fun _ => 0) 0 ∧ ((tSole (tEnt true 0)).ent 0).vld = true ∧
    ∀ k < (tSole (tEnt true 1)).nsp, ((tSole (tEnt true 1)).ent k).open' = false :=
  ⟨⟨rfl, rfl, by decide, tRuns hp _ rfl (by decide) rfl rfl (by decide) (by decide), by unfold Roomy; decide +kernel, quiet0 _,
      ⟨by decide, by decide +kernel⟩, by decide, by decide +kernel⟩,
    ⟨rfl, tRuns hh _ rfl (by decide) rfl rfl (by decide) (by decide), by unfold Roomy; decide +kernel, quiet0 _, by decide⟩,
    by unfold Suggests; decide +kernel, by unfold Suggests; decide +kernel, by decide, by decide +kernel⟩

theorem witness_TagWrites :
    (let b := tTags 3 (tEnt true 0)
     let c := State.issueCtx (tState tGroup b) tWho tGroup tPath b hp
     let li := (tState tGroup b).launchIx b
     c.slot li 0 (.imm 3) = .ok 3 ∧ (b.ent 3).absent = false ∧ (b.ent 3).lendable = false ∧ (b.ent 3).lentTo = none ∧ b.harvest = false ∧ (b.ent 3).busy = 0 ∧
     Runs (tState tGroup b) tWho tGroup tPath b hp [(0, .imm 3, 1), (2, .imm 0, 1)] ∧ Runs (tState tGroup b) tWho tGroup tPath b hp [(0, .imm 3, 1)] ∧
     Runs (tState tGroup b) tWho tGroup tPath b hp [] ∧
     ∀ j < b.nsp, j ≠ 3 → (b.ent j).vld = true → (b.ent j).key ≠ keyOf (c.ea li 2 (.imm 0) false 0 (lowLane c.live))) ∧
    (let b := tTags 0 (tEnt false 255)
     (State.issueCtx (tState tGroup b) tWho tGroup tPath b hp).slot ((tState tGroup b).launchIx b) 0 (.s 4) = .ok 0 ∧ 0 < (b.ent 0).busy ∧
     (b.ent 0).absent = false ∧ (b.ent 0).lendable = false ∧ (b.ent 0).lentTo = none ∧
     Runs (tState tGroup b) tWho tGroup tPath b hp [(0, .s 4, 1), (2, .imm 0, 1)] ∧ Runs (tState tGroup b) tWho tGroup tPath b hp [(0, .s 4, 1)] ∧
     Apart tGroup ∧ tPath.handler = false) ∧
    (let b := tTags 5 (tEnt true 1)
     let c := State.issueCtx (tState tGroup b) tWho tGroup tPath b hp
     let li := (tState tGroup b).launchIx b
     c.slot li 0 (.imm 3) = .ok 3 ∧ (b.ent 3).absent = false ∧ (b.ent 3).lendable = false ∧ (b.ent 3).lentTo = none ∧ (b.ent 3).busy = 0 ∧ 5 < b.nsp ∧
     (b.ent 5).vld = true ∧ (b.ent 5).key = keyOf (c.ea li 2 (.imm 0) false 0 (lowLane c.live)) ∧
     Runs (tState tGroup b) tWho tGroup tPath b hp [(0, .imm 3, 1), (2, .imm 0, 1)]) ∧
    (let b := { tTags 3 (tEnt true 0) with harvest := true }
     b.harvest = true ∧ (State.issueCtx (tState tGroup b) tWho tGroup tPath b hp).slot ((tState tGroup b).launchIx b) 0 (.imm 3) = .ok 3 ∧
     (b.ent 3).absent = false ∧ (b.ent 3).busy = 0 ∧ Runs (tState tGroup b) tWho tGroup tPath b hp [(0, .imm 3, 1)]) := by
  have hr : ∀ (b : Block) ops, demandFail b ops = none → Runs (tState tGroup b) tWho tGroup tPath b hp ops := fun b ops hd =>
    tRuns hp ops rfl (by decide) rfl rfl (show (State.issueCtx t0 tWho tGroup tPath tBlock hp).live ≠ 0 by decide) hd
  exact ⟨⟨by decide +kernel, by decide, by decide, by decide, rfl, by decide, hr _ _ (by decide), hr _ _ (by decide), hr _ _ rfl, by decide +kernel⟩,
    ⟨by decide +kernel, by decide, by decide, by decide, by decide, hr _ _ (by decide), hr _ _ (by decide), apart0, rfl⟩,
    ⟨by decide +kernel, by decide, by decide, by decide, by decide, by decide, by decide, by decide +kernel, hr _ _ (by decide)⟩,
    rfl, by decide +kernel, by decide, by decide, hr _ _ (by decide)⟩

/-- A block whose tag 31 is done and whose counters 15 and 0 hold 3 and 0. -/
def tBlockT : Block := { tBlock with tags := [(31, .done true), (0, .busy)], ctrs := [(15, 3)], tagTab := [(0, tEnt true 0)] }
def tWaits : State := tState tGroup tBlockT
/-- The same with four counters. -/
def tBlockC : Block := { tBlock with nctr := 4 }

theorem witness_TagReadsAndWaits :
    (let c := State.issueCtx tWaits tWho tGroup tPath tBlockT hp
     let li := tWaits.launchIx tBlockT
     let gives := fun (ops : List (Nat × Opnd × Nat)) (d : Nat) => Runs tWaits tWho tGroup tPath tBlockT hp ops ∧ Quiet tGroup [.s d]
     (c.slot li 1 (.s 4) = .ok 0 ∧ gives [(0, .s 63, 1), (1, .s 4, 1)] 63 ∧ Quiet tGroup [.b 1] ∧ Runs tWaits tWho tGroup tPath tBlockT hp [(1, .s 4, 1)]) ∧
     (tBlockT.maskBad (c.tagMask li true (.s 0)) = false ∧ gives [(0, .s 0, 1), (1, .s 0, maskCount true)] 0) ∧
     (tBlockT.maskBad (c.tagMask li false (.s 2)) = false ∧ gives [(0, .s 0, 1), (1, .s 2, maskCount false)] 0) ∧
     (15 < tBlockT.nctr ∧ gives [(0, .s 62, 1)] 62)) ∧
    (let c := State.issueCtx tWaits tWho tGroup tPath tBlockT hp
     let m := c.tagMask (tWaits.launchIx tBlockT) true (.s 0)
     Apart tGroup ∧ tPath.st = .ready ∧ tBlockT.maskBad m = false ∧ tBlockT.waitOver (.tags true m) = false ∧ tBlockT.waitOver (.tags true 0x80000001) = true ∧
     tBlockT.waitOver (.tags false 0x80000001) = false ∧ tBlockT.waitOver (.tags false 0) = true ∧
     Runs tWaits tWho tGroup tPath tBlockT hp [(1, .s 0, maskCount true)] ∧ Runs tWaits tWho tGroup tPath tBlockT hp [] ∧
     tBlockT.waitOver (.ctr 15 3) = false ∧ tBlockT.waitOver (.ctr 15 4) = true) ∧
    (tBlockC.nctr ≤ 4 ∧ tPath.handler = false ∧ Runs (tState tGroup tBlockC) tWho tGroup tPath tBlockC hp []) := by
  have hr : ∀ ops, demandFail tBlockT ops = none → Runs tWaits tWho tGroup tPath tBlockT hp ops := fun ops hd =>
    tRuns hp ops rfl (by decide) rfl rfl (by decide) hd
  exact ⟨⟨⟨by decide +kernel, ⟨hr _ (by decide), quiet0 _⟩, quiet0 _, hr _ (by decide)⟩, ⟨by decide +kernel, hr _ (by decide), quiet0 _⟩,
      ⟨by decide +kernel, hr _ (by decide), quiet0 _⟩, by decide, hr _ (by decide), quiet0 _⟩,
    ⟨apart0, rfl, by decide +kernel, by decide +kernel, by decide +kernel, by decide +kernel, by decide +kernel, hr _ (by decide), hr _ rfl, by decide, by decide⟩,
    by decide, rfl, tRuns hp _ rfl (by decide) rfl rfl (by decide) rfl⟩

/-- A memory that holds the bytes of an entry. -/
def tDef : State := { tMem with mem := Memory.write tTables 0x200400 (leBytes 64 (tEntry.toNat)) }

/-- The group stands at a TDEF that has read an image, or whose memory failed. -/
def tImaged (ok : Bool) (img : TxEnt) : State :=
  { tMem with groups := [(1, { tGroup with paths := [{ tPath with st := .read }] })]
              accesses := [{ tAcc (.tdef 63) { tPart 0x200400 64 none with done := true, ok := ok, got := img.toNat } with live := 0x3FF }] }

theorem witness_TensorTable :
    (let c := State.issueCtx tDef tWho tGroup tPath tBlockM hp
     let req : Req := ⟨lowLane c.live, c.ea (tDef.launchIx tBlockM) 2 (.imm 0) false 0x400 (lowLane c.live), 0, 0⟩
     Runs tDef tWho tGroup tPath tBlockM hp [(2, .imm 0, 1)] ∧ Apart tGroup ∧ Passes tDef tWho tGroup tPath tBlockM hp (.tdef 63) [req]) ∧
    (∃ s k i x q pa key ord n, Performs s k i x q pa 64 key ord ∧ x.op = .tdef n ∧ q.twin = none) ∧
    (∃ (s : State) (x : Access) (n : Nat) (e : Group), s.accesses = [x] ∧ x.op = .tdef n ∧ (∀ q ∈ x.parts, q.done = true) ∧ x.replay = false ∧ Tbl.find s.groups x.gid = some e ∧
      e.core = 0 ∧ 0 ≤ e.sched ∧ e.sched < 1 ∧ s.onCore x.blk = true) ∧
    (∀ ok img, (ok, img) = (true, tEntry) ∨ (ok, img) = (true, tEntry + 0x400) ∨ (ok, img) = (false, 0) → ∃ (s : State) (x : Access) (e : Group) (r : Path) (k : Block),
      Tbl.find s.groups x.gid = some e ∧ Apart e ∧ Tbl.find s.blocks x.blk = some k ∧ s.invals = [] ∧ r ∈ e.paths ∧ r.st = .read ∧ r.mask &&& x.live = x.live ∧ x.live ≠ 0 ∧
      r.handler = false ∧ (∀ q ∈ x.parts, q.ok = ok) ∧ (ok = true → img = tEntry → TxEnt.badCheck x.image = none) ∧
      ((ok = false ∨ img ≠ tEntry) → ∃ f, x.imageFault 63 = some f)) ∧
    (let c := State.issueCtx t0 tWho tGroup tPath tBlock hp
     let li := t0.launchIx tBlock
     Runs t0 tWho tGroup tPath tBlock hp [] ∧ Runs t0 tWho tGroup tPath tBlock hp [(1, .s 0, 1)] ∧ Runs t0 tWho tGroup tPath tBlock hp [(1, .s 4, 1)] ∧
     (∃ e, TxEnt.setFld (tBlock.txEnt 0) .n0 ((c.src li 1 (.s 0)).lane (lowLane c.live)) (c.baseOf 1 (.s 0)) = some e ∧ TxEnt.badCheck e = none) ∧
     TxEnt.setFld (tBlock.txEnt 0) .n0 ((c.src li 1 (.s 4)).lane (lowLane c.live)) (c.baseOf 1 (.s 4)) = none ∧ Apart tGroup ∧ tPath.handler = false ∧
     Runs t0 tWho tGroup tPath tBlock hp [(0, .s 63, 1)] ∧ Runs t0 tWho tGroup tPath tBlock hp [(0, .base 1, 1)]) ∧
    TxEnt.fmtCode 0 ≠ TxEnt.fmtCode (tBlockE.txEnt 1) := by
  refine ⟨⟨⟨⟨rfl, rfl, rfl, by decide, rfl, rfl⟩, by decide, by decide⟩, apart0, passes_of (by decide +kernel) (by decide +kernel) (by decide) (by decide)⟩,
    ⟨_, _, _, _, _, _, _, _, _, performs_of (.tdef 63) 0x200400 64 none (by decide) (.inl (by decide)) (by decide), rfl, rfl⟩,
    ⟨tImaged true tEntry, _, _, _, rfl, rfl, by decide, rfl, rfl, rfl, by decide, by decide, by decide⟩, ?_,
    ⟨runsP _ rfl, runsP _ (by decide), runsP _ (by decide), ⟨_, rfl, by decide +kernel⟩, by decide +kernel, apart0, rfl, runsP _ (by decide), runsP _ (by decide)⟩,
    by decide +kernel⟩
  intro ok img h
  let p : Path := { tPath with st := .read }
  let x : Access := { tAcc (.tdef 63) { tPart 0x200400 64 none with done := true, ok := ok, got := img.toNat } with live := 0x3FF }
  refine ⟨tImaged ok img, x, { tGroup with paths := [p] }, p, tBlockM, rfl, by unfold Apart; decide, rfl, rfl, List.mem_singleton.2 rfl, rfl, (by decide : tPath.mask &&& 0x3FF = 0x3FF), (by decide : (0x3FF : LaneMask) ≠ 0), rfl,
    fun q hq => by rw [List.mem_singleton.1 hq], ?_, ?_⟩
  · rintro rfl rfl; decide +kernel
  · rcases h with h | h | h <;> cases h
    · simp
    · exact fun _ => Option.isSome_iff_exists.1 (by decide +kernel)
    · exact fun _ => Option.isSome_iff_exists.1 (by decide +kernel)

theorem witness_SlabMoves :
    (let c := State.issueCtx t0 tWho tGroup tPath tBlock h1
     let li := t0.launchIx tBlock
     let runs := fun ops => Runs t0 tWho tGroup tPath tBlock h1 ops
     let free := fun k => t0.slabWriteBusy tGroup.core tGroup.blk k = false ∧ t0.slabReadBusy tGroup.core tGroup.blk k = false
     Roomy t0 tWho tGroup tPath tBlock h1 ∧ Memory.wf tBlock.slabs = true ∧ tPath.mask &&& tGroup.full = tPath.mask ∧
     (runs [(0, .s 63, 1), (1, .imm 7, 1)] ∧ c.tl li 1 (.imm 7) ≤ 7) ∧
     (runs [(0, .v 255, 1), (1, .s 4, 1), (2, .imm 7, 1)] ∧ c.tl li 1 (.s 4) < tBlock.nsl ∧ c.tl li 2 (.imm 7) < 256 / tGroup.width ∧ free (c.tl li 1 (.s 4))) ∧
     (runs [(0, .v 254, 2), (1, .imm 0x7F, 1), (2, .imm 0, 1), (3, .konst .fone, 1)] ∧ runs [(0, .v 255, 1), (1, .imm 0x7F, 1), (2, .imm 0, 1), (3, .konst .fone, 1)] ∧
       c.tl li 1 (.imm 0x7F) < tBlock.nsl ∧ c.tl li 2 (.imm 0) < tBlock.nsl ∧ free (c.tl li 1 (.imm 0x7F)) ∧ free (c.tl li 2 (.imm 0)))) ∧
    (let b := { tBlock with nsl := 4 }
     let c := State.issueCtx (tState tGroup b) tWho tGroup tPath b h1
     let li := (tState tGroup b).launchIx b
     Runs (tState tGroup b) tWho tGroup tPath b h1 [(0, .v 0, 1), (1, .imm 4, 1), (2, .imm 8, 1)] ∧ Apart tGroup ∧ tPath.handler = false ∧
     b.nsl ≤ c.tl li 1 (.imm 4) ∧ c.tl li 1 (.imm 3) < b.nsl ∧ 256 / tGroup.width ≤ c.tl li 2 (.imm 8) ∧
     Runs (tState tGroup b) tWho tGroup tPath b h1 [(0, .v 0, 1), (1, .imm 3, 1), (2, .imm 8, 1)]) :=
  ⟨⟨roomy1, by decide, by decide, ⟨runs1 _ (by decide), by decide⟩, ⟨runs1 _ (by decide), by decide, by decide, by decide, by decide⟩,
      runs1 _ (by decide), runs1 _ (by decide), by decide, by decide, ⟨by decide, by decide⟩, by decide, by decide⟩,
    tRuns h1 _ rfl (by decide) rfl rfl (by decide) (by decide), apart0, rfl, by decide, by decide, by decide,
    tRuns h1 _ rfl (by decide) rfl rfl (by decide) (by decide)⟩

theorem some_of {α β : Type} {x : α × β} {P : β → Bool} (h : P x.2 = true) : ∃ u b, x = (u, b) ∧ P b = true := ⟨x.1, x.2, rfl, h⟩

/-- A result of an engine's access that holds bytes of which `P` is true. -/
def got (P : List Byte → Bool) : EngRes (List Byte) → Bool
  | .ok bs => P bs
  | _ => false
theorem get_of {x : State × EngRes (List Byte)} {P : List Byte → Bool} (h : got P x.2 = true) : ∃ bs u, x = (u, .ok bs) ∧ P bs = true := by
  obtain ⟨u, r⟩ := x
  match r, h with
  | .ok bs, h => exact ⟨bs, u, rfl, h⟩

/-- A command of the block in an engine's queue. -/
def tCmd (body : EngBody) : EngCmd := { tStopped.cmd with ctrs := [], cost := 1, body := body }
def tCore (k : Core) : State := { tMem with cores := [(0, k)] }
/-- A copy of two rows of two elements into slot 3, with tag 5, that has moved none. -/
def tCopyCmd (st : Bool) : EngCmd := tCmd (.copy .copy st false 3 0 tEntry [0, 0, 0, 0x1001] 5 0 none)
def tCopy (st : Bool) : State := tCore { Core.init with copyQ := [tCopyCmd st] }
/-- A load of the codebook at 0x200800, of entry 1. -/
def tCbEntry : TxEnt := BitVec.ofNat 512 (0x15 + 0x200800 / 32 * 2 ^ 437)
def tLoadCb : State := tCore { Core.init with copyQ := [{ tCmd (.tloadcb 1 tCbEntry) with ctrs := [2] }] }

/-- The table image of rank 1 of a product of single bricks, byte by byte: every coefficient is 1 (R258, code 4); and as it lies
at 0x200000. -/
def tByte (i : Nat) : Byte := if 1 ≤ i ∧ i ≤ 4 then 1 else if i = 8 then 7 else if 16 ≤ i ∧ i % 512 = 16 then 4 else 0
def tImage : List Byte := (List.range 1552).map tByte
def tBatload (st : BatSt) : State :=
  { tCore { Core.init with matQ := [tCmd (.batload 7 0x200000)], bat := [(7, { st := st, image := [], tid := 0, serial := 2 ^ 15 - 1 })] } with
    mem := tTables ++ [(0x200001, 1), (0x200002, 1), (0x200003, 1), (0x200004, 1), (0x200008, 7), (0x200010, 4), (0x200210, 4), (0x200410, 4)] }

theorem tImage_at (i : Nat) (h : i < 1552) : tImage.toArray.getD i 0 = tByte i := by simp [tImage, h]

theorem tByte_body (i : Nat) (h : 16 ≤ i) : tByte i = if i % 512 = 16 then 4 else 0 := by
  have h1 : ¬ (1 ≤ i ∧ i ≤ 4) := by omega
  have h2 : i ≠ 8 := by omega
  simp [tByte, h1, h2, h]

/-- Bytes whose header is good, whose body is `f` with no code above 4 in a low half, and whose equations hold. -/
theorem tableBad_none (img : List Byte) (hh : badHeader img.toArray = none) (hr : ∀ n < 3, (Table.of img).rows n = 1) (hk : (Table.of img).rank = 1)
    (he : (Table.of img).badEquation = none) (hb : ∀ i, 16 ≤ i → i < 1552 → img.toArray.getD i 0 = if i % 512 = 16 then 4 else 0) : tableBad img = none := by
  have hi : ∀ i ∈ (List.range 1536).map (· + 16), 16 ≤ i ∧ i < 1552 := by
    intro i hi
    obtain ⟨j, hj, rfl⟩ := List.mem_map.1 hi
    have := List.mem_range.1 hj
    omega
  unfold tableBad
  simp only [hh]
  generalize (List.range 1536).map (· + 16) = body at hi ⊢
  rw [List.find?_eq_none.2, List.find?_eq_none.2]
  · simp [he]
  · intro i h
    have h := hi i h
    have hx := hb i h.1 h.2
    have hy := hr ((i - 16) / 512) (by omega)
    by_cases h0 : i % 512 = 16
    · have h1 : (i - 16) % 512 = 0 := by omega
      have h2 : (i - 16) % 32 = 0 := by omega
      simp only [hx, h0, h1, h2, hy, hk, if_true]; decide
    · simp only [hx, h0, if_false]; simp
  · intro i h
    have h := hi i h
    have hx := hb i h.1 h.2
    by_cases h0 : i % 512 = 16 <;> simp only [hx, h0, if_true, if_false] <;> decide

theorem tImage_good : tableBad tImage = none := by
  have hr : (Table.of tImage).rows 0 = 1 ∧ (Table.of tImage).rows 1 = 1 ∧ (Table.of tImage).rows 2 = 1 ∧ (Table.of tImage).rank = 1 := by decide +kernel
  refine tableBad_none _ (by decide +kernel) ?_ hr.2.2.2 (by decide +kernel) fun i h1 h2 => (tImage_at i h2).trans (tByte_body i h1)
  intro n hn
  obtain h | h | h : n = 0 ∨ n = 1 ∨ n = 2 := by omega
  all_goals rw [h]
  exacts [hr.1, hr.2.1, hr.2.2.1]

theorem witness_EngineLoads :
    (∀ st : Bool, ((tCopy st).core 0).copyQ[0]? = some (tCopyCmd st) ∧ Tbl.find (tCopy st).blocks 0 = some tBlockM ∧ (tCopy st).cmdReady (tCopyCmd st) = true ∧
      ((tCopy st).vd ((tCopy st).vdOf 1)).dcfg = false ∧
      copyRows .copy [0, 0, 0, 0x1001] ≤ ((tCopy st).moveRows tBlockM 0 .copy st tEntry [0, 0, 0, 0x1001] 3 2 0).2.1 ∧
      ((tCopy st).moveRows tBlockM 0 .copy st tEntry [0, 0, 0, 0x1001] 3 1 0).2.1 < copyRows .copy [0, 0, 0, 0x1001] ∧
      ((tCopy st).moveRows tBlockM 0 .copy st tEntry [0, 0, 0, 0x1001] 3 1 0).2.2 = .ok ()) ∧
    (∃ bs u, (tCopy false).loadRow tBlockM .ok 200 tEntry (copyRow .copy [0, 0, 0, 0x1001] 0) = (u, .ok bs) ∧ (bs.length == 8) = true) ∧
    (∃ bs u, (tLoadCb.core 0).copyQ[0]? = some { tCmd (.tloadcb 1 tCbEntry) with ctrs := [2] } ∧ tLoadCb.cmdReady (tCmd (.tloadcb 1 tCbEntry)) = true ∧
      tLoadCb.engGet tBlockM .ok 100 (TxEnt.cbase tCbEntry) 32 = (u, .ok bs) ∧ (tLoadCb.vd (tLoadCb.vdOf 1)).dcfg = false) ∧
    (∀ st, st = .empty ∨ st = .loading → (tBatload st).matPick 0 = some 0 ∧ (tBatload st).matHead 0 0 = some (tCmd (.batload 7 0x200000)) ∧
      Tbl.find (tBatload st).blocks 0 = some tBlockM ∧ (tBatload st).cmdReady (tCmd (.batload 7 0x200000)) = true ∧ ((tBatload st).bat 0 7).st = st ∧
      (tBatload st).slotInUse 0 0 7 = false) ∧
    (∃ img u, ((tBatload .loading).turnTo 0 0).engGet tBlockM .ok 100 0x200000 1552 = (u, .ok img) ∧ (img == tImage) = true ∧ tableBad img = none) ∧
    ∃ img u, (({ tBatload .loading with mem := tTables } : State).turnTo 0 0).engGet tBlockM .ok 100 0x200000 1552 = (u, .ok img) ∧ (tableBad img != none) = true := by
  refine ⟨?_, get_of (by decide +kernel), ?_, ?_, ?_, get_of (by decide +kernel)⟩
  · intro st
    cases st <;> exact ⟨rfl, rfl, by decide, by decide, by decide +kernel, by decide +kernel, by decide +kernel⟩
  · obtain ⟨bs, u, h, _⟩ := get_of (x := tLoadCb.engGet tBlockM .ok 100 (TxEnt.cbase tCbEntry) 32) (P := fun _ => true) (by decide +kernel)
    exact ⟨bs, u, rfl, by decide, h, by decide⟩
  · rintro st (rfl | rfl) <;> exact ⟨rfl, rfl, rfl, rfl, rfl, rfl⟩
  · obtain ⟨img, u, h, hi⟩ := get_of (x := ((tBatload .loading).turnTo 0 0).engGet tBlockM .ok 100 0x200000 1552) (P := fun bs => bs == tImage) (by decide +kernel)
    exact ⟨img, u, h, hi, by rw [eq_of_beq hi]; exact tImage_good⟩

/-- A machine whose matrix queue holds one command, in its turn. -/
def tMat (body : EngBody) : State := tCore { Core.init with matQ := [tCmd body] }
def tProduct (z sa : Bool) : Mmt := { fol := false, buf := false, ck := false, z := z, sa := sa, sb := !sa, c := 2, a := 0, b := 0, ctl := 0, cb := none }

theorem turn_of (body : EngBody) : (tMat body).matPick 0 = some 0 ∧ (tMat body).matHead 0 0 = some (tCmd body) ∧ Tbl.find (tMat body).blocks 0 = some tBlockM ∧
    (tMat body).cmdReady (tCmd body) = true ∧ (tCmd body).blk = 0 := by
  cases body <;> exact ⟨rfl, rfl, rfl, rfl, rfl⟩

theorem witness_MatrixSteps :
    (∀ tile, tile = true ∨ tile = false → ∃ first n, (tCmd (.mzero tile first n)).body = .mzero tile first n ∧ (tMat (.mzero tile first n)).matPick 0 = some 0 ∧
      (tMat (.mzero tile first n)).matHead 0 0 = some (tCmd (.mzero tile first n)) ∧ (tMat (.mzero tile first n)).cmdReady (tCmd (.mzero tile first n)) = true) ∧
    ∀ z sa : Bool, let m := tProduct z sa
      (tMat (.mmt m)).matPick 0 = some 0 ∧ (tMat (.mmt m)).matHead 0 0 = some (tCmd (.mmt m)) ∧ Tbl.find (tMat (.mmt m)).blocks 0 = some tBlockM ∧
      (tMat (.mmt m)).cmdReady (tCmd (.mmt m)) = true ∧ ctlDep m.ctl = 0 ∧ m.ck = false ∧ Fmt.ofCode (ctlFa m.ctl) = some .fp32 ∧
      Fmt.ofCode (ctlFb m.ctl) = some .fp32 ∧ m.a < (if m.sa then tBlockM.nsp else tBlockM.nt) ∧ m.b < (if m.sb then tBlockM.nsp else tBlockM.nt) ∧
      m.c + slabsOf .fp32 ≤ tBlockM.nsl ∧ Memory.wf tBlockM.slabs = true := by
  refine ⟨fun tile _ => ⟨0, 1, rfl, (turn_of _).1, (turn_of _).2.1, (turn_of _).2.2.2.1⟩, fun z sa => ⟨(turn_of _).1, (turn_of _).2.1, (turn_of _).2.2.1,
    (turn_of _).2.2.2.1, ?_⟩⟩
  cases z <;> cases sa <;> decide

/-- A die with one collective of a communicator of two ranks, with a rank dropped or with none. -/
def tColl (k : CollKind) (broken : Bool) (dropped : List Nat) : State :=
  { tMem with dies := [(0, { Die.init with collQ := [tCmd (.coll k false broken 0 0 [0, 1, 0, 0] 0x200000)] })]
              comms := [(0, { valid := true, nr := 2, me := 0, routes := [], sil := 0, broken := broken, dropped := dropped, seq := 0 })] }

theorem put_of {x : State × EngRes Unit} (h : x.2 = .ok ()) : ∃ u, x = (u, .ok ()) := ⟨x.1, by rw [← h]⟩

theorem witness_Collectives :
    (∀ k broken dropped, (k, broken, dropped) = (CollKind.ar, true, [1]) ∨ (k, broken, dropped) = (.ar, false, []) ∨ (k, broken, dropped) = (.bar, false, []) →
      let s := tColl k broken dropped
      let q := tCmd (.coll k false broken 0 0 [0, 1, 0, 0] 0x200000)
      (s.die 0).collQ[0]? = some q ∧ Tbl.find s.blocks q.blk = some tBlockM ∧ s.cmdReady q = true ∧ (s.vd (s.vdOf q.gid)).dcfg = false ∧
      (s.comm (s.vd tBlockM.vd).partition (collComm [0, 1, 0, 0])).dropped = dropped) ∧
    (∃ u, ({ tColl .ar true [1] with free := (tColl .ar true [1]).free + 1 } : State).putRecord tBlockM .ok 0x200000
      (collRecord 1 .ar 1 1 0 [] (tColl .ar true [1]).free) = (u, .ok ())) ∧
    (∃ u, ({ tColl .ar false [] with free := (tColl .ar false []).free + 1 } : State).putRecord tBlockM .ok 0x200000
      (collRecord 2 .ar 1 0xFFFFFFFF 0 [] (tColl .ar false []).free) = (u, .ok ())) ∧
    (∃ u, ({ tColl .bar false [] with free := (tColl .bar false []).free + 1 } : State).putRecord tBlockM .ok 0x200000
      (collRecord 0 .bar 0 0xFFFFFFFF 0 [] (tColl .bar false []).free) = (u, .ok ())) ∧
    (∃ xs : List Nat, xs ≠ [] ∧ xs.length ≤ 8192) ∧
    (let s := tColl .ar false []
     (s.comm 0 0).valid = true ∧ 1 < (s.comm 0 0).nr ∧ 1 ≠ (s.comm 0 0).me ∧ 1 ∉ (s.comm 0 0).dropped) := by
  refine ⟨?_, put_of (by decide +kernel), put_of (by decide +kernel), put_of (by decide +kernel), ⟨[1], by decide, by decide⟩, by decide⟩
  rintro k broken dropped (h | h | h) <;> cases h <;> exact ⟨rfl, rfl, by decide, by decide, by decide⟩

/-- An access of an engine that is done. -/
def isDone {α : Type} : EngRes α → Bool
  | .ok _ => true
  | _ => false
theorem done_of {α : Type} {x : State × EngRes α} (h : isDone x.2 = true) : ∃ a, x = (x.1, .ok a) := by
  obtain ⟨u, r⟩ := x
  match r, h with
  | .ok a, _ => exact ⟨a, rfl⟩

/-- A run of one segment of `n` bytes at `pa`, in lines of its key. -/
def landsAt (s : State) (pa n : Nat) : EngRes (List (Nat × Seg)) → Bool
  | .ok [(_, .phys p m key _)] => decide (p = pa) && decide (m = n) && (linesOf pa n).all fun l => decide (Tbl.find s.lineSlot l = some key)
  | _ => false
theorem lands_of {s : State} {b : Block} {salt ea n pa : Nat}
    (h : landsAt s pa n (s.engSegs b .wr .ok salt (pageRuns (runFuel n) (ea % 2 ^ 80) n)).2 = true) (hr : region pa = 0)
    (hm : (s.vd b.vd).msmode = 0) (hw : Memory.wf s.mem = true) : Lands s b salt ea n pa := by
  refine ⟨?_, hr, hm, hw⟩
  generalize s.engSegs b .wr .ok salt (pageRuns (runFuel n) (ea % 2 ^ 80) n) = x at h
  obtain ⟨u, r⟩ := x
  match r, h with
  | .ok [(page, .phys p m key ord)], h =>
    simp only [landsAt, Bool.and_eq_true, decide_eq_true_eq, List.all_eq_true] at h
    obtain ⟨⟨rfl, rfl⟩, hl⟩ := h
    exact ⟨u, page, key, ord, rfl, hl⟩

/-- The follow-on of a copy, and the machine whose matrix queue holds `n` commands. -/
def tMoveBlock (n : Nat) : State :=
  tCore { Core.init with copyQ := [tCmd (.copy .copy false false 3 0 tEntry [0, 0, 0, 0x1001] 5 0 (some { tProduct false true with fol := true, buf := true }))]
                         matQ := List.replicate n (tCmd (.mzero false 0 1)) }

theorem witness_EngineLoads_stores :
    (let r := copyRow .copy [0, 0, 0, 0x1001] 0
     r.range tEntry = some (0, 2) ∧ (2 - 0) * TxEnt.half tEntry % 2 = 0 ∧ Lands (tCopy true) tBlockM (200 + 8) (r.addr tEntry 0) 8 0x200000 ∧
     0 < copyRows .copy [0, 0, 0, 0x1001]) ∧
    (copyRow .copy [1000, 0, 0, 0x1001] 0).range tEntry = none ∧
    ∀ n, n = 0 ∨ n = 32 → let s := tMoveBlock n
      let m : Mmt := { tProduct false true with fol := true, buf := true }
      let q := tCmd (.copy .copy false false 3 0 tEntry [0, 0, 0, 0x1001] 5 0 (some m))
      (s.core 0).copyQ[0]? = some q ∧ Tbl.find s.blocks q.blk = some tBlockM ∧ s.cmdReady q = true ∧
      copyRows .copy [0, 0, 0, 0x1001] ≤ (s.moveRows tBlockM 0 .copy false tEntry [0, 0, 0, 0x1001] 3 2 0).2.1 ∧ (s.core 0).follow = [] ∧ q.bars = [] ∧
      (s.vd tBlockM.vd).msmode ≠ 2 ∧ (s.core 0).matQ.length = n ∧
      ∃ p, mmtPlan tBlockM (mmtMd m.ck m.z m.sa m.sb) { m with buf := false } = .ok p ∧ p.ctr = none := by
  refine ⟨⟨by decide +kernel, by decide +kernel, lands_of (by decide +kernel) (by decide +kernel) (by decide +kernel) (by decide +kernel), by decide⟩, by decide +kernel, ?_⟩
  rintro n (rfl | rfl) <;>
    exact ⟨rfl, rfl, by decide +kernel, by decide +kernel, rfl, rfl, by decide, by decide +kernel, _, rfl, rfl⟩

/-- The matrix engine's turn comes to a command of the block, in a device without milestones and without breakpoints. -/
def InTurn (s : State) (q : EngCmd) (b : Block) : Prop :=
  s.matPick 0 = some 0 ∧ s.matHead 0 0 = some q ∧ Tbl.find s.blocks 0 = some b ∧ s.cmdReady q = true ∧ q.blk = 0 ∧
    (s.vd b.vd).msmode ≠ 2 ∧ (s.vd (s.vdOf q.gid)).dcfg = false ∧ Memory.wf b.slabs = true ∧ Memory.wf b.tiles = true
def tTurn (body : EngBody) (mem : Memory) : State := { tMat body with mem := mem }
theorem inTurn_of (body : EngBody) (mem : Memory) : InTurn (tTurn body mem) (tCmd body) tBlockM := by
  cases body <;> exact ⟨rfl, rfl, rfl, rfl, rfl, by show (tMem.vd 0).msmode ≠ 2; decide, rfl, rfl, rfl⟩

/-- A machine whose table slot 0 holds the table of single bricks. -/
def tDeep (body : EngBody) : State :=
  tCore { Core.init with matQ := [tCmd body], bat := [(0, { st := .valid, image := tImage, tid := 0, serial := 1 })] }

theorem tImage_runs (d : Nat) (h : d < 3) : (Table.of tImage).runs d = (1, 1, 1) :=
  (by decide +kernel : ∀ d < 3, (Table.of tImage).runs d = (1, 1, 1)) d h

theorem binds_of {x : Except (Nat × Nat × Nat) (List Byte)} (h : (match x with | .ok bs => decide (bs = tImage) | .error _ => false) = true) : x = .ok tImage := by
  match x, h with
  | .ok bs, h => rw [of_decide_eq_true h]

/-- One step of a resident operand: a product of one block pair in one or two steps along K, the first step's table bound already or not. -/
def tMmx (w : W32) (nk : Nat) (tab : Option (List Byte)) : EngBody :=
  .mmx true true false false 0 tEntry tEntry none none [w, 0, 0, BitVec.ofNat 32 (nk * 2 ^ 20)] 0 0 0 tab

theorem witness_MatrixSteps_products :
    (∀ ck : Bool, let m := { tProduct true true with ck := ck, ctl := 0x08000000 }
      InTurn (tDeep (.mmt m)) (tCmd (.mmt m)) tBlockM ∧ Fmt.ofCode (ctlFa m.ctl) = some .fp32 ∧ Fmt.ofCode (ctlFb m.ctl) = some .fp32 ∧ ctlDep m.ctl = 1 ∧
      (tDeep (.mmt m)).bindTable 0 m.ctl 0x307 false = .ok tImage ∧ (let run := (Table.of tImage).runs 1
        m.a + run.1 ≤ tBlockM.nsp ∧ m.b + run.2.1 ≤ tBlockM.nt ∧ cRunOk tBlockM .fp32 ck m.c run.2.2 = true)) ∧
    (∀ w nk tab, (w, nk, tab) = ((0 : W32), 0, none) ∨ (w, nk, tab) = (0x08000000, 1, some tImage) →
      let quad : List W32 := [w, 0, 0, BitVec.ofNat 32 (nk * 2 ^ 20)]
      let s := tTurn (tMmx w nk tab) tTables
      InTurn s (tCmd (tMmx w nk tab)) tBlockM ∧ 0 < mmxNbr quad ∧ 0 < mmxNbc quad ∧ (tab = none → s.bindTable 0 (quad.getD 0 0) 0x308 true = .ok []) ∧
      cRunOk tBlockM .fp32 true 0 1 = true ∧ (mmxNext quad 0 0 0).isSome = decide (nk = 1) ∧
      ∃ ra u rb u', (s.turnTo 0 0).kRows tBlockM .ok 100 tEntry [] false 0 16 16 0 = (u, .ok ra) ∧ u.kRows tBlockM .ok 20000 tEntry [] false 0 16 16 0 = (u', .ok rb)) := by
  refine ⟨?_, ?_⟩
  · intro ck
    refine ⟨⟨rfl, rfl, rfl, rfl, rfl, by show (tMem.vd 0).msmode ≠ 2; decide, rfl, rfl, rfl⟩, ?_⟩
    rw [tImage_runs 1 (by decide)]
    cases ck <;> exact ⟨by decide, by decide, by decide, binds_of (by decide +kernel), by decide, by decide, by decide⟩
  · rintro w nk tab (h | h) <;> cases h
    · obtain ⟨ra, ha⟩ := done_of (x := ((tTurn (tMmx 0 0 none) tTables).turnTo 0 0).kRows tBlockM .ok 100 tEntry [] false 0 16 16 0) (by decide +kernel)
      obtain ⟨rb, hb⟩ := done_of (x := (((tTurn (tMmx 0 0 none) tTables).turnTo 0 0).kRows tBlockM .ok 100 tEntry [] false 0 16 16 0).1.kRows tBlockM .ok 20000 tEntry [] false 0 16 16 0)
        (by decide +kernel)
      exact ⟨inTurn_of _ _, by decide, by decide, fun _ => rfl, by decide, by decide, ra, _, rb, _, ha, hb⟩
    · obtain ⟨ra, ha⟩ := done_of (x := ((tTurn (tMmx 0x08000000 1 (some tImage)) tTables).turnTo 0 0).kRows tBlockM .ok 100 tEntry [] false 0 16 16 0) (by decide +kernel)
      obtain ⟨rb, hb⟩ := done_of (x := (((tTurn (tMmx 0x08000000 1 (some tImage)) tTables).turnTo 0 0).kRows tBlockM .ok 100 tEntry [] false 0 16 16 0).1.kRows tBlockM .ok 20000 tEntry [] false 0 16 16 0)
        (by decide +kernel)
      exact ⟨inTurn_of _ _, by decide, by decide, (fun h => nomatch h), by decide, by decide, ra, _, rb, _, ha, hb⟩
/-- What a done access has given. -/
def okD {α : Type} (d : α) : EngRes α → α
  | .ok a => a
  | _ => d
theorem ok_of {α : Type} {x : State × EngRes α} (d : α) (h : isDone x.2 = true) : x = (x.1, .ok (okD d x.2)) := by
  obtain ⟨a, ha⟩ := done_of h
  rw [ha]; rfl
theorem ok_of₃ {α β γ : Type} {x : State × EngRes (α × β × γ)} (d : α × β × γ) (h : isDone x.2 = true) :
    x = (x.1, .ok ((okD d x.2).1, (okD d x.2).2.1, (okD d x.2).2.2)) := ok_of d h

/-- A window of `nr` rows of 16 elements from row `r1` on (R241). -/
def tWindow (r1 : W32) (nr : Nat) : List W32 := [0, r1, 0, BitVec.ofNat 32 ((nr - 1) * 4096 + 15)]
def tRow (r1 : Nat) : Row := { x0 := 0, ne := 16, i1 := r1, i2 := 0, i3 := 0 }

theorem witness_MatrixSteps_moves :
    (∀ store nr, store = true ∨ store = false → nr = 1 ∨ nr = 2 → let body := EngBody.xfer store true true 3 0 tEntry (tWindow 0 nr) 0
      let s := tTurn body tTables
      InTurn s (tCmd body) tBlockM ∧ 0 < (windowOf (tWindow 0 nr)).nr ∧ (windowOf (tWindow 0 nr)).nr = nr ∧ (xferPlace true tEntry 3 0).2 = 64 ∧
      (∃ u bs, (s.turnTo 0 0).loadRow tBlockM .ok 100 tEntry (tRow 0) = (u, .ok bs) ∧ bs.length ≤ 64) ∧
      (∃ u, (s.turnTo 0 0).storeRow tBlockM .ok 100 tEntry (tRow 0) (xferOut true tEntry (tWindow 0 nr) (Memory.read tBlockM.slabs 3072 64)) = (u, .ok ())) ∧
      (tRow 0).range tEntry = some (0, 16) ∧ Lands (s.turnTo 0 0) tBlockM (100 + 8) ((tRow 0).addr tEntry 0) 64 0x200000) ∧
    (∀ mem dirty skip, (mem, dirty, skip) = (tTables ++ [(0x200028, 1)], true, false) ∨ (mem, dirty, skip) = (tTables ++ [(0x20001E, 0xC0), (0x20001F, 0x7F)], false, true) ∨
        (mem, dirty, skip) = (tTables, false, false) → let body := EngBody.mdrain true false tEntry tEntry tEntry (tWindow 0 1) 0x200000 none 0 0
      let s := tTurn body mem
      InTurn s (tCmd body) tBlockM ∧ ∃ u bs, (s.turnTo 0 0).engGet tBlockM .ok 100 0x200000 64 = (u, .ok bs) ∧ (bs.drop 40).any (fun x => x != 0) = dirty ∧ drainSkips bs = skip) ∧
    (let body := EngBody.mdrain true false tEntry tEntry tEntry [0, 32, 0, 0] 0x200000 (some (List.replicate 64 0)) 0 15
     InTurn (tTurn body tTables) (tCmd body) tBlockM ∧ (tRow (32 + 15)).range tEntry = none) ∧
    (let rec' : List Byte := List.replicate 64 0
     let body := EngBody.mdrain true false tEntry tEntry tEntry [0, 0, 0, 0x1000] 0x200000 (some rec') 0 3
     let s := (tTurn body tTables).turnTo 0 0
     let r := tRow 3
     InTurn (tTurn body tTables) (tCmd body) tBlockM ∧ r.range tEntry = some (0, 16) ∧ ∃ u ws ms vs, s.drainReads tBlockM .ok true tEntry tEntry tEntry r = (u, .ok (ws, ms, vs)) ∧
       let old := fun i => fpWord ws i
       let new := fun i => drainElem true rec' (tBlockM.slabWord 0 (16 * 3 + i)) (old i) (fpWord ms i) (fpWord vs i)
       let weight := fun (i : Nat) => leBytes 4 (roundFmt ffF32 .rne (f32 (new i).1))
       let words := fun (sel : W32 × W32 × W32 → W32) => (List.range 16).flatMap fun i => leBytes 4 (sel (new i)).toNat
       ∃ u', u.putAll tBlockM .ok 200 ([(r.addr tEntry 0, (List.range 16).flatMap weight), (r.addr tEntry 0, words fun t => t.2.1)] ++ [(r.addr tEntry 0, words fun t => t.2.2)] ++
         (List.range 16).map fun (i : Nat) => ((TxEnt.taddr tEntry (r.x0 + i).toNat r.i1.toNat 0 0).toNat, weight i)) = (u', .ok ())) ∧
    (let s := { tTurn (.msave 0x200000) tTables with blocks := [(0, { tBlockM with prog := some tStopped })] }
     InTurn s (tCmd (.msave 0x200000)) { tBlockM with prog := some tStopped } ∧ tStopped.cmd.ctrs = [2] ∧ tStopped.cmd.bars = [] ∧
     Lands (s.turnTo 0 0) { tBlockM with prog := some tStopped } 100 0x200000 (progImage (some tStopped) true).length 0x200000) := by
  have hl : ∀ (x : State × EngRes (List Byte)) (n : Nat), got (fun bs => decide (bs.length ≤ n)) x.2 = true → ∃ u bs, x = (u, .ok bs) ∧ bs.length ≤ n := by
    intro x n h
    obtain ⟨bs, u, hx, hb⟩ := get_of h
    exact ⟨u, bs, hx, of_decide_eq_true hb⟩
  refine ⟨?_, ?_, ⟨inTurn_of _ _, by decide +kernel⟩, ⟨inTurn_of _ _, by decide +kernel, ?_⟩,
    ⟨rfl, rfl, rfl, rfl, rfl, by show (tMem.vd 0).msmode ≠ 2; decide, rfl, rfl, rfl⟩, rfl, rfl,
    lands_of (by decide +kernel) (by decide +kernel) (by decide +kernel) (by decide +kernel)⟩
  · rintro store nr (rfl | rfl) (rfl | rfl) <;>
      exact ⟨inTurn_of _ _, by decide, by decide, by decide +kernel, hl _ _ (by decide +kernel), ⟨_, (done_of (by decide +kernel)).choose_spec⟩, by decide +kernel,
        lands_of (by decide +kernel) (by decide +kernel) (by decide +kernel) (by decide +kernel)⟩
  · have hg : ∀ (x : State × EngRes (List Byte)) (dirty skip : Bool), got (fun bs => (bs.drop 40).any (fun x => x != 0) == dirty && drainSkips bs == skip) x.2 = true →
        ∃ u bs, x = (u, .ok bs) ∧ (bs.drop 40).any (fun x => x != 0) = dirty ∧ drainSkips bs = skip := by
      intro x dirty skip h
      obtain ⟨bs, u, hx, hb⟩ := get_of h
      simp only [Bool.and_eq_true, beq_iff_eq] at hb
      exact ⟨u, bs, hx, hb⟩
    rintro mem dirty skip (h | h | h) <;> cases h <;> exact ⟨inTurn_of _ _, hg _ _ _ (by decide +kernel)⟩
  · refine ⟨_, _, _, _, ok_of₃ ([], [], []) ?_, _, (done_of ?_).choose_spec⟩ <;> decide +kernel
/-- Images of a stopped MDRAIN and of a stopped MMX. -/
def tDrained : List Byte :=
  progImage (some { tStopped with cmd := { tCmd (.mdrain true false tEntry tEntry tEntry [0, 0, 0, 0x1000] 0 (some (List.replicate 64 0)) 0 3) with md := 1 } }) false
def tMmxed : List Byte := progImage (some { tStopped with cmd := { tCmd (tMmx 0 1 none) with md := 3 } }) true

/-- What a resumed image comes to: nothing (0), a fault (1), a command whose table, if it has one, binds (2). -/
def kindOf (s : State) : Resumed → Nat
  | .none => 0
  | .bad _ => 1
  | .cmd body _ _ _ _ => if (s.bindAgain 0 body).isNone then 2 else 3

/-- An MRESUME in its turn reads an image at 0x200000, which comes to `k`. -/
def Resumes (mem : Memory) (k : Nat) : Prop :=
  let s := tTurn (.mresume 0x200000) mem
  InTurn s (tCmd (.mresume 0x200000)) tBlockM ∧ ∃ u img, (s.turnTo 0 0).engGet tBlockM .ok 100 0x200000 512 = (u, .ok img) ∧ kindOf u (u.resumeOf 0 tBlockM img) = k
theorem resumes_of (mem : Memory) (k : Nat) :
    let x := ((tTurn (.mresume 0x200000) mem).turnTo 0 0).engGet tBlockM .ok 100 0x200000 512
    isDone x.2 = true → kindOf x.1 (x.1.resumeOf 0 tBlockM (okD [] x.2)) = k → Resumes mem k :=
  fun hd hk => ⟨inTurn_of _ _, _, _, ok_of [] hd, hk⟩

theorem witness_MatrixSteps_resumes : Resumes (tTables ++ [(0x200003, 1)]) 0 ∧ Resumes tTables 1 ∧ Resumes (Memory.write tTables 0x200000 tDrained) 2 ∧
    Resumes (Memory.write tTables 0x200000 tMmxed) 2 :=
  ⟨resumes_of _ _ (by decide +kernel) (by decide +kernel), resumes_of _ _ (by decide +kernel) (by decide +kernel),
    resumes_of _ _ (by decide +kernel) (by decide +kernel), resumes_of _ _ (by decide +kernel) (by decide +kernel)⟩

/-- A die with a collective of two elements that carries data, from the entry to itself. -/
def tCarried (k : CollKind) : EngCmd := tCmd (.coll k false false tEntry tEntry [0, 1, 0, 0] 0x200000)
def tCarry (k : CollKind) : State := { tColl k false [] with dies := [(0, { Die.init with collQ := [tCarried k] })] }

theorem done_pair {α β : Type} {x : State × β × EngRes α} (h : isDone x.2.2 = true) : ∃ a, x = (x.1, x.2.1, .ok a) := by
  obtain ⟨u, b, r⟩ := x
  match r, h with
  | .ok a, _ => exact ⟨a, rfl⟩

theorem witness_Collectives_data :
    let q := tCarried .ar
    let s := tCarry .ar
    (s.die 0).collQ[0]? = some q ∧ Tbl.find s.blocks q.blk = some tBlockM ∧ s.cmdReady q = true ∧ (s.vd (s.vdOf q.gid)).dcfg = false ∧ (s.comm 0 0).dropped = [] ∧
    collChunks .ar (collCnt [0, 1, 0, 0]) (s.comm 0 0).nr = 1 ∧
    ∃ x bytes u1 gs w n u,
      let out := fun c => (List.range (collSpan .ar 1 c).2).flatMap fun i => leBytes 4 (collElem .ar .fp32 [0, 1, 0, 0] 2 0 (fun i => Fmt.elem .fp32 bytes.toArray i) [[], [1]]
        ((collSpan .ar 1 c).1 + i))
      let runs := (List.range 1).map fun c => (c, TxEnt.base tEntry + (collSpan .ar 1 c).1 * 4, out c)
      { s with free := s.free + 1 }.engGet tBlockM .ok 100 (TxEnt.base tEntry) 4 = (x, .ok bytes) ∧ x.runSegs tBlockM .ok 4000 (runs.map fun r => (r.2.1, r.2.2)) = (u1, .ok gs) ∧
      u1.recordWaits tBlockM .ok 0x200000 = none ∧ u1.putChunks tBlockM .ok runs = (w, n, .ok ()) ∧ w.putRecord tBlockM .ok 0x200000 (collRecord 0 .ar 1 0xFFFFFFFF 0 n s.free) = (u, .ok ()) ∧
      Lands u1 tBlockM 4000 (TxEnt.base tEntry) (out 0).length 0x200000 := by
  refine ⟨rfl, rfl, rfl, rfl, rfl, by decide, _, _, _, _, _, _, _, ok_of [] ?_, ok_of [] ?_, ?_, (done_pair ?_).choose_spec, (done_of ?_).choose_spec, lands_of ?_ ?_ ?_ ?_⟩ <;> decide +kernel

/-! ### Tape -/

/-- The group with a track, on the machine with the page table. -/
def tTaped (tr : Track) : Group := { tGroup with track := tr }
def tTape (tr : Track) : State := { tMem with groups := [(1, tTaped tr)], blocks := [(0, tBlock)] }

theorem runsT (tr : Track) (ops : List (Nat × Opnd × Nat)) (hd : demandFail tBlock ops = none) : Runs (tTape tr) tWho (tTaped tr) tPath tBlock hp ops :=
  ⟨⟨rfl, rfl, rfl, by decide, rfl, rfl⟩, show (State.issueCtx t0 tWho tGroup tPath tBlock hp).live ≠ 0 by decide, hd⟩

/-- What the appending clauses ask of the track, its entry and the lines. -/
def appends (tr : Track) (ops : List (Nat × Opnd × Nat)) (t1 : Track) (e : Entry) : Prop :=
  Runs (tTape tr) tWho (tTaped tr) tPath tBlock hp ops ∧ t1.dead = false ∧ t1.pend = [] ∧ (∀ r ∈ t1.regions.take 1, r.trunc = false) ∧ t1.fits e = true ∧
    (tTape tr).sharedFree (tTaped tr).core (t1.place e).2.length = true

theorem witness_TapeRecording :
    let c := fun tr => State.issueCtx (tTape tr) tWho (tTaped tr) tPath tBlock hp
    let region := fun tr => ({ mask := (c tr).live, first := Track.wpos tr, last := Track.wpos tr, trunc := false, truncSeg := none, dropped := 0, lastMark := 0xFFFFFFFF } : Region)
    let opened := fun tr => ({ tr with st := .recording, pend := [], regions := region tr :: tr.regions } : Track)
    let held := tTrack .held 4044
    let rec' := tTrack .recording 8
    let spare : Track := { Track.init with spare := some 0x300000 }
    tPath.handler = false ∧ (held.locked = false ∧ held.regions.length < 255 ∧ appends held [] (opened held) (entOpen (c held).live)) ∧
    (Runs (tTape spare) tWho (tTaped spare) tPath tBlock hp [] ∧ spare.dead = false ∧ spare.locked = false ∧ spare.segs = [] ∧ spare.regions = [] ∧ spare.spare = some 0x300000 ∧
      (tTape spare).sharedFree (tTaped spare).core ((({ opened spare with spare := none }).take 0x300000).place (entOpen (c spare).live)).2.length = true) ∧
    (rec'.st = .recording ∧ (c rec').outside = false ∧ appends rec' [(1, .v 3, 1)] rec' (entVal (c rec').live ((c rec').src ((tTape rec').launchIx tBlock) 1 (.v 3))) ∧
      appends rec' [] rec' (entMark 0xFFFFF)) ∧
    (Runs (tTape held) tWho (tTaped held) tPath tBlock hp [(2, .imm 0, 1)] ∧ held.spare = none ∧
      ((c held).ea ((tTape held).launchIx tBlock) 2 (.imm 0) false 0 (lowLane (c held).live)).toNat % 4096 = 0) ∧
    (let dead := { rec' with dead := true }
     dead.st = .recording ∧ (c dead).outside = false ∧ dead.dead = true ∧ Runs (tTape dead) tWho (tTaped dead) tPath tBlock hp [(1, .v 3, 1)]) ∧
    ∃ r rs, rec'.dead = false ∧ rec'.regions = r :: rs ∧ r.trunc = false ∧ rec'.pend = [] ∧ rec'.fits (entClose r.mask) = true ∧
      (tTape rec').sharedFree (tTaped rec').core (rec'.place (entClose r.mask)).2.length = true :=
  ⟨rfl, ⟨by decide, by decide, runsT _ _ rfl, rfl, by decide, by decide, by decide, by decide⟩, ⟨runsT _ _ rfl, rfl, by decide, rfl, rfl, rfl, by decide⟩,
    ⟨rfl, by decide, ⟨runsT _ _ (by decide), rfl, rfl, by decide, by decide, by decide⟩, runsT _ _ rfl, rfl, rfl, by decide, by decide, by decide⟩,
    ⟨runsT _ _ (by decide), rfl, by decide⟩, ⟨rfl, by decide, rfl, runsT _ _ (by decide)⟩, _, _, rfl, rfl, rfl, rfl, by decide, by decide⟩

/-- The segment's bytes: OPEN, VAL, MARK 7, BRD and CLOSE of the region, from byte 32 on. -/
def tEntries : List W32 := [0x3FF, 0x10000000, 5, 0x30000002, 0x60000007, 0x3FF, 0x00F, 0x50000000, 0x3FF, 0x20000000]
def tRead (tr : Track) : State := { tTape tr with mem := Memory.write tTables (0x200000 + 32) (tEntries.flatMap fun (w : W32) => leBytes 4 w.toNat) }
def tRev (v d : Nat) : Track := { tTrack .rev 40 with vpos := ⟨0, v⟩, dpos := ⟨0, d⟩ }

theorem runsR (tr : Track) (ops : List (Nat × Opnd × Nat)) (hd : demandFail tBlock ops = none) : Runs (tRead tr) tWho (tTaped tr) tPath tBlock hp ops :=
  ⟨⟨rfl, rfl, rfl, by decide, rfl, rfl⟩, show (State.issueCtx t0 tWho tGroup tPath tBlock hp).live ≠ 0 by decide, hd⟩

def finds (P : Found → Bool) : TapeRead → Bool
  | .ent f => P f
  | _ => false
theorem ent_of {x : TapeRead} {P : Found → Bool} (h : finds P x = true) : ∃ f, x = .ent f ∧ P f = true := by
  match x, h with
  | .ent f, h => exact ⟨f, rfl, h⟩

theorem witness_TapeReading :
    let c := fun tr => State.issueCtx (tRead tr) tWho (tTaped tr) tPath tBlock hp
    let s1 := fun tr => State.issued (tRead tr) tWho (tTaped tr) tPath hp
    let held := tTrack .held 40
    tPath.handler = false ∧ (∀ tr, Apart (tTaped tr)) ∧ (∀ tr, Runs (tRead tr) tWho (tTaped tr) tPath tBlock hp []) ∧
    (held.st = .held ∧ held.regions.length = 1 ∧ (tRead held).tapeBusy (tTaped held).core 1 = false ∧
      ∃ f, (s1 held).entryAt (c held) held ⟨0, 72⟩ 0 = .ent f ∧ (decide (f.kind = 2) && decide ((c held).live &&& ~~~(f.words.headD 0) = 0)) = true) ∧
    (Runs (tRead (tRev 48 64)) tWho (tTaped (tRev 48 64)) tPath tBlock hp [(0, .v 255, 1)] ∧ Roomy (tRead (tRev 48 64)) tWho (tTaped (tRev 48 64)) tPath tBlock hp ∧
      ∃ f, (s1 (tRev 48 64)).valueRead (c (tRev 48 64)) (tRev 48 64) (tRev 48 64).fuel (tRev 48 64).vpos = .ent f ∧ decide (f.kind = 3) = true) ∧
    (∃ f, (s1 (tRev 64 52)).valueRead (c (tRev 64 52)) (tRev 64 52) (tRev 64 52).fuel (tRev 64 52).vpos = .ent f ∧
      (decide (f.kind = 6) && decide (f.foot.setWidth 20 = 7)) = true) ∧
    ∃ f, (s1 (tRev 64 64)).decisionRead (c (tRev 64 64)) (tRev 64 64) (tRev 64 64).fuel (tRev 64 64).dpos = .ent f ∧
      (f.decides && decide (f.words = entBrd 0x3FF 0x00F)) = true :=
  ⟨rfl, fun _ => apart0, fun _ => runsR _ _ rfl, ⟨rfl, rfl, rfl, ent_of (by decide +kernel)⟩, ⟨runsR _ _ (by decide), by unfold Roomy; decide +kernel, ent_of (by decide +kernel)⟩,
    ent_of (by decide +kernel), ent_of (by decide +kernel)⟩

theorem witness_TapeReading_decisions : ∃ (k : Found) (bits : List Bool) (taken : Nat) (tr : Track), k.kind = 4 ∧ bits.length ≤ 23 ∧ [k.foot] = entBru bits ∧ taken < bits.length ∧
    taken = (if k.top = tr.dpos then tr.bruTaken else 0) :=
  ⟨{ at' := ⟨0, 40⟩, top := ⟨0, 40⟩, words := entBru [true, false, true] }, [true, false, true], 1, { tRev 40 40 with bruTaken := 1 }, by decide, by decide, by decide, by decide, by decide⟩

/-- A line of the group on its way to its segment. -/
def tLine : TapeLine := { vd := 0, blk := 0, gid := 1, seg := 0x200000, off := 128, bytes := List.replicate 128 0xA5, shared := true, flag := none, ended := false }
def tLines : State := { tMem with cores := [(0, { Core.init with tape := [tLine] })] }

theorem witness_TapeEnds :
    (Runs (tRead (tRev 40 40)) tWho (tTaped (tRev 40 40)) tPath tBlock hp [] ∧ tPath.handler = false ∧ (tRead (tRev 40 40)).tapeBusy (tTaped (tRev 40 40)).core 1 = false ∧
      (∃ u, (State.issued (tRead (tRev 40 40)) tWho (tTaped (tRev 40 40)) tPath hp).poolPushAll tBlock ((tTaped (tRev 40 40)).track.own.map (·.addr)) = .ok u) ∧
      (tTaped (tRev 40 40)).track.st = .rev ∧
      ∃ f, (State.issued (tRead (tRev 40 40)) tWho (tTaped (tRev 40 40)) tPath hp).valueRead (State.issueCtx (tRead (tRev 40 40)) tWho (tTaped (tRev 40 40)) tPath tBlock hp)
        (tRev 40 40) (tRev 40 40).fuel ⟨0, 40⟩ = .ent f ∧ (decide (f.kind = 1) && decide (f.words.headD 0 = 0x3FF)) = true) ∧
    Runs (tTape .init) tWho (tTaped .init) tPath tBlock hp [(0, .s 63, 1)] ∧
    (∃ pa key ord, (tLines.core 0).tape[0]? = some tLine ∧ Tbl.find tLines.blocks tLine.blk = some tBlockM ∧ tBlockM.vd = tLine.vd ∧
      lineFirst (tLines.core 0).tape 0 tLine = true ∧
      (tLines.engLook tBlockM .wr (tLine.seg.toNat + tLine.off) tLine.bytes.length 0).2 = .ok [.phys pa tLine.bytes.length key ord] ∧ region pa = 0 ∧
      (∀ x ∈ linesOf pa tLine.bytes.length, Tbl.find tLines.lineSlot x = some key) ∧ tLines.poison = [] ∧ tLines.latent = [] ∧ (tLines.vd tLine.vd).msmode = 0 ∧
      Memory.wf tLines.mem = true) ∧
    (Runs (tTape .init) tWho (tTaped .init) tPath tBlock hp [(1, .v 0, 1)] ∧ Apart (tTaped .init) ∧ (tTaped .init).track.st ∉ [TapeSt.recording] ∧
      Runs (tTape (tTrack .rev 40)) tWho (tTaped (tTrack .rev 40)) tPath tBlock hp [] ∧ (tTaped (tTrack .rev 40)).track.st ∉ [TapeSt.idle, .held]) ∧
    ∃ s g p, Runs s tWho g p tBlock hp [] ∧ p.handler = true := by
  refine ⟨⟨runsR _ _ rfl, rfl, rfl, ⟨_, rfl⟩, rfl, ent_of (by decide +kernel)⟩, runsT _ _ (by decide),
    ⟨0x200080, 0, .rc, rfl, rfl, rfl, rfl, by decide +kernel, by decide +kernel, by decide +kernel, rfl, rfl, by decide, by decide +kernel⟩,
    ⟨runsT _ _ (by decide), apart0, by decide, runsT _ _ rfl, by decide⟩,
    tState { tGroup with paths := [{ tPath with handler := true }] } tBlock, _, { tPath with handler := true }, ⟨⟨rfl, rfl, rfl, by decide, rfl, rfl⟩, by decide, rfl⟩, rfl⟩

/-! ### The device -/

/-- The device with bytes of its configuration changed. -/
def tConf (bs : List (Nat × Byte)) : VDev := { tVd with config := bs.foldl (fun (c : List Byte) e => c.set e.1 e.2) tVd.config }
/-- A configuration that may start. -/
def tGood : List (Nat × Byte) := [(81, 16), (86, 16), (89, 1), (90, 25), (94, 1), (96, 1), (97, 1), (98, 1)]
def tDev (v : VDev) : State := { tMem with vds := [(0, v)] }

theorem witness_Links : (State.reset.link 23).up = true ∧ (State.link { State.reset with links := [(0, { State.reset.link 0 with missed := 3, replays := 64 })] } 0).up = true ∧
    (State.link { State.reset with links := [(0, { State.reset.link 0 with missed := 3, replays := 64 })] } 0).isLost = true ∧ (State.reset.link 23).isLost = false ∧
    (∃ s : State, (s.link 0).up = true ∧ (s.link 0).isLost = true ∧ ∃ e ∈ s.vds, e.2.run = true ∧ e.2.sliced = false) ∧
    (∃ w : W32, (((State.reset.link 23).shares.filter fun e => e.1 ≠ 31).map fun e => e.2.toNat % 64).sum + w.toNat % 64 ≤ 64) ∧
    ∃ w : W32, 64 < (((State.link { State.reset with links := [(0, { State.reset.link 0 with shares := [(3, 60)] })] } 0).shares.filter fun e => e.1 ≠ 31).map fun e => e.2.toNat % 64).sum +
      w.toNat % 64 :=
  ⟨by decide, by decide, by decide, by decide,
    ⟨{ tDev tVd with links := [(0, { State.reset.link 0 with missed := 3, replays := 64 })] }, by decide, by decide, (0, tVd), List.mem_singleton.2 rfl, by decide, by decide⟩,
    ⟨63, by decide⟩, 63, by decide⟩

/-- A device in RECOVER mode, or in SLICE mode, with a milestone due and an interrupt withheld. -/
def tMode (m : Byte) (bs : List (Nat × Byte)) : VDev :=
  { tConf ([(88, m), (90, 25)] ++ bs) with msDue := true, withheld := [.irq (.plain (some 0) 0 0 0)], msAt := 7 }

/-- A small block, whose image is short, on a core of the device's partition, where 32 KiB from 0x200000 on hold the device's
key. -/
def tSlim : Block := { tBlock with nv := 1, ns := 1, nt := 0, nsl := 0 }
def tShort : Group := { tGroup with v := [(0, .u 5)] }
def tSaving (v : VDev) : State :=
  { tDev v with blocks := [(0, tSlim)], groups := [(1, tShort)], cores := [(0, Core.init)], parts := [(0, { Partition.init with gmask := 3 })]
                lineSlot := (List.range 256).map fun i => (0x4000 + i, 0) }
/-- The same with a milestone captured, and a log. -/
def tSnapped (m : Byte) (bs : List (Nat × Byte)) (log : List LogLine) : State :=
  tSaving { tMode m bs with snap := some ((tSaving (tMode m bs)).capture 0), log := log }
/-- The same off its core at a slice's end: a block of the core and one of the lay-by, whose images are the byte at 0x200000. -/
def tSliced (x : Byte) : State :=
  let s := tSnapped 2 [(93, 1)] []
  { s with vds := s.vds.map (fun e => (e.1, { e.2 with sched := false })), mem := tTables ++ [(0x200000, 7)]
           blocks := [(0, { tSlim with loc := .slice false 0, image := [x], imageAt := 0x200000 }), (1, { tSlim with loc := .slice true 0 })] }

/-- The bytes of segments that rise. -/
def rising : Nat → List Seg → Bool
  | _, [] => true
  | x, .phys pa n _ _ :: gs => decide (x ≤ pa) && rising (pa + n) gs
  | x, _ :: gs => rising x gs

theorem rising_bytes : ∀ (gs : List Seg) (x : Nat), rising x gs = true → (segBytes gs).Nodup ∧ ∀ y ∈ segBytes gs, x ≤ y
  | [], _, _ => ⟨List.nodup_nil, fun _ h => absurd h List.not_mem_nil⟩
  | .phys pa n key ord :: gs, x, h => by
    simp only [rising, Bool.and_eq_true, decide_eq_true_eq] at h
    obtain ⟨hn, hb⟩ := rising_bytes gs _ h.2
    have hs : segBytes (.phys pa n key ord :: gs) = (List.range n).map (pa + ·) ++ segBytes gs := rfl
    rw [hs]
    refine ⟨List.nodup_append.2 ⟨List.nodup_range.map (fun a b h => by simpa using h), hn, ?_⟩, ?_⟩
    · intro a ha b hb' hab
      obtain ⟨i, hi, rfl⟩ := List.mem_map.1 ha
      have := hb b hb'
      have := List.mem_range.1 hi
      omega
    · intro y hy
      rcases List.mem_append.1 hy with hy | hy
      · obtain ⟨i, _, rfl⟩ := List.mem_map.1 hy; omega
      · have := hb y hy; omega
  | .slot .. :: gs, x, h => rising_bytes gs x h
  | .none _ :: gs, x, h => rising_bytes gs x h

/-- What the writing of an area asks of its run. -/
def areaOk (s : State) (vd ea n : Nat) (hbm : Bool) : Prop :=
  ∃ gs, (s.areaSegs vd .wr ea n hbm).2 = .ok gs ∧ (segBytes gs).Nodup ∧ (segBytes gs).length = n ∧
    (∀ g ∈ gs, ∃ pa n key ord, g = .phys pa n key ord ∧
      (region pa = 1 ∨ (region pa = 0 ∧ ∀ x ∈ linesOf pa n, Tbl.find s.lineSlot x = some key))) ∧ Memory.wf s.mem = true

def goodSeg (s : State) : Seg → Bool
  | .phys pa n key _ => decide (region pa = 0) && (linesOf pa n).all fun x => Tbl.find s.lineSlot x = some key
  | _ => false
def goodRun (s : State) (n : Nat) : Except (Nat × Nat) (List Seg) → Bool
  | .ok gs => rising 0 gs && decide ((gs.map Seg.len).sum = n) && gs.all (goodSeg s)
  | .error _ => false

theorem segBytes_length : ∀ (s : State) (gs : List Seg), gs.all (goodSeg s) = true → (segBytes gs).length = (gs.map Seg.len).sum
  | _, [], _ => rfl
  | s, .phys pa n key ord :: gs, h => by
    have hs : segBytes (.phys pa n key ord :: gs) = (List.range n).map (pa + ·) ++ segBytes gs := rfl
    have ih := segBytes_length s gs (by simp only [List.all_cons, Bool.and_eq_true] at h; exact h.2)
    simp [hs, ih, Seg.len]
  | _, .slot .. :: _, h => by simp [goodSeg] at h
  | _, .none _ :: _, h => by simp [goodSeg] at h

theorem area_of {s : State} {vd ea n : Nat} {hbm : Bool} (h : goodRun s n (s.areaSegs vd .wr ea n hbm).2 = true) (hm : Memory.wf s.mem = true) :
    areaOk s vd ea n hbm := by
  match hx : (s.areaSegs vd .wr ea n hbm).2 with
  | .error e => simp [hx, goodRun] at h
  | .ok gs =>
    simp only [hx, goodRun, Bool.and_eq_true, decide_eq_true_eq] at h
    refine ⟨gs, hx, (rising_bytes _ _ h.1.1).1, (segBytes_length s gs h.2).trans h.1.2, fun g hg => ?_, hm⟩
    have hg := List.all_eq_true.1 h.2 g hg
    match g, hg with
    | .phys pa n key ord, hg =>
      simp only [goodSeg, Bool.and_eq_true, decide_eq_true_eq, List.all_eq_true] at hg
      exact ⟨pa, n, key, ord, rfl, .inr ⟨hg.1, hg.2⟩⟩

theorem witness_Milestones :
    (let s := tDev (tMode 1 [])
     (s.vd 0).runs = true ∧ (s.vd 0).msmode ≠ 0 ∧ (s.vd 0).msDue = true ∧ (∀ a ∈ s.accesses, a.vd = 0 → a.op.isLoad = true) ∧
     (s.vd 0).withheld = [Irq.plain (some 0) 0 0 0].map .irq) ∧
    (let s := { tDev { tMode 1 [] with msDue := false } with cycle := 100000 }
     (s.vd 0).msDue = false ∧ s.cycle < (s.vd 0).msAt + (s.vd 0).cfg 90 2 * 4000) ∧
    (∀ log : List LogLine, log = [] ∨ log = [⟨0x4000, [], some 0⟩] ∨ log = [⟨2 ^ 60 + 5, [], none⟩] → let s := tSnapped 1 [] log
      (s.vd 0).runs = true ∧ (s.vd 0).log = log ∧ ∃ snap, (s.vd 0).snap = some snap ∧ Tbl.find snap.groups 1 = some tShort ∧ tShort.due = [] ∧ snap.invals = [] ∧
        (∀ e ∈ s.groups, e.1 = 1 → s.blkIn 0 e.2.blk = true) ∧ Tbl.find snap.blocks 0 = some tSlim ∧ ∀ e ∈ s.blocks, e.1 = 0 → e.2.vd = 0) ∧
    (∀ m bs, (m, bs) = ((2 : Byte), [(93, (1 : Byte))]) ∨ (m, bs) = (1, []) →
      (let s := tSnapped m (bs ++ [(50, 0x20)]) []
       (s.vd 0).runs = true ∧ ((s.vd 0).sliced = true ∨ (s.vd 0).msmode = 1) ∧ ((s.rollback 0).saveImages 0 true).2 = none ∧
       (s.rollback 0).sliceBlocks 0 = [0] ∧ ∃ b, Tbl.find (s.rollback 0).blocks 0 = some b ∧ b.vd = 0 ∧ b.loc = .core 0 ∧
         areaOk { s.rollback 0 with free := (s.rollback 0).free + 1 } 0 (s.vd 0).csave.toNat ((s.rollback 0).blockImage 0 b).length false) ∧
      (let s := tSnapped m (bs ++ [(53, 1)]) []
       (s.vd 0).runs = true ∧ ((s.rollback 0).saveImages 0 true).2.isSome = true ∧
         ((tSnapped m (bs ++ [(50, 0x20)]) []).rollback 0 |>.saveImages 0 false).2.isSome = true)) ∧
    (let s := tSliced 7
     (s.vd 0).run = true ∧ (s.vd 0).halt = false ∧ (s.vd 0).sched = false ∧ (s.getImages true (s.sliceBlocks 0)).2 = none ∧ (∀ a ∈ s.accesses, a.vd ≠ 0) ∧ s.waits = [] ∧
     (∃ snap k, (s.vd 0).snap = some snap ∧ s.coreIn 0 0 = true ∧ (Tbl.find s.cores 0).isSome = true ∧ Tbl.find snap.cores 0 = some k) ∧
     (∃ b, Tbl.find s.blocks 0 = some b ∧ b.vd = 0 ∧ b.loc = .slice false 0) ∧ ∃ b, Tbl.find s.blocks 1 = some b ∧ b.vd = 0 ∧ b.loc = .slice true 0) ∧
    (let s := tSliced 8
     (s.vd 0).run = true ∧ (s.vd 0).halt = false ∧ (s.vd 0).sched = false ∧ (s.getImages true (s.sliceBlocks 0)).2.isSome = true) := by
  refine ⟨⟨by decide, by decide, by decide, by decide, rfl⟩, ⟨by decide, by decide⟩, ?_, ?_,
    ⟨rfl, rfl, rfl, by decide +kernel, by decide, rfl, ⟨_, _, rfl, by decide, rfl, rfl⟩, ⟨_, rfl, rfl, rfl⟩, _, rfl, rfl, rfl⟩, rfl, rfl, rfl, by decide +kernel⟩
  · rintro log (rfl | rfl | rfl) <;> exact ⟨by decide, rfl, _, rfl, rfl, rfl, rfl, by decide, rfl, by decide⟩
  · rintro m bs (h | h) <;> cases h <;>
      exact ⟨⟨by decide, by decide, by decide +kernel, by decide +kernel, tSlim, by decide +kernel, rfl, rfl, area_of (by decide +kernel) (by decide +kernel)⟩,
        by decide, by decide +kernel, by decide +kernel⟩

/-- Two time-sliced devices of one partition, of which device 1 had the last slice. -/
def tTurns (last : Nat) : State :=
  let s := tSliced 7
  { s with vds := s.vds ++ [(1, { tConf [(93, 1)] with sched := false })], parts := [(0, { Partition.init with gmask := 3, turn := last })] }

theorem witness_Milestones_slices :
    (∀ last, last = 0 ∨ last = 1 → let s := tTurns last
      (s.vd 0).run = true ∧ (s.vd 0).halt = false ∧ (s.vd 0).sched = false ∧ s.slicesNext 0 = decide (last = 1)) ∧
    (tSliced 7).slicesNext 0 = true ∧ (tSliced 8).slicesNext 0 = true ∧
    (let b : Block := { tSlim with loc := .slice false 0, image := [7], imageAt := 0x200000 }
     let s := { tSliced 7 with blocks := [(0, b)] }
     s.sliceBlocks 0 = [0] ∧ Tbl.find s.blocks 0 = some b ∧ (s.getImages true [0]).2 = none ∧ (s.areaGet b.vd b.imageAt b.image.length false true).2 = .ok b.image) := by
  refine ⟨?_, by decide +kernel, by decide +kernel, by decide +kernel, rfl, by decide +kernel, by decide +kernel⟩
  rintro last (rfl | rfl) <;> exact ⟨rfl, rfl, rfl, by decide +kernel⟩

/-- A device that samples scheduler 0 every 16 cycles; a tagged instruction of it. -/
def tSampled : VDev := { tVd with sample := { tVd.sample with cfg := 0x81000010 } }
def tTag (gid till : Nat) : Tagged :=
  { vd := 0, gid := gid, flag := 15, till := till, bytes := List.replicate 128 1, conts := [], time := 0, code := 0, noWb := false, pc := 0x100000, who := [], mem := false }
def tObs (clock gid till : Nat) : State :=
  { tDev tSampled with cores := [(0, { Core.init with obs := [(0, { issued := 0, last := [], seen := [], left := 0, draws := 0, tagged := some (tTag gid till), lastSlot := 0, clock := clock })] })]
                       cycle := 16 }

theorem witness_RegisterWritesAndSamples :
    ((tDev tVd).vd 0).run = true ∧ ((tDev VDev.init).vd 0).run = false ∧ (regWord [0, 0, 0, 0x80]).getLsbD 31 = true ∧ (regWord [0, 0, 0, 0x7F]).getLsbD 31 = false ∧
    (∃ r s rest, State.powered s = true ∧ s.vds = [] ∧ s.agenda = .read r :: rest ∧ ∀ vd off, r ≠ .vf vd off) ∧
    (let s := tObs 0 1 0
     s.schedVd 0 0 = some 0 ∧ (s.vd 0).period 0 = some 16 ∧ ((s.core 0).sched 0).clock < s.cycle ∧ (s.cycle - ((s.core 0).sched 0).clock) % 16 = 0 ∧
      s.sampleTarget 0 0 = some (1, tGroup)) ∧
    (let s := tObs 1 1 0
     s.schedVd 0 0 = some 0 ∧ (s.vd 0).period 0 = some 16 ∧ (s.cycle - ((s.core 0).sched 0).clock) % 16 ≠ 0) ∧
    (tObs 16 1 0).cycle ≤ (((tObs 16 1 0).core 0).sched 0).clock ∧
    (∀ gid till cut past, (gid, till, cut, past) = (1, 0, false, true) ∨ (gid, till, cut, past) = (1, 99, false, false) ∨ (gid, till, cut, past) = (9, 99, true, true) ∨
        (gid, till, cut, past) = (1, 99, true, false) → let s := tObs 0 gid till
      ((s.core 0).sched 0).tagged = some (tTag gid till) ∧ (if cut then s.tagCut (tTag gid till) else s.tagOver (tTag gid till)) = past) ∧
    ringBit (State.vd { tObs 0 1 0 with vds := [] } (tTag 1 0).vd).sample.cfg 31 = false ∧
    (∃ w : W32, (((tDev tVd).vd 0).ring true).wp - w = 4096 ∧ 4096 ≤ (((tDev tVd).vd 0).ring true).size) ∧
    ∃ w : W32, (((tDev tVd).vd 0).ring true).size < ((((tDev tVd).vd 0).ring true).wp - w).toNat := by
  refine ⟨by decide, by decide, by decide, by decide,
    ⟨.hvstat 0, { State.reset with agenda := [.read (.hvstat 0)] }, [], rfl, rfl, rfl, fun _ _ h => by cases h⟩,
    ⟨by decide, by decide, by decide, by decide, rfl⟩, ⟨by decide, by decide, by decide⟩, by decide, ?_, by decide, ⟨-4096, by decide, by decide⟩, -4097, by decide⟩
  rintro gid till cut past (h | h | h | h) <;> cases h <;> exact ⟨rfl, by decide⟩

/-- A device whose sample ring of 4,096 bytes lies at 0x200000, with scheduler 0 sampled every 16 cycles; a tagged instruction of it. -/
def tRinged : VDev := { tVd with sample := { tSampled.sample with base := 0x200000 } }
def tShot (issued : Nat) (tag : Tagged) : State :=
  { tDev tRinged with cores := [(0, { Core.init with obs := [(0, { issued := issued, last := [], seen := [], left := 0, draws := 0, tagged := some tag, lastSlot := 0, clock := 0 })] })]
                      cycle := 16 }

theorem witness_RegisterWritesAndSamples_records :
    (let s := tShot 0 (tTag 1 0)
     let u := s.modSched 0 0 fun o => { o with clock := s.cycle }
     s.schedVd 0 0 = some 0 ∧ (s.vd 0).period 0 = some 16 ∧ ((s.core 0).sched 0).clock < s.cycle ∧ (s.cycle - ((s.core 0).sched 0).clock) % 16 = 0 ∧
     s.sampleTarget 0 0 = some (1, tGroup) ∧ tGroup.core = 0 ∧ tGroup.sched = 0 ∧ ((s.core 0).sched 0).issued ≠ s.cycle + 1 ∧ tGroup.current = some tPath ∧ tPath.mask ≠ 0 ∧
     Tbl.find s.blocks tGroup.blk = some tBlockM ∧ InPlace tGroup tPath.mask ∧ RingTakes u 0 true 32 0x200000 0) ∧
    (∀ tag cut, (tag, cut) = (tTag 1 0, false) ∨ (tag, cut) = (tTag 9 99, true) → let x := { tag with bytes := List.replicate 28 1 }
     let s := tShot 0 x
     ((s.core 0).sched 0).tagged = some x ∧ (if cut then s.tagCut x && !s.tagOver x else s.tagOver x) = true ∧ x.bytes.length = 28 ∧ x.conts = [] ∧
     RingTakes (s.modSched 0 0 fun o => { o with tagged := none }) 0 true 64 0x200000 0) ∧
    ∃ w : W32, ((((tShot 0 (tTag 1 0)).vd 0).ring true).shown - w).toNat ≤ (((tShot 0 (tTag 1 0)).vd 0).ring true).size ∧
      ((((tShot 0 (tTag 1 0)).vd 0).ring true).wp - w).toNat ≤ (((tShot 0 (tTag 1 0)).vd 0).ring true).size := by
  refine ⟨⟨by decide +kernel, by decide +kernel, by decide +kernel, by decide +kernel, rfl, rfl, rfl, by decide, rfl, by decide, rfl, inPlace0 _, ?_⟩, ?_, 0, by decide, by decide⟩
  · exact ⟨by decide +kernel, by decide +kernel, by decide +kernel, by decide +kernel, step_of (by decide +kernel), ⟨by decide, by decide +kernel⟩, by decide +kernel⟩
  · rintro tag cut (h | h) <;> cases h <;>
      exact ⟨rfl, by decide +kernel, rfl, rfl, by decide +kernel, by decide +kernel, by decide +kernel, by decide +kernel, step_of (by decide +kernel), ⟨by decide, by decide +kernel⟩,
        by decide +kernel⟩

/-- A launch of one group with small demands, the same as a harvest launch whose owner has index 1, and their blocks in a
package whose partition 0 holds clusters 0 and 1. -/
def tLaunch : Launch := { placedLaunch with nv := 8, ns := 8, nt := 1, nsl := 1, nsp := 1, ntag := 1, nctr := 1 }
def tHarvestAt (save : List Byte) : Launch := { tLaunch with hv := true, raw := List.replicate 76 0 ++ [1] ++ List.replicate 51 0 ++ save, index := 2 }
def tHarvest : Launch := tHarvestAt [0, 0, 0x20, 0, 0, 0, 0, 0, 0, 0]
def tOwner : Block := { tLaunch.block 0 0 0 0 0 [(0, 0)] with tiles := [], slabs := [], slots := [] }
def tGuest (loc : BlkLoc) : Block := { tHarvest.block 2 0 0 1 0 [(0, 20)] with tiles := [], slabs := [], slots := [], loc := loc, parks := 1, parked := true, batch := [tCmd (.mzero false 0 1)] }
def tCluster (loc : BlkLoc) : State :=
  { tMem with parts := [(0, { Partition.init with gmask := 3 })], launches := [(0, tLaunch), (2, tHarvest)], blocks := [(0, tOwner), (1, tGuest loc)]
              groups := [(1, tGroup), (5, { tGroup with blk := 1, slot := 20, v := [], s := [], p := [] })]
              lineSlot := (List.range 256).map fun i => (0x4000 + i, 0) }
/-- The same where the owner's group waits for what the context holds. -/
def tWanted : State :=
  { tCluster (.core 0) with groups := [(1, { tGroup with stall := some (.revocation [1]) }), (5, { tGroup with blk := 1, slot := 20, v := [], s := [], p := [] })] }
/-- The same with the context's image, the byte at 0x200000, in memory. -/
def tAway (x : Byte) : State :=
  { tCluster .memory with mem := tTables ++ [(0x200000, 7)], blocks := [(0, tOwner), (1, { tGuest .memory with image := [x], imageAt := 0x200000 })] }

theorem witness_HarvestMoves :
    (tCluster (.core 0)).wanted 0 1 = false ∧
    (let s := tWanted
     s.wanted 0 1 = true ∧ Tbl.find s.blocks 1 = some (tGuest (.core 0)) ∧ (tGuest (.core 0)).harvest = true ∧ (∀ a ∈ s.accesses, a.blk ≠ 1) ∧ (∀ q ∈ (s.core 0).copyQ, q.blk ≠ 1) ∧
     (∀ l ∈ (s.core 0).tape, l.blk ≠ 1) ∧ (tGuest (.core 0)).batch.length = 1 ∧ (∀ e ∈ s.groups, e.2.blk = 1 → e.2.track.fill = []) ∧ s.results = [] ∧
     ∃ g, Tbl.find s.groups 5 = some g ∧ g.blk = 1 ∧ g.due = []) ∧
    (let s := tCluster (.layby 0)
     let b := tGuest (.layby 0)
     Tbl.find s.blocks 1 = some b ∧ b.harvest = true ∧ b.loc = .layby 0 ∧ s.harvestCore b.vd 9 = true ∧
     s.harvestRoom 9 { b with parts := b.held.length }.banks b.nt b.nsl b.ntag 0 = true ∧ (s.takeSlots 9 20 4 (b.held.map (·.1)) []).isSome = true) ∧
    (let s := tCluster (.layby 0)
     let b := tGuest (.layby 0)
     let ea := s.imagesEnd b.launch (((Tbl.find s.launches b.launch).map Launch.saveArea).getD 0)
     Tbl.find s.blocks 1 = some b ∧ (s.putImage 1 ea true).2 = none ∧ areaOk { s with free := s.free + 1 } b.vd ea (s.blockImage 1 b).length true) ∧
    (let s := { tCluster (.layby 0) with launches := [(0, tLaunch), (2, tHarvestAt [0, 0, 0, 0, 0, 1])] }
     let b := tGuest (.layby 0)
     Tbl.find s.blocks 1 = some b ∧ (s.putImage 1 (s.imagesEnd b.launch (((Tbl.find s.launches b.launch).map Launch.saveArea).getD 0)) true).2.isSome = true ∧
       (Tbl.find s.launches b.launch).isSome = true) ∧
    (∀ reclaim : Bool, let s := { tCluster (.layby 0) with lends := [(31, { borrower := 1, effect := true, reclaim := reclaim })] }
      Tbl.find s.lends 31 = some { borrower := 1, effect := true, reclaim := reclaim } ∧ ∀ e ∈ s.blocks, match e.2.loc with
       | .core n => e.2.harvest = false ∨ n / 8 ≠ 31
       | .layby n => n / 8 ≠ 31
       | _ => True) ∧
    (∀ s, s = tCluster (.layby 0) ∨ s = tAway 7 → ∃ b, Tbl.find s.blocks 1 = some b ∧ s.resumeSlots 1 0 = some [(0, 20)] ∧
      (b.loc = .layby 0 ∨ b.loc = .memory ∧ (s.areaGet b.vd b.imageAt b.image.length true).2 = .ok b.image) ∧
      (∀ e ∈ s.blocks, ¬ (e.2.vd = b.vd ∧ e.2.harvest = true ∧ e.2.parkAt < b.parkAt ∧ e.1 ≠ 1 ∧ (s.resumeSlots e.1 0).isSome = true)) ∧
      (∀ a ∈ s.accesses, a.blk ≠ 1) ∧ (∀ w ∈ s.waits, s.waitBlk w ≠ 1) ∧ ∃ g, Tbl.find s.groups 5 = some g ∧ g.blk = 1) ∧
    (let s := tAway 8
     ∃ b, Tbl.find s.blocks 1 = some b ∧ s.resumeSlots 1 0 = some [(0, 20)] ∧ b.loc = .memory ∧ (s.getImage 1 true).2.isSome = true) := by
  refine ⟨by decide, ⟨by decide, rfl, rfl, by decide, by decide, by decide, by decide, by decide, rfl, _, rfl, rfl, rfl⟩,
    ⟨rfl, rfl, rfl, by decide +kernel, by decide +kernel, by decide +kernel⟩, ⟨rfl, by decide +kernel, area_of (by decide +kernel) (by decide +kernel)⟩,
    ⟨rfl, by decide +kernel, rfl⟩, fun r => ⟨rfl, fun e he => by
      rcases List.mem_cons.1 he with rfl | he
      · exact .inl rfl
      · rcases List.mem_singleton.1 he with rfl
        show 0 / 8 ≠ 31
        decide⟩, ?_, _, rfl, by decide +kernel, rfl, by decide +kernel⟩
  rintro s (rfl | rfl)
  · exact ⟨_, rfl, by decide +kernel, .inl rfl, by decide, by decide, by decide, _, rfl, rfl⟩
  · exact ⟨_, rfl, by decide +kernel, .inr ⟨rfl, by decide +kernel⟩, by decide, by decide, by decide, _, rfl, rfl⟩

/-- The package with the owner launch waiting, or with the harvest launch waiting beside the owner's block. -/
def tWaiting : State := { tCluster .memory with launches := [(0, { tLaunch with started := false, resident := 0, next := 0 })], blocks := [], groups := [] }
def tInvited : State :=
  { tCluster .memory with launches := [(0, tLaunch), (2, { tHarvest with started := false, resident := 0, next := 0 })], blocks := [(0, tOwner)], groups := [(1, tGroup)] }

theorem witness_Dispatch :
    ∀ s key hv, (s, key, hv) = (tWaiting, 0, false) ∨ (s, key, hv) = (tInvited, 2, true) → ∃ l u held, Tbl.find s.launches key = some l ∧ l.vd = 0 ∧ l.hv = hv ∧
      l.nextUnit (0 / 64) = some u ∧ (s.vd 0).runs = true ∧ l.unitBlocks = 1 ∧ l.gangOk [0] = true ∧ l.onDie (0 / 64) 0 = true ∧ (s.settleServed 0).isServed key l = true ∧
      s.contexts 0 = [] ∧ (s.settleServed 0).blockRoom (l.placed (0 / 64) 0) 0 ≠ 0 ∧
      (s.settleServed 0).takeSlots 0 (if l.hv then 20 else 0) (if l.hv then 4 else 16) ((List.range l.ngr).map (· % 4)) [] = some held ∧
      (∀ e ∈ s.blocks, e.1 < s.nextId) ∧ ∀ e ∈ s.groups, e.1 < s.nextId := by
  rintro s key hv (h | h) <;> cases h
  · exact ⟨_, 0, [(0, 0)], rfl, rfl, rfl, by decide, by decide, by decide, by decide, by decide, by decide +kernel, by decide, by decide +kernel, by decide +kernel, by decide, by decide⟩
  · exact ⟨_, 0, [(0, 20)], rfl, rfl, rfl, by decide, by decide, by decide, by decide, by decide, by decide +kernel, by decide, by decide +kernel, by decide +kernel, by decide, by decide⟩

/-! ### Queues, launches, virtual devices, partitions, power -/

def tQueueOf (en : Bool) : Queue := { base := 0x200000, en := en, bad := false, rdf := false, lsz := 0, head := 0, tail := 1, bells := [(1, 4)], stuck := false }
/-- The kernel at 0x100000: two gang levels and a block of one group, 8 vector registers. -/
def tKernel : Kernel :=
  { entry := 0x100000, name := [0x6B], raw := [0, 0, 0, 0, 3, 0, 0, 0, 1, 0, 0, 0, 0x20, 0, 0, 0x11, 1, 0, 0, 0x22] ++ List.replicate 20 0 ++ [8, 0, 8], entries := [] }
/-- A queue at 0x200000 whose record 0 has the bytes `bs`. -/
def tQueued (bs : Memory) : State :=
  { tDev { tVd with queues := [(63, tQueueOf true)], kernels := [(0x100000, 5, 0)]
                    objs := [(5, { base := 0x100000, size := 4096, narrow := false, kernels := [tKernel], syms := [], locals := [], refs := [], gotSyms := [] })] } with mem := tTables ++ bs }
/-- A record of three levels that names the kernel. -/
def tRecord : Memory := [(0x200000, 1), (0x200003, 3), (0x200012, 0x10), (0x200020, 1), (0x200024, 0x20), (0x200027, 0x11), (0x200028, 1), (0x20002B, 0x22)]

/-- What a record at the head of the queue comes to. -/
def reads (s : State) (P : List Byte → Bool) : Bool :=
  match (s.devRead 0 0x200000 256).2 with
  | .ok raw => P raw
  | .error _ => false
theorem reads_of {s : State} {P : List Byte → Bool} (h : reads s P = true) : ∃ raw, (s.devRead 0 0x200000 256).2 = .ok raw ∧ P raw = true := by
  unfold reads at h
  split at h
  · next raw hr => exact ⟨raw, hr, h⟩
  · cases h

/-- A launch that waits for event word 3 to reach 5; and one that spans dies, whose batches die 0 asks for. -/
def tDepends : Launch := { tLaunch with raw := List.replicate 160 0 ++ [3, 0, 0, 0x80, 5, 0, 0, 0], depsMet := [true, false, true, true] }
def tEvents (n : Byte) (m : Byte) : State :=
  { tDev { tConf [(18, 0x20), (80, n)] with run := true } with launches := [(0, tDepends)], mem := tTables ++ [(0x20000C, m + 1)] }
def tSpans : Launch := { tLaunch with lvl := [0x00000001, 0x11000020, 0x22000001, 0x56000004], leader := some 0, mirror := some 1, resident := 0, next := 0, limit := 4 }
def tSpanned : State := { tCluster .memory with launches := [(0, tSpans)], blocks := [], groups := [] }

theorem witness_QueuesAndDependences :
    (let s := tQueued []
     let x := (s.vd 0).queue 63
     x.en = true ∧ ((16 : W32) - x.head).toNat ≤ x.entries ∧ x.entries < ((17 : W32) - x.head).toNat ∧ (x.tail - x.head).toNat ≤ ((16 : W32) - x.head).toNat ∧
     ((s.vd 0).queue 0).en = false ∧ (0xFFFFFFF8 : W32).toNat % 16 ≤ 8 ∧ (0 : W32).getLsbD 31 = false ∧ (s.vd 0).runs = true ∧ x.stuck = false ∧ x.head ≠ x.tail ∧
     (s.vd 0).msmode ≠ 2 ∧ (x.base.toNat + 256 * (x.head.toNat % x.entries)) % 2 ^ 80 = 0x200000) ∧
    (∃ raw, ((tQueued []).devRead 0 0x200000 256).2 = .ok raw ∧ recBad raw false = true) ∧
    (∃ raw, ((tQueued [(0x200000, 1)]).devRead 0 0x200000 256).2 = .ok raw ∧
      (!recBad raw false && (((tQueued [(0x200000, 1)]).vd 0).kernelAt (BitVec.ofNat 80 (recFld raw 16 10))).isNone) = true) ∧
    (∃ raw, ((tQueued tRecord).devRead 0 0x200000 256).2 = .ok raw ∧
      (let s := tQueued tRecord
       let k := (s.vd 0).kernelAt (BitVec.ofNat 80 (recFld raw 16 10))
       let l := mkLaunch 0 63 (s.vd 0).nextLaunch raw 4 k
       ((s.devRead 0 0x200000 256).1.recordFail 0 raw k l).isNone && ((s.devRead 0 0x200000 256).1.images 0 raw ((k.map fun y => y.2.2.raw).getD []) true).2.isSome) = true) ∧
    (∀ n m, (n, m) = ((4 : Byte), (4 : Byte)) ∨ (n, m) = (4, 3) ∨ (n, m) = (3, 4) → let s := tEvents n m
      Tbl.find s.launches 0 = some tDepends ∧ tDepends.vd = 0 ∧ (s.vd 0).runs = true ∧ tDepends.ended = false ∧ tDepends.depsMet.getD 1 true = false ∧
      (∀ j, j ≠ 1 → tDepends.depsMet.getD j true = true) ∧ (s.launches.filter fun e => e.2.vd = 0) = [(0, tDepends)] ∧
      recFld tDepends.raw (152 + 8 * 1) 4 % 2 ^ 31 = 3) ∧
    (3 < ((tEvents 4 4).vd 0).nev ∧ (∃ bs u, (tEvents 4 4).devRead 0 (((tEvents 4 4).vd 0).eventWord 3) 4 = (u, .ok bs) ∧ (leNat bs == 5) = true) ∧
      (∃ bs u, (tEvents 4 3).devRead 0 (((tEvents 4 3).vd 0).eventWord 3) 4 = (u, .ok bs) ∧ (leNat bs == 4) = true) ∧ ((tEvents 3 4).vd 0).nev ≤ 3) ∧
    (let s := tSpanned
     Tbl.find s.launches 0 = some tSpans ∧ tSpans.leader.isSome = true ∧ tSpans.spans = true ∧ tSpans.fail = none ∧ (tSpans.leader.any fun d => (s.die d).live) = true ∧ (tSpans.mirror.all fun d => (s.die d).live) = true ∧ tSpans.ended = false ∧ tSpans.dieLost = false ∧
     (s.vd 0).runs = true ∧ tSpans.started = true ∧ (s.die 0).live = true ∧ (∀ u ∈ tSpans.units, u.1 ≠ 0) ∧ tSpans.next + 4 ≤ tSpans.limit ∧
     4 ≤ s.unitsNow tSpans (tSpans.onDie 0) ∧ tSpans.mirror.isSome = true) := by
  have hd : ∀ j, j ≠ 1 → tDepends.depsMet.getD j true = true := by
    intro j hj
    match j, hj with
    | 0, _ => rfl
    | 2, _ => rfl
    | 3, _ => rfl
    | n + 4, _ => rfl
  have hg : ∀ (s : State) (n : Nat) (m : Nat), (match (s.devRead 0 n 4).2 with | .ok bs => leNat bs == m | .error _ => false) = true →
      ∃ bs u, s.devRead 0 n 4 = (u, .ok bs) ∧ (leNat bs == m) = true := by
    intro s n m h
    match hx : s.devRead 0 n 4, h with
    | (u, .ok bs), h => exact ⟨bs, u, rfl, by simpa [hx] using h⟩
    | (u, .error e), h => simp at h
  refine ⟨⟨rfl, by decide, by decide, by decide, rfl, by decide, by decide, rfl, rfl, by decide, by decide, by decide⟩, reads_of (by decide +kernel), reads_of (by decide +kernel),
    reads_of (by decide +kernel), ?_, ⟨by decide +kernel, hg _ _ _ (by decide +kernel), hg _ _ _ (by decide +kernel), by decide +kernel⟩,
    ⟨rfl, rfl, rfl, rfl, by decide, by decide, rfl, rfl, rfl, rfl, by decide, by decide, by decide, by decide +kernel, rfl⟩⟩
  rintro n m (h | h | h) <;> cases h <;> exact ⟨rfl, rfl, rfl, rfl, rfl, hd, rfl, by decide⟩

/-- A run of a device's own access that is checked. -/
def stepsTo (s : State) : State × Except Nat (List Seg) := s.stepSegs 0 ⟨4, 0, .rd, .load, false, [0, 1]⟩ ((s.vd 0).eventWord 3) true

theorem witness_QueuesAndDependences_polls :
    (∀ n m r, (n, m, r) = ((4 : Byte), (4 : Byte), true) ∨ (n, m, r) = (4, 3, false) → let s := tEvents n m
      3 < (s.vd 0).nev ∧ (s.vd 0).withheld = [] ∧ ∃ gs u, stepsTo s = (u, .ok gs) ∧ u.mem = s.mem ∧ Tbl.find u.launches 0 = some tDepends ∧
        decide ((BitVec.ofNat 32 (leNat (gs.flatMap fun g => u.readSeg 0 0 g)) - BitVec.ofNat 32 (recFld tDepends.raw (156 + 8 * 1) 4) : W32).toNat < 2 ^ 31) = r) ∧
    ∃ code u, stepsTo { tEvents 4 4 with mem := [] } = (u, .error code) ∧ 3 < (({ tEvents 4 4 with mem := [] } : State).vd 0).nev := by
  have ho : ∀ (x : State × Except Nat (List Seg)) (P : State → List Seg → Bool), (match x.2 with | .ok gs => P x.1 gs | .error _ => false) = true →
      ∃ gs u, x = (u, .ok gs) ∧ P u gs = true := by
    intro x P h
    obtain ⟨u, r⟩ := x
    match r, h with
    | .ok gs, h => exact ⟨gs, u, rfl, h⟩
  have he : ∀ x : State × Except Nat (List Seg), (match x.2 with | .ok _ => false | .error _ => true) = true → ∃ code u, x = (u, .error code) := by
    intro x h
    obtain ⟨u, r⟩ := x
    match r, h with
    | .error c, _ => exact ⟨c, u, rfl⟩
  refine ⟨?_, ?_⟩
  · rintro n m r (h | h) <;> cases h <;> refine ⟨by decide +kernel, rfl, ?_⟩
    · obtain ⟨gs, u, hx, hp⟩ := ho (stepsTo (tEvents 4 4)) (fun u gs => decide (u.mem = (tEvents 4 4).mem) && decide (Tbl.find u.launches 0 = some tDepends) &&
        decide ((BitVec.ofNat 32 (leNat (gs.flatMap fun g => u.readSeg 0 0 g)) - BitVec.ofNat 32 (recFld tDepends.raw (156 + 8 * 1) 4) : W32).toNat < 2 ^ 31)) (by decide +kernel)
      simp only [Bool.and_eq_true, decide_eq_true_eq] at hp
      exact ⟨gs, u, hx, hp.1.1, hp.1.2, decide_eq_true hp.2⟩
    · obtain ⟨gs, u, hx, hp⟩ := ho (stepsTo (tEvents 4 3)) (fun u gs => decide (u.mem = (tEvents 4 3).mem) && decide (Tbl.find u.launches 0 = some tDepends) &&
        !decide ((BitVec.ofNat 32 (leNat (gs.flatMap fun g => u.readSeg 0 0 g)) - BitVec.ofNat 32 (recFld tDepends.raw (156 + 8 * 1) 4) : W32).toNat < 2 ^ 31)) (by decide +kernel)
      simp only [Bool.and_eq_true, decide_eq_true_eq, Bool.not_eq_true', decide_eq_false_iff_not] at hp
      exact ⟨gs, u, hx, hp.1.1, hp.1.2, decide_eq_false hp.2⟩
  · obtain ⟨c, u, hx⟩ := he (stepsTo { tEvents 4 4 with mem := [] }) (by decide +kernel)
    exact ⟨c, u, hx, by decide +kernel⟩

/-- A launch that is over, whose record lies at 0x200400. -/
def tOver : Launch := { tLaunch with raw := [0, 0, 4] ++ List.replicate 96 0 ++ [4, 0x20], resident := 0, fail := none }
def tEnding : State := { tMem with launches := [(0, tOver)], blocks := [], groups := [] }

theorem witness_LaunchEnds :
    (Tbl.find tEnding.launches 0 = some tOver ∧ (tEnding.vd 0).runs = true ∧ tEnding.launchOver 0 tOver = true ∧ (∀ a ∈ tEnding.accesses, a.launch ≠ 0) ∧
      recBit tOver.raw 184 4 31 = false ∧ (tEnding.vd 0).msmode ≠ 2 ∧ ∃ w, tEnding.stepRecord 0 (recFld tOver.raw 98 10) tOver.record true = (w, none)) ∧
    ((tMem.launches.find? fun e => e.2.vd = 0 && e.2.index.toNat = 1 && !e.2.ended) = some (0, placedLaunch) ∧ Tbl.find tMem.launches 0 = some placedLaunch ∧
      ∀ a ∈ tMem.accesses, a.launch ≠ 0) ∧
    (tMem.die 3).live = true ∧ ∃ e ∈ tMem.vds, e.2.run = true ∧ e.2.sliced = false :=
  ⟨⟨rfl, rfl, by decide, by decide, by decide, by decide, _, Prod.ext rfl (show (tEnding.stepRecord 0 (recFld tOver.raw 98 10) tOver.record true).2 = none by decide +kernel)⟩,
    ⟨by decide, rfl, by decide⟩, by decide, _, List.mem_singleton.2 rfl, by decide, by decide⟩

theorem witness_VirtualDevices :
    (let s := tDev { tConf tGood with run := false }
     (s.vd 0).run = false ∧ (s.vd 0).badField = none ∧ s.partTaken 0 = false) ∧
    (let s := tDev { tConf ((93, 1) :: tGood) with run := false }
     (s.vd 0).run = false ∧ (s.vd 0).badField = some 93) ∧
    (let s := { tDev { tConf tGood with run := false } with vds := [(0, { tConf tGood with run := false }), (255, tVd)] }
     (s.vd 0).run = false ∧ (s.vd 0).badField = none ∧ s.partTaken 0 = true) ∧ (tMem.vd 0).run = true :=
  ⟨⟨rfl, by decide, by decide⟩, ⟨rfl, by decide⟩, ⟨rfl, by decide, by decide⟩, rfl⟩

/-- Partition 1 with a margin cluster 31, lent or not, beside the device's partition 0 with cluster 0. -/
def tParts (lend : Tbl Lend) : State :=
  { tCluster .memory with parts := [(0, { Partition.init with gmask := 1, share := 200 }), (1, { Partition.init with mmask := 0x80000000 })], lends := lend }

theorem witness_PartitionsAndSessions :
    (let s := tParts []
     s.partStopped 1 = true ∧ s.partStopped 0 = false ∧
     ((s.parts.filter fun e => e.1 ≠ 1).foldl (fun (a : W32) e => a ||| e.2.gmask ||| e.2.mmask) 0 ||| (s.part 1).mmask) &&& (0x7FFFFFFE : W32) = 0 ∧
     ((s.parts.filter fun e => e.1 ≠ 1).foldl (fun (a : W32) e => a ||| e.2.gmask ||| e.2.mmask) 0 ||| (s.part 1).mmask) &&& (0x7FFFFFFF : W32) ≠ 0 ∧
     ((s.parts.filter fun e => e.1 ≠ 1).map fun e => e.2.share).sum + (56 : W32).toNat % 256 ≤ 256 ∧
     256 < ((s.parts.filter fun e => e.1 ≠ 1).map fun e => e.2.share).sum + (57 : W32).toNat % 256 ∧
     s.lender 31 = some 1 ∧ (0x80000000 : W32).getLsbD 31 = true ∧ (0x80000000 : W32).toNat % 32 ≠ 1 ∧ Tbl.find s.lends 31 = none ∧ s.blockNear 1 31 = false) ∧
    (let s := { tParts [] with parts := [(0, { Partition.init with mmask := 1 })] }
     s.lender 0 = some 0 ∧ (0x80000001 : W32).toNat % 32 ≠ 0 ∧ Tbl.find s.lends 0 = none ∧ s.blockNear 0 0 = true) ∧
    (∀ e : Bool, let s := tParts [(31, { borrower := 0, effect := e, reclaim := false })]
      Tbl.find s.lends 31 = some { borrower := 0, effect := e, reclaim := false } ∧ s.lender 31 = some 1 ∧ (0x80000001 : W32).getLsbD 31 = true ∧ (0x80000001 : W32).toNat % 32 = 1) ∧
    ((tDev tVd).vd 0).session = false ∧ ((tDev { tVd with session := true }).vd 0).session = true ∧ (∃ n < 1024, Tbl.find tMem.keys n = none) ∧
    (Tbl.find tMem.keys 0).isSome = true ∧ tMem.keyUsed 0 = false :=
  ⟨⟨by decide, by decide, by decide, by decide, by decide, by decide, by decide, by decide, by decide, rfl, by decide⟩, ⟨by decide, by decide, rfl, by decide⟩,
    fun e => by cases e <;> decide, rfl, rfl, ⟨1, by decide, by decide⟩, by decide, by decide⟩

/-- A die with the oldest request of a group waiting before a granted one. -/
def tDie (d : Die) : State := { tMem with dies := [(0, d)] }
def tAsks (cost : Nat) : Die :=
  { Die.init with permits := [{ gid := 1, blk := none, cost := cost, granted := false }, { gid := 2, blk := none, cost := 300, granted := true }] }

theorem witness_Power :
    (∃ w : W32, 60 ≤ w.toNat / 2 ^ 16 % 1024 ∧ w.toNat / 2 ^ 16 % 1024 ≤ 100 ∧ 16 ≤ w.toNat % 1024) ∧ (∃ w : W32, w.toNat / 2 ^ 16 % 1024 < 60) ∧
    ((tMem.die 0).thot ≤ 95 ∧ 32 ≤ (tMem.die 0).tlim ∧ 89 + 5 < (tMem.die 0).thot ∧ 90 < (tMem.die 0).thot ∧ (tMem.die 0).thot ≤ 90 + 5) ∧
    110 ≤ ((tDie { Die.init with tmp := 110 }).die 0).tmp ∧
    (((tDie (tAsks 60)).die 0).permits = (tAsks 60).permits ∧ (tDie (tAsks 60)).dieUse 0 + 60 ≤ ((tDie (tAsks 60)).die 0).limit) ∧
    ((tDie (tAsks 61)).die 0).limit < (tDie (tAsks 61)).dieUse 0 + 61 :=
  ⟨⟨0x0064FC10, by decide, by decide, by decide⟩, ⟨0x003B0010, by decide⟩, by decide, by decide, by decide, by decide⟩

theorem witness_MemoryCanonical : ∃ s t, Memory.wf s.mem = true ∧ Memory.wf s.peer = true ∧ step s = .next t :=
  ⟨State.reset.withFetchWord 96 0x0500780000000000008001E0, _, rfl, rfl, rfl⟩

/-- An image of two pages: a page of zeros as its one chunk of text, and a `.chash` section behind it with the chunk's leaf and
the root of the tree. -/
def tChunk : List Byte := List.replicate 4096 0
def tHeader : List Byte :=
  leBytes 4 0x37464F42 ++ [1, 0, 0, 1] ++ List.replicate 16 0 ++ leBytes 8 8192 ++ [2, 0, 0, 0] ++ List.replicate 8 0 ++ leBytes 4 128 ++ leBytes 4 64 ++ leBytes 12 0 ++
    leBytes 4 7 ++ [0, 0, 0, 0] ++ leBytes 8 0 ++ leBytes 8 4096 ++ leBytes 8 2664 ++
    leBytes 4 0 ++ [1, 0, 0, 0] ++ leBytes 8 4096 ++ leBytes 8 2528 ++ leBytes 8 136 ++ chashName ++ [0, 0]
def tLead : List Byte := [1, 0, 0, 0, 0, 0, 0, 0, 0, 0, 0, 0, 0, 0, 0, 0]
def tNone' : List Byte := List.replicate 2448 0
def tHashes : List Byte := tLead ++ (treeRoot [chunkLeaf tChunk] ++ (tNone' ++ chunkLeaf tChunk))
def tFile : List Byte := tHeader ++ (tHashes ++ tChunk)
def tText : Sect := ⟨7, 0, 0, 4096, 2664⟩
def tSect : Sect := ⟨0, 1, 4096, 2528, 136⟩

theorem sha3_length (m : List Byte) : (sha3 m).length = 32 := by simp [sha3]
theorem leaf_length (c : List Byte) : (chunkLeaf c).length = 32 := sha3_length _
theorem root_length (ls : List (List Byte)) : (treeRoot ls).length = 32 := sha3_length _
theorem none_length : tNone'.length = 2448 := List.length_replicate
theorem chunk_length : tChunk.length = 4096 := List.length_replicate
theorem hashes_length : tHashes.length = 2528 := by
  rw [tHashes, List.length_append, List.length_append, List.length_append, root_length, leaf_length, none_length]; rfl
theorem head_length : tHeader.length = 136 := by decide +kernel
theorem tSect_bytes : tSect.bytes tFile = tHashes := by
  have h : (tFile.drop 136).take 2528 = tHashes := by
    rw [tFile, List.drop_left' head_length, List.take_left' hashes_length]
  exact h
theorem tText_bytes : tText.bytes tFile = tChunk := by
  have hl : (tHeader ++ tHashes).length = 2664 := by rw [List.length_append, head_length, hashes_length]
  have hd : tFile.drop 2664 = tChunk := by rw [show tFile = (tHeader ++ tHashes) ++ tChunk from (List.append_assoc _ _ _).symm, List.drop_left' hl]
  rw [Sect.bytes, if_neg (by decide), show tText.foff = 2664 from rfl, hd, show tText.size = 4096 from rfl, List.take_of_length_le (Nat.le_of_eq chunk_length)]
theorem tFile_sections : sections tFile = [tText, tSect] := by decide +kernel
theorem tFile_chunks : textChunks tFile = [0] := by decide +kernel
theorem tFile_page : (imageOf tFile).take 4096 = tChunk := by
  have hs : recFld tFile 24 8 = 8192 := by decide +kernel
  rw [imageOf, hs, tFile_sections, List.foldl_cons, List.foldl_cons, List.foldl_nil, tSect_bytes, tText_bytes]
  show List.take 4096 (List.take 8192 (List.take 4096 (List.take 8192 (tChunk ++ _)) ++ tHashes ++ _)) = tChunk
  rw [List.take_take, List.take_take, List.append_assoc]
  rw [List.take_append_of_le_length]
  · rw [List.take_take]
    show List.take 4096 (tChunk ++ _) = tChunk
    rw [List.take_left' chunk_length]
  · rw [List.length_take, List.length_append, chunk_length]
    show 4096 ≤ min 4096 (4096 + _)
    omega
theorem tFile_text : textLeaves tFile = [chunkLeaf tChunk] := by
  rw [textLeaves, tFile_chunks]
  show [chunkLeaf (List.take 4096 (List.drop (4096 * 0) (imageOf tFile)))] = _
  rw [List.drop_zero, tFile_page]

/-- Writing zeros where nothing is listed changes nothing. -/
theorem set_zero : ∀ (m : Memory) (a : Nat), (∀ c ∈ m, c.1 ≠ a) → Memory.set m a 0 = m
  | [], _, _ => rfl
  | (x, y) :: m, a, h => by
    have hx : x ≠ a := h (x, y) List.mem_cons_self
    have ih := set_zero m a fun c hc => h c (List.mem_cons_of_mem _ hc)
    rw [Memory.set, ih]
    by_cases h1 : a < x
    · simp [h1]
    · have h2 : ¬ a = x := fun h => hx h.symm
      simp [h1, h2]
theorem write_zeros (m : Memory) : ∀ (n a : Nat), (∀ c ∈ m, c.1 < a ∨ a + n ≤ c.1) → Memory.write m a (List.replicate n 0) = m
  | 0, _, _ => rfl
  | n + 1, a, h => by
    rw [List.replicate_succ, Memory.write, set_zero m a fun c hc => by have := h c hc; omega]
    exact write_zeros m n (a + 1) fun c hc => by have := h c hc; omega

theorem tFile_good (keys : List (Nat × List Byte)) : treeFail keys false tFile = none := by
  have hc : chashOf tFile = some tSect := by decide +kernel
  have h0 : recFld tHashes 0 8 = 1 := by decide +kernel
  have h8 : recFld tHashes 8 8 = 0 := by decide +kernel
  have h48 : recFld tHashes 48 8 = 0 := by
    have : tHashes.drop 48 = tNone' ++ chunkLeaf tChunk := by
      rw [tHashes, ← List.append_assoc, List.drop_left' (by rw [List.length_append, root_length]; rfl)]
    rw [recFld, this, List.take_append_of_le_length (by rw [none_length]; decide)]
    decide +kernel
  have hr : (tHashes.drop 16).take 32 = treeRoot [chunkLeaf tChunk] := by
    rw [tHashes, List.drop_left' (show tLead.length = 16 from rfl), List.take_left' (root_length _)]
  have hl : (tHashes.drop 2496).take 32 = chunkLeaf tChunk := by
    rw [tHashes, ← List.append_assoc (treeRoot _), ← List.append_assoc tLead,
      List.drop_left' (by rw [List.length_append, List.length_append, root_length, none_length]; rfl), List.take_of_length_le (by rw [leaf_length])]
  have hm : (List.range 1).map (fun i => (tHashes.drop (2496 + 32 * i)).take 32) = [chunkLeaf tChunk] := by
    show [(tHashes.drop 2496).take 32] = _
    rw [hl]
  simp only [treeFail, hc, tSect_bytes, h0, h8, h48, hr, tFile_chunks, tFile_text, List.length_singleton, hm]
  simp

/-- The request for it, at 16 GiB, with frames for its pages and the tables that its address lacks. -/
def tReq : LoadReq :=
  { vd := 0, file := tFile, reqBase := some 0x400000000, freeBase := none, keySlot := 0, frames := [0x300, 0x301], tables := [0x60, 0x70], translator := [] }
/-- The machine whose two frames hold the key. -/
def tFramed : State := { tMem with lineSlot := (List.range 64).map fun i => (0x6000 + i, 0) }

/-- The machine once the page table holds the first page's leaf, and once the page itself stands there. -/
def tPaged : State :=
  ((State.putLeaf 0x400000000 0x300059 [0, 1, 2, 3, 4, 5] ((tFramed.vd 0).ptroot % 2 ^ 52) [0x60, 0x70] tFramed).getD (tFramed, [])).1
def tPlaced : State := (linesOf 0x300000 4096).foldl (fun (r : State) l => (r.takeLine 0 l).clearResv none l) tPaged
/-- The rest of a load, once the pages are mapped. -/
def tRest (u : State) : Option State :=
  ((List.range 64).find? fun i => (Tbl.find (tFramed.vd 0).ranges i).isNone).bind fun ix =>
    (mkRange tFile 0x400000000 u.nextId).map fun range =>
      let o := mkObj (tFramed.vd 0) tFile false 0x400000000 u.nextId
      ({ u with nextId := u.nextId + 1 }.modVd 0 fun v => { v with
        objs := v.objs ++ [(u.nextId, o)], ranges := v.ranges ++ [(ix, range)]
        kernels := v.kernels ++ o.kernels.zipIdx.map fun (x : Kernel × Nat) => (x.1.entry, u.nextId, x.2) }).answer 0 0

theorem mapPages_step {r : LoadReq} {file image : List Byte} {base i : Nat} {rest : List Nat} {f : Nat} {fs tabs tabs' : List Nat} {s s1 : State} {bs : List Byte}
    {va leaf root pa : Nat} (hp : pagePerm file i ≠ 0) (hv : base + 4096 * i = va) (hq : r.keySlot * 2 ^ 52 + f * 4096 + pagePerm file i + 8 + 1 = leaf)
    (ht : (s.vd r.vd).ptroot % 2 ^ 52 = root) (hb : (image.drop (4096 * i)).take 4096 = bs) (hf : f * 4096 = pa)
    (hl : State.putLeaf va leaf [0, 1, 2, 3, 4, 5] root tabs s = some (s1, tabs')) :
    State.mapPages r file image base (i :: rest) (f :: fs) tabs s = State.mapPages r file image base rest fs tabs' (s1.writeHbm none none r.keySlot pa bs) := by
  subst hv hq ht hb hf
  rw [State.mapPages]
  simp only [hp, if_false, hl]
theorem mapPages_last {r : LoadReq} {file image : List Byte} {base i f : Nat} {fs tabs : List Nat} {s : State} (hp : pagePerm file i ≠ 0)
    (hl : (State.putLeaf (base + 4096 * i) (r.keySlot * 2 ^ 52 + f * 4096 + pagePerm file i + 8 + 1) [0, 1, 2, 3, 4, 5] ((s.vd r.vd).ptroot % 2 ^ 52) tabs s).isSome = true) :
    (State.mapPages r file image base [i] (f :: fs) tabs s).isSome = true := by
  obtain ⟨⟨s1, tabs'⟩, h⟩ := Option.isSome_iff_exists.1 hl
  rw [mapPages_step hp rfl rfl rfl rfl rfl h]
  rfl

theorem install_some : (tFramed.install tReq tFile false 0x400000000 []).isSome = true := by
  have hr : List.range (recFld tFile 24 8 / 4096) = [0, 1] := by decide +kernel
  have hp : pagePerm tFile 0 = 80 := by decide +kernel
  have hl : State.putLeaf 0x400000000 0x300059 [0, 1, 2, 3, 4, 5] ((tFramed.vd 0).ptroot % 2 ^ 52) [0x60, 0x70] tFramed = some (tPaged, []) := by
    have h1 : (State.putLeaf 0x400000000 0x300059 [0, 1, 2, 3, 4, 5] ((tFramed.vd 0).ptroot % 2 ^ 52) [0x60, 0x70] tFramed).any (fun x => x.2.isEmpty) = true := by
      decide +kernel
    unfold tPaged
    match State.putLeaf 0x400000000 0x300059 [0, 1, 2, 3, 4, 5] ((tFramed.vd 0).ptroot % 2 ^ 52) [0x60, 0x70] tFramed, h1 with
    | some (u, []), _ => rfl
  have hw : tPaged.writeHbm none none 0 0x300000 tChunk = { tPlaced with
      poison := tPlaced.poison.filter fun l => !(0x300000 ≤ l * 128 && l * 128 + 128 ≤ 0x300000 + 4096)
      latent := tPlaced.latent.filter fun l => !(0x300000 ≤ l * 128 && l * 128 + 128 ≤ 0x300000 + 4096) } := by
    have hz : Memory.write tPlaced.mem 0x300000 tChunk = tPlaced.mem := write_zeros _ _ _ (by decide +kernel)
    simp only [State.writeHbm, chunk_length]
    rw [← tPlaced.eq_1, hz]
  have hm : (State.mapPages tReq tFile (imageOf tFile) 0x400000000 [0, 1] [0x300, 0x301] [0x60, 0x70] tFramed).isSome = true := by
    have hb : ((imageOf tFile).drop (4096 * 0)).take 4096 = tChunk := by rw [Nat.mul_zero, List.drop_zero, tFile_page]
    have hq : tReq.keySlot * 2 ^ 52 + 0x300 * 4096 + pagePerm tFile 0 + 8 + 1 = 0x300059 := by rw [hp]; decide
    have hn : pagePerm tFile 0 ≠ 0 := by rw [hp]; decide
    have h1 : State.mapPages tReq tFile (imageOf tFile) 0x400000000 [0, 1] [0x300, 0x301] [0x60, 0x70] tFramed =
        State.mapPages tReq tFile (imageOf tFile) 0x400000000 [1] [0x301] [] (tPaged.writeHbm none none tReq.keySlot 0x300000 tChunk) :=
      mapPages_step hn (by norm_num) hq rfl hb (by norm_num) hl
    have h2 : tPaged.writeHbm none none tReq.keySlot 0x300000 tChunk = tPaged.writeHbm none none 0 0x300000 tChunk := by rw [tReq]
    rw [h1, h2, hw]
    exact mapPages_last (by decide +kernel) (by decide +kernel)
  have hk : (mkRange tFile 0x400000000 10).isSome = true := by decide +kernel
  obtain ⟨u, hu⟩ := Option.isSome_iff_exists.1 hm
  have hf : ((List.range 64).find? fun i => (Tbl.find (tFramed.vd 0).ranges i).isNone) = some 0 := by decide
  have hi : tFramed.install tReq tFile false 0x400000000 [] =
      (State.mapPages tReq tFile (imageOf tFile) 0x400000000 (List.range (recFld tFile 24 8 / 4096)) [0x300, 0x301] [0x60, 0x70] tFramed).bind tRest := by
    unfold State.install tRest
    simp only [tReq, List.foldl_nil]
  rw [hi, hr, hu, Option.bind_some, tRest, hf, Option.bind_some, Option.isSome_map]
  unfold mkRange at hk ⊢
  rw [Option.isSome_map] at hk ⊢
  exact hk

/-- The device with two objects of one kernel at a symbol `k`; the second names the first where `refs` says so. -/
def tObj (refs : List Nat) : Obj :=
  { base := 0x100000, size := 4096, narrow := false, kernels := [tKernel], syms := [([0x6B], 0x100000)], locals := [], refs := refs, gotSyms := [] }
def tObjs (refs : List Nat) (range : Tbl CodeRange) : State := tDev { tVd with objs := [(5, tObj []), (6, tObj refs)], kernels := [(0x100000, 5, 0)], ranges := range }
/-- The same where the second object has an entry at 0 that names the first one's symbol with an addend. -/
def tGot : GotEnt := { name := [0x6B], obj := 5, own := false, place := 0, add := 12 }
def tNamed : State :=
  { tDev { tVd with objs := [(5, tObj []), (6, { tObj [5] with gotSyms := [tGot] }), (7, { tObj [] with base := 0x104000, syms := [([0x6B], 0x104000)] })] }
    with lineSlot := [(0, 0)] }

theorem witness_Loader :
    (headerBad [] = true ∧ recFld [] 0 4 ≠ 0x46464F42) ∧
    (∃ u, selectImage (tFramed.vd 0) tReq = .ok (tFile, false) ∧ headerBad tFile = false ∧ tFramed.takeBase tReq tFile = .ok 0x400000000 ∧
      applyRelocs (tFramed.vd 0) tFile 0x400000000 = .ok [] ∧ (tFramed.vd 0).ranges.length < 64 ∧ tFramed.install tReq tFile false 0x400000000 [] = some u) ∧
    (let r := { tReq with reqBase := some 0 }
     selectImage (tFramed.vd 0) r = .ok (tFile, false) ∧ headerBad tFile = false ∧ tFramed.takeBase r tFile = .error 2) ∧
    (Tbl.find ((tObjs [5] []).vd 0).objs 5 = some (tObj []) ∧ (∃ e ∈ ((tObjs [5] []).vd 0).objs, e.1 ≠ 5 ∧ 5 ∈ e.2.refs) ∧
      (∀ e ∈ ((tObjs [] []).vd 0).objs, e.1 ≠ 5 → 5 ∉ e.2.refs) ∧ (tObjs [] []).useCount 0 5 = 0 ∧
      0 < (tObjs [] [(0, { base := 0x100000, chunks := 1, leaves := 0, obj := 5, root := [] })]).useCount 0 5) ∧
    (let s := tObjs [] []
     Tbl.find (s.vd 0).objs 5 = some (tObj []) ∧ Tbl.find (s.vd 0).objs 6 = some (tObj []) ∧ (0x100000, 5, 0) ∈ (s.vd 0).kernels ∧ (tObj []).kernels[0]? = some tKernel ∧
     (tObj []).kernelNamed tKernel.name = some 0) ∧
    ∃ n a e, Tbl.find (tNamed.vd 0).objs 5 = some (tObj []) ∧ Tbl.find (tNamed.vd 0).objs 7 = some n ∧ (tNamed.vd 0).objs.flatMap (fun e => e.2.gotSyms) = [tGot] ∧
      tGot.obj = 5 ∧ n.symAt tGot.own tGot.name = some a ∧ tNamed.mapped 0 tGot.place.toNat = some e ∧
      (∀ x ∈ linesOf (ptePfn e * 4096 + tGot.place.toNat % 4096) 32, Tbl.find tNamed.lineSlot x = some (pteKey e)) ∧ Memory.wf tNamed.mem = true := by
  have hh : headerBad tFile = false := by decide +kernel
  have hf : recFld tFile 0 4 ≠ 0x46464F42 := by decide +kernel
  have hp : (tFramed.vd 0).cfg 99 1 % 2 ≠ 1 := by decide +kernel
  have hn : (recFld tFile 6 1 = 1) = False := by decide +kernel
  have hs : ∀ r : LoadReq, r.file = tFile → selectImage (tFramed.vd 0) r = .ok (tFile, false) := by
    intro r h
    simp [selectImage, h, hf, hh, hp, hn, tFile_good]
  have hm : (tNamed.mapped 0 tGot.place.toNat).isSome = true := by decide +kernel
  have hl : ∀ e, tNamed.mapped 0 tGot.place.toNat = some e →
      ∀ x ∈ linesOf (ptePfn e * 4096 + tGot.place.toNat % 4096) 32, Tbl.find tNamed.lineSlot x = some (pteKey e) := by
    have h : (tNamed.mapped 0 tGot.place.toNat).all (fun e => (linesOf (ptePfn e * 4096 + tGot.place.toNat % 4096) 32).all fun x =>
      Tbl.find tNamed.lineSlot x = some (pteKey e)) = true := by decide +kernel
    intro e he x hx
    rw [he, Option.all_some, List.all_eq_true] at h
    simpa using h x hx
  obtain ⟨e, he⟩ := Option.isSome_iff_exists.1 hm
  exact ⟨by decide, ⟨_, hs _ rfl, hh, by decide +kernel, by decide +kernel, by decide, Option.eq_some_of_isSome install_some⟩, ⟨hs _ rfl, hh, by decide +kernel⟩,
    ⟨rfl, by decide, by decide, by decide, by decide⟩, ⟨rfl, rfl, by decide, rfl, by decide⟩, _, 0x104000, e, rfl, rfl, rfl, rfl, by decide, he, hl e he, by decide⟩

end Sys2Proof.Tests
end

section
/-! PROOF. The forms of classes 1 to 3 that write a predicate (R135, R138, R146, R149). The meaning of each is a `laneIssue` whose
only write is a `dstP`, so `completesPred_of` leaves to each form only that its value agrees with the rule's lane by lane. -/

namespace Sys2Proof.Machine

/-! ## An issue that writes one predicate -/

theorem dstP_length (c : Ctx) (d : BitVec 4) (f : Nat → Bool) : (dstP c d f).length ≤ 2 := by simp [dstP]

/-- What a predicate holds is known from its value in the 32 lane slots. -/
theorem GetsPred.congr {c : Ctx} {g' : Group} {d : BitVec 4} {f f' : Nat → Bool} (hf : GetsPred c g' d f)
    (heq : ∀ l < 32, f l = f' l) : GetsPred c g' d f' := by
  intro l hl
  rw [← heq l (lt_of_lt_of_le hl (width_le _))]
  exact hf l hl

/-- An instruction of class 1 to 3 that gives a truth value completes with that value in every live lane. -/
theorem completesPred_of {i : Instr} {f : PredForm} (val : Ctx → W32 → Nat → Bool)
    (hexec : ∀ s, exec i s = laneIssue f.h s (latency i) f.ops fun c li => dstP c f.d (val c li))
    (hd : f.d.toNat < 15) (hval : ∀ c li, ∀ l < 32, val c li l = f.val c li l) : CompletesPred i f := by
  intro s who g p b hr hroom hq
  obtain ⟨t, g', p', he, ho, hl, hg⟩ := laneIssue_of_runs hr hroom (latency i) (fun c li => dstP c f.d (val c li))
    (dstP_length _ _ _) hq
  refine ⟨t, g', p', (hexec s).trans he, ho, hl, ?_⟩
  rw [hg]
  exact (gets_dstP (latency i) hd hq _).congr (hval _ _)

/-! ## The instructions that write a predicate

`wellFormed` and `exec` range over every instruction; the equations here are their arms for the five of this part. -/

section
variable {h : Hints} {d a b x : BitVec 4} {o q : Opnd}

theorem dst_lt_of_wellFormed_icmp {ty : IntTy} {cc : ICc} {imm : BitVec 12} (hw : wellFormed (.icmp h ty cc d o q imm) = true) :
    d.toNat < 15 := by
  change (h.ok false && decide (d.toNat < 15) && o.isSrc false ty.is64 && q.isSrc false ty.is64) = true at hw
  simp only [Bool.and_eq_true, decide_eq_true_eq] at hw
  obtain ⟨⟨⟨_, hd⟩, _⟩, _⟩ := hw
  exact hd

theorem dst_lt_of_wellFormed_fcmp {ty : FTy} {cc : FCc} (hw : wellFormed (.fcmp h ty cc d o q) = true) : d.toNat < 15 := by
  change (h.ok false && decide (d.toNat < 15) && o.isSrc false ty.is64 && q.isSrc false ty.is64) = true at hw
  simp only [Bool.and_eq_true, decide_eq_true_eq] at hw
  obtain ⟨⟨⟨_, hd⟩, _⟩, _⟩ := hw
  exact hd

/-- VOTE.ballot has no predicate for its destination, and the other modes may not name p15. -/
theorem dst_lt_of_wellFormed_vote {m : VoteMode} (hw : wellFormed (.vote h m (.p d) a) = true) : d.toNat < 15 := by
  cases m with
  | ballot =>
    change (h.ok false && false) = true at hw
    simp at hw
  | _ =>
    change (h.ok false && decide (d.toNat < 15)) = true at hw
    exact of_decide_eq_true (Bool.and_eq_true_iff.1 hw).2

theorem dst_lt_of_wellFormed_pset {nz : Bool} (hw : wellFormed (.pset h nz d o) = true) : d.toNat < 15 := by
  change (h.ok false && decide (d.toNat < 15) && (if nz then o.isSrc false false else o.isSKImm)) = true at hw
  simp only [Bool.and_eq_true, decide_eq_true_eq] at hw
  obtain ⟨⟨_, hd⟩, _⟩ := hw
  exact hd

theorem dst_lt_of_wellFormed_plop {op : PlopOp} {na nb nc : Bool} (hw : wellFormed (.plop h op na nb nc d a b x) = true) :
    d.toNat < 15 := by
  change (h.ok false && decide (d.toNat < 15)) = true at hw
  exact of_decide_eq_true (Bool.and_eq_true_iff.1 hw).2

theorem exec_icmp {ty : IntTy} {cc : ICc} {imm : BitVec 12} (s : State) :
    exec (.icmp h ty cc d o q imm) s = execIcmp h ty cc d o q imm s := rfl

theorem exec_fcmp {ty : FTy} {cc : FCc} (s : State) : exec (.fcmp h ty cc d o q) s = execFcmp h ty cc d o q s := rfl

theorem exec_vote {m : VoteMode} (s : State) : exec (.vote h m o a) s = execVote h m o a s := rfl

theorem exec_pset {nz : Bool} (s : State) : exec (.pset h nz d o) s = execPset h nz d o s := rfl

theorem exec_plop {op : PlopOp} {na nb nc : Bool} (s : State) :
    exec (.plop h op na nb nc d a b x) s = execPlop h op na nb nc d a b x s := rfl

theorem latency_icmp {ty : IntTy} {cc : ICc} {imm : BitVec 12} :
    latency (.icmp h ty cc d o q imm) = if ty.is64 then 8 else 4 := rfl

theorem latency_fcmp {ty : FTy} {cc : FCc} : latency (.fcmp h ty cc d o q) = if ty.is64 then 8 else 4 := rfl

theorem latency_vote {m : VoteMode} : latency (.vote h m o a) = 8 := rfl

/-! ## What each gives -/

theorem FTy.is64_iff (ty : FTy) : ty.is64 = true ↔ ty = .f64 := by cases ty <;> decide

/-- Every lane of `m` is one of `p` exactly when none is missing: VOTE.all by the model, and by R146. -/
theorem and_eq_right_iff_missing_none (p m : LaneMask) : p &&& m = m ↔ m &&& ~~~p = 0 := by
  simp only [BitVec.eq_of_getElem_eq_iff, BitVec.getElem_and, BitVec.getElem_not, BitVec.ofNat_eq_ofNat, BitVec.getElem_zero]
  refine forall₂_congr fun l _ => ?_
  cases p[l] <;> cases m[l] <;> decide

/-- ICMP compares A with B, to which the immediate is added, in words or in pairs (R131, R135). -/
theorem completesPred_icmp {ty : IntTy} {cc : ICc} {imm : BitVec 12} {f : PredForm}
    (hf : predForm (.icmp h ty cc d o q imm) = some f) (hw : wellFormed (.icmp h ty cc d o q imm) = true) :
    CompletesPred (.icmp h ty cc d o q imm) f := by
  have hd := dst_lt_of_wellFormed_icmp hw
  obtain rfl := Option.some.inj hf
  by_cases h64 : ty.is64 = true
  · rw [if_pos h64]
    refine completesPred_of (fun c li l =>
      icompare ty.isSigned cc (lane64 (c.src64 li 1 o) l) (lane64 (c.src64 li 2 q) l + simm64 imm)) ?_ hd ?_
    · intro s; rw [exec_icmp, latency_icmp, execIcmp, if_pos h64, if_pos h64]
    · intro c li l _; rfl
  · rw [if_neg h64]
    refine completesPred_of (fun c li l =>
      icompare ty.isSigned cc ((c.src li 1 o).lane l) ((addImm (c.src li 2 q) (simm imm)).lane l)) ?_ hd ?_
    · intro s; rw [exec_icmp, latency_icmp, execIcmp, if_neg h64, if_neg h64]
    · intro c li l hl; rw [lane_addImm _ _ hl]; rfl

/-- FCMP compares the numbers that its operands stand for in its type (R138). -/
theorem completesPred_fcmp {ty : FTy} {cc : FCc} {f : PredForm}
    (hf : predForm (.fcmp h ty cc d o q) = some f) (hw : wellFormed (.fcmp h ty cc d o q) = true) :
    CompletesPred (.fcmp h ty cc d o q) f := by
  have hd := dst_lt_of_wellFormed_fcmp hw
  obtain rfl := Option.some.inj hf
  by_cases h64 : ty.is64 = true
  · rw [if_pos h64]
    refine completesPred_of _ ?_ hd fun _ _ _ _ => rfl
    intro s
    rw [exec_fcmp, latency_fcmp, execFcmp, if_pos h64, if_pos ((FTy.is64_iff ty).1 h64)]
    rfl
  · rw [if_neg h64]
    refine completesPred_of _ ?_ hd fun _ _ _ _ => rfl
    intro s
    rw [exec_fcmp, latency_fcmp, execFcmp, if_neg h64, if_neg (mt (FTy.is64_iff ty).2 h64)]
    rfl

/-- VOTE into a predicate gives every live lane the one answer of its mode (R146). -/
theorem completesPred_vote {m : VoteMode} {f : PredForm} (hf : predForm (.vote h m (.p d) a) = some f)
    (hw : wellFormed (.vote h m (.p d) a) = true) : CompletesPred (.vote h m (.p d) a) f := by
  have hd := dst_lt_of_wellFormed_vote hw
  obtain rfl := Option.some.inj hf
  refine completesPred_of (fun c _ _ => match m with
    | .all => c.pred 1 a.toNat &&& c.live = c.live
    | .any => c.pred 1 a.toNat &&& c.live ≠ 0
    | .uni => c.pred 1 a.toNat &&& c.live = c.live || c.pred 1 a.toNat &&& c.live = 0
    | .ballot => c.pred 1 a.toNat &&& c.live ≠ 0) ?_ hd ?_
  · intro s; rw [exec_vote, latency_vote]; cases m <;> rfl
  · intro c li l _
    cases m with
    | all => simp only [and_eq_right_iff_missing_none]
    | any => rfl
    | uni => simp only [and_eq_right_iff_missing_none]
    | ballot => rfl

/-- PSET takes each lane's own test, or the bits of one word (R149). -/
theorem completesPred_pset {nz : Bool} {f : PredForm} (hf : predForm (.pset h nz d o) = some f)
    (hw : wellFormed (.pset h nz d o) = true) : CompletesPred (.pset h nz d o) f := by
  have hd := dst_lt_of_wellFormed_pset hw
  obtain rfl := Option.some.inj hf
  refine completesPred_of _ ?_ hd fun _ _ _ _ => rfl
  intro s
  rw [exec_pset]
  rfl

/-- PLOP combines three predicates, each negated or not (R149). -/
theorem completesPred_plop {op : PlopOp} {na nb nc : Bool} {f : PredForm}
    (hf : predForm (.plop h op na nb nc d a b x) = some f) (hw : wellFormed (.plop h op na nb nc d a b x) = true) :
    CompletesPred (.plop h op na nb nc d a b x) f := by
  have hd := dst_lt_of_wellFormed_plop hw
  obtain rfl := Option.some.inj hf
  refine completesPred_of _ ?_ hd fun _ _ _ _ => rfl
  intro s
  rw [exec_plop]
  rfl

end

/-- The instructions that write a predicate. -/
theorem predForm_some {i : Instr} {f : PredForm} (hf : predForm i = some f) :
    (∃ h ty cc d a b imm, i = .icmp h ty cc d a b imm) ∨ (∃ h ty cc d a b, i = .fcmp h ty cc d a b) ∨
      (∃ h m d a, i = .vote h m (.p d) a) ∨ (∃ h nz d a, i = .pset h nz d a) ∨
      ∃ h op na nb nc d a b x, i = .plop h op na nb nc d a b x := by
  unfold predForm at hf
  split at hf
  · simp
  · simp
  · split at hf
    · simp
    · cases hf
  · simp
  · simp
  · cases hf

/-- Settles O9, by the five instructions that write a predicate. -/
theorem predicateResults : Obligations.PredicateResults := by
  intro i f hf hw
  obtain ⟨h, ty, cc, d, a, b, imm, rfl⟩ | ⟨h, ty, cc, d, a, b, rfl⟩ | ⟨h, m, d, a, rfl⟩ | ⟨h, nz, d, a, rfl⟩ |
    ⟨h, op, na, nb, nc, d, a, b, x, rfl⟩ := predForm_some hf
  · exact completesPred_icmp hf hw
  · exact completesPred_fcmp hf hw
  · exact completesPred_vote hf hw
  · exact completesPred_pset hf hw
  · exact completesPred_plop hf hw

end Sys2Proof.Machine
end

section
/-! PROOF. BSET (R195). Each of its forms writes one register at the issue (`issue_writeNow`) and goes on; a base other than b14 and an
s register leave the paths alone, and b14 is written in the one path that the issuing mask names, since no lane stands in two paths. -/

namespace Sys2Proof.Machine

/-! ## Paths that share no lane -/

/-- Where no lane stands in two paths, the path that holds a lane is the one found for it. -/
theorem pathAt_of_mem {ps : List Path} (ha : ps.Pairwise fun q r => q.mask &&& r.mask = 0) {r : Path} (hr : r ∈ ps) {l : Nat}
    (hl : has r.mask l = true) : pathAt ps l = some r := by
  induction ps with
  | nil => cases hr
  | cons x xs ih =>
    obtain ⟨hx, hxs⟩ := List.pairwise_cons.mp ha
    rcases List.mem_cons.mp hr with rfl | hr'
    · exact List.find?_cons_of_pos hl
    · have hand : has (x.mask &&& r.mask) l = false := by rw [hx r hr']; simp [has]
      have hxl : ¬ has x.mask l = true := by
        simpa [has, show r.mask.getLsbD l = true from hl] using hand
      exact (List.find?_cons_of_neg (p := fun p : Path => has p.mask l) hxl).trans (ih hxs hr')

/-- A change of the paths that keeps their masks keeps which of them holds a lane. -/
theorem pathAt_map {f : Path → Path} (hf : ∀ r, (f r).mask = r.mask) (ps : List Path) (l : Nat) :
    pathAt (ps.map f) l = (pathAt ps l).map f := by
  simp only [pathAt, List.find?_map, Function.comp_def, hf]

theorem map_replacePath {f : Path → Path} (hf : ∀ r, (f r).mask = r.mask) (ps : List Path) (l : Nat) (q : Path) :
    (replacePath ps l [q]).map f = replacePath (ps.map f) l [f q] := by
  simp only [replacePath, List.map_flatMap, List.flatMap_map, hf]
  refine List.flatMap_congr fun r _ => ?_
  split <;> rfl

/-- Replacing the paths that hold one lane moves no lane that stands in none of them. -/
theorem pathAt_replacePath_of_not {ps : List Path} {lane l : Nat} {q : Path} (hq : has q.mask l = false)
    (h : ∀ r ∈ ps, has r.mask lane = true → has r.mask l = false) : pathAt (replacePath ps lane [q]) l = pathAt ps l := by
  induction ps with
  | nil => rfl
  | cons x xs ih =>
    have ih' : List.find? (fun p => has p.mask l) (xs.flatMap fun p => if has p.mask lane = true then [q] else [p]) =
        List.find? (fun p => has p.mask l) xs := ih fun r hr => h r (List.mem_cons_of_mem _ hr)
    by_cases hx : has x.mask lane = true
    · simp [pathAt, replacePath, hx, hq, h x List.mem_cons_self hx, ih']
    · simp [pathAt, replacePath, hx, List.find?_cons, ih']

/-- A lane of a path that is replaced finds the new path, if it stands in that too. -/
theorem pathAt_replacePath_of_pathAt {ps : List Path} {lane l : Nat} {p q : Path} (hp : pathAt ps lane = some p)
    (hl : pathAt ps l = some p) (hq : has q.mask l = true) : pathAt (replacePath ps lane [q]) l = some q := by
  induction ps with
  | nil => cases hp
  | cons x xs ih =>
    by_cases hx : has x.mask lane = true
    · simp [pathAt, replacePath, hx, hq]
    · have hxl : ¬ has x.mask l = true := by
        intro h
        have hxp : x = p := by simpa [pathAt, h] using hl
        exact hx (hxp ▸ has_of_pathAt hp)
      have ih' := ih (by simpa [pathAt, hx] using hp) (by simpa [pathAt, hxl] using hl)
      simpa [pathAt, replacePath, hx, hxl] using ih'

/-! ## An issue that writes one register and goes on -/

/-- The group behind `finishNow`: the named flag clears in the following cycle, and the issuing path, which has become `q`, stands at
the sequential successor and is the current path (R41, R91). -/
def Group.wentOn (g : Group) (c : Ctx) (h : Hints) (q : Path) : Group :=
  { g.flagFor (setFlag h) (c.now + 1) with
    paths := replacePath g.paths c.lane [{ q with pc := nextPc c.p.pc }]
    cur := c.lane }

theorem Group.write_entries (g : Group) (gid : Nat) (w : RegWrite) : (g.write gid w).entries = g.entries := by
  cases w with
  | b n x m => simp only [Group.write, Group.writeB]; split <;> simp
  | j n m hd => simp only [Group.write, Group.setRejoin]; split <;> simp
  | _ => simp [Group.write, Group.writeV]

theorem Group.write_s (g : Group) (gid n : Nat) (x : W32) :
    g.write gid (.s n x) = { g with s := Tbl.put g.s n x, noted := (g.write gid (.s n x)).noted } :=
  Group.note_eq { g with s := Tbl.put g.s n x } (.s n)

theorem Group.write_b_of_ne (g : Group) (gid : Nat) {n : Nat} (hn : n ≠ 14) (x : Va) (m : LaneMask) :
    g.write gid (.b n x m) = { g with b := Tbl.put g.b n x, noted := (g.write gid (.b n x m)).noted } := by
  have hw : g.write gid (.b n x m) = Group.note { g with b := Tbl.put g.b n x } (.b n) := if_neg hn
  rw [hw]
  exact Group.note_eq { g with b := Tbl.put g.b n x } (.b n)

theorem writeNow_of_quiet {g : Group} {w : RegWrite} (hq : Quiet g [w.reg]) (gid seed : Nat) :
    g.writeNow gid seed w = g.write gid w := by
  have hr : g.vfor w.reg = [] := hq _ List.mem_cons_self
  simp [Group.writeNow, hr]

/-- A named flag counts one more outstanding operation, every other flag what it did. -/
theorem getD_flags_flagFor (g : Group) (k : Option Nat) (n f : Nat) :
    Tbl.getD (g.flagFor k n).flags f 0 = Tbl.getD g.flags f 0 + if k = some f then 1 else 0 := by
  cases k with
  | none => simp [Group.flagFor]
  | some k =>
    simp only [Group.flagFor, Group.flagUp, Tbl.getD, Sys2Proof.Tbl.find_put, Option.some.injEq]
    by_cases hk : f = k
    · subst hk; simp
    · simp [hk, Ne.symm hk]

section
variable {s : State} {who : Issuer} {g : Group} {p : Path} {b : Block} {h : Hints} {ops : List (Nat × Opnd × Nat)}

theorem has_issued_mask (hi : Issuing s who g p b) (g0 : Group) : has (p.issued g0 h s.cycle).mask who.lane = true :=
  has_issued (p := p) hi

theorem finishNow_eq {t : State} {g1 : Group} {q : Path} (hi : Issuing s who g p b) (hf : Tbl.find t.groups who.gid = some g1)
    (hq : pathAt g1.paths who.lane = some q) :
    t.finishNow (s.issueCtx who g p b h) h =
      { t with groups := Tbl.put t.groups who.gid (g1.wentOn (s.issueCtx who g p b h) h q) } := by
  have hlow : lowLane (s.issueCtx who g p b h).p.mask = (s.issueCtx who g p b h).lane := hi.low.symm
  unfold State.finishNow State.idle
  rw [advance_eq (g' := g1.flagFor (setFlag h) (s.cycle + 1)) (q := q)]
  · rw [hlow]
    simp [State.modGroup, Tbl.upd_of_find _ _ hf, Group.wentOn]
  · simp [State.modGroup, Tbl.upd_of_find _ _ hf]
  · exact (mask_ne_zero hi : p.mask ≠ 0)
  · rw [hlow, flagFor_paths]
    exact hq

theorem modGroup_issued (f : Group → Group) :
    (s.issued who g p h).modGroup who.gid f =
      { s with free := s.free + 1, groups := Tbl.put s.groups who.gid (f (g.issued who.lane p h s.cycle)) } := by
  unfold State.modGroup
  rw [Tbl.upd_of_find _ _ find_issued, issued_groups, Sys2Proof.Tbl.put_put]
  rfl

/-- An issue whose effect is one register write, on which no V result waits (R47), writes it and goes on; nothing but its own group
changes. -/
theorem issue_writeNow (hr : Runs s who g p b h ops) {w : RegWrite} (hq : Quiet g [w.reg]) {k : Ctx → State → State}
    (hk : k (s.issueCtx who g p b h) (s.issued who g p h) = ((s.issued who g p h).modGroup who.gid fun g =>
      g.writeNow who.gid s.free w).finishNow (s.issueCtx who g p b h) h)
    {q : Path} (hp : pathAt ((g.issued who.lane p h s.cycle).write who.gid w).paths who.lane = some q) :
    ∃ t, issue h s ops k = .next t ∧ OwnGroup s t who
      (((g.issued who.lane p h s.cycle).write who.gid w).wentOn (s.issueCtx who g p b h) h q) := by
  have hw : (g.issued who.lane p h s.cycle).writeNow who.gid s.free w = (g.issued who.lane p h s.cycle).write who.gid w :=
    writeNow_of_quiet (g := g.issued who.lane p h s.cycle) hq _ _
  rw [modGroup_issued, hw, finishNow_eq hr.toIssuing (Sys2Proof.Tbl.find_put_self _ _ _) hp, Sys2Proof.Tbl.put_put] at hk
  refine ⟨_, ?_, rfl⟩
  unfold issue issueWait
  rw [issueAt_of_runs hr, hk]
  dsimp only
  rw [joinEntries_of_same (Sys2Proof.Tbl.find_put_self _ _ _)]
  unfold Group.wentOn
  rw [flagFor_same]
  exact (congrArg List.length (Group.write_entries _ _ _)).le

/-- A group that goes on keeps everything but the bookkeeping of the issue, if its own effect has left `g0` so. -/
theorem keeps_wentOn {g0 g1 : Group} (hg : g1 = { g0.issued who.lane p h s.cycle with paths := g1.paths, noted := g1.noted })
    (q : Path) : Keeps h g0 (g1.wentOn (s.issueCtx who g p b h) h q) := by
  rw [hg]
  constructor
  · unfold Group.wentOn; rw [flagFor_same]; rfl
  · exact getD_flags_flagFor _ _ _

/-- An issue whose register write leaves the paths alone goes on with the register written. -/
theorem goes_of_write (hr : Runs s who g p b h ops) {w : RegWrite} (hq : Quiet g [w.reg]) {k : Ctx → State → State}
    (hk : k (s.issueCtx who g p b h) (s.issued who g p h) = ((s.issued who g p h).modGroup who.gid fun g =>
      g.writeNow who.gid s.free w).finishNow (s.issueCtx who g p b h) h)
    {g0 : Group} (hpaths : g0.paths = g.paths) (hw : (g.issued who.lane p h s.cycle).write who.gid w =
      { g0.issued who.lane p h s.cycle with noted := ((g.issued who.lane p h s.cycle).write who.gid w).noted }) :
    ∃ t, issue h s ops k = .next t ∧ Goes s s t who g0 p h := by
  have hp : pathAt ((g.issued who.lane p h s.cycle).write who.gid w).paths who.lane = some (p.issued g0 h s.cycle) := by
    rw [hw]
    exact pathAt_replace (hpaths ▸ hr.path) (has_issued_mask hr.toIssuing _)
  obtain ⟨t, he, ho⟩ := issue_writeNow hr hq hk hp
  refine ⟨t, he, _, { p.issued g0 h s.cycle with pc := nextPc p.pc }, keeps_wentOn ?_ _, ?_, rfl, ho⟩
  · rw [hw]
  · rw [hw]
    exact replacePath_replacePath _ _ _ _ (has_issued_mask hr.toIssuing _)

/-! ## A write to b14 -/

/-- A path after a write of `x` to b14 in the paths whose lowest lane is in `m` (R92). -/
def Path.withB14 (m : LaneMask) (x : Va) (r : Path) : Path := if has m (lowLane r.mask) then { r with b14 := x } else r

@[simp] theorem Path.withB14_mask (m : LaneMask) (x : Va) (r : Path) : (r.withB14 m x).mask = r.mask := by
  unfold Path.withB14; split <;> rfl

theorem Group.write_b14 (g : Group) (gid : Nat) (x : Va) (m : LaneMask) :
    g.write gid (.b 14 x m) = { g with paths := g.paths.map (Path.withB14 m x) } := rfl

/-- The issuing path is one of those that its own mask names. -/
theorem withB14_issued (hi : Issuing s who g p b) (x : Va) :
    (p.issued g h s.cycle).withB14 p.mask x = { p.issued g h s.cycle with b14 := x } :=
  if_pos (has_lowLane (mask_ne_zero hi))

/-- A path that has a lane outside the issuing path keeps its b14: the two share no lane. -/
theorem withB14_of_apart (hi : Issuing s who g p b) (ha : Apart g) (x : Va) {r : Path} {l : Nat} (hr : pathAt g.paths l = some r)
    (hl : has p.mask l = false) : r.withB14 p.mask x = r := by
  refine if_neg fun hlow => ?_
  have hrl : has r.mask l = true := has_of_pathAt hr
  have hr0 : r.mask ≠ 0 := fun h0 => by simp [has, h0] at hrl
  have hpr : some p = some r := (pathAt_of_mem ha (List.mem_of_find?_eq_some hi.path) hlow).symm.trans
    (pathAt_of_mem ha (List.mem_of_find?_eq_some hr) (has_lowLane hr0))
  obtain rfl := Option.some.inj hpr
  rw [hrl] at hl
  cases hl

/-- The paths behind a write to b14: the issuing one alone has the new value. -/
theorem paths_write_b14 (hi : Issuing s who g p b) (x : Va) :
    ((g.issued who.lane p h s.cycle).write who.gid (.b 14 x p.mask)).paths =
      replacePath (g.paths.map (Path.withB14 p.mask x)) who.lane [{ p.issued g h s.cycle with b14 := x }] := by
  rw [Group.write_b14, ← withB14_issued hi]
  exact map_replacePath (Path.withB14_mask _ _) _ _ _

/-- A write to b14 gives the lanes of the issuing path the new value, and moves no other lane. -/
theorem splitTo_write_b14 (hi : Issuing s who g p b) (ha : Apart g) (x : Va) :
    SplitTo p g (((g.issued who.lane p h s.cycle).write who.gid (.b 14 x p.mask)).wentOn (s.issueCtx who g p b h) h
      { p.issued g h s.cycle with b14 := x }) fun _ => ⟨nextPc p.pc, p.mask, p.st, x⟩ := by
  have hpaths : (((g.issued who.lane p h s.cycle).write who.gid (.b 14 x p.mask)).wentOn (s.issueCtx who g p b h) h
      { p.issued g h s.cycle with b14 := x }).paths = replacePath (g.paths.map (Path.withB14 p.mask x)) who.lane
        [{ p.issued g h s.cycle with b14 := x, pc := nextPc p.pc }] := by
    unfold Group.wentOn
    dsimp only
    rw [paths_write_b14 hi]
    exact replacePath_replacePath _ _ _ _ (has_issued_mask (h := h) hi g)
  have hmap := pathAt_map (Path.withB14_mask p.mask x) g.paths
  constructor
  · intro l hl
    refine ⟨{ p.issued g h s.cycle with b14 := x, pc := nextPc p.pc }, ?_, rfl, rfl⟩
    have hpl := pathAt_of_mem ha (List.mem_of_find?_eq_some hi.path) hl
    rw [hpaths]
    refine pathAt_replacePath_of_pathAt (p := p.withB14 p.mask x) ?_ ?_ hl
    · rw [hmap, hi.path]; rfl
    · rw [hmap, hpl]; rfl
  · intro l hl
    rw [hpaths]
    refine (pathAt_replacePath_of_not ?_ ?_).trans ?_
    · exact hl
    · intro r' hr' hlane
      obtain ⟨r, hr, rfl⟩ := List.mem_map.mp hr'
      rw [Path.withB14_mask] at hlane ⊢
      have hpr : some p = some r := hi.path.symm.trans (pathAt_of_mem ha hr hlane)
      obtain rfl := Option.some.inj hpr
      exact hl
    · rw [hmap]
      cases hr : pathAt g.paths l with
      | none => rfl
      | some r => exact congrArg some (withB14_of_apart hi ha x hr hl)

/-! ## The four forms -/

/-- An instruction that gives base `d` the value `x`: in the group, or for b14 in the issuing path alone (R92, R195). -/
def SetsBase (s : State) (who : Issuer) (g : Group) (p : Path) (h : Hints) (i : Instr) (d : BitVec 4) (x : Va) : Prop :=
  (d ≠ 14 → Quiet g [.b d.toNat] → ∃ t, exec i s = .next t ∧ Goes s s t who { g with b := Tbl.put g.b d.toNat x } p h) ∧
  (d = 14 → Quiet g [.b14 p.mask] → ∃ t g', exec i s = .next t ∧ OwnGroup s t who g' ∧ Keeps h g g' ∧
    SplitTo p g g' fun _ => ⟨nextPc p.pc, p.mask, p.st, x⟩)

theorem exec_bset (d a : BitVec 4) (u : Opnd) (imm : BitVec 20) :
    exec (.bset h d a u imm) s = issue h s [(2, u, 1)] fun c t => t.writeBase c h d
      (c.base 1 a.toNat + (c.scalar (t.launchIx c.b) 2 u).signExtend 80 + imm.signExtend 80) := rfl

theorem exec_bsetAdd64 (d a : BitVec 4) (r : BitVec 6) (imm : BitVec 20) :
    exec (.bsetAdd64 h d a r imm) s = issue h s [(2, .s r, 2)] fun c t => t.writeBase c h d
      (c.base 1 a.toNat + (lane64 (c.src64 0 2 (.s r)) 0).signExtend 80 + imm.signExtend 80) := rfl

theorem exec_bsetIns (d a : BitVec 4) (u : Opnd) (j : BitVec 2) :
    exec (.bsetIns h d a u j) s = issue h s [(2, u, 1)] fun c t => t.writeBase c h d
      (insBase (c.base 1 a.toNat) (c.scalar (t.launchIx c.b) 2 u) j.toNat) := rfl

theorem exec_bsetRd (d : BitVec 6) (a : BitVec 4) (j : BitVec 2) :
    exec (.bsetRd h d a j) s = issue h s [(0, .s d, 1)] fun c t => (t.modGroup c.gid fun g => g.writeNow c.gid c.seed
      (.s d.toNat (((c.base 1 a.toNat) >>> (32 * j.toNat)).setWidth 32))).finishNow c h := rfl

/-- A form of BSET that writes a base sets it to the value that it computes in the context of its issue. -/
theorem setsBase_of_writeBase (hr : Runs s who g p b h ops) (ha : Apart g) {i : Instr} {d : BitVec 4} {val : Ctx → State → Va}
    (hexec : exec i s = issue h s ops fun c t => t.writeBase c h d (val c t)) :
    SetsBase s who g p h i d (val (s.issueCtx who g p b h) (s.issued who g p h)) := by
  generalize hx : val (s.issueCtx who g p b h) (s.issued who g p h) = x
  have hk : (s.issued who g p h).writeBase (s.issueCtx who g p b h) h d (val (s.issueCtx who g p b h) (s.issued who g p h)) =
      ((s.issued who g p h).modGroup who.gid fun g => g.writeNow who.gid s.free (.b d.toNat x p.mask)).finishNow
        (s.issueCtx who g p b h) h := by
    rw [hx]; rfl
  constructor
  · intro hd hq
    have hn : d.toNat ≠ 14 := fun h14 => hd (BitVec.eq_of_toNat_eq h14)
    rw [hexec]
    refine goes_of_write hr (w := .b d.toNat x p.mask) ?_ hk rfl ?_
    · rw [RegWrite.reg, RegId.base, if_neg hn]; exact hq
    · exact Group.write_b_of_ne _ _ hn _ _
  · rintro rfl hq
    have hp : pathAt ((g.issued who.lane p h s.cycle).write who.gid (.b 14 x p.mask)).paths who.lane =
        some { p.issued g h s.cycle with b14 := x } := by
      rw [Group.write_b14, ← withB14_issued hr.toIssuing]
      exact (pathAt_map (Path.withB14_mask _ _) _ _).trans
        (congrArg (Option.map _) (pathAt_replace hr.path (has_issued_mask hr.toIssuing g)))
    obtain ⟨t, he, ho⟩ := issue_writeNow hr (w := .b 14 x p.mask) hq (k := fun c t => t.writeBase c h 14 (val c t)) hk hp
    exact ⟨t, _, hexec.trans he, ho, keeps_wentOn rfl _, splitTo_write_b14 hr.toIssuing ha x⟩

/-- BSET.rd gives an s register a word of a base (R195). -/
theorem bsetRd_goes (hr : Runs s who g p b h [(0, .s d, 1)]) (hq : Quiet g [.s d.toNat]) (a : BitVec 4) (j : BitVec 2) :
    ∃ t, exec (.bsetRd h d a j) s = .next t ∧ Goes s s t who
      { g with s := Tbl.put g.s d.toNat ((((s.issueCtx who g p b h).base 1 a.toNat) >>> (32 * j.toNat)).setWidth 32) } p h := by
  rw [exec_bsetRd]
  exact goes_of_write hr (w := .s d.toNat _) hq rfl rfl (Group.write_s _ _ _ _)

end

/-- Settles O31: the forms that write a base by `setsBase_of_writeBase`, the form that reads one by `bsetRd_goes`. -/
theorem bases : Obligations.Bases := by
  intro s who g p k h ha
  refine ⟨fun d a u imm hr => ?_, fun d a r imm hr => ?_, fun d a u j hr => ?_, fun d a j hr hq => bsetRd_goes hr hq a j⟩
  · exact setsBase_of_writeBase hr ha (exec_bset d a u imm)
  · exact setsBase_of_writeBase hr ha (exec_bsetAdd64 d a r imm)
  · exact setsBase_of_writeBase hr ha (exec_bsetIns d a u j)

end Sys2Proof.Machine
end
